-- ==== Sys2Proof/Word.lean ====
section
/-! DEFINITION. Words and bytes of the NRI-144, and the small bit operations every layer uses. -/

namespace Sys2Proof

/-- A byte of any memory space (R8). -/
abbrev Byte := BitVec 8

/-- A 64-bit word: an x register, a loop register, a syllable, a literal word (R35, R152). -/
abbrev Word := BitVec 64

/-- A vector register, 2048 bits (R152). -/
abbrev VWord := BitVec 2048

/-- A mask register, 256 bits (R152). -/
abbrev KWord := BitVec 256

/-- Bits `[lo + len - 1 : lo]` of a word, as a bit vector of `len` bits (R8). -/
abbrev fld {w : Nat} (v : BitVec w) (lo len : Nat) : BitVec len := v.extractLsb' lo len

/-- Bits `[lo + len - 1 : lo]` of a natural number, as a natural number. -/
abbrev nbits (n lo len : Nat) : Nat := n / 2 ^ lo % 2 ^ len

end Sys2Proof
end

