-- ==== Sys2Proof/Syntax.lean ====
section
/-! DEFINITION. The instruction forms of the eight slots and the device's own steps and events: one
constructor for each row of the opcode table. -/

namespace Sys2Proof

/-- Integer types of R55. -/
inductive ITy | i8 | i16 | i32 | i64 | n8 | n16 | n32 | n64
  deriving DecidableEq, Repr

/-- IEEE types of R55 and R207. -/
inductive FTy | f32 | f16 | bf16
  deriving DecidableEq, Repr

/-- A binary8 format (R55, R208): unsigned or signed, extended or finite, precision `k + 1`. -/
structure B8 where
  uns : Bool
  ext : Bool
  k : Fin 7
  deriving DecidableEq, Repr

/-- Every element type that a type code of R55 names. -/
inductive Ty
  | int (t : ITy)
  | flt (t : FTy)
  | b8 (t : B8)
  deriving DecidableEq, Repr

/-- A source field naming the x file (R54): a register, a ring base (R47) or a bypass latch. -/
inductive XSrc
  | reg (n : Fin 64)
  | rot (n : Fin 64)
  | byp (slot : Fin 8) (depth : Fin 3)
  deriving DecidableEq, Repr

/-- A source field naming the v file (R54). -/
inductive VSrc
  | reg (n : Fin 384)
  | rot (n : Fin 384)
  | byp (slot : Fin 8) (depth : Fin 3)
  deriving DecidableEq, Repr

/-- A source field naming the k file (R54); no ring holds a k register (R45, R47). -/
inductive KSrc
  | reg (n : Fin 16)
  | byp (slot : Fin 8) (depth : Fin 3)
  deriving DecidableEq, Repr

/-- A destination field naming the x file (R54): written, rotating, or transient (NWB). -/
inductive XDst
  | reg (n : Fin 64)
  | rot (n : Fin 64)
  | nwb (n : Fin 64)
  deriving DecidableEq, Repr

/-- A destination field naming the v file (R54). -/
inductive VDst
  | reg (n : Fin 384)
  | rot (n : Fin 384)
  | nwb (n : Fin 384)
  deriving DecidableEq, Repr

/-- A destination field naming the k file (R54). -/
inductive KDst
  | reg (n : Fin 16)
  | nwb (n : Fin 16)
  deriving DecidableEq, Repr

/-- The immediate of an RI form (R51): SEL 0b00, 0b01 or 0b10. -/
inductive RImm
  | imm (v : BitVec 32)
  | high (v : BitVec 32)
  | lit (w : Word)
  deriving DecidableEq, Repr

/-- The DLE field of a waiting syllable (R113): a budget code 0 to 40, or the group's gdl. -/
inductive Dle
  | code (n : Fin 41)
  | gdl
  deriving DecidableEq, Repr

/-- The wait fields DLE and STX (R56). -/
structure WaitF where
  dle : Dle
  stx : Fin 64
  deriving DecidableEq, Repr

/-- The address part of a MEM form (R52): base, unscaled signed offset, stream id. -/
structure MemF where
  base : XSrc
  off : BitVec 14
  sid : Fin 16
  deriving DecidableEq, Repr

/-- The ordering modifiers of a MEM form (R52). -/
structure OrdF where
  acq : Bool
  rel : Bool
  scope : BitVec 2
  deriving DecidableEq, Repr

/-- The token fields PROD and CONS0 to CONS2 (R53, R284). -/
structure TokF where
  prod : Fin 16
  cons0 : Fin 16
  cons1 : Fin 16
  cons2 : Fin 16
  deriving DecidableEq, Repr

/-- The conditions of BR (R136). -/
inductive BrCond | eq | ne | lt | ge | ltu | geu
  deriving DecidableEq, Repr

/-- The exit test of LOOPX (R138). -/
inductive ExitTest
  | never
  | set (cb : Fin 32)
  | clr (cb : Fin 32)
  deriving DecidableEq, Repr

/-- The condition of TKWAIT (R347): at least, with or without TAKE, or below. -/
inductive TkCond
  | ge (take : Bool)
  | lt
  deriving DecidableEq, Repr

/-- The operations of LATOM, GATOM and SCATOM (R82). -/
inductive AtomOp | add | and | or | xor | min | max | swap | cas
  deriving DecidableEq, Repr

/-- The operations of GRED (R82): an integer operation at 32 or 64 bits, or fadd and fmax. -/
inductive RedOp
  | int (op : Fin 6) (w64 : Bool)
  | fadd
  | fmax
  deriving DecidableEq, Repr

/-- The tag operations of FEQ (R252). -/
inductive FeqOp | q | clr | set | wr
  deriving DecidableEq, Repr

/-- The system registers of R187. -/
inductive SysReg
  | coord | rank | stage | ctx | tclock | wclock | gdl | dlmax | esclim | toc
  | sticky | tenable | syncwin | wheel | limit | stop
  | bfmt (n : Fin 16)
  deriving DecidableEq, Repr

/-- A message of the management port (R108): sending station, header fields and body. -/
structure MgmtMsg where
  station : BitVec 48
  vmaj : Nat
  vmin : Nat
  cmd : Nat
  seq : Nat
  len : Nat
  body : List Byte
  deriving DecidableEq, Repr

/-- The types of peer messages (R326). -/
inductive PeerTy | hello | write | reduce | flag | ack | nak
  deriving DecidableEq, Repr

/-- A message of the peer transport (R326). -/
structure PeerMsg where
  vmaj : Nat
  vmin : Nat
  ty : PeerTy
  op : BitVec 8
  srank : Nat
  sid : Fin 16
  rctx : Fin 64
  seq : BitVec 32
  cause : Nat
  addr : Nat
  payload : List Byte
  deriving DecidableEq, Repr

/-- The TYPE code of a peer message (R326). -/
def PeerTy.code : PeerTy → Nat
  | .hello => 0
  | .write => 1
  | .reduce => 2
  | .flag => 3
  | .ack => 4
  | .nak => 5

/-- The type of a TYPE code (R326). -/
def PeerTy.ofCode : Nat → Option PeerTy
  | 0 => some .hello
  | 1 => some .write
  | 2 => some .reduce
  | 3 => some .flag
  | 4 => some .ack
  | 5 => some .nak
  | _ => none

/-- One constructor for each row of spec/opcode_table.json. The slot forms (BRC to SCATOM) act on the
tile, stream and slot that the machine's cursor names; the events name what they act on. -/
inductive Instr
  -- universal controls and SC0 controls (chapter 06)
  | brc (cb : Fin 32) (clr : Bool) (off : BitVec 16)
  | jmp (off : BitVec 16)
  | loop (lc : Fin 32) (off : BitVec 16)
  | loopx (a : XSrc) (test : ExitTest) (off : BitVec 16)
  | cbset (cb : Fin 32)
  | cbclr (cb : Fin 32)
  | cbwait (cb : Fin 32) (clr : Bool) (w : WaitF)
  | cbtake (cb : Fin 32) (w : WaitF)
  | join (gm : BitVec 4) (w : WaitF)
  | retire
  | br (cc : BrCond) (a b : XSrc) (off : BitVec 16)
  | jmpr (a : XSrc)
  | call (link : Fin 64) (off : BitVec 16)
  | callr (link : Fin 64) (b : XSrc)
  | ret (a : XSrc)
  | fork (map : BitVec 16) (entries : Word)
  | lcset (lc : Fin 32) (a : XSrc)
  | lcget (d : XDst) (lc : Fin 32)
  | trap (code : BitVec 16)
  | brkpt (code : BitVec 16)
  -- scalar integer (chapter 08)
  | add (t : ITy) (d : XDst) (a b : XSrc)
  | addRI (d : XDst) (a : XSrc) (i : RImm)
  | sub (t : ITy) (d : XDst) (a b : XSrc)
  | subRI (d : XDst) (a : XSrc) (i : RImm)
  | mul (t : ITy) (d : XDst) (a b : XSrc)
  | mulRI (d : XDst) (a : XSrc) (i : RImm)
  | mulh (t : ITy) (d : XDst) (a b : XSrc)
  | div (t : ITy) (d : XDst) (a b : XSrc)
  | rem (t : ITy) (d : XDst) (a b : XSrc)
  | and (t : ITy) (d : XDst) (a b : XSrc)
  | andRI (d : XDst) (a : XSrc) (i : RImm)
  | or (t : ITy) (d : XDst) (a b : XSrc)
  | orRI (d : XDst) (a : XSrc) (i : RImm)
  | xor (t : ITy) (d : XDst) (a b : XSrc)
  | xorRI (d : XDst) (a : XSrc) (i : RImm)
  | andn (t : ITy) (d : XDst) (a b : XSrc)
  | andnRI (d : XDst) (a : XSrc) (i : RImm)
  | shl (t : ITy) (d : XDst) (a b : XSrc)
  | shlRI (d : XDst) (a : XSrc) (i : RImm)
  | shr (t : ITy) (d : XDst) (a b : XSrc)
  | shrRI (d : XDst) (a : XSrc) (i : RImm)
  | sar (t : ITy) (d : XDst) (a b : XSrc)
  | sarRI (d : XDst) (a : XSrc) (i : RImm)
  | rol (t : ITy) (d : XDst) (a b : XSrc)
  | rolRI (d : XDst) (a : XSrc) (i : RImm)
  | min (t : ITy) (d : XDst) (a b : XSrc)
  | minRI (d : XDst) (a : XSrc) (i : RImm)
  | max (t : ITy) (d : XDst) (a b : XSrc)
  | maxRI (d : XDst) (a : XSrc) (i : RImm)
  | abs (t : ITy) (d : XDst) (a : XSrc)
  | clz (t : ITy) (d : XDst) (a : XSrc)
  | ctz (t : ITy) (d : XDst) (a : XSrc)
  | popc (t : ITy) (d : XDst) (a : XSrc)
  | sext (t : ITy) (d : XDst) (a : XSrc)
  | zext (t : ITy) (d : XDst) (a : XSrc)
  | cmp (t : ITy) (d : XDst) (a b : XSrc)
  | cmpRI (d : XDst) (a : XSrc) (i : RImm)
  | sel (d : XDst) (a b c : XSrc)
  | mov (d : XDst) (a : XSrc)
  | moviI64 (d : XDst) (i : RImm)
  | moviN64 (d : XDst) (i : RImm)
  | movk (d : XDst) (a : XSrc) (hi : Bool) (v : BitVec 32)
  | lea (d : XDst) (a : XSrc) (i : RImm)
  | pmake (d : XDst) (a b c : XSrc)
  | pspace (d : XDst) (a : XSrc)
  | prank (d : XDst) (a : XSrc)
  | padd (d : XDst) (a b : XSrc)
  | paddRI (d : XDst) (a : XSrc) (i : RImm)
  -- scalar floating point and system registers (chapters 05, 08, 10, 25, 04)
  | fadd (d : XDst) (a b : XSrc)
  | fsub (d : XDst) (a b : XSrc)
  | fmul (d : XDst) (a b : XSrc)
  | ffma (d : XDst) (a b c : XSrc)
  | fmin (d : XDst) (a b : XSrc)
  | fmax (d : XDst) (a b : XSrc)
  | fdiv (d : XDst) (a b : XSrc)
  | fsqrt (d : XDst) (a : XSrc)
  | fcvt (dst src : Ty) (rtz : Bool) (d : XDst) (a : XSrc)
  | fcmp (d : XDst) (a b : XSrc)
  | mfs (d : XDst) (r : SysReg)
  | mts (r : SysReg) (a : XSrc)
  | dlmk (wall : Bool) (d : XDst) (a : XSrc)
  | clkrd (d : Fin 64)
  | tfence
  | yield (a : XSrc)
  | enq (a b : XSrc) (w : WaitF)
  -- scalar synchronisation (chapter 17)
  | step (a b : XSrc) (w : WaitF)
  | barinit (a b : XSrc)
  | bararv (d : XDst) (a : XSrc)
  | barwt (a b : XSrc) (w : WaitF)
  | barsync (a : XSrc) (w : WaitF)
  | barkill (a : XSrc)
  | qpush (a b : XSrc) (w : WaitF)
  | qpop (d : XDst) (a : XSrc) (w : WaitF)
  | tkwait (tk : Fin 16) (c : TkCond) (b : XSrc) (w : WaitF)
  | tkrd (d : XDst) (tk : Fin 16)
  | fence (a : XSrc) (w : WaitF)
  -- vector (chapter 11)
  | vadd (t : FTy) (d : VDst) (a b : VSrc) (m : Fin 16)
  | vaddVI (t : FTy) (d : VDst) (a : VSrc) (i : BitVec 16) (m : Fin 16)
  | vsub (t : FTy) (d : VDst) (a b : VSrc) (m : Fin 16)
  | vsubVI (t : FTy) (d : VDst) (a : VSrc) (i : BitVec 16) (m : Fin 16)
  | vmul (t : FTy) (d : VDst) (a b : VSrc) (m : Fin 16)
  | vmulVI (t : FTy) (d : VDst) (a : VSrc) (i : BitVec 16) (m : Fin 16)
  | vfma (t : FTy) (d : VDst) (a b c : VSrc) (m : Fin 16)
  | vmin (t : FTy) (d : VDst) (a b : VSrc) (m : Fin 16)
  | vminVI (t : FTy) (d : VDst) (a : VSrc) (i : BitVec 16) (m : Fin 16)
  | vmax (t : FTy) (d : VDst) (a b : VSrc) (m : Fin 16)
  | vmaxVI (t : FTy) (d : VDst) (a : VSrc) (i : BitVec 16) (m : Fin 16)
  | vabs (t : FTy) (d : VDst) (a : VSrc) (m : Fin 16)
  | vneg (t : FTy) (d : VDst) (a : VSrc) (m : Fin 16)
  | vrcp (t : FTy) (d : VDst) (a : VSrc) (m : Fin 16)
  | vrsq (t : FTy) (d : VDst) (a : VSrc) (m : Fin 16)
  | vexp2 (t : FTy) (d : VDst) (a : VSrc) (m : Fin 16)
  | vlog2 (t : FTy) (d : VDst) (a : VSrc) (m : Fin 16)
  | vcmp (p : Fin 8) (t : Ty) (d : KDst) (a b : VSrc) (m : Fin 16)
  | vsel (t : Ty) (d : VDst) (a b : VSrc) (c : KSrc) (m : Fin 16)
  | viadd (t : ITy) (d : VDst) (a b : VSrc) (m : Fin 16)
  | viaddVI (t : ITy) (d : VDst) (a : VSrc) (i : BitVec 16) (m : Fin 16)
  | visub (t : ITy) (d : VDst) (a b : VSrc) (m : Fin 16)
  | visubVI (t : ITy) (d : VDst) (a : VSrc) (i : BitVec 16) (m : Fin 16)
  | vimul (t : ITy) (d : VDst) (a b : VSrc) (m : Fin 16)
  | vimulVI (t : ITy) (d : VDst) (a : VSrc) (i : BitVec 16) (m : Fin 16)
  | vand (t : ITy) (d : VDst) (a b : VSrc) (m : Fin 16)
  | vandVI (t : ITy) (d : VDst) (a : VSrc) (i : BitVec 16) (m : Fin 16)
  | vor (t : ITy) (d : VDst) (a b : VSrc) (m : Fin 16)
  | vorVI (t : ITy) (d : VDst) (a : VSrc) (i : BitVec 16) (m : Fin 16)
  | vxor (t : ITy) (d : VDst) (a b : VSrc) (m : Fin 16)
  | vxorVI (t : ITy) (d : VDst) (a : VSrc) (i : BitVec 16) (m : Fin 16)
  | vshl (t : ITy) (d : VDst) (a b : VSrc) (m : Fin 16)
  | vshlVI (t : ITy) (d : VDst) (a : VSrc) (i : BitVec 16) (m : Fin 16)
  | vshr (t : ITy) (d : VDst) (a b : VSrc) (m : Fin 16)
  | vshrVI (t : ITy) (d : VDst) (a : VSrc) (i : BitVec 16) (m : Fin 16)
  | vsar (t : ITy) (d : VDst) (a b : VSrc) (m : Fin 16)
  | vsarVI (t : ITy) (d : VDst) (a : VSrc) (i : BitVec 16) (m : Fin 16)
  | vcvt (dst src : Ty) (rtz : Bool) (part : Fin 4) (d : VDst) (a : VSrc) (m : Fin 16)
  | vqnt (dst : Ty) (bf : Bool) (d : VDst) (a : VSrc) (x : Fin 64)
  | vdqnt (bf : Bool) (src : Ty) (part : Fin 4) (d : VDst) (a : VSrc) (b : XSrc) (m : Fin 16)
  | vrsum (t : Ty) (d : VDst) (a : VSrc) (m : Fin 16)
  | vrmax (t : Ty) (d : VDst) (a : VSrc) (m : Fin 16)
  | vrmin (t : Ty) (d : VDst) (a : VSrc) (m : Fin 16)
  | vperm (t : Ty) (d : VDst) (a b : VSrc) (m : Fin 16)
  | vbcast (t : Ty) (d : VDst) (a : XSrc) (m : Fin 16)
  | vslide (t : Ty) (d : VDst) (a b : VSrc) (c : XSrc) (m : Fin 16)
  | vzip (t : Ty) (part : Bool) (d : VDst) (a b : VSrc) (m : Fin 16)
  | vunzip (t : Ty) (part : Bool) (d : VDst) (a b : VSrc) (m : Fin 16)
  | vmov (t : Ty) (d : VDst) (a : VSrc ⊕ Fin 8) (m : Fin 16)
  | vmovVI (t : Ty) (d : VDst) (i : BitVec 16) (m : Fin 16)
  | vins (t : Ty) (d : VDst) (a b : XSrc) (m : Fin 16)
  | vext (t : Ty) (d : XDst) (a : VSrc) (b : XSrc)
  | vrng (t : Ty) (d : VDst) (a b : XSrc) (m : Fin 16)
  | kand (d : KDst) (a b : KSrc)
  | kor (d : KDst) (a b : KSrc)
  | kxor (d : KDst) (a b : KSrc)
  | knot (d : KDst) (a : KSrc)
  | kpop (t : Ty) (d : XDst) (a : KSrc)
  | kmov (d : KDst) (a : KSrc)
  -- load/store (chapter 12)
  | vld (d : VDst) (m : MemF) (o : OrdF)
  | vldd (d : VDst) (m : MemF) (o : OrdF)
  | vst (v : VSrc) (m : MemF) (o : OrdF)
  | vste (v : VSrc) (m : MemF) (o : OrdF)
  | vlds (t : Ty) (d : VDst) (a b : XSrc) (sid : Fin 16) (m : Fin 16)
  | vsts (t : Ty) (v : VSrc) (a b : XSrc) (sid : Fin 16) (m : Fin 16)
  | vgth (t : Ty) (d : VDst) (a : XSrc) (b : VSrc) (sid : Fin 16) (m : Fin 16)
  | vsct (t : Ty) (v : VSrc) (a : XSrc) (b : VSrc) (sid : Fin 16) (m : Fin 16)
  | xld (t : ITy) (d : XDst) (m : MemF) (o : OrdF)
  | xst (w : Fin 4) (v : XSrc) (m : MemF) (o : OrdF)
  | ldf (d : XDst) (m : MemF) (scope : BitVec 2) (w : WaitF)
  | ste (v : XSrc) (m : MemF) (scope : BitVec 2) (w : WaitF)
  | few (d : XDst) (m : MemF) (scope : BitVec 2) (w : WaitF)
  | feq (op : FeqOp) (d : XDst) (m : MemF)
  | latom (op : AtomOp) (w64 : Bool) (d : Fin 64) (m : MemF) (o : OrdF)
  -- matrix (chapter 14)
  | omclaim (mask : BitVec 8) (w : WaitF)
  | omrel (mask : BitVec 8) (tok : TokF)
  | omld (om : Fin 8) (c : XSrc) (tok : TokF)
  | mma (ta tb : Ty) (acc : Fin 10) (oma omb : Fin 8) (sa sb : Bool) (tok : TokF)
  | mzero (acc : Fin 10) (tok : TokF)
  | macld (acc : Fin 10) (c : XSrc) (tok : TokF)
  | mdrain (acc : Fin 10) (nochk : Bool) (c : XSrc) (tok : TokF)
  | mstat (d : XDst) (acc : Fin 10) (nochk : Bool)
  -- copy and selection (chapters 13, 15, 17)
  | copy (src dst shp : Fin 64) (cmask : BitVec 10) (oms : Fin 8) (tok : TokF) (sid : Fin 16) (zero flush : Bool)
  | copym (src dst shp : Fin 64) (cmask : BitVec 10) (oms : Fin 8) (tok : TokF) (sid : Fin 16) (zero flush : Bool)
      (follow : Word)
  | stbind (st : Fin 8) (a : XSrc)
  | stdrop (st : Fin 8)
  | ststat (d : XDst) (st : Fin 8)
  | cpcancel (d : XDst) (mask : BitVec 2)
  | selp (src dst : Fin 64) (lc : Fin 32) (tok : TokF) (sid : Fin 16)
  | selk (src dst : Fin 64) (lc : Fin 32) (tok : TokF) (sid : Fin 16)
  | rput (src dst shp : Fin 64) (flg : Option (Fin 64)) (tok : TokF) (sid : Fin 16)
  -- global memory (chapters 16, 17)
  | gld (t : ITy) (d : XDst) (m : MemF) (o : OrdF)
  | gst (w : Fin 4) (v : XSrc) (m : MemF) (o : OrdF)
  | pref (base : XSrc) (off : BitVec 14)
  | ldmeta (d : XDst) (a : XSrc) (sid : Fin 16)
  | stmeta (a b : XSrc) (sid : Fin 16)
  | gatom (op : AtomOp) (w64 : Bool) (d : Fin 64) (m : MemF) (o : OrdF)
  | gred (op : RedOp) (v : XSrc) (m : MemF) (o : OrdF)
  | scatom (op : AtomOp) (w64 : Bool) (d : Fin 64) (m : MemF) (w : WaitF)
  -- events of a tile's streams
  | conditionBitVisible (t : Fin 144)
  | waitTimeout (t : Fin 144) (g : Fin 4)
  | issueDeadline (t : Fin 144) (g : Fin 4)
  | remoteReplyArrival (t : Fin 144) (g : Fin 4)
  | syncHomeArbitration (die : Fin 2)
  | homeAccess (id : Nat)
  | resultArrival (id : Nat)
  | translationObtained (t : Fin 144) (g : Fin 4)
  | wheelPositionOpen (p : Fin 256)
  | fetchLineFill (t : Fin 144) (line : Nat)
  -- events of the engines
  | copyCommandStart (t : Fin 144) (q : Fin 2)
  | copyChunk (t : Fin 144) (q : Fin 2) (i : Fin 2)
  | copyCommandRetire (t : Fin 144) (q : Fin 2)
  | followOnHandoff (t : Fin 144) (q : Fin 2)
  | fbcBlock (t : Fin 144) (st : Fin 8)
  | watchdog (t : Fin 144) (st : Fin 8)
  | windowDispatch (t : Fin 144) (q : Fin 2) (i : Fin 2)
  | windowMerge (t : Fin 144) (q : Fin 2) (i : Fin 2)
  | selectionDeadline (t : Fin 144) (q : Fin 2) (i : Fin 2)
  | matrixCommandStart (t : Fin 144)
  | matrixCommandRetire (t : Fin 144)
  | matrixSettle (t : Fin 144) (g : Fin 4)
  -- events of the loader, the coordinator and Babbitt
  | imageInstall (ctx : Fin 64) (image : List Byte)
  | unloadComplete (ctx : Fin 64)
  | taskBind (t : Fin 144)
  | schedStall (ctx : Fin 64)
  | sliceStopTimer (t : Fin 144)
  | stopAccept (t : Fin 144)
  | saveComplete (t : Fin 144)
  | saveRetry (t : Fin 144)
  | restoreComplete (t : Fin 144)
  | invalidationComplete (ctx : Fin 64)
  | faultQueueConsPoll (ctx : Fin 64)
  -- migration and device registers
  | hotPageHalving
  | migrationStart
  | migrationSwitch (i : Fin 4)
  -- management port and power
  | pwrwarn
  | holdKillDeadline
  | holdPowerDown
  | holdExitNominal
  | powerOnReset
  -- timers of the peer ports
  | helloResend (port : Fin 16)
  | peerResend (port : Fin 16)
  | nolink (port : Fin 16)
  | writeAcknowledgement (id : Nat)
  -- errors and remaining events
  | scrubbingPass
  | pwrwarnDeasserted
  -- events from outside the device: system software, management stations, peers, errors
  | imageUnload (ctx : Fin 64) (handle : BitVec 32)
  | go (slot : Fin 16)
  | contextEntryWrite (ctx : Fin 64) (word : Fin 16) (v : Word)
  | invalidatePage (ctx : Fin 64) (va : Nat)
  | invalidateContext (ctx : Fin 64)
  | retry (ctx : Fin 64)
  | skip (ctx : Fin 64)
  | status (ctx : Fin 64)
  | goto (ctx : Fin 64)
  | setx (ctx : Fin 64)
  | drop (ctx : Fin 64)
  | kill (ctx : Fin 64)
  | contextKill (ctx : Fin 64)
  | demote (v : Word)
  | registerWrite (off : Nat) (v : Word)
  | info (m : MgmtMsg)
  | telemetry (m : MgmtMsg)
  | holdEnter (m : MgmtMsg)
  | holdExit (m : MgmtMsg)
  | fwBegin (m : MgmtMsg)
  | fwChunk (m : MgmtMsg)
  | fwCommit (m : MgmtMsg)
  | fwAbort (m : MgmtMsg)
  | attest (m : MgmtMsg)
  | counter (m : MgmtMsg)
  | linkFatalError (t : Fin 144)
  | hello (port : Fin 16) (m : PeerMsg)
  | write (port : Fin 16) (m : PeerMsg)
  | reduce (port : Fin 16) (m : PeerMsg)
  | flag (port : Fin 16) (m : PeerMsg)
  | ack (port : Fin 16) (m : PeerMsg)
  | nak (port : Fin 16) (m : PeerMsg)
  | softError (addr : Nat)
  | portLinkUp (port : Fin 16)
  | portDown (port : Fin 16)
  | fcsFailedFrame (port : Fin 16)
  | cmdUnknown (m : MgmtMsg)
  | badForm (ctx : Fin 64)
  deriving DecidableEq, Repr

end Sys2Proof
end

