-- ==== Sys2Proof/Config.lean ====
section
/-! DEFINITION. What the spec leaves to the part or leaves open: constants without a body, so that no proof
can learn a value of one (log 6, 9, 10, 12), and the fixed counts of R1. -/

namespace Sys2Proof.Config

/-- Free values that the model draws one after another, by the counter `State.freeCtr` (log 6). -/
opaque freeNat : Nat → Nat

/-- ML-DSA-65 signing by the device attestation key, whose secret part the spec does not give (R109; log 12). -/
opaque mldsaSign : List Byte → Vector Byte 3309

/-- The public key of the device attestation key (R109; log 12). -/
opaque attestationKey : Vector Byte 1952

/-- The sensor words 0 to 15 of the telemetry record at a cycle: board power and temperatures (R109; log 12). -/
opaque sensor : Nat → Nat → BitVec 32

/-- The stepping of the die set, less one (R26, R109; log 12). -/
opaque steppingFrom0 : Fin 255

/-- The STEPPING byte of INFO and of the capability list, counted from 1 (R26, R109). -/
def stepping : Byte := BitVec.ofNat 8 (steppingFrom0.val + 1)

/-- The fitted LPDDR-6 capacity in GiB, up to 1,024 (R26, R200; log 12). -/
opaque lpcapGiB : Fin 1025

/-- The fitted LPDDR-6 capacity in bytes (R200). -/
def lpcap : Nat := lpcapGiB.val * 2 ^ 30

/-- The set of a tile's translation cache that an entry of a context, a level and an address enters (R202; log 9). -/
opaque tileSet : Nat → Nat → Nat → Nat

/-- The set of a cluster's translation cache that an entry enters (R202; log 9). -/
opaque clusterSet : Nat → Nat → Nat → Nat

/-- A free value between `lo` and `hi` (log 6). -/
def within (lo hi n : Nat) : Nat := lo + freeNat n % (hi - lo + 1)

/-- A free value that is at least `lo` (log 6). -/
def atLeast (lo n : Nat) : Nat := lo + freeNat n

/-- The bytes of a save record whose content the spec leaves to Babbitt, by the number of the save and the offset (R414;
log 13). -/
opaque recordByte : Nat → Nat → Byte

/-- The station addresses that a configuration image lists (R108; log 12). -/
opaque stationsOf : List Byte → List (BitVec 48)

/-- The installed firmware, microcode and configuration image of the part (kinds 0, 1, 2 of R109; log 12). -/
opaque installed : Nat → List Byte

/-- The keys of the security block before any management command (R28; log 12). -/
opaque keySlots : Nat → List Byte × BitVec 64 × BitVec 32

/-- What a read of a physical address outside both ranges of R200 gives (DESIGN CHOICE, log 99). -/
opaque outside : Nat → BitVec 64

/-- Number of tiles (R1). -/
abbrev tiles : Nat := 144

end Sys2Proof.Config
end

