-- ==== Sys2Proof/WellFormed.lean ====
section
/-! DEFINITION. Which terms of Instr are instructions of the machine: the field rules of R59, R82, R127,
R168 to R184, R228 to R241, R246, R273, R277, R290 and R293 that the operand types do not already enforce. -/

namespace Sys2Proof

/-- Width in bits of an integer type (R169). -/
def ITy.width : ITy → Nat
  | .i8 | .n8 => 8
  | .i16 | .n16 => 16
  | .i32 | .n32 => 32
  | .i64 | .n64 => 64

/-- The i types (R55). -/
def ITy.signed : ITy → Bool
  | .i8 | .i16 | .i32 | .i64 => true
  | .n8 | .n16 | .n32 | .n64 => false

/-- Width in bits of an IEEE type (R207). -/
def FTy.width : FTy → Nat
  | .f32 => 32
  | .f16 | .bf16 => 16

/-- Width in bits of an element type (R55). -/
def Ty.width : Ty → Nat
  | .int t => t.width
  | .flt t => t.width
  | .b8 _ => 8

/-- An integer type code (R55). -/
def Ty.isInt : Ty → Bool
  | .int _ => true
  | _ => false

/-- The types that block scales accept: binary8, i8 and n8 (R211). -/
def Ty.is8 : Ty → Bool
  | .int .i8 | .int .n8 | .b8 _ => true
  | _ => false

/-- The types that VRSUM, VRMAX, VRMIN and VCMP accept (R231, R237): IEEE and integer. -/
def Ty.arith : Ty → Bool
  | .b8 _ => false
  | _ => true

/-- R82: DATA of a .cas form lies between 1 and 62. -/
def casOk (op : AtomOp) (d : Fin 64) : Bool :=
  op != .cas || (1 ≤ d.val && d.val ≤ 62)

/-- R234: the part number lies below the ratio of the two lane widths. -/
def partOk (dst src : Ty) (part : Fin 4) : Bool :=
  part.val < max dst.width src.width / min dst.width src.width

/-- R273: the field rules shared by COPY and COPYM. -/
def copyOk (src dst shp : Fin 64) (cmask : BitVec 10) (oms : Fin 8) (zero flush : Bool) : Bool :=
  cmask != 0 && (cmask.getLsbD 0 || dst == 0) && (cmask.getLsbD 1 || oms == 0) && shp.val ≤ 27
    && (!zero || src == 0) && (!flush || fld cmask 2 8 != 0)

/-- R52: a load form has REL clear. -/
def loadOrd (o : OrdF) : Bool := !o.rel

/-- R52: a store form has ACQ clear. -/
def storeOrd (o : OrdF) : Bool := !o.acq

/-- R247: the data of VSTS and VSCT is no bypass latch, since bit 9 of the field is zero. -/
def fromFile : VSrc → Bool
  | .byp .. => false
  | _ => true

/-- The check of every constructor: true where the operand types already admit exactly what the spec admits. -/
def Instr.wellFormed : Instr → Bool
  | .abs t _ _ => t.signed
  | .sext t _ _ => t.signed && t.width != 64
  | .zext t _ _ => !t.signed && t.width != 64
  | .fcvt d s _ _ _ => d != s && !(d.isInt && s.isInt)
  | .clkrd d => 1 ≤ d.val && d.val ≤ 62
  | .vcmp p t _ _ _ _ => t.arith && (p.val < 6 || !t.isInt)
  | .vcvt d s _ p _ _ _ => d != s && partOk d s p
  | .vqnt d _ _ _ _ => d.is8
  | .vdqnt bf s p _ _ _ _ => s.is8 && (!bf || p.val < 2)
  | .vrsum t _ _ _ | .vrmax t _ _ _ | .vrmin t _ _ _ => t.arith
  | .vrng t _ _ _ _ => t == .int .n32 || t == .int .n64 || t == .flt .f32
  | .vld _ _ o | .vldd _ _ o | .xld .i8 _ _ o | .xld .i16 _ _ o | .xld .i32 _ _ o | .xld .i64 _ _ o
  | .xld .n8 _ _ o | .xld .n16 _ _ o | .xld .n32 _ _ o | .gld .i8 _ _ o | .gld .i16 _ _ o | .gld .i32 _ _ o
  | .gld .i64 _ _ o | .gld .n8 _ _ o | .gld .n16 _ _ o | .gld .n32 _ _ o => loadOrd o
  | .xld .n64 _ _ _ | .gld .n64 _ _ _ => false
  | .vst _ _ o | .vste _ _ o | .xst _ _ _ o | .gst _ _ _ o | .gred _ _ _ o => storeOrd o
  | .latom op _ d _ _ | .gatom op _ d _ _ | .scatom op _ d _ _ => casOk op d
  | .vsts _ v _ _ _ _ | .vsct _ v _ _ _ _ => fromFile v
  | .omclaim mask _ | .omrel mask _ => mask != 0
  | .mma ta tb _ _ _ sa sb _ =>
    (ta.is8 && tb.is8) || (ta == .flt .bf16 && tb == .flt .bf16 && !sa && !sb)
  | .copy src dst shp cmask oms _ _ z f => copyOk src dst shp cmask oms z f
  | .copym src dst shp cmask oms _ _ z f w =>
    copyOk src dst shp cmask oms z f && cmask.getLsbD 1 && fld w 56 8 == 0x08
  | .cpcancel _ mask => mask != 0
  | .rput _ _ shp _ _ _ => shp.val ≤ 27
  | _ => true

end Sys2Proof
end

