-- ==== Sys2Proof/Decode.lean ====
section
/-! DEFINITION. The decoder of syllables and header words (R35 to R60, R75 to R82), total on any word and
rejecting by `none`, which the machine turns into the trap ILLEGAL (R60); and the encoder, written from the
same tables. -/

namespace Sys2Proof

/-! ### Field layouts of the six formats (R49, R50) -/

/-- RR: D, A, B, C, MASK, TYPE (R50). -/
structure RRFields where
  d : BitVec 11
  a : BitVec 11
  b : BitVec 11
  c : BitVec 11
  m : BitVec 4
  t : BitVec 8
  deriving DecidableEq, Repr

/-- The fields of an RR word (R49). -/
def rrOf (w : Word) : RRFields :=
  ⟨fld w 45 11, fld w 34 11, fld w 23 11, fld w 12 11, fld w 8 4, fld w 0 8⟩

/-- The RR word of an opcode and its fields (R49). -/
def rrWord (op : BitVec 8) (f : RRFields) : Word := op ++ f.d ++ f.a ++ f.b ++ f.c ++ f.m ++ f.t

/-- The waiting RR layout: D, A, B, DLE, STX, reserved, TYPE (R50). -/
structure RWFields where
  d : BitVec 11
  a : BitVec 11
  b : BitVec 11
  dle : BitVec 6
  stx : BitVec 6
  z : BitVec 3
  t : BitVec 8
  deriving DecidableEq, Repr

/-- The fields of a waiting RR word (R50). -/
def rwOf (w : Word) : RWFields :=
  ⟨fld w 45 11, fld w 34 11, fld w 23 11, fld w 17 6, fld w 11 6, fld w 8 3, fld w 0 8⟩

/-- The waiting RR word of an opcode and its fields (R50). -/
def rwWord (op : BitVec 8) (f : RWFields) : Word := op ++ f.d ++ f.a ++ f.b ++ f.dle ++ f.stx ++ f.z ++ f.t

/-- RI: D, A, SEL, IMM (R49). -/
structure RIFields where
  d : BitVec 11
  a : BitVec 11
  sel : BitVec 2
  imm : BitVec 32
  deriving DecidableEq, Repr

/-- The fields of an RI word (R49). -/
def riOf (w : Word) : RIFields := ⟨fld w 45 11, fld w 34 11, fld w 32 2, fld w 0 32⟩

/-- The RI word of an opcode and its fields (R49). -/
def riWord (op : BitVec 8) (f : RIFields) : Word := op ++ f.d ++ f.a ++ f.sel ++ f.imm

/-- VI: D, A, IMM, reserved, MASK, TYPE (R49). -/
structure VIFields where
  d : BitVec 11
  a : BitVec 11
  imm : BitVec 16
  z : BitVec 6
  m : BitVec 4
  t : BitVec 8
  deriving DecidableEq, Repr

/-- The fields of a VI word (R49). -/
def viOf (w : Word) : VIFields :=
  ⟨fld w 45 11, fld w 34 11, fld w 18 16, fld w 12 6, fld w 8 4, fld w 0 8⟩

/-- The VI word of an opcode and its fields (R49). -/
def viWord (op : BitVec 8) (f : VIFields) : Word := op ++ f.d ++ f.a ++ f.imm ++ f.z ++ f.m ++ f.t

/-- MEM: DATA, BASE, OFF, SID, DLE, STX, ORDM (R49, R52). -/
structure MEMFields where
  data : BitVec 11
  base : BitVec 11
  off : BitVec 14
  sid : BitVec 4
  dle : BitVec 6
  stx : BitVec 6
  ordm : BitVec 4
  deriving DecidableEq, Repr

/-- The fields of a MEM word (R49). -/
def memOf (w : Word) : MEMFields :=
  ⟨fld w 45 11, fld w 34 11, fld w 20 14, fld w 16 4, fld w 10 6, fld w 4 6, fld w 0 4⟩

/-- The MEM word of an opcode and its fields (R49). -/
def memWord (op : BitVec 8) (f : MEMFields) : Word :=
  op ++ f.data ++ f.base ++ f.off ++ f.sid ++ f.dle ++ f.stx ++ f.ordm

/-- CP: SRC, DST, SHP, CMASK, OMS, PROD, CONS0 to CONS2, SID, FLAGS (R49, R53). -/
structure CPFields where
  src : BitVec 6
  dst : BitVec 6
  shp : BitVec 6
  cmask : BitVec 10
  oms : BitVec 3
  prod : BitVec 4
  c0 : BitVec 4
  c1 : BitVec 4
  c2 : BitVec 4
  sid : BitVec 4
  flags : BitVec 5
  deriving DecidableEq, Repr

/-- The fields of a CP word (R49). -/
def cpOf (w : Word) : CPFields :=
  ⟨fld w 50 6, fld w 44 6, fld w 38 6, fld w 28 10, fld w 25 3, fld w 21 4, fld w 17 4, fld w 13 4,
   fld w 9 4, fld w 5 4, fld w 0 5⟩

/-- The CP word of an opcode and its fields (R49). -/
def cpWord (op : BitVec 8) (f : CPFields) : Word :=
  op ++ f.src ++ f.dst ++ f.shp ++ f.cmask ++ f.oms ++ f.prod ++ f.c0 ++ f.c1 ++ f.c2 ++ f.sid ++ f.flags

/-- CT: OFF, A, IX, GM, CC and the low half word, read as DLE and STX or as B (R49). -/
structure CTFields where
  off : BitVec 16
  a : BitVec 11
  ix : BitVec 5
  gm : BitVec 4
  cc : BitVec 4
  low : BitVec 16
  deriving DecidableEq, Repr

/-- The fields of a CT word (R49). -/
def ctOf (w : Word) : CTFields :=
  ⟨fld w 40 16, fld w 29 11, fld w 24 5, fld w 20 4, fld w 16 4, fld w 0 16⟩

/-- The CT word of an opcode and its fields (R49). -/
def ctWord (op : BitVec 8) (f : CTFields) : Word := op ++ f.off ++ f.a ++ f.ix ++ f.gm ++ f.cc ++ f.low

/-! ### Operand fields (R54) -/

/-- The layout shared by the 11-bit operand fields: bit 10, bit 9, number (R54). -/
def opnd (hi mid : Bool) (n : BitVec 9) : BitVec 11 := BitVec.ofBool hi ++ BitVec.ofBool mid ++ n

/-- A register number below a bound (R54). -/
def toReg (bound : Nat) (n : BitVec 9) : Option (Fin bound) :=
  if h : n.toNat < bound then some ⟨n.toNat, h⟩ else none

/-- The 9-bit number of a bypass latch: slot at [4:2], depth at [1:0] (R54). -/
def bypNum (s : Fin 8) (d : Fin 3) : BitVec 9 := BitVec.ofNat 9 (4 * s.val + d.val)

/-- The latch that a 9-bit bypass number names, when it is well formed (R54). -/
def toByp (n : BitVec 9) : Option (Fin 8 × Fin 3) :=
  if h : n.toNat < 32 then
    if g : n.toNat % 4 < 3 then some (⟨n.toNat / 4, by omega⟩, ⟨n.toNat % 4, g⟩) else none
  else none

/-- Decode an x source field (R54). -/
def XSrc.dec (f : BitVec 11) : Option XSrc :=
  let n := fld f 0 9
  if f.getLsbD 9 then
    if f.getLsbD 10 then none else (toByp n).map fun p => .byp p.1 p.2
  else (toReg 64 n).map fun r => if f.getLsbD 10 then .rot r else .reg r

/-- Encode an x source field (R54). -/
def XSrc.enc : XSrc → BitVec 11
  | .reg n => opnd false false (BitVec.ofNat 9 n.val)
  | .rot n => opnd true false (BitVec.ofNat 9 n.val)
  | .byp s d => opnd false true (bypNum s d)

/-- Decode a v source field (R54). -/
def VSrc.dec (f : BitVec 11) : Option VSrc :=
  let n := fld f 0 9
  if f.getLsbD 9 then
    if f.getLsbD 10 then none else (toByp n).map fun p => .byp p.1 p.2
  else (toReg 384 n).map fun r => if f.getLsbD 10 then .rot r else .reg r

/-- Encode a v source field (R54). -/
def VSrc.enc : VSrc → BitVec 11
  | .reg n => opnd false false (BitVec.ofNat 9 n.val)
  | .rot n => opnd true false (BitVec.ofNat 9 n.val)
  | .byp s d => opnd false true (bypNum s d)

/-- Decode a k source field; ROT is never legal in one (R47, R54). -/
def KSrc.dec (f : BitVec 11) : Option KSrc :=
  let n := fld f 0 9
  if f.getLsbD 10 then none
  else if f.getLsbD 9 then (toByp n).map fun p => .byp p.1 p.2
  else (toReg 16 n).map .reg

/-- Encode a k source field (R54). -/
def KSrc.enc : KSrc → BitVec 11
  | .reg n => opnd false false (BitVec.ofNat 9 n.val)
  | .byp s d => opnd false true (bypNum s d)

/-- Decode an x destination field; ROT with NWB is illegal (R47, R54). -/
def XDst.dec (f : BitVec 11) : Option XDst :=
  (toReg 64 (fld f 0 9)).bind fun r =>
    match f.getLsbD 10, f.getLsbD 9 with
    | false, false => some (.reg r)
    | true, false => some (.rot r)
    | false, true => some (.nwb r)
    | true, true => none

/-- Encode an x destination field (R54). -/
def XDst.enc : XDst → BitVec 11
  | .reg n => opnd false false (BitVec.ofNat 9 n.val)
  | .rot n => opnd true false (BitVec.ofNat 9 n.val)
  | .nwb n => opnd false true (BitVec.ofNat 9 n.val)

/-- Decode a v destination field (R54). -/
def VDst.dec (f : BitVec 11) : Option VDst :=
  (toReg 384 (fld f 0 9)).bind fun r =>
    match f.getLsbD 10, f.getLsbD 9 with
    | false, false => some (.reg r)
    | true, false => some (.rot r)
    | false, true => some (.nwb r)
    | true, true => none

/-- Encode a v destination field (R54). -/
def VDst.enc : VDst → BitVec 11
  | .reg n => opnd false false (BitVec.ofNat 9 n.val)
  | .rot n => opnd true false (BitVec.ofNat 9 n.val)
  | .nwb n => opnd false true (BitVec.ofNat 9 n.val)

/-- Decode a k destination field (R54). -/
def KDst.dec (f : BitVec 11) : Option KDst :=
  if f.getLsbD 10 then none
  else (toReg 16 (fld f 0 9)).map fun r => if f.getLsbD 9 then .nwb r else .reg r

/-- Encode a k destination field (R54). -/
def KDst.enc : KDst → BitVec 11
  | .reg n => opnd false false (BitVec.ofNat 9 n.val)
  | .nwb n => opnd false true (BitVec.ofNat 9 n.val)

/-- A field of `w` bits described by its contents, which must hold a number below `bound` (R228, R284). -/
def toNum {w : Nat} (bound : Nat) (f : BitVec w) : Option (Fin bound) :=
  if h : f.toNat < bound then some ⟨f.toNat, h⟩ else none

/-! ### Type codes, wait fields, immediates (R51, R55, R56) -/

/-- The code of an integer type (R55). -/
def ITy.code : ITy → BitVec 8
  | .i8 => 0x01 | .i16 => 0x02 | .i32 => 0x03 | .i64 => 0x04
  | .n8 => 0x05 | .n16 => 0x06 | .n32 => 0x07 | .n64 => 0x08

/-- The integer type of a code (R55). -/
def ITy.ofCode (c : BitVec 8) : Option ITy :=
  match c.toNat with
  | 0x01 => some .i8 | 0x02 => some .i16 | 0x03 => some .i32 | 0x04 => some .i64
  | 0x05 => some .n8 | 0x06 => some .n16 | 0x07 => some .n32 | 0x08 => some .n64
  | _ => none

/-- The code of an IEEE type (R55). -/
def FTy.code : FTy → BitVec 8
  | .f32 => 0x10 | .f16 => 0x11 | .bf16 => 0x12

/-- The IEEE type of a code (R55). -/
def FTy.ofCode (c : BitVec 8) : Option FTy :=
  match c.toNat with
  | 0x10 => some .f32 | 0x11 => some .f16 | 0x12 => some .bf16
  | _ => none

/-- The code of a binary8 format: 0b001, unsigned at [4], extended at [3], K at [2:0] (R55). -/
def B8.code (t : B8) : BitVec 8 :=
  BitVec.ofNat 8 (0x20 + (if t.uns then 0x10 else 0) + (if t.ext then 0x08 else 0) + t.k.val + 1)

/-- The binary8 format of a code; K = 0 is reserved (R55). -/
def B8.ofCode (c : BitVec 8) : Option B8 :=
  let n := c.toNat
  if 0x20 ≤ n ∧ n < 0x40 then
    if n % 8 = 0 then none
    else some ⟨c.getLsbD 4, c.getLsbD 3, ⟨n % 8 - 1, by omega⟩⟩
  else none

/-- The code of a type (R55). -/
def Ty.code : Ty → BitVec 8
  | .int t => t.code
  | .flt t => t.code
  | .b8 t => t.code

/-- The type of a code (R55); every other code is reserved. -/
def Ty.ofCode (c : BitVec 8) : Option Ty :=
  match ITy.ofCode c with
  | some t => some (.int t)
  | none =>
    match FTy.ofCode c with
    | some t => some (.flt t)
    | none => (B8.ofCode c).map .b8

/-- Decode a DLE field; codes 41 to 62 are illegal (R56). -/
def Dle.dec (f : BitVec 6) : Option Dle :=
  if h : f.toNat < 41 then some (.code ⟨f.toNat, h⟩)
  else if f = 63 then some .gdl else none

/-- Encode a DLE field (R113). -/
def Dle.enc : Dle → BitVec 6
  | .code n => BitVec.ofNat 6 n.val
  | .gdl => 63

/-- Decode the two wait fields (R56). -/
def waitDec (dle stx : BitVec 6) : Option WaitF := (Dle.dec dle).map fun d => ⟨d, stx.toFin⟩

/-- Decode an RI immediate (R51): SEL 0b10 takes the literal word and needs IMM zero. -/
def RImm.dec (sel : BitVec 2) (imm : BitVec 32) (lit : Word) : Option RImm :=
  match sel.toNat with
  | 0 => some (.imm imm)
  | 1 => some (.high imm)
  | 2 => if imm = 0 then some (.lit lit) else none
  | _ => none

/-- SEL of an RI immediate (R51). -/
def RImm.sel : RImm → BitVec 2
  | .imm _ => 0 | .high _ => 1 | .lit _ => 2

/-- IMM of an RI immediate (R51). -/
def RImm.field : RImm → BitVec 32
  | .imm v => v | .high v => v | .lit _ => 0

/-- The literal words of an RI immediate (R58). -/
def RImm.lits : RImm → List Word
  | .lit w => [w]
  | _ => []

/-- The ordering modifiers of ORDM (R52). -/
def ordDec (f : BitVec 4) : OrdF := ⟨f.getLsbD 3, f.getLsbD 2, fld f 0 2⟩

/-- ORDM of the ordering modifiers (R52). -/
def OrdF.enc (o : OrdF) : BitVec 4 := BitVec.ofBool o.acq ++ BitVec.ofBool o.rel ++ o.scope

/-- The register index of MFS and MTS (R187). -/
def SysReg.index : SysReg → BitVec 12
  | .coord => 0x000 | .rank => 0x001 | .stage => 0x002 | .ctx => 0x003
  | .tclock => 0x010 | .wclock => 0x011 | .gdl => 0x012 | .dlmax => 0x013 | .esclim => 0x014 | .toc => 0x015
  | .sticky => 0x020 | .tenable => 0x021 | .syncwin => 0x030 | .wheel => 0x031
  | .limit => 0x040 | .stop => 0x041
  | .bfmt n => BitVec.ofNat 12 (0x050 + n.val)

/-- The register of an index; every index that R187 does not assign is refused. -/
def SysReg.ofIndex (i : BitVec 12) : Option SysReg :=
  match i.toNat with
  | 0x000 => some .coord | 0x001 => some .rank | 0x002 => some .stage | 0x003 => some .ctx
  | 0x010 => some .tclock | 0x011 => some .wclock | 0x012 => some .gdl | 0x013 => some .dlmax
  | 0x014 => some .esclim | 0x015 => some .toc
  | 0x020 => some .sticky | 0x021 => some .tenable | 0x030 => some .syncwin | 0x031 => some .wheel
  | 0x040 => some .limit | 0x041 => some .stop
  | n => if h : 0x50 ≤ n ∧ n < 0x60 then some (.bfmt ⟨n - 0x50, by omega⟩) else none

/-- The condition codes of BR (R136). -/
def BrCond.code : BrCond → BitVec 4
  | .eq => 0 | .ne => 1 | .lt => 2 | .ge => 3 | .ltu => 4 | .geu => 5

/-- The condition of a code; 6 to 15 are illegal (R136). -/
def BrCond.ofCode (c : BitVec 4) : Option BrCond :=
  match c.toNat with
  | 0 => some .eq | 1 => some .ne | 2 => some .lt | 3 => some .ge | 4 => some .ltu | 5 => some .geu
  | _ => none

/-- The operation of the low three bits of LATOM, GATOM and SCATOM opcodes (R82). -/
def AtomOp.ofCode (c : BitVec 3) : AtomOp :=
  match c.toNat with
  | 0 => .add | 1 => .and | 2 => .or | 3 => .xor | 4 => .min | 5 => .max | 6 => .swap | _ => .cas

/-- The low three opcode bits of an atomic operation (R82). -/
def AtomOp.code : AtomOp → BitVec 3
  | .add => 0 | .and => 1 | .or => 2 | .xor => 3 | .min => 4 | .max => 5 | .swap => 6 | .cas => 7

/-- The GRED operation of the low opcode nibble (R82). -/
def RedOp.ofCode (c : BitVec 4) : Option RedOp :=
  if c = 6 then some .fadd
  else if c = 7 then some .fmax
  else if h : c.toNat % 8 < 6 then some (.int ⟨c.toNat % 8, h⟩ (c.getLsbD 3)) else none

/-- The low opcode nibble of a GRED operation (R82). -/
def RedOp.code : RedOp → BitVec 4
  | .int op w64 => BitVec.ofNat 4 (op.val + if w64 then 8 else 0)
  | .fadd => 6
  | .fmax => 7

/-- TOP of FEQ (R252). -/
def FeqOp.code : FeqOp → BitVec 2
  | .q => 0 | .clr => 1 | .set => 2 | .wr => 3

/-- The operation of TOP (R252). -/
def FeqOp.ofCode (c : BitVec 2) : FeqOp :=
  match c.toNat with
  | 0 => .q | 1 => .clr | 2 => .set | _ => .wr

/-! ### Helpers that decode one shape of form each -/

/-- A value that stands only when a check holds. -/
def chk {α : Type} (b : Bool) (x : Option α) : Option α := if b then x else none

/-- Zero test of a field (R59). -/
abbrev z {n : Nat} (f : BitVec n) : Bool := f == 0

/-- Typed integer RR form with two sources; C and MASK zero (R168). -/
def dTyped3 (f : RRFields) (k : ITy → XDst → XSrc → XSrc → Instr) : Option Instr :=
  chk (z f.c && z f.m) do return k (← ITy.ofCode f.t) (← XDst.dec f.d) (← XSrc.dec f.a) (← XSrc.dec f.b)

/-- Typed integer RR form with one source; B, C and MASK zero (R174). -/
def dTyped2 (f : RRFields) (k : ITy → XDst → XSrc → Instr) : Option Instr :=
  chk (z f.b && z f.c && z f.m) do return k (← ITy.ofCode f.t) (← XDst.dec f.d) (← XSrc.dec f.a)

/-- RR form of a fixed TYPE with three sources; MASK zero (R168). -/
def dFix4 (ty : BitVec 8) (f : RRFields) (k : XDst → XSrc → XSrc → XSrc → Instr) : Option Instr :=
  chk (z f.m && f.t == ty) do return k (← XDst.dec f.d) (← XSrc.dec f.a) (← XSrc.dec f.b) (← XSrc.dec f.c)

/-- RR form of a fixed TYPE with two sources; C and MASK zero (R168). -/
def dFix3 (ty : BitVec 8) (f : RRFields) (k : XDst → XSrc → XSrc → Instr) : Option Instr :=
  chk (z f.c && z f.m && f.t == ty) do return k (← XDst.dec f.d) (← XSrc.dec f.a) (← XSrc.dec f.b)

/-- RR form of a fixed TYPE with one source; B, C and MASK zero (R168). -/
def dFix2 (ty : BitVec 8) (f : RRFields) (k : XDst → XSrc → Instr) : Option Instr :=
  chk (z f.b && z f.c && z f.m && f.t == ty) do return k (← XDst.dec f.d) (← XSrc.dec f.a)

/-- RI form with a source (R51). -/
def dRI (f : RIFields) (lit : Word) (k : XDst → XSrc → RImm → Instr) : Option Instr := do
  return k (← XDst.dec f.d) (← XSrc.dec f.a) (← RImm.dec f.sel f.imm lit)

/-- Waiting RR form: D zero, TYPE zero, reserved bits zero (R50, R337). -/
def dWait (f : RWFields) (k : XSrc → XSrc → WaitF → Instr) : Option Instr :=
  chk (z f.d && z f.t && z f.z) do return k (← XSrc.dec f.a) (← XSrc.dec f.b) (← waitDec f.dle f.stx)

/-- Waiting RR form with one source (R337). -/
def dWait1 (f : RWFields) (k : XSrc → WaitF → Instr) : Option Instr :=
  chk (z f.d && z f.b && z f.t && z f.z) do return k (← XSrc.dec f.a) (← waitDec f.dle f.stx)

/-- Vector form on an IEEE type with two sources (R228, R229). -/
def dV3 (f : RRFields) (k : FTy → VDst → VSrc → VSrc → Fin 16 → Instr) : Option Instr :=
  chk (z f.c) do return k (← FTy.ofCode f.t) (← VDst.dec f.d) (← VSrc.dec f.a) (← VSrc.dec f.b) f.m.toFin

/-- Vector form on an IEEE type with one source (R228). -/
def dV2 (f : RRFields) (k : FTy → VDst → VSrc → Fin 16 → Instr) : Option Instr :=
  chk (z f.b && z f.c) do return k (← FTy.ofCode f.t) (← VDst.dec f.d) (← VSrc.dec f.a) f.m.toFin

/-- Vector integer form with two sources (R228, R233). -/
def dVI3 (f : RRFields) (k : ITy → VDst → VSrc → VSrc → Fin 16 → Instr) : Option Instr :=
  chk (z f.c) do return k (← ITy.ofCode f.t) (← VDst.dec f.d) (← VSrc.dec f.a) (← VSrc.dec f.b) f.m.toFin

/-- VI form on an IEEE type (R228). -/
def dVIf (f : VIFields) (k : FTy → VDst → VSrc → BitVec 16 → Fin 16 → Instr) : Option Instr :=
  chk (z f.z) do return k (← FTy.ofCode f.t) (← VDst.dec f.d) (← VSrc.dec f.a) f.imm f.m.toFin

/-- VI form on an integer type (R228). -/
def dVIi (f : VIFields) (k : ITy → VDst → VSrc → BitVec 16 → Fin 16 → Instr) : Option Instr :=
  chk (z f.z) do return k (← ITy.ofCode f.t) (← VDst.dec f.d) (← VSrc.dec f.a) f.imm f.m.toFin

/-- Vector form on any type with two v sources and no use of C (R228). -/
def dVT3 (f : RRFields) (k : Ty → VDst → VSrc → VSrc → Fin 16 → Instr) : Option Instr :=
  chk (z f.c) do return k (← Ty.ofCode f.t) (← VDst.dec f.d) (← VSrc.dec f.a) (← VSrc.dec f.b) f.m.toFin

/-- Vector reduction on any type with one v source (R228). -/
def dVT2 (f : RRFields) (k : Ty → VDst → VSrc → Fin 16 → Instr) : Option Instr :=
  chk (z f.b && z f.c) do return k (← Ty.ofCode f.t) (← VDst.dec f.d) (← VSrc.dec f.a) f.m.toFin

/-- Mask form with two k sources; TYPE zero (R241). -/
def dK3 (f : RRFields) (k : KDst → KSrc → KSrc → Instr) : Option Instr :=
  chk (z f.c && z f.m && z f.t) do return k (← KDst.dec f.d) (← KSrc.dec f.a) (← KSrc.dec f.b)

/-- Mask form with one k source; TYPE zero (R241). -/
def dK2 (f : RRFields) (k : KDst → KSrc → Instr) : Option Instr :=
  chk (z f.b && z f.c && z f.m && z f.t) do return k (← KDst.dec f.d) (← KSrc.dec f.a)

/-- The address part of a MEM form (R52). -/
def memF (f : MEMFields) : Option MemF := do return ⟨← XSrc.dec f.base, f.off, f.sid.toFin⟩

/-- A MEM load or store: DLE and STX zero (R56). -/
def dMem {α : Type} (dec : BitVec 11 → Option α) (f : MEMFields) (k : α → MemF → OrdF → Instr) : Option Instr :=
  chk (z f.dle && z f.stx) do return k (← dec f.data) (← memF f) (ordDec f.ordm)

/-- A waiting MEM form of the LS space: ACQ and REL zero (R251). -/
def dMemW {α : Type} (dec : BitVec 11 → Option α) (f : MEMFields) (k : α → MemF → BitVec 2 → WaitF → Instr) :
    Option Instr :=
  chk (z (fld f.ordm 2 2)) do return k (← dec f.data) (← memF f) (fld f.ordm 0 2) (← waitDec f.dle f.stx)

/-- DATA of an atomic: a plain x register number, ROT and NWB zero (R82). -/
def atomData (f : BitVec 11) : Option (Fin 64) := toNum 64 f

/-- The RR-with-SID fields: [22:16] zero, SID at [15:12] (R79). -/
def sidOf (c : BitVec 11) : Option (Fin 16) := chk (z (fld c 4 7)) (some (fld c 0 4).toFin)

/-- The C field of an RR-with-SID form (R79). -/
def sidEnc (sid : Fin 16) : BitVec 11 := BitVec.ofNat 11 sid.val

/-- The token fields of a CP form (R53). -/
def cpTok (f : CPFields) : TokF := ⟨f.prod.toFin, f.c0.toFin, f.c1.toFin, f.c2.toFin⟩

/-- The token fields of a queued matrix form (R284). -/
def mxTok (f : RRFields) : TokF :=
  ⟨(fld f.d 4 4).toFin, (fld f.a 4 4).toFin, (fld f.b 4 4).toFin, f.m.toFin⟩

/-! ### The opcode maps (R76 to R81) -/

/-- The universal controls, in every class (R76, R135). -/
def dUniversal (w : Word) : Option Instr :=
  let f := ctOf w
  let dle := fld f.low 10 6
  let stx := fld f.low 4 6
  match (fld w 56 8).toNat with
  | 0xF0 => chk (z f.a && z f.gm && f.cc.toNat < 2 && z f.low) (some (.brc f.ix.toFin (f.cc == 1) f.off))
  | 0xF1 => chk (z f.a && z f.ix && z f.gm && z f.cc && z f.low) (some (.jmp f.off))
  | 0xF2 => chk (z f.a && z f.gm && z f.cc && z f.low) (some (.loop f.ix.toFin f.off))
  | 0xF3 => chk (z f.gm && z f.low) do
      let a ← XSrc.dec f.a
      match f.cc.toNat with
      | 0 => chk (z f.ix) (some (.loopx a .never f.off))
      | 1 => some (.loopx a (.set f.ix.toFin) f.off)
      | 2 => some (.loopx a (.clr f.ix.toFin) f.off)
      | _ => none
  | 0xF4 => chk (z f.off && z f.a && z f.gm && z f.cc && z f.low) (some (.cbset f.ix.toFin))
  | 0xF5 => chk (z f.off && z f.a && z f.gm && z f.cc && z f.low) (some (.cbclr f.ix.toFin))
  | 0xF6 => chk (z f.off && z f.a && z f.gm && f.cc.toNat < 2 && z (fld f.low 0 4)) do
      return .cbwait f.ix.toFin (f.cc == 1) (← waitDec dle stx)
  | 0xF7 => chk (z f.off && z f.a && z f.gm && z f.cc && z (fld f.low 0 4)) do
      return .cbtake f.ix.toFin (← waitDec dle stx)
  | 0xF8 => chk (z f.off && z f.a && z f.ix && z f.cc && z (fld f.low 0 4)) do
      return .join f.gm (← waitDec dle stx)
  | 0xF9 => chk (z f.off && z f.a && z f.ix && z f.gm && z f.cc && z f.low) (some .retire)
  | _ => none

/-- The SC0-only controls and loop-register moves (R77, R135, R148). -/
def dSc0 (w lit : Word) : Option Instr :=
  let f := ctOf w
  let r := rrOf w
  let b := fld f.low 4 11
  let zlow := z (fld f.low 0 4) && !f.low.getLsbD 15
  match (fld w 56 8).toNat with
  | 0xE0 => chk (z f.ix && z f.gm && zlow) do
      return .br (← BrCond.ofCode f.cc) (← XSrc.dec f.a) (← XSrc.dec b) f.off
  | 0xE1 => chk (z f.off && z f.ix && z f.gm && z f.cc && z f.low) do return .jmpr (← XSrc.dec f.a)
  | 0xE2 => chk (z f.ix && z f.gm && z f.cc && z f.low) do return .call (← toNum 64 f.a) f.off
  | 0xE3 => chk (z f.off && z f.ix && z f.gm && z f.cc && zlow) do
      return .callr (← toNum 64 f.a) (← XSrc.dec b)
  | 0xE4 => chk (z f.off && z f.ix && z f.gm && z f.cc && z f.low) do return .ret (← XSrc.dec f.a)
  | 0xE5 => chk (z f.a && z f.ix && z f.gm && z f.cc && z f.low) (some (.fork f.off lit))
  | 0xE6 => chk (z r.b && z r.c && z r.m && z r.t) do return .lcset (← toNum 32 r.d) (← XSrc.dec r.a)
  | 0xE7 => chk (z r.b && z r.c && z r.m && z r.t) do return .lcget (← XDst.dec r.d) (← toNum 32 r.a)
  | 0xE8 => chk (z f.a && z f.ix && z f.gm && z f.cc && z f.low) (some (.trap f.off))
  | 0xE9 => chk (z f.a && z f.ix && z f.gm && z f.cc && z f.low) (some (.brkpt f.off))
  | _ => none

/-- The integer part of the scalar space (R77). -/
def dScalarInt (w lit : Word) : Option Instr :=
  let f := rrOf w
  let r := riOf w
  match (fld w 56 8).toNat with
  | 0x01 => dTyped3 f .add
  | 0x02 => dTyped3 f .sub
  | 0x03 => dTyped3 f .mul
  | 0x04 => dTyped3 f .mulh
  | 0x05 => dTyped3 f .div
  | 0x06 => dTyped3 f .rem
  | 0x07 => dTyped3 f .and
  | 0x08 => dTyped3 f .or
  | 0x09 => dTyped3 f .xor
  | 0x0A => dTyped3 f .andn
  | 0x0B => dTyped3 f .shl
  | 0x0C => dTyped3 f .shr
  | 0x0D => dTyped3 f .sar
  | 0x0E => dTyped3 f .rol
  | 0x0F => dTyped3 f .min
  | 0x10 => dTyped3 f .max
  | 0x11 => dTyped2 f .abs
  | 0x12 => dTyped2 f .clz
  | 0x13 => dTyped2 f .ctz
  | 0x14 => dTyped2 f .popc
  | 0x15 => dTyped2 f .sext
  | 0x16 => dTyped2 f .zext
  | 0x17 => dTyped3 f .cmp
  | 0x18 => dFix4 0 f .sel
  | 0x19 => dFix2 0 f .mov
  | 0x1A => dFix4 0 f .pmake
  | 0x1B => dFix2 0 f .pspace
  | 0x1C => dFix2 0 f .prank
  | 0x1D => dFix3 0 f .padd
  | 0x41 => dRI r lit .addRI
  | 0x42 => dRI r lit .subRI
  | 0x43 => dRI r lit .mulRI
  | 0x47 => dRI r lit .andRI
  | 0x48 => dRI r lit .orRI
  | 0x49 => dRI r lit .xorRI
  | 0x4A => dRI r lit .andnRI
  | 0x4B => dRI r lit .shlRI
  | 0x4C => dRI r lit .shrRI
  | 0x4D => dRI r lit .sarRI
  | 0x4E => dRI r lit .rolRI
  | 0x4F => dRI r lit .minRI
  | 0x50 => dRI r lit .maxRI
  | 0x57 => dRI r lit .cmpRI
  | 0x59 => chk (z r.a) do return .moviI64 (← XDst.dec r.d) (← RImm.dec r.sel r.imm lit)
  | 0x5A => chk (z r.a) do return .moviN64 (← XDst.dec r.d) (← RImm.dec r.sel r.imm lit)
  | 0x5B => chk (r.sel.toNat < 2) do return .movk (← XDst.dec r.d) (← XSrc.dec r.a) (r.sel == 1) r.imm
  | 0x5C => dRI r lit .lea
  | 0x5D => dRI r lit .paddRI
  | _ => none

/-- The rest of the scalar space: floating point, system registers, waits and synchronisation (R77, R337). -/
def dScalarSys (w : Word) : Option Instr :=
  let f := rrOf w
  let r := riOf w
  let q := rwOf w
  match (fld w 56 8).toNat with
  | 0x20 => dFix3 0x10 f .fadd
  | 0x21 => dFix3 0x10 f .fsub
  | 0x22 => dFix3 0x10 f .fmul
  | 0x23 => dFix4 0x10 f .ffma
  | 0x24 => dFix3 0x10 f .fmin
  | 0x25 => dFix3 0x10 f .fmax
  | 0x26 => dFix3 0x10 f .fdiv
  | 0x27 => dFix2 0x10 f .fsqrt
  | 0x28 => chk (z f.c && z f.m && (fld f.b 8 3).toNat < 2) do
      return .fcvt (← Ty.ofCode f.t) (← Ty.ofCode (fld f.b 0 8)) (f.b.getLsbD 8) (← XDst.dec f.d) (← XSrc.dec f.a)
  | 0x29 => dFix3 0x10 f .fcmp
  | 0x30 => chk (z r.a && z r.sel && z (fld r.imm 12 20)) do
      return .mfs (← XDst.dec r.d) (← SysReg.ofIndex (fld r.imm 0 12))
  | 0x31 => chk (z r.d && z r.sel && z (fld r.imm 12 20)) do
      return .mts (← SysReg.ofIndex (fld r.imm 0 12)) (← XSrc.dec r.a)
  | 0x32 => chk (z f.b && z f.c && z f.m && (f.t == 0x08 || f.t == 0x04)) do
      return .dlmk (f.t == 0x04) (← XDst.dec f.d) (← XSrc.dec f.a)
  | 0x33 => chk (z f.a && z f.b && z f.c && z f.m && f.t == 0x08) do return .clkrd (← toNum 64 f.d)
  | 0x34 => chk (z (fld w 0 56)) (some .tfence)
  | 0x35 => chk (z f.d && z f.b && z f.c && z f.m && z f.t) do return .yield (← XSrc.dec f.a)
  | 0x36 => dWait q .enq
  | 0x60 => dWait q .step
  | 0x61 => chk (z f.d && z f.c && z f.m && z f.t) do return .barinit (← XSrc.dec f.a) (← XSrc.dec f.b)
  | 0x62 => dFix2 0 f .bararv
  | 0x63 => dWait q .barwt
  | 0x64 => dWait1 q .barsync
  | 0x65 => chk (z f.d && z f.b && z f.c && z f.m && z f.t) do return .barkill (← XSrc.dec f.a)
  | 0x66 => dWait q .qpush
  | 0x67 => chk (z q.b && z q.t && z q.z) do
      return .qpop (← XDst.dec q.d) (← XSrc.dec q.a) (← waitDec q.dle q.stx)
  | 0x68 => chk (z q.d && z q.t && z q.z && z (fld q.a 6 5) && !(q.a.getLsbD 4 && q.a.getLsbD 5)) do
      return .tkwait (fld q.a 0 4).toFin (if q.a.getLsbD 4 then .lt else .ge (q.a.getLsbD 5))
        (← XSrc.dec q.b) (← waitDec q.dle q.stx)
  | 0x69 => chk (z f.b && z f.c && z f.m && z f.t) do return .tkrd (← XDst.dec f.d) (← toNum 16 f.a)
  | 0x6A => dWait1 q .fence
  | _ => none

/-- The scalar space; the SC0-only codes are illegal in SC1 (R75, R77). -/
def dScalar (sc0 : Bool) (w lit : Word) : Option Instr :=
  let op := (fld w 56 8).toNat
  if op < 0x20 then dScalarInt w lit
  else if op < 0x40 then dScalarSys w
  else if op < 0x60 then dScalarInt w lit
  else if op < 0x80 then dScalarSys w
  else if op < 0xF0 then (if sc0 then dSc0 w lit else none)
  else dUniversal w

/-- The floating and comparison part of the vector space (R78, R228). -/
def dVecF (w : Word) : Option Instr :=
  let f := rrOf w
  match (fld w 56 8).toNat with
  | 0x01 => dV3 f .vadd
  | 0x02 => dV3 f .vsub
  | 0x03 => dV3 f .vmul
  | 0x04 => do
      return .vfma (← FTy.ofCode f.t) (← VDst.dec f.d) (← VSrc.dec f.a) (← VSrc.dec f.b) (← VSrc.dec f.c) f.m.toFin
  | 0x05 => dV3 f .vmin
  | 0x06 => dV3 f .vmax
  | 0x07 => dV2 f .vabs
  | 0x08 => dV2 f .vneg
  | 0x09 => dV2 f .vrcp
  | 0x0A => dV2 f .vrsq
  | 0x0B => dV2 f .vexp2
  | 0x0C => dV2 f .vlog2
  | 0x0D => chk (z (fld f.c 3 8)) do
      return .vcmp (fld f.c 0 3).toFin (← Ty.ofCode f.t) (← KDst.dec f.d) (← VSrc.dec f.a) (← VSrc.dec f.b) f.m.toFin
  | 0x0E => do
      return .vsel (← Ty.ofCode f.t) (← VDst.dec f.d) (← VSrc.dec f.a) (← VSrc.dec f.b) (← KSrc.dec f.c) f.m.toFin
  | 0x10 => dVI3 f .viadd
  | 0x11 => dVI3 f .visub
  | 0x12 => dVI3 f .vimul
  | 0x13 => dVI3 f .vand
  | 0x14 => dVI3 f .vor
  | 0x15 => dVI3 f .vxor
  | 0x16 => dVI3 f .vshl
  | 0x17 => dVI3 f .vshr
  | 0x18 => dVI3 f .vsar
  | _ => none

/-- The conversions, reductions, moves and mask forms of the vector space (R78, R228). -/
def dVecM (w : Word) : Option Instr :=
  let f := rrOf w
  match (fld w 56 8).toNat with
  | 0x20 => chk ((fld f.b 8 3).toNat < 2 && z (fld f.c 2 9)) do
      return .vcvt (← Ty.ofCode f.t) (← Ty.ofCode (fld f.b 0 8)) (f.b.getLsbD 8) (fld f.c 0 2).toFin
        (← VDst.dec f.d) (← VSrc.dec f.a) f.m.toFin
  | 0x21 => chk (z (fld f.b 8 3) && z (fld f.c 6 5) && z f.m && (fld f.b 0 8 == 0x10 || fld f.b 0 8 == 0x12)) do
      return .vqnt (← Ty.ofCode f.t) (fld f.b 0 8 == 0x12) (← VDst.dec f.d) (← VSrc.dec f.a) (fld f.c 0 6).toFin
  | 0x22 => chk (z (fld f.c 10 1) && (f.t == 0x10 || f.t == 0x12)) do
      return .vdqnt (f.t == 0x12) (← Ty.ofCode (fld f.c 2 8)) (fld f.c 0 2).toFin (← VDst.dec f.d) (← VSrc.dec f.a)
        (← XSrc.dec f.b) f.m.toFin
  | 0x28 => dVT2 f .vrsum
  | 0x29 => dVT2 f .vrmax
  | 0x2A => dVT2 f .vrmin
  | 0x30 => dVT3 f .vperm
  | 0x31 => chk (z f.b && z f.c) do
      return .vbcast (← Ty.ofCode f.t) (← VDst.dec f.d) (← XSrc.dec f.a) f.m.toFin
  | 0x32 => do
      return .vslide (← Ty.ofCode f.t) (← VDst.dec f.d) (← VSrc.dec f.a) (← VSrc.dec f.b) (← XSrc.dec f.c) f.m.toFin
  | 0x33 => chk (z (fld f.c 1 10)) do
      return .vzip (← Ty.ofCode f.t) (f.c.getLsbD 0) (← VDst.dec f.d) (← VSrc.dec f.a) (← VSrc.dec f.b) f.m.toFin
  | 0x34 => chk (z (fld f.c 1 10)) do
      return .vunzip (← Ty.ofCode f.t) (f.c.getLsbD 0) (← VDst.dec f.d) (← VSrc.dec f.a) (← VSrc.dec f.b) f.m.toFin
  | 0x38 => chk (z f.c && z (fld f.b 4 7)) do
      let t ← Ty.ofCode f.t
      let d ← VDst.dec f.d
      if f.b.getLsbD 3 then chk (z f.a) (some (.vmov t d (.inr (fld f.b 0 3).toFin) f.m.toFin))
      else chk (z f.b) ((VSrc.dec f.a).map fun a => .vmov t d (.inl a) f.m.toFin)
  | 0x39 => chk (z f.c) do
      return .vins (← Ty.ofCode f.t) (← VDst.dec f.d) (← XSrc.dec f.a) (← XSrc.dec f.b) f.m.toFin
  | 0x3A => chk (z f.c && z f.m) do
      return .vext (← Ty.ofCode f.t) (← XDst.dec f.d) (← VSrc.dec f.a) (← XSrc.dec f.b)
  | 0x3C => chk (z f.c) do
      return .vrng (← Ty.ofCode f.t) (← VDst.dec f.d) (← XSrc.dec f.a) (← XSrc.dec f.b) f.m.toFin
  | 0x40 => dK3 f .kand
  | 0x41 => dK3 f .kor
  | 0x42 => dK3 f .kxor
  | 0x43 => dK2 f .knot
  | 0x44 => chk (z f.b && z f.c && z f.m) do return .kpop (← Ty.ofCode f.t) (← XDst.dec f.d) (← KSrc.dec f.a)
  | 0x45 => dK2 f .kmov
  | _ => none

/-- The VI forms of the vector space (R78, R228). -/
def dVecI (w : Word) : Option Instr :=
  let f := viOf w
  match (fld w 56 8).toNat with
  | 0x81 => dVIf f .vaddVI
  | 0x82 => dVIf f .vsubVI
  | 0x83 => dVIf f .vmulVI
  | 0x85 => dVIf f .vminVI
  | 0x86 => dVIf f .vmaxVI
  | 0x90 => dVIi f .viaddVI
  | 0x91 => dVIi f .visubVI
  | 0x92 => dVIi f .vimulVI
  | 0x93 => dVIi f .vandVI
  | 0x94 => dVIi f .vorVI
  | 0x95 => dVIi f .vxorVI
  | 0x96 => dVIi f .vshlVI
  | 0x97 => dVIi f .vshrVI
  | 0x98 => dVIi f .vsarVI
  | 0xB8 => chk (z f.z && z f.a) do return .vmovVI (← Ty.ofCode f.t) (← VDst.dec f.d) f.imm f.m.toFin
  | _ => none

/-- The vector space (R78). -/
def dVector (w : Word) : Option Instr :=
  let op := (fld w 56 8).toNat
  if op < 0x20 then dVecF w
  else if op < 0x80 then dVecM w
  else if op < 0xF0 then dVecI w
  else dUniversal w

/-- The load/store space (R79, R82). -/
def dLs (w : Word) : Option Instr :=
  let f := memOf w
  let r := rrOf w
  let op := fld w 56 8
  if op.toNat < 0x30 then
    match op.toNat with
    | 0x01 => dMem VDst.dec f .vld
    | 0x02 => dMem VDst.dec f .vldd
    | 0x03 => dMem VSrc.dec f .vst
    | 0x04 => dMem VSrc.dec f .vste
    | 0x05 => do return .vlds (← Ty.ofCode r.t) (← VDst.dec r.d) (← XSrc.dec r.a) (← XSrc.dec r.b) (← sidOf r.c) r.m.toFin
    | 0x06 => chk (!r.d.getLsbD 9) do
        return .vsts (← Ty.ofCode r.t) (← VSrc.dec r.d) (← XSrc.dec r.a) (← XSrc.dec r.b) (← sidOf r.c) r.m.toFin
    | 0x07 => do return .vgth (← Ty.ofCode r.t) (← VDst.dec r.d) (← XSrc.dec r.a) (← VSrc.dec r.b) (← sidOf r.c) r.m.toFin
    | 0x08 => chk (!r.d.getLsbD 9) do
        return .vsct (← Ty.ofCode r.t) (← VSrc.dec r.d) (← XSrc.dec r.a) (← VSrc.dec r.b) (← sidOf r.c) r.m.toFin
    | 0x10 => dMem XDst.dec f (.xld .i8)
    | 0x11 => dMem XDst.dec f (.xld .i16)
    | 0x12 => dMem XDst.dec f (.xld .i32)
    | 0x13 => dMem XDst.dec f (.xld .i64)
    | 0x14 => dMem XDst.dec f (.xld .n8)
    | 0x15 => dMem XDst.dec f (.xld .n16)
    | 0x16 => dMem XDst.dec f (.xld .n32)
    | 0x18 => dMem XSrc.dec f (.xst 0)
    | 0x19 => dMem XSrc.dec f (.xst 1)
    | 0x1A => dMem XSrc.dec f (.xst 2)
    | 0x1B => dMem XSrc.dec f (.xst 3)
    | 0x20 => dMemW XDst.dec f .ldf
    | 0x21 => dMemW XSrc.dec f .ste
    | 0x22 => dMemW XDst.dec f .few
    | 0x23 => chk (z f.dle && z f.stx && z (fld f.ordm 0 2)) do
        return .feq (FeqOp.ofCode (fld f.ordm 2 2)) (← XDst.dec f.data) (← memF f)
    | _ => none
  else if op.toNat < 0x40 then
    dMem atomData f (.latom (AtomOp.ofCode (fld op 0 3)) (op.getLsbD 3))
  else dUniversal w

/-- The matrix space (R80, R284, R290 to R299). -/
def dMx (w : Word) : Option Instr :=
  let f := rrOf w
  let q := rwOf w
  let tok := mxTok f
  match (fld w 56 8).toNat with
  | 0x01 => chk (z q.d && z q.b && z q.t && z q.z && z (fld q.a 8 3)) do
      return .omclaim (fld q.a 0 8) (← waitDec q.dle q.stx)
  | 0x02 => chk (z (fld f.c 8 3) && z (fld f.d 0 4) && z (fld f.d 8 3) && z (fld f.a 0 4) && z (fld f.a 8 3)
        && z (fld f.b 0 4) && z (fld f.b 8 3) && z f.t) (some (.omrel (fld f.c 0 8) tok))
  | 0x03 => chk (z (fld f.d 0 4) && z (fld f.d 8 3) && !f.a.getLsbD 3 && z (fld f.a 8 3) && z (fld f.b 0 4)
        && z (fld f.b 8 3) && z f.t) do return .omld (fld f.a 0 3).toFin (← XSrc.dec f.c) tok
  | 0x08 => chk (z (fld f.d 8 3) && z (fld f.a 8 3) && z (fld f.b 8 3) && z (fld f.c 8 3)) do
      return .mma (← Ty.ofCode f.t) (← Ty.ofCode (fld f.c 0 8)) (← toNum 10 (fld f.d 0 4)) (fld f.a 0 3).toFin
        (fld f.b 0 3).toFin (f.a.getLsbD 3) (f.b.getLsbD 3) tok
  | 0x09 => chk (z (fld f.d 8 3) && z (fld f.a 0 4) && z (fld f.a 8 3) && z (fld f.b 0 4) && z (fld f.b 8 3)
        && z f.c && z f.t) do return .mzero (← toNum 10 (fld f.d 0 4)) tok
  | 0x0A => chk (z (fld f.d 9 2) && z (fld f.a 0 4) && z (fld f.a 8 3) && z (fld f.b 0 4) && z (fld f.b 8 3)
        && z f.t) do return .mdrain (← toNum 10 (fld f.d 0 4)) (f.d.getLsbD 8) (← XSrc.dec f.c) tok
  | 0x0B => chk (z (fld f.d 8 3) && z (fld f.a 0 4) && z (fld f.a 8 3) && z (fld f.b 0 4) && z (fld f.b 8 3)
        && z f.t) do return .macld (← toNum 10 (fld f.d 0 4)) (← XSrc.dec f.c) tok
  | 0x0C => chk (z (fld f.a 4 7) && z f.b && z f.c && z (fld f.m 1 3) && z f.t) do
      return .mstat (← XDst.dec f.d) (← toNum 10 (fld f.a 0 4)) (f.m.getLsbD 0)
  | op => if op < 0xF0 then none else dUniversal w

/-- The engine commands of the copy space (R81, R273 to R277, R302, R349). -/
def dCpCmd (w lit : Word) : Option Instr :=
  let f := cpOf w
  let r := rrOf w
  match (fld w 56 8).toNat with
  | 0x01 => chk (z (fld f.flags 2 3)) (some
      (.copy f.src.toFin f.dst.toFin f.shp.toFin f.cmask f.oms.toFin (cpTok f) f.sid.toFin (f.flags.getLsbD 0)
        (f.flags.getLsbD 1)))
  | 0x02 => chk (z (fld f.flags 2 3)) (some
      (.copym f.src.toFin f.dst.toFin f.shp.toFin f.cmask f.oms.toFin (cpTok f) f.sid.toFin (f.flags.getLsbD 0)
        (f.flags.getLsbD 1) lit))
  | 0x08 => chk (z r.b && z r.c && z r.m && z r.t) do return .stbind (← toNum 8 r.d) (← XSrc.dec r.a)
  | 0x09 => chk (z r.a && z r.b && z r.c && z r.m && z r.t) do return .stdrop (← toNum 8 r.d)
  | 0x0A => chk (z r.b && z r.c && z r.m && z r.t) do return .ststat (← XDst.dec r.d) (← toNum 8 r.a)
  | 0x0B => chk (z r.b && z r.c && z r.m && z r.t && z (fld r.a 2 9)) do
      return .cpcancel (← XDst.dec r.d) (fld r.a 0 2)
  | 0x10 => chk (f.cmask == 1 && z f.oms && z f.flags) do
      return .selp f.src.toFin f.dst.toFin (← toNum 32 f.shp) (cpTok f) f.sid.toFin
  | 0x11 => chk (f.cmask == 1 && z f.oms && z f.flags) do
      return .selk f.src.toFin f.dst.toFin (← toNum 32 f.shp) (cpTok f) f.sid.toFin
  | 0x18 => chk (z (fld f.cmask 0 4) && z f.oms && z (fld f.flags 1 4)) (
      let flg := fld f.cmask 4 6
      if f.flags.getLsbD 0 then some (.rput f.src.toFin f.dst.toFin f.shp.toFin (some flg.toFin) (cpTok f) f.sid.toFin)
      else chk (z flg) (some (.rput f.src.toFin f.dst.toFin f.shp.toFin none (cpTok f) f.sid.toFin)))
  | _ => none

/-- The slot accesses of the copy space (R81, R82, R319 to R323, R351). -/
def dCpMem (w : Word) : Option Instr :=
  let f := memOf w
  let r := rrOf w
  let op := fld w 56 8
  if op.toNat < 0x30 then
    match op.toNat with
    | 0x20 => dMem XDst.dec f (.gld .i8)
    | 0x21 => dMem XDst.dec f (.gld .i16)
    | 0x22 => dMem XDst.dec f (.gld .i32)
    | 0x23 => dMem XDst.dec f (.gld .i64)
    | 0x24 => dMem XDst.dec f (.gld .n8)
    | 0x25 => dMem XDst.dec f (.gld .n16)
    | 0x26 => dMem XDst.dec f (.gld .n32)
    | 0x28 => dMem XSrc.dec f (.gst 0)
    | 0x29 => dMem XSrc.dec f (.gst 1)
    | 0x2A => dMem XSrc.dec f (.gst 2)
    | 0x2B => dMem XSrc.dec f (.gst 3)
    | 0x2C => chk (z f.data && z f.sid && z f.dle && z f.stx && z f.ordm) do return .pref (← XSrc.dec f.base) f.off
    | 0x2E => chk (z r.b && z r.m && z r.t) do return .ldmeta (← XDst.dec r.d) (← XSrc.dec r.a) (← sidOf r.c)
    | 0x2F => chk (z r.d && z r.m && z r.t) do return .stmeta (← XSrc.dec r.a) (← XSrc.dec r.b) (← sidOf r.c)
    | _ => none
  else if op.toNat < 0x40 then
    dMem atomData f (.gatom (AtomOp.ofCode (fld op 0 3)) (op.getLsbD 3))
  else if op.toNat < 0x50 then
    (RedOp.ofCode (fld op 0 4)).bind fun k => dMem XSrc.dec f (.gred k)
  else if op.toNat < 0x60 then
    chk (z f.ordm) do
      return .scatom (AtomOp.ofCode (fld op 0 3)) (op.getLsbD 3) (← atomData f.data) (← memF f)
        (← waitDec f.dle f.stx)
  else none

/-- The copy space (R81). -/
def dCp (w lit : Word) : Option Instr :=
  let op := (fld w 56 8).toNat
  if op < 0x20 then dCpCmd w lit
  else if op < 0xF0 then dCpMem w
  else dUniversal w

/-- The decoder of one syllable in a slot (R48, R75): `lit` is the literal word it consumes, if it consumes one
(R58). `none` is the trap ILLEGAL. -/
def decodeSyl (slot : Fin 8) (w lit : Word) : Option Instr :=
  let i := match slot.val with
    | 0 => dScalar true w lit
    | 1 => dScalar false w lit
    | 2 | 3 => dVector w
    | 4 => dLs w
    | 5 => dMx w
    | _ => dCp w lit
  i.bind fun i => if i.wellFormed then some i else none

/-- Is a code of the scalar space one of format RI (R77)? -/
def isRi (op : Nat) : Bool :=
  op == 0x30 || op == 0x31 || (decide (0x41 ≤ op) && decide (op ≤ 0x43)) || (decide (0x47 ≤ op) && decide (op ≤ 0x50))
    || op == 0x57 || (decide (0x59 ≤ op) && decide (op ≤ 0x5D))

/-- The number of literal words that a new syllable takes in a slot (R58). MFS and MTS with SEL 0b10 take one before they
raise ILLEGAL (R185, R186), and FORK takes one in SC1 too, where it raises ILLEGAL (R75; log 93); a code that R77 does not
assign is of no form and takes none (DEDUCED, log 90). -/
def litCount (slot : Fin 8) (w : Word) : Nat :=
  let op := (fld w 56 8).toNat
  if slot.val < 2 ∧ op = 0xE5 then 1
  else if slot.val < 2 ∧ isRi op ∧ fld w 32 2 = 2 then 1
  else if 6 ≤ slot.val ∧ op = 0x02 then 1
  else 0

/-! ### Header words (R35, R45, R59) -/

/-- A header of a lockstep or group bundle (R35). -/
structure Header where
  group : Bool
  gap : Fin 16
  mode : BitVec 16
  dinc : BitVec 12
  lit : Fin 3
  deriving DecidableEq, Repr

/-- MODE of a slot: 0 empty, 1 new, 2 repeat, 3 repeat with increment (R36). -/
def Header.slotMode (h : Header) (s : Fin 8) : Nat := (fld h.mode (2 * s.val) 2).toNat

/-- Number of new syllables of a bundle (R37). -/
def Header.news (h : Header) : Nat := ((List.finRange 8).filter fun s => h.slotMode s == 1).length

/-- Bytes that a bundle occupies (R37). -/
def Header.bytes (h : Header) : Nat := 8 * (1 + h.news + h.lit.val)

/-- Decode a header word; a word that breaks R59, and a loop header, is no header of a bundle. -/
def decodeHeader (w : Word) : Option Header :=
  let lit := fld w 28 2
  if (fld w 62 2).toNat < 2 ∧ lit.toNat < 3 ∧ fld w 0 28 = 0 then
    some ⟨w.getLsbD 62, (fld w 58 4).toFin, fld w 42 16, fld w 30 12, Fin.ofNat 3 lit.toNat⟩
  else none

/-- The word of a bundle header (R35). -/
def encodeHeader (h : Header) : Word :=
  BitVec.ofBool false ++ BitVec.ofBool h.group ++ (BitVec.ofFin h.gap : BitVec 4) ++ h.mode ++ h.dinc ++ BitVec.ofNat 2 h.lit.val
    ++ (0 : BitVec 28)

/-- One rotation entry of a loop header (R45). -/
structure Ring where
  vec : Bool
  base : Nat
  len : Nat
  deriving DecidableEq, Repr

/-- The entry of a loop header at index `j` (R45). -/
def ringAt (w : Word) (j : Nat) : BitVec 14 := fld w (14 * j) 14

/-- The ring that a 14-bit entry holds (R45). -/
def ringOf (e : BitVec 14) : Ring := ⟨e.getLsbD 13, (fld e 4 9).toNat, (fld e 0 4).toNat + 1⟩

/-- R46: an x ring lies within x1 to x63; a v ring lies within one bank. -/
def Ring.ok (r : Ring) : Bool :=
  if r.vec then r.base + r.len ≤ 384 && r.base / 48 == (r.base + r.len - 1) / 48
  else 1 ≤ r.base && r.base + r.len ≤ 64

/-- Two rings share no register (R46). -/
def Ring.disjoint (a b : Ring) : Bool :=
  a.vec != b.vec || a.base + a.len ≤ b.base || b.base + b.len ≤ a.base

/-- Decode a loop header (R45, R46, R59): `none` when the word breaks a rule. -/
def decodeLoopHeader (w : Word) : Option (List Ring) :=
  let n := (fld w 58 4).toNat
  let rings := (List.range n).map fun j => ringOf (ringAt w j)
  if fld w 62 2 = 2 ∧ fld w 56 2 = 0 ∧ n ≤ 4 ∧ ((List.range 4).all fun j => decide (j < n) || ringAt w j == 0)
      ∧ rings.all Ring.ok ∧ rings.Pairwise (fun a b => a.disjoint b = true)
  then some rings else none

/-! ### The encoder -/

/-- The token fields of an RR matrix word added to its other contents (R284). -/
def mxWord (op : BitVec 8) (tok : TokF) (d a b : BitVec 4) (dhi : BitVec 3) (c : BitVec 11) (t : BitVec 8) : Word :=
  rrWord op ⟨dhi ++ (BitVec.ofFin tok.prod : BitVec 4) ++ d, (0 : BitVec 3) ++ (BitVec.ofFin tok.cons0 : BitVec 4) ++ a,
    (0 : BitVec 3) ++ (BitVec.ofFin tok.cons1 : BitVec 4) ++ b, c, BitVec.ofFin tok.cons2, t⟩

/-- The CP word of a copy command (R53). -/
def cpCmd (op : BitVec 8) (src dst shp : Fin 64) (cmask : BitVec 10) (oms : Fin 8) (tok : TokF) (sid : Fin 16)
    (flags : BitVec 5) : Word :=
  cpWord op ⟨BitVec.ofFin src, BitVec.ofFin dst, BitVec.ofFin shp, cmask, BitVec.ofFin oms, BitVec.ofFin tok.prod,
    BitVec.ofFin tok.cons0, BitVec.ofFin tok.cons1, BitVec.ofFin tok.cons2, BitVec.ofFin sid, flags⟩

/-- The MEM word of a non-waiting access (R52). -/
def memOp (op : BitVec 8) (data : BitVec 11) (m : MemF) (ordm : BitVec 4) : Word :=
  memWord op ⟨data, m.base.enc, m.off, BitVec.ofFin m.sid, 0, 0, ordm⟩

/-- The MEM word of a waiting access (R52, R56). -/
def memOpW (op : BitVec 8) (data : BitVec 11) (m : MemF) (ordm : BitVec 4) (w : WaitF) : Word :=
  memWord op ⟨data, m.base.enc, m.off, BitVec.ofFin m.sid, w.dle.enc, BitVec.ofFin w.stx, ordm⟩

/-- The RR word with two sources and a type (R49). -/
def rr3 (op : BitVec 8) (d a b : BitVec 11) (t : BitVec 8) : Word := rrWord op ⟨d, a, b, 0, 0, t⟩

/-- The vector RR word (R49). -/
def vv (op : BitVec 8) (d a b c : BitVec 11) (m : Fin 16) (t : BitVec 8) : Word :=
  rrWord op ⟨d, a, b, c, BitVec.ofFin m, t⟩

/-- The VI word (R49). -/
def vi (op : BitVec 8) (d a : BitVec 11) (i : BitVec 16) (m : Fin 16) (t : BitVec 8) : Word :=
  viWord op ⟨d, a, i, 0, BitVec.ofFin m, t⟩

/-- The RI word of an immediate (R51). -/
def ri (op : BitVec 8) (d a : BitVec 11) (i : RImm) : Word := riWord op ⟨d, a, i.sel, i.field⟩

/-- The waiting RR word (R50). -/
def rw3 (op : BitVec 8) (d a b : BitVec 11) (w : WaitF) : Word :=
  rwWord op ⟨d, a, b, w.dle.enc, BitVec.ofFin w.stx, 0, 0⟩

/-- The low half word of a waiting CT form (R49). -/
def ctWait (w : WaitF) : BitVec 16 := w.dle.enc ++ (BitVec.ofFin w.stx : BitVec 6) ++ (0 : BitVec 4)

/-- The low half word of a CT form with a B source (R49). -/
def ctB (b : XSrc) : BitVec 16 := (0 : BitVec 1) ++ b.enc ++ (0 : BitVec 4)

/-- The 11-bit field that holds a small number alone (R148, R274). -/
def num11 (n : Nat) : BitVec 11 := BitVec.ofNat 11 n

/-- The opcode of a 16-code atomic range (R82). -/
def atomCode (base : BitVec 4) (op : AtomOp) (w64 : Bool) : BitVec 8 := base ++ BitVec.ofBool w64 ++ op.code

/-- The word of a slot form and the literal words that it consumes (R58); `none` for the device's events. -/
def encode : Instr → Option (Word × List Word)
  | .brc cb clr off => some (ctWord 0xF0 ⟨off, 0, BitVec.ofFin cb, 0, if clr then 1 else 0, 0⟩, [])
  | .jmp off => some (ctWord 0xF1 ⟨off, 0, 0, 0, 0, 0⟩, [])
  | .loop lc off => some (ctWord 0xF2 ⟨off, 0, BitVec.ofFin lc, 0, 0, 0⟩, [])
  | .loopx a .never off => some (ctWord 0xF3 ⟨off, a.enc, 0, 0, 0, 0⟩, [])
  | .loopx a (.set cb) off => some (ctWord 0xF3 ⟨off, a.enc, BitVec.ofFin cb, 0, 1, 0⟩, [])
  | .loopx a (.clr cb) off => some (ctWord 0xF3 ⟨off, a.enc, BitVec.ofFin cb, 0, 2, 0⟩, [])
  | .cbset cb => some (ctWord 0xF4 ⟨0, 0, BitVec.ofFin cb, 0, 0, 0⟩, [])
  | .cbclr cb => some (ctWord 0xF5 ⟨0, 0, BitVec.ofFin cb, 0, 0, 0⟩, [])
  | .cbwait cb clr w => some (ctWord 0xF6 ⟨0, 0, BitVec.ofFin cb, 0, if clr then 1 else 0, ctWait w⟩, [])
  | .cbtake cb w => some (ctWord 0xF7 ⟨0, 0, BitVec.ofFin cb, 0, 0, ctWait w⟩, [])
  | .join gm w => some (ctWord 0xF8 ⟨0, 0, 0, gm, 0, ctWait w⟩, [])
  | .retire => some (ctWord 0xF9 ⟨0, 0, 0, 0, 0, 0⟩, [])
  | .br cc a b off => some (ctWord 0xE0 ⟨off, a.enc, 0, 0, cc.code, ctB b⟩, [])
  | .jmpr a => some (ctWord 0xE1 ⟨0, a.enc, 0, 0, 0, 0⟩, [])
  | .call l off => some (ctWord 0xE2 ⟨off, num11 l.val, 0, 0, 0, 0⟩, [])
  | .callr l b => some (ctWord 0xE3 ⟨0, num11 l.val, 0, 0, 0, ctB b⟩, [])
  | .ret a => some (ctWord 0xE4 ⟨0, a.enc, 0, 0, 0, 0⟩, [])
  | .fork map ents => some (ctWord 0xE5 ⟨map, 0, 0, 0, 0, 0⟩, [ents])
  | .lcset lc a => some (rr3 0xE6 (num11 lc.val) a.enc 0 0, [])
  | .lcget d lc => some (rr3 0xE7 d.enc (num11 lc.val) 0 0, [])
  | .trap code => some (ctWord 0xE8 ⟨code, 0, 0, 0, 0, 0⟩, [])
  | .brkpt code => some (ctWord 0xE9 ⟨code, 0, 0, 0, 0, 0⟩, [])
  | .add t d a b => some (rr3 0x01 d.enc a.enc b.enc t.code, [])
  | .sub t d a b => some (rr3 0x02 d.enc a.enc b.enc t.code, [])
  | .mul t d a b => some (rr3 0x03 d.enc a.enc b.enc t.code, [])
  | .mulh t d a b => some (rr3 0x04 d.enc a.enc b.enc t.code, [])
  | .div t d a b => some (rr3 0x05 d.enc a.enc b.enc t.code, [])
  | .rem t d a b => some (rr3 0x06 d.enc a.enc b.enc t.code, [])
  | .and t d a b => some (rr3 0x07 d.enc a.enc b.enc t.code, [])
  | .or t d a b => some (rr3 0x08 d.enc a.enc b.enc t.code, [])
  | .xor t d a b => some (rr3 0x09 d.enc a.enc b.enc t.code, [])
  | .andn t d a b => some (rr3 0x0A d.enc a.enc b.enc t.code, [])
  | .shl t d a b => some (rr3 0x0B d.enc a.enc b.enc t.code, [])
  | .shr t d a b => some (rr3 0x0C d.enc a.enc b.enc t.code, [])
  | .sar t d a b => some (rr3 0x0D d.enc a.enc b.enc t.code, [])
  | .rol t d a b => some (rr3 0x0E d.enc a.enc b.enc t.code, [])
  | .min t d a b => some (rr3 0x0F d.enc a.enc b.enc t.code, [])
  | .max t d a b => some (rr3 0x10 d.enc a.enc b.enc t.code, [])
  | .abs t d a => some (rr3 0x11 d.enc a.enc 0 t.code, [])
  | .clz t d a => some (rr3 0x12 d.enc a.enc 0 t.code, [])
  | .ctz t d a => some (rr3 0x13 d.enc a.enc 0 t.code, [])
  | .popc t d a => some (rr3 0x14 d.enc a.enc 0 t.code, [])
  | .sext t d a => some (rr3 0x15 d.enc a.enc 0 t.code, [])
  | .zext t d a => some (rr3 0x16 d.enc a.enc 0 t.code, [])
  | .cmp t d a b => some (rr3 0x17 d.enc a.enc b.enc t.code, [])
  | .sel d a b c => some (rrWord 0x18 ⟨d.enc, a.enc, b.enc, c.enc, 0, 0⟩, [])
  | .mov d a => some (rr3 0x19 d.enc a.enc 0 0, [])
  | .pmake d a b c => some (rrWord 0x1A ⟨d.enc, a.enc, b.enc, c.enc, 0, 0⟩, [])
  | .pspace d a => some (rr3 0x1B d.enc a.enc 0 0, [])
  | .prank d a => some (rr3 0x1C d.enc a.enc 0 0, [])
  | .padd d a b => some (rr3 0x1D d.enc a.enc b.enc 0, [])
  | .addRI d a i => some (ri 0x41 d.enc a.enc i, i.lits)
  | .subRI d a i => some (ri 0x42 d.enc a.enc i, i.lits)
  | .mulRI d a i => some (ri 0x43 d.enc a.enc i, i.lits)
  | .andRI d a i => some (ri 0x47 d.enc a.enc i, i.lits)
  | .orRI d a i => some (ri 0x48 d.enc a.enc i, i.lits)
  | .xorRI d a i => some (ri 0x49 d.enc a.enc i, i.lits)
  | .andnRI d a i => some (ri 0x4A d.enc a.enc i, i.lits)
  | .shlRI d a i => some (ri 0x4B d.enc a.enc i, i.lits)
  | .shrRI d a i => some (ri 0x4C d.enc a.enc i, i.lits)
  | .sarRI d a i => some (ri 0x4D d.enc a.enc i, i.lits)
  | .rolRI d a i => some (ri 0x4E d.enc a.enc i, i.lits)
  | .minRI d a i => some (ri 0x4F d.enc a.enc i, i.lits)
  | .maxRI d a i => some (ri 0x50 d.enc a.enc i, i.lits)
  | .cmpRI d a i => some (ri 0x57 d.enc a.enc i, i.lits)
  | .moviI64 d i => some (ri 0x59 d.enc 0 i, i.lits)
  | .moviN64 d i => some (ri 0x5A d.enc 0 i, i.lits)
  | .movk d a hi v => some (riWord 0x5B ⟨d.enc, a.enc, if hi then 1 else 0, v⟩, [])
  | .lea d a i => some (ri 0x5C d.enc a.enc i, i.lits)
  | .paddRI d a i => some (ri 0x5D d.enc a.enc i, i.lits)
  | .fadd d a b => some (rr3 0x20 d.enc a.enc b.enc 0x10, [])
  | .fsub d a b => some (rr3 0x21 d.enc a.enc b.enc 0x10, [])
  | .fmul d a b => some (rr3 0x22 d.enc a.enc b.enc 0x10, [])
  | .ffma d a b c => some (rrWord 0x23 ⟨d.enc, a.enc, b.enc, c.enc, 0, 0x10⟩, [])
  | .fmin d a b => some (rr3 0x24 d.enc a.enc b.enc 0x10, [])
  | .fmax d a b => some (rr3 0x25 d.enc a.enc b.enc 0x10, [])
  | .fdiv d a b => some (rr3 0x26 d.enc a.enc b.enc 0x10, [])
  | .fsqrt d a => some (rr3 0x27 d.enc a.enc 0 0x10, [])
  | .fcvt dt st rtz d a =>
    some (rr3 0x28 d.enc a.enc ((0 : BitVec 2) ++ BitVec.ofBool rtz ++ st.code) dt.code, [])
  | .fcmp d a b => some (rr3 0x29 d.enc a.enc b.enc 0x10, [])
  | .mfs d r => some (riWord 0x30 ⟨d.enc, 0, 0, (0 : BitVec 20) ++ r.index⟩, [])
  | .mts r a => some (riWord 0x31 ⟨0, a.enc, 0, (0 : BitVec 20) ++ r.index⟩, [])
  | .dlmk wall d a => some (rr3 0x32 d.enc a.enc 0 (if wall then 0x04 else 0x08), [])
  | .clkrd d => some (rr3 0x33 (num11 d.val) 0 0 0x08, [])
  | .tfence => some (rr3 0x34 0 0 0 0, [])
  | .yield a => some (rr3 0x35 0 a.enc 0 0, [])
  | .enq a b w => some (rw3 0x36 0 a.enc b.enc w, [])
  | .step a b w => some (rw3 0x60 0 a.enc b.enc w, [])
  | .barinit a b => some (rr3 0x61 0 a.enc b.enc 0, [])
  | .bararv d a => some (rr3 0x62 d.enc a.enc 0 0, [])
  | .barwt a b w => some (rw3 0x63 0 a.enc b.enc w, [])
  | .barsync a w => some (rw3 0x64 0 a.enc 0 w, [])
  | .barkill a => some (rr3 0x65 0 a.enc 0 0, [])
  | .qpush a b w => some (rw3 0x66 0 a.enc b.enc w, [])
  | .qpop d a w => some (rw3 0x67 d.enc a.enc 0 w, [])
  | .tkwait tk c b w =>
    some (rw3 0x68 0 ((0 : BitVec 5) ++ BitVec.ofBool (c == .ge true) ++ BitVec.ofBool (c == .lt) ++ (BitVec.ofFin tk : BitVec 4))
      b.enc w, [])
  | .tkrd d tk => some (rr3 0x69 d.enc (num11 tk.val) 0 0, [])
  | .fence a w => some (rw3 0x6A 0 a.enc 0 w, [])
  | .vadd t d a b m => some (vv 0x01 d.enc a.enc b.enc 0 m t.code, [])
  | .vsub t d a b m => some (vv 0x02 d.enc a.enc b.enc 0 m t.code, [])
  | .vmul t d a b m => some (vv 0x03 d.enc a.enc b.enc 0 m t.code, [])
  | .vfma t d a b c m => some (vv 0x04 d.enc a.enc b.enc c.enc m t.code, [])
  | .vmin t d a b m => some (vv 0x05 d.enc a.enc b.enc 0 m t.code, [])
  | .vmax t d a b m => some (vv 0x06 d.enc a.enc b.enc 0 m t.code, [])
  | .vabs t d a m => some (vv 0x07 d.enc a.enc 0 0 m t.code, [])
  | .vneg t d a m => some (vv 0x08 d.enc a.enc 0 0 m t.code, [])
  | .vrcp t d a m => some (vv 0x09 d.enc a.enc 0 0 m t.code, [])
  | .vrsq t d a m => some (vv 0x0A d.enc a.enc 0 0 m t.code, [])
  | .vexp2 t d a m => some (vv 0x0B d.enc a.enc 0 0 m t.code, [])
  | .vlog2 t d a m => some (vv 0x0C d.enc a.enc 0 0 m t.code, [])
  | .vcmp p t d a b m => some (vv 0x0D d.enc a.enc b.enc (num11 p.val) m t.code, [])
  | .vsel t d a b c m => some (vv 0x0E d.enc a.enc b.enc c.enc m t.code, [])
  | .viadd t d a b m => some (vv 0x10 d.enc a.enc b.enc 0 m t.code, [])
  | .visub t d a b m => some (vv 0x11 d.enc a.enc b.enc 0 m t.code, [])
  | .vimul t d a b m => some (vv 0x12 d.enc a.enc b.enc 0 m t.code, [])
  | .vand t d a b m => some (vv 0x13 d.enc a.enc b.enc 0 m t.code, [])
  | .vor t d a b m => some (vv 0x14 d.enc a.enc b.enc 0 m t.code, [])
  | .vxor t d a b m => some (vv 0x15 d.enc a.enc b.enc 0 m t.code, [])
  | .vshl t d a b m => some (vv 0x16 d.enc a.enc b.enc 0 m t.code, [])
  | .vshr t d a b m => some (vv 0x17 d.enc a.enc b.enc 0 m t.code, [])
  | .vsar t d a b m => some (vv 0x18 d.enc a.enc b.enc 0 m t.code, [])
  | .vcvt dt st rtz p d a m =>
    some (vv 0x20 d.enc a.enc ((0 : BitVec 2) ++ BitVec.ofBool rtz ++ st.code) (num11 p.val) m dt.code, [])
  | .vqnt dt bf d a x =>
    some (vv 0x21 d.enc a.enc ((0 : BitVec 3) ++ (if bf then 0x12 else 0x10 : BitVec 8)) (num11 x.val) 0 dt.code, [])
  | .vdqnt bf st p d a b m =>
    some (vv 0x22 d.enc a.enc b.enc ((0 : BitVec 1) ++ st.code ++ BitVec.ofNat 2 p.val) m (if bf then 0x12 else 0x10), [])
  | .vrsum t d a m => some (vv 0x28 d.enc a.enc 0 0 m t.code, [])
  | .vrmax t d a m => some (vv 0x29 d.enc a.enc 0 0 m t.code, [])
  | .vrmin t d a m => some (vv 0x2A d.enc a.enc 0 0 m t.code, [])
  | .vperm t d a b m => some (vv 0x30 d.enc a.enc b.enc 0 m t.code, [])
  | .vbcast t d a m => some (vv 0x31 d.enc a.enc 0 0 m t.code, [])
  | .vslide t d a b c m => some (vv 0x32 d.enc a.enc b.enc c.enc m t.code, [])
  | .vzip t p d a b m => some (vv 0x33 d.enc a.enc b.enc (num11 p.toNat) m t.code, [])
  | .vunzip t p d a b m => some (vv 0x34 d.enc a.enc b.enc (num11 p.toNat) m t.code, [])
  | .vmov t d (.inl a) m => some (vv 0x38 d.enc a.enc 0 0 m t.code, [])
  | .vmov t d (.inr st) m => some (vv 0x38 d.enc 0 (num11 (8 + st.val)) 0 m t.code, [])
  | .vins t d a b m => some (vv 0x39 d.enc a.enc b.enc 0 m t.code, [])
  | .vext t d a b => some (vv 0x3A d.enc a.enc b.enc 0 0 t.code, [])
  | .vrng t d a b m => some (vv 0x3C d.enc a.enc b.enc 0 m t.code, [])
  | .kand d a b => some (rr3 0x40 d.enc a.enc b.enc 0, [])
  | .kor d a b => some (rr3 0x41 d.enc a.enc b.enc 0, [])
  | .kxor d a b => some (rr3 0x42 d.enc a.enc b.enc 0, [])
  | .knot d a => some (rr3 0x43 d.enc a.enc 0 0, [])
  | .kpop t d a => some (rr3 0x44 d.enc a.enc 0 t.code, [])
  | .kmov d a => some (rr3 0x45 d.enc a.enc 0 0, [])
  | .vaddVI t d a i m => some (vi 0x81 d.enc a.enc i m t.code, [])
  | .vsubVI t d a i m => some (vi 0x82 d.enc a.enc i m t.code, [])
  | .vmulVI t d a i m => some (vi 0x83 d.enc a.enc i m t.code, [])
  | .vminVI t d a i m => some (vi 0x85 d.enc a.enc i m t.code, [])
  | .vmaxVI t d a i m => some (vi 0x86 d.enc a.enc i m t.code, [])
  | .viaddVI t d a i m => some (vi 0x90 d.enc a.enc i m t.code, [])
  | .visubVI t d a i m => some (vi 0x91 d.enc a.enc i m t.code, [])
  | .vimulVI t d a i m => some (vi 0x92 d.enc a.enc i m t.code, [])
  | .vandVI t d a i m => some (vi 0x93 d.enc a.enc i m t.code, [])
  | .vorVI t d a i m => some (vi 0x94 d.enc a.enc i m t.code, [])
  | .vxorVI t d a i m => some (vi 0x95 d.enc a.enc i m t.code, [])
  | .vshlVI t d a i m => some (vi 0x96 d.enc a.enc i m t.code, [])
  | .vshrVI t d a i m => some (vi 0x97 d.enc a.enc i m t.code, [])
  | .vsarVI t d a i m => some (vi 0x98 d.enc a.enc i m t.code, [])
  | .vmovVI t d i m => some (vi 0xB8 d.enc 0 i m t.code, [])
  | .vld d m o => some (memOp 0x01 d.enc m o.enc, [])
  | .vldd d m o => some (memOp 0x02 d.enc m o.enc, [])
  | .vst v m o => some (memOp 0x03 v.enc m o.enc, [])
  | .vste v m o => some (memOp 0x04 v.enc m o.enc, [])
  | .vlds t d a b sid m => some (vv 0x05 d.enc a.enc b.enc (sidEnc sid) m t.code, [])
  | .vsts t v a b sid m => some (vv 0x06 v.enc a.enc b.enc (sidEnc sid) m t.code, [])
  | .vgth t d a b sid m => some (vv 0x07 d.enc a.enc b.enc (sidEnc sid) m t.code, [])
  | .vsct t v a b sid m => some (vv 0x08 v.enc a.enc b.enc (sidEnc sid) m t.code, [])
  | .xld .i8 d m o => some (memOp 0x10 d.enc m o.enc, [])
  | .xld .i16 d m o => some (memOp 0x11 d.enc m o.enc, [])
  | .xld .i32 d m o => some (memOp 0x12 d.enc m o.enc, [])
  | .xld .i64 d m o => some (memOp 0x13 d.enc m o.enc, [])
  | .xld .n8 d m o => some (memOp 0x14 d.enc m o.enc, [])
  | .xld .n16 d m o => some (memOp 0x15 d.enc m o.enc, [])
  | .xld .n32 d m o => some (memOp 0x16 d.enc m o.enc, [])
  | .xld .n64 _ _ _ => none
  | .xst w v m o => some (memOp ((0b000110 : BitVec 6) ++ (BitVec.ofFin w : BitVec 2)) v.enc m o.enc, [])
  | .ldf d m sc w => some (memOpW 0x20 d.enc m ((0 : BitVec 2) ++ sc) w, [])
  | .ste v m sc w => some (memOpW 0x21 v.enc m ((0 : BitVec 2) ++ sc) w, [])
  | .few d m sc w => some (memOpW 0x22 d.enc m ((0 : BitVec 2) ++ sc) w, [])
  | .feq op d m => some (memOp 0x23 d.enc m (op.code ++ (0 : BitVec 2)), [])
  | .latom op w64 d m o => some (memOp (atomCode 3 op w64) (num11 d.val) m o.enc, [])
  | .omclaim mask w => some (rw3 0x01 0 ((0 : BitVec 3) ++ mask) 0 w, [])
  | .omrel mask tok => some (mxWord 0x02 tok 0 0 0 0 ((0 : BitVec 3) ++ mask) 0, [])
  | .omld om c tok => some (mxWord 0x03 tok 0 ((0 : BitVec 1) ++ (BitVec.ofFin om : BitVec 3)) 0 0 c.enc 0, [])
  | .mma ta tb acc oma omb sa sb tok =>
    some (mxWord 0x08 tok (BitVec.ofNat 4 acc.val) (BitVec.ofBool sa ++ (BitVec.ofFin oma : BitVec 3))
      (BitVec.ofBool sb ++ (BitVec.ofFin omb : BitVec 3)) 0 ((0 : BitVec 3) ++ tb.code) ta.code, [])
  | .mzero acc tok => some (mxWord 0x09 tok (BitVec.ofNat 4 acc.val) 0 0 0 0 0, [])
  | .mdrain acc nochk c tok =>
    some (mxWord 0x0A tok (BitVec.ofNat 4 acc.val) 0 0 ((0 : BitVec 2) ++ BitVec.ofBool nochk) c.enc 0, [])
  | .macld acc c tok => some (mxWord 0x0B tok (BitVec.ofNat 4 acc.val) 0 0 0 c.enc 0, [])
  | .mstat d acc nochk => some (rrWord 0x0C ⟨d.enc, num11 acc.val, 0, 0, (0 : BitVec 3) ++ BitVec.ofBool nochk, 0⟩, [])
  | .copy s d shp cm oms tok sid zr fl =>
    some (cpCmd 0x01 s d shp cm oms tok sid ((0 : BitVec 3) ++ BitVec.ofBool fl ++ BitVec.ofBool zr), [])
  | .copym s d shp cm oms tok sid zr fl w =>
    some (cpCmd 0x02 s d shp cm oms tok sid ((0 : BitVec 3) ++ BitVec.ofBool fl ++ BitVec.ofBool zr), [w])
  | .stbind st a => some (rr3 0x08 (num11 st.val) a.enc 0 0, [])
  | .stdrop st => some (rr3 0x09 (num11 st.val) 0 0 0, [])
  | .ststat d st => some (rr3 0x0A d.enc (num11 st.val) 0 0, [])
  | .cpcancel d mask => some (rr3 0x0B d.enc ((0 : BitVec 9) ++ mask) 0 0, [])
  | .selp s d lc tok sid => some (cpCmd 0x10 s d ⟨lc.val, by omega⟩ 1 0 tok sid 0, [])
  | .selk s d lc tok sid => some (cpCmd 0x11 s d ⟨lc.val, by omega⟩ 1 0 tok sid 0, [])
  | .rput s d shp (some flg) tok sid =>
    some (cpCmd 0x18 s d shp ((BitVec.ofFin flg : BitVec 6) ++ (0 : BitVec 4)) 0 tok sid 1, [])
  | .rput s d shp none tok sid => some (cpCmd 0x18 s d shp 0 0 tok sid 0, [])
  | .gld .i8 d m o => some (memOp 0x20 d.enc m o.enc, [])
  | .gld .i16 d m o => some (memOp 0x21 d.enc m o.enc, [])
  | .gld .i32 d m o => some (memOp 0x22 d.enc m o.enc, [])
  | .gld .i64 d m o => some (memOp 0x23 d.enc m o.enc, [])
  | .gld .n8 d m o => some (memOp 0x24 d.enc m o.enc, [])
  | .gld .n16 d m o => some (memOp 0x25 d.enc m o.enc, [])
  | .gld .n32 d m o => some (memOp 0x26 d.enc m o.enc, [])
  | .gld .n64 _ _ _ => none
  | .gst w v m o => some (memOp ((0b001010 : BitVec 6) ++ (BitVec.ofFin w : BitVec 2)) v.enc m o.enc, [])
  | .pref b off => some (memWord 0x2C ⟨0, b.enc, off, 0, 0, 0, 0⟩, [])
  | .ldmeta d a sid => some (rrWord 0x2E ⟨d.enc, a.enc, 0, sidEnc sid, 0, 0⟩, [])
  | .stmeta a b sid => some (rrWord 0x2F ⟨0, a.enc, b.enc, sidEnc sid, 0, 0⟩, [])
  | .gatom op w64 d m o => some (memOp (atomCode 3 op w64) (num11 d.val) m o.enc, [])
  | .gred op v m o => some (memOp ((4 : BitVec 4) ++ op.code) v.enc m o.enc, [])
  | .scatom op w64 d m w => some (memOpW (atomCode 5 op w64) (num11 d.val) m 0 w, [])
  | _ => none

/-- The slots in which a form may stand (R75): universal controls in every slot. -/
def Instr.inSlot (i : Instr) (s : Fin 8) : Bool :=
  match i with
  | .brc .. | .jmp .. | .loop .. | .loopx .. | .cbset .. | .cbclr .. | .cbwait .. | .cbtake .. | .join .. | .retire =>
    true
  | .br .. | .jmpr .. | .call .. | .callr .. | .ret .. | .fork .. | .lcset .. | .lcget .. | .trap .. | .brkpt .. =>
    s.val == 0
  | .vadd .. | .vaddVI .. | .vsub .. | .vsubVI .. | .vmul .. | .vmulVI .. | .vfma .. | .vmin .. | .vminVI .. | .vmax ..
  | .vmaxVI .. | .vabs .. | .vneg .. | .vrcp .. | .vrsq .. | .vexp2 .. | .vlog2 .. | .vcmp .. | .vsel .. | .viadd ..
  | .viaddVI .. | .visub .. | .visubVI .. | .vimul .. | .vimulVI .. | .vand .. | .vandVI .. | .vor .. | .vorVI ..
  | .vxor .. | .vxorVI .. | .vshl .. | .vshlVI .. | .vshr .. | .vshrVI .. | .vsar .. | .vsarVI .. | .vcvt .. | .vqnt ..
  | .vdqnt .. | .vrsum .. | .vrmax .. | .vrmin .. | .vperm .. | .vbcast .. | .vslide .. | .vzip .. | .vunzip ..
  | .vmov .. | .vmovVI .. | .vins .. | .vext .. | .vrng .. | .kand .. | .kor .. | .kxor .. | .knot .. | .kpop ..
  | .kmov .. => s.val == 2 || s.val == 3
  | .vld .. | .vldd .. | .vst .. | .vste .. | .vlds .. | .vsts .. | .vgth .. | .vsct .. | .xld .. | .xst .. | .ldf ..
  | .ste .. | .few .. | .feq .. | .latom .. => s.val == 4
  | .omclaim .. | .omrel .. | .omld .. | .mma .. | .mzero .. | .macld .. | .mdrain .. | .mstat .. => s.val == 5
  | .copy .. | .copym .. | .stbind .. | .stdrop .. | .ststat .. | .cpcancel .. | .selp .. | .selk .. | .rput ..
  | .gld .. | .gst .. | .pref .. | .ldmeta .. | .stmeta .. | .gatom .. | .gred .. | .scatom .. => s.val == 6 || s.val == 7
  | _ => s.val == 0 || s.val == 1

/-! ### The instruction of a bundle's bytes -/

/-- The lowest slot of MODE that holds a new syllable (R36, R37). -/
def Header.firstNew (h : Header) : Option (Fin 8) := (List.finRange 8).find? fun s => h.slotMode s == 1

/-- The number of the opcode table's words: `w` numbered from the least significant bit of the first word, the
header word first (R37). The instruction read is that of the lowest-numbered slot holding a new syllable. -/
def decodeTableWord (nbits w : Nat) : Option Instr :=
  let word (k : Nat) : Word := BitVec.ofNat 64 (w % 2 ^ nbits / 2 ^ (64 * k))
  (decodeHeader (word 0)).bind fun h =>
    h.firstNew.bind fun s => decodeSyl s (word 1) (word (1 + h.news))

end Sys2Proof
end

