-- ==== Sys2Proof/Machine/Formats.lean ====
section
/-! DEFINITION. Number formats and arithmetic (chapter 10, R180 to R184): exact values, rounding to a format,
the arithmetic flags, the device generator, block scales and scale search. -/

namespace Sys2Proof

/-! ### Integer types (R169) -/

/-- R169 val: the low bits read in two's complement for an i type, unsigned for an n type. -/
def ITy.val (t : ITy) (n : Nat) : Int :=
  let u := n % 2 ^ t.width
  if t.signed && 2 ^ (t.width - 1) ≤ u then (u : Int) - 2 ^ t.width else u

/-- R169 bits: the low bits as an unsigned integer. -/
def ITy.bits (t : ITy) (n : Nat) : Nat := n % 2 ^ t.width

/-- R169 ext: a result modulo 2^w, extended to 64 bits by the signedness of the type. -/
def ITy.extW (t : ITy) (m : Int) : Word :=
  BitVec.ofInt 64 (t.val (m % 2 ^ t.width).toNat)

/-- The least value of an integer type (R169). -/
def ITy.lo (t : ITy) : Int := if t.signed then -(2 ^ (t.width - 1)) else 0

/-- The greatest value of an integer type (R169). -/
def ITy.hi (t : ITy) : Int := if t.signed then 2 ^ (t.width - 1) - 1 else 2 ^ t.width - 1

/-- R169 inrange. -/
def ITy.inRange (t : ITy) (m : Int) : Bool := t.lo ≤ m && m ≤ t.hi

/-! ### Flags (R170) -/

/-- The arithmetic flags in the layout of sticky bits [7:0] (R170). -/
abbrev Flags := BitVec 8

/-- The flags of R170 by name. -/
def fINV : Flags := 0x01
def fDZ : Flags := 0x02
def fOVF : Flags := 0x04
def fUNF : Flags := 0x08
def fINX : Flags := 0x10
def fSAT : Flags := 0x20
def fIOV : Flags := 0x40
def fIDZ : Flags := 0x80

/-- A flag when a condition holds. -/
def flagIf (b : Bool) (f : Flags) : Flags := if b then f else 0

/-! ### Exact values (R212) -/

/-- An exact value: NaN, an infinity, or the real (-1)^neg · num/den · 2^e with den positive. A zero keeps its sign. -/
inductive Val
  | nan
  | inf (neg : Bool)
  | fin (neg : Bool) (num den : Nat) (e : Int)
  deriving DecidableEq, Repr

namespace Val

/-- The value +0. -/
def zero : Val := .fin false 0 1 0

/-- An integer as an exact value. -/
def ofInt (i : Int) : Val := .fin (decide (i < 0)) i.natAbs 1 0

/-- The dyadic n · 2^e, not negative. -/
def dyadic (n : Nat) (e : Int) : Val := .fin false n 1 e

/-- The sign of a value; a NaN counts as positive. -/
def isNeg : Val → Bool
  | .nan => false
  | .inf s => s
  | .fin s _ _ _ => s

/-- Is the value a NaN? -/
def isNan : Val → Bool
  | .nan => true
  | _ => false

/-- Is the value finite? -/
def isFin : Val → Bool
  | .fin .. => true
  | _ => false

/-- Is the value a zero of either sign? -/
def isZero : Val → Bool
  | .fin _ 0 _ _ => true
  | _ => false

/-- The value with its sign inverted. -/
def neg : Val → Val
  | .nan => .nan
  | .inf s => .inf !s
  | .fin s n d e => .fin (!s) n d e

/-- The value with its sign cleared. -/
def abs : Val → Val
  | .nan => .nan
  | .inf _ => .inf false
  | .fin _ n d e => .fin false n d e

/-- Numerators of two finite values over the common denominator d1·d2 and the common exponent. -/
def align (s1 : Bool) (n1 d1 : Nat) (e1 : Int) (s2 : Bool) (n2 d2 : Nat) (e2 : Int) : Int × Int × Int :=
  let e := min e1 e2
  let a : Int := (n1 * d2 * 2 ^ (e1 - e).toNat : Nat)
  let b : Int := (n2 * d1 * 2 ^ (e2 - e).toNat : Nat)
  (if s1 then -a else a, if s2 then -b else b, e)

/-- The exact sum, with INV for ∞ − ∞ (R180, R181). -/
def add : Val → Val → Val × Flags
  | .nan, _ => (.nan, 0)
  | _, .nan => (.nan, 0)
  | .inf s, .inf t => if s == t then (.inf s, 0) else (.nan, fINV)
  | .inf s, .fin .. => (.inf s, 0)
  | .fin .., .inf s => (.inf s, 0)
  | .fin s n d e, .fin t m c f =>
    let (a, b, g) := align s n d e t m c f
    let r := a + b
    (.fin (if r = 0 then s && t else decide (r < 0)) r.natAbs (d * c) g, 0)

/-- The exact product, with INV for 0 × ∞ (R180). -/
def mul : Val → Val → Val × Flags
  | .nan, _ => (.nan, 0)
  | _, .nan => (.nan, 0)
  | .inf s, .inf t => (.inf (s != t), 0)
  | .inf s, .fin t m _ _ => if m = 0 then (.nan, fINV) else (.inf (s != t), 0)
  | .fin t m _ _, .inf s => if m = 0 then (.nan, fINV) else (.inf (s != t), 0)
  | .fin s n d e, .fin t m c f => (.fin (s != t) (n * m) (d * c) (e + f), 0)

/-- The exact quotient, with INV for 0 ÷ 0 and ∞ ÷ ∞ and DZ for a finite nonzero value over zero (R180). -/
def div : Val → Val → Val × Flags
  | .nan, _ => (.nan, 0)
  | _, .nan => (.nan, 0)
  | .inf _, .inf _ => (.nan, fINV)
  | .inf s, .fin t _ _ _ => (.inf (s != t), 0)
  | .fin s _ _ _, .inf t => (.fin (s != t) 0 1 0, 0)
  | .fin s n d e, .fin t m c f =>
    if m = 0 then (if n = 0 then (.nan, fINV) else (.inf (s != t), fDZ))
    else (.fin (s != t) (n * c) (d * m) (e - f), 0)

/-- Comparison of two values: `none` when either is a NaN; −0 equals +0 (R183, R231). -/
def cmp : Val → Val → Option Ordering
  | .nan, _ => none
  | _, .nan => none
  | .inf s, .inf t => some (if s == t then .eq else if s then .lt else .gt)
  | .inf s, .fin .. => some (if s then .lt else .gt)
  | .fin .., .inf s => some (if s then .gt else .lt)
  | .fin s n d e, .fin t m c f =>
    let (a, b, _) := align s n d e t m c f
    some (compare a b)

/-- a < b, false when either is a NaN. -/
def lt (a b : Val) : Bool := a.cmp b == some .lt

/-- a = b, false when either is a NaN. -/
def eq (a b : Val) : Bool := a.cmp b == some .eq

/-- The total order in which −0 lies below +0, for minimum and maximum (R182). -/
def below (a b : Val) : Bool := a.lt b || (a.eq b && a.isNeg && !b.isNeg)

end Val

/-! ### Formats (R207 to R209) -/

/-- A floating format: precision, bias, whether signed, magnitude bits, largest finite magnitude code, magnitude
code of infinity, code of the NaN, and whether a signed zero exists. -/
structure Fmt where
  p : Nat
  bias : Int
  signed : Bool
  mag : Nat
  maxCode : Nat
  infCode : Option Nat
  nanCode : Nat
  negZero : Bool
  deriving DecidableEq, Repr

/-- The IEEE types (R207). -/
def FTy.fmt : FTy → Fmt
  | .f32 => ⟨24, 127, true, 31, 0x7F7FFFFF, some 0x7F800000, 0x7FC00000, true⟩
  | .f16 => ⟨11, 15, true, 15, 0x7BFF, some 0x7C00, 0x7E00, true⟩
  | .bf16 => ⟨8, 127, true, 15, 0x7F7F, some 0x7F80, 0x7FC0, true⟩

/-- The binary8 formats (R208, R209). -/
def B8.fmt (t : B8) : Fmt :=
  let k := t.k.val + 1
  if t.uns then
    ⟨k, 2 ^ (8 - k), false, 8, if t.ext then 0xFD else 0xFE, if t.ext then some 0xFE else none, 0xFF, false⟩
  else
    ⟨k, 2 ^ (7 - k), true, 7, if t.ext then 0x7E else 0x7F, if t.ext then some 0x7F else none, 0x80, false⟩

namespace Fmt

/-- The exponent of the smallest subnormal: 1 − bias − (p − 1) (R208). -/
def qmin (f : Fmt) : Int := 1 - f.bias - (f.p - 1 : Nat)

/-- The value of a magnitude code, as significand and exponent (R208). -/
def magVal (f : Fmt) (m : Nat) : Nat × Int :=
  let t := f.p - 1
  let e := m / 2 ^ t
  let r := m % 2 ^ t
  if e = 0 then (r, f.qmin) else (2 ^ t + r, f.qmin + (e : Int) - 1)

/-- The exact value of a code (R207, R208). -/
def value (f : Fmt) (c : Nat) : Val :=
  let m := c % 2 ^ f.mag
  let s := f.signed && c / 2 ^ f.mag % 2 == 1
  let nan := if f.negZero then decide (f.infCode.getD 0 < m) else c == f.nanCode
  if nan then .nan
  else if f.infCode == some m then .inf s
  else .fin s (f.magVal m).1 1 (f.magVal m).2

/-- The code of a sign and a magnitude code. -/
def code (f : Fmt) (s : Bool) (m : Nat) : Nat := if s && f.signed then 2 ^ f.mag + m else m

end Fmt

/-- The position of the leading bit of a positive rational n/d · 2^e: the E with 2^E ≤ value < 2^(E+1). -/
def leadExp (n d : Nat) (e : Int) : Int :=
  let g : Int := (Nat.log2 n : Int) - (Nat.log2 d : Int)
  let ge : Bool := if 0 ≤ g then decide (d * 2 ^ g.toNat ≤ n) else decide (d ≤ n * 2 ^ (-g).toNat)
  (if ge then g else g - 1) + e

/-! ### The device generator (R213) -/

/-- R213 gen(key, ctr). -/
def gen (key ctr : Word) : Word :=
  let x := ctr + key * 0x9E3779B97F4A7C15
  let x := (x ^^^ (x >>> 30)) * 0xBF58476D1CE4E5B9
  let x := (x ^^^ (x >>> 27)) * 0x94D049BB133111EB
  x ^^^ (x >>> 31)

/-! ### Rounding (R212, R214) -/

/-- A rounding mode of R212: nearest even, toward zero, or stochastic with its key and counter. -/
inductive RMode
  | rne
  | rtz
  | sto (key ctr : Word)
  deriving DecidableEq, Repr

/-- The choice between the neighbours lo and lo + 1 of N/D: true takes the upper (R212 step 2, R214).
`evenLo` says whether the lower neighbour is the even one. -/
def roundsUp (mode : RMode) (n d : Nat) (evenLo : Bool) : Bool :=
  let r := n % d
  match mode with
  | .rne => decide (d < 2 * r) || (decide (2 * r = d) && !evenLo)
  | .rtz => false
  | .sto key ctr => decide ((gen key ctr).toNat / 2 ^ 40 < 2 ^ 24 * r / d)

/-- A positive rational scaled to the grid of lsb 2^q: numerator and denominator. -/
def scaled (n d : Nat) (e q : Int) : Nat × Nat :=
  if q ≤ e then (n * 2 ^ (e - q).toNat, d) else (n, d * 2 ^ (q - e).toNat)

/-- Round to a floating format (R212): the code and the flags. -/
def Fmt.round (f : Fmt) (mode : RMode) (v : Val) : Nat × Flags :=
  match v with
  | .nan => (f.nanCode, 0)
  | .inf s =>
    if s && !f.signed then (0, fSAT)
    else match f.infCode with
      | some c => (f.code s c, 0)
      | none => (f.code s f.maxCode, fSAT)
  | .fin s n d e =>
    if n = 0 then (f.code (s && f.negZero) 0, 0)
    else if s && !f.signed then (0, fSAT)
    else
      let q := max (leadExp n d e - (f.p - 1 : Nat)) f.qmin
      let nd := scaled n d e q
      let lo := nd.1 / nd.2
      let inexact := decide (nd.1 % nd.2 ≠ 0)
      let evenLo := if f.p = 1 ∧ lo = 1 then decide ((q - f.qmin + 1) % 2 = 0) else decide (lo % 2 = 0)
      let r := if inexact && roundsUp mode nd.1 nd.2 evenLo then lo + 1 else lo
      let mx := f.magVal f.maxCode
      if (Val.dyadic mx.1 mx.2).lt (Val.dyadic r q) then
        match f.infCode with
        | some c => (f.code s (if mode = .rtz then f.maxCode else c), fOVF ||| fINX)
        | none => (f.code s f.maxCode, fSAT)
      else
        let t := f.p - 1
        let r' := if r = 2 ^ f.p then 2 ^ t else r
        let q' := if r = 2 ^ f.p then q + 1 else q
        let m := if r' < 2 ^ t then r' else (q' - f.qmin + 1).toNat * 2 ^ t + (r' - 2 ^ t)
        let tiny := decide (r < 2 ^ t)
        (f.code (s && (f.negZero || m != 0)) m, flagIf inexact fINX ||| flagIf (inexact && tiny) fUNF)

/-- Round to an integer type (R212): the value and the flags; `sat` names the flag of an out-of-range value. -/
def ITy.round (t : ITy) (sat : Flags) (mode : RMode) (v : Val) : Int × Flags :=
  match v with
  | .nan => (0, fINV)
  | .inf s => (if s then t.lo else t.hi, sat)
  | .fin s n d e =>
    let nd := scaled n d e 0
    let lo := nd.1 / nd.2
    let inexact := decide (nd.1 % nd.2 ≠ 0)
    let r := if inexact && roundsUp mode nd.1 nd.2 (decide (lo % 2 = 0)) then lo + 1 else lo
    let i : Int := if s then -(r : Int) else r
    if i < t.lo then (t.lo, sat)
    else if t.hi < i then (t.hi, sat)
    else (i, flagIf inexact fINX)

/-- The exact value of the bits of a type (R169, R207, R208). -/
def Ty.value (t : Ty) (bits : Nat) : Val :=
  match t with
  | .int i => Val.ofInt (i.val bits)
  | .flt f => f.fmt.value (bits % 2 ^ f.width)
  | .b8 b => b.fmt.value (bits % 256)

/-- R212 round_to: the bits of width(t) and the flags. `sat` is INV, or SAT in bank encoding, for integer targets. -/
def roundTo (t : Ty) (sat : Flags) (mode : RMode) (v : Val) : Nat × Flags :=
  match t with
  | .int i => let r := i.round sat mode v; ((r.1 % 2 ^ i.width).toNat, r.2)
  | .flt f => f.fmt.round mode v
  | .b8 b => b.fmt.round mode v

/-- R180 round32. -/
def round32 (v : Val) : Nat × Flags := FTy.f32.fmt.round .rne v

/-- The exact value of an f32 pattern. -/
def f32v (bits : Nat) : Val := FTy.f32.fmt.value (bits % 2 ^ 32)

/-- A result rounded to an IEEE type, with the flags of the operation added (R180, R229). -/
def FTy.fin (t : FTy) (r : Val × Flags) : Nat × Flags :=
  let q := t.fmt.round .rne r.1
  (q.1, q.2 ||| r.2)

/-! ### IEEE operations in one type (R181, R182, R229) -/

/-- a + b (R181). -/
def FTy.add (t : FTy) (a b : Nat) : Nat × Flags := t.fin ((t.fmt.value a).add (t.fmt.value b))

/-- a − b (R181). -/
def FTy.sub (t : FTy) (a b : Nat) : Nat × Flags := t.fin ((t.fmt.value a).add (t.fmt.value b).neg)

/-- a × b (R181). -/
def FTy.mul (t : FTy) (a b : Nat) : Nat × Flags := t.fin ((t.fmt.value a).mul (t.fmt.value b))

/-- a ÷ b (R181). -/
def FTy.div (t : FTy) (a b : Nat) : Nat × Flags := t.fin ((t.fmt.value a).div (t.fmt.value b))

/-- a × b + c with one rounding; INV for a 0 × ∞ product whatever c holds (R180, R181). -/
def FTy.fma (t : FTy) (a b c : Nat) : Nat × Flags :=
  let p := (t.fmt.value a).mul (t.fmt.value b)
  let r := p.1.add (t.fmt.value c)
  t.fin (r.1, r.2 ||| p.2)

/-- minimumNumber and maximumNumber of IEEE 754-2019: `hi` chooses the maximum (R182). -/
def FTy.minmax (t : FTy) (hi : Bool) (a b : Nat) : Nat :=
  let x := t.fmt.value a
  let y := t.fmt.value b
  match x.isNan, y.isNan with
  | true, true => t.fmt.nanCode
  | true, false => b
  | false, true => a
  | false, false => if x.below y then (if hi then b else a) else (if hi then a else b)

/-- Integer square root by bits, from bit `k` down: structural, so that the kernel can run it. -/
def isqrt (n : Nat) : Nat → Nat → Nat
  | 0, r => r
  | k + 1, r => let c := r + 2 ^ k; isqrt n k (if c * c ≤ n then c else r)

/-- The floor of the square root of a number below 2^(2k). -/
def sqrtFloor (n k : Nat) : Nat := isqrt n k 0

/-- An inexact magnitude between r · 2^e and (r + 1) · 2^e, as the value in its middle; exact ones stay. -/
def sticky (exact : Bool) (r : Nat) (e : Int) : Val := if exact then .dyadic r e else .dyadic (2 * r + 1) (e - 1)

/-- The square root of n · 2^e to more than 64 bits, sticky (R181). -/
def sqrtVal (n : Nat) (e : Int) : Val :=
  let sh : Nat := if e % 2 = 0 then 160 else 161
  let x := n * 2 ^ sh
  let r := sqrtFloor x 120
  sticky (r * r == x) r ((e - sh) / 2)

/-- √a, with INV below −0 (R180, R181). -/
def FTy.sqrt (t : FTy) (a : Nat) : Nat × Flags :=
  match t.fmt.value a with
  | .nan => (t.fmt.nanCode, 0)
  | .inf s => if s then (t.fmt.nanCode, fINV) else t.fmt.round .rne (.inf false)
  | .fin s n _ e =>
    if n = 0 then t.fmt.round .rne (.fin s 0 1 0)
    else if s then (t.fmt.nanCode, fINV)
    else t.fmt.round .rne (sqrtVal n e)

/-- 1 ÷ √(n · 2^e) to more than 64 bits, sticky. -/
def rsqrtVal (n : Nat) (e : Int) : Val :=
  let sh : Nat := if e % 2 = 0 then 240 else 241
  let x := 2 ^ sh / n
  let r := sqrtFloor x 125
  sticky (2 ^ sh % n == 0 && r * r == x) r ((-(sh : Int) - e) / 2)

/-- VRSQ (R230). -/
def FTy.rsq (t : FTy) (a : Nat) : Nat × Flags :=
  match t.fmt.value a with
  | .nan => (t.fmt.nanCode, 0)
  | .inf s => if s then (t.fmt.nanCode, fINV) else (0, 0)
  | .fin s n _ e =>
    if n = 0 then ((t.fmt.round .rne (.inf s)).1, fDZ)
    else if s then (t.fmt.nanCode, fINV)
    else t.fmt.round .rne (rsqrtVal n e)

/-- VRCP (R230). -/
def FTy.rcp (t : FTy) (a : Nat) : Nat × Flags := t.fin ((Val.ofInt 1).div (t.fmt.value a))

/-- 2^(f/2^k) · 2^w for the low `k` bits of `f`, by repeated square roots of 2 from the top bit (log 14). -/
def exp2Bits (w : Nat) : Nat → Nat → Nat → Nat → Nat
  | 0, _, _, acc => acc
  | k + 1, f, root, acc =>
    let root' := sqrtFloor (root * 2 ^ w) (w + 1)
    let acc' := if f / 2 ^ k % 2 = 1 then acc * root' / 2 ^ w else acc
    exp2Bits w k f root' acc'

/-- VEXP2 (R230): exact for integers, 1 with INX for operands too small to matter, otherwise 320 working bits. -/
def FTy.exp2 (t : FTy) (a : Nat) : Nat × Flags :=
  match t.fmt.value a with
  | .nan => (t.fmt.nanCode, 0)
  | .inf s => if s then (0, 0) else t.fmt.round .rne (.inf false)
  | .fin s n _ e =>
    if n = 0 then t.fmt.round .rne (.ofInt 1)
    else if 9 < leadExp n 1 e then t.fmt.round .rne (if s then .dyadic 1 (-1000) else .dyadic 1 1000)
    else if leadExp n 1 e < -40 then
      t.fmt.round .rne (if s then .dyadic (2 ^ 60 - 1) (-60) else .dyadic (2 ^ 60 + 1) (-60))
    else
      let k : Nat := (-e).toNat
      let m : Int := if s then -(n * 2 ^ e.toNat : Nat) else (n * 2 ^ e.toNat : Nat)
      let i := m / 2 ^ k
      let f := (m % 2 ^ k).toNat
      if f = 0 then t.fmt.round .rne (.dyadic 1 i)
      else t.fmt.round .rne (sticky false (exp2Bits 320 k f (2 ^ 321) (2 ^ 320)) (i - 320))

/-- The first `k` fraction bits of log2 of y/2^w, for y/2^w in [1, 2) (log 14). -/
def log2Bits (w : Nat) : Nat → Nat → Nat → Nat
  | 0, _, acc => acc
  | k + 1, y, acc =>
    let y2 := y * y / 2 ^ w
    if 2 ^ (w + 1) ≤ y2 then log2Bits w k (y2 / 2) (2 * acc + 1) else log2Bits w k y2 (2 * acc)

/-- VLOG2 (R230): exact for powers of two, otherwise 160 fraction bits from 480 working bits. -/
def FTy.log2 (t : FTy) (a : Nat) : Nat × Flags :=
  match t.fmt.value a with
  | .nan => (t.fmt.nanCode, 0)
  | .inf s => if s then (t.fmt.nanCode, fINV) else t.fmt.round .rne (.inf false)
  | .fin s n _ e =>
    if n = 0 then ((t.fmt.round .rne (.inf true)).1, fDZ)
    else if s then (t.fmt.nanCode, fINV)
    else
      let l := Nat.log2 n
      let i : Int := l + e
      if n = 2 ^ l then t.fmt.round .rne (.ofInt i)
      else
        let fr := log2Bits 480 160 (n * 2 ^ (480 - l)) 0
        let x : Int := i * 2 ^ 161 + (2 * fr + 1 : Nat)
        t.fmt.round .rne (.fin (decide (x < 0)) x.natAbs 1 (-161))

/-- The sign bit of an IEEE type cleared, or inverted; a NaN gives the canonical NaN (R230). -/
def FTy.signOp (t : FTy) (inv : Bool) (a : Nat) : Nat :=
  if (t.fmt.value a).isNan then t.fmt.nanCode
  else
    let m := a % 2 ^ t.fmt.mag
    if inv && a / 2 ^ t.fmt.mag % 2 == 0 then 2 ^ t.fmt.mag + m else m

/-! ### Conversions (R184, R234) -/

/-- The rounding mode that a conversion form selects (R184, R234). -/
def cvtMode (rtz : Bool) : RMode := if rtz then .rtz else .rne

/-- One conversion (R184, R212, R234): integer to integer saturates with IOV. -/
def convert (dst src : Ty) (rtz : Bool) (bits : Nat) : Nat × Flags :=
  match dst, src with
  | .int d, .int s =>
    let v := s.val bits
    let r := if v < d.lo then d.lo else if d.hi < v then d.hi else v
    ((r % 2 ^ d.width).toNat, flagIf (r != v) fIOV)
  | _, _ => roundTo dst fINV (cvtMode rtz) (src.value bits)

/-! ### Immediates (R57) -/

/-- The operand of a VI immediate in lanes of a type (R57). -/
def viImm (t : Ty) (i : BitVec 16) : Nat × Flags :=
  match t with
  | .int s => (if s.signed then (i.toInt % 2 ^ s.width).toNat else i.toNat % 2 ^ s.width, 0)
  | .flt .f32 =>
    if (FTy.bf16.fmt.value i.toNat).isNan then roundTo t fINV .rne .nan else (i.toNat * 2 ^ 16, 0)
  | .flt .bf16 => (i.toNat, 0)
  | _ => roundTo t fINV .rne (FTy.bf16.fmt.value i.toNat)

/-- The operand of an RI immediate for an integer type (R51, R57). -/
def RImm.value (signed : Bool) : RImm → Word
  | .imm v => if signed then v.signExtend 64 else v.zeroExtend 64
  | .high v => (v ++ (0 : BitVec 32) : BitVec 64)
  | .lit w => w

/-! ### Block scales (R211, R219) -/

/-- R211 e5m3. -/
def e5m3 (c : Nat) : Val :=
  if c % 256 = 0xFF then .nan
  else
    let e := c % 256 / 8
    let m := c % 8
    if e = 0 then .dyadic m (-17) else .dyadic (8 + m) ((e : Int) - 18)

/-- The largest finite value of an 8-bit element type (R219). -/
def Ty.maxVal : Ty → Val
  | .int i => .ofInt i.hi
  | .flt f => let m := f.fmt.magVal f.fmt.maxCode; .dyadic m.1 m.2
  | .b8 b => let m := b.fmt.magVal b.fmt.maxCode; .dyadic m.1 m.2

/-- Nearest even with saturation (R219): a quotient that overflows gives the largest finite value of its sign, with SAT, in
an extended format too (log 85). An infinite quotient does not overflow: it is exact where the format has it (R212). -/
def roundSat (t : Ty) (v : Val) : Nat × Flags :=
  let r := roundTo t fSAT .rne v
  match t with
  | .b8 b => match b.fmt.value r.1 with
    | .inf s => if v.isFin then (b.fmt.code s b.fmt.maxCode, fSAT) else r
    | _ => r
  | _ => r

/-- The candidate code of one element under a scale (R219). -/
def quantCode (t : Ty) (s : Nat) (v : Val) : Nat :=
  if (e5m3 s).isZero then 0 else (roundSat t (v.div (e5m3 s)).1).1

/-- The f32 error sum of a candidate scale over a block (R219). -/
def scaleErr (t : Ty) (s : Nat) (vs : List Val) : Nat :=
  vs.foldl (fun err v =>
    if v.isFin then
      let d := (round32 ((e5m3 s).mul (t.value (quantCode t s v))).1).1
      let r := (round32 (v.add (f32v d).neg).1).1
      let sq := (round32 ((f32v r).mul (f32v r)).1).1
      (round32 ((f32v err).add (f32v sq)).1).1
    else err) 0

/-- The largest magnitude of the non-NaN elements of a block (R219). -/
def maxAbs (vs : List Val) : Val :=
  vs.foldl (fun m v => if v.isNan then m else if m.lt v.abs then v.abs else m) .zero

/-- R219 scale_search. -/
def scaleSearch (t : Ty) (vs : List Val) : Nat :=
  let a := maxAbs vs
  let c := ((List.range 0xFF).find? fun s => !((e5m3 s).mul t.maxVal).1.lt a).getD 0xFE
  let cands := [some c, if 8 ≤ c then some (c - 8) else none, if c + 8 ≤ 0xFE then some (c + 8) else none]
  let best := cands.foldl (fun (best : Option (Nat × Nat)) s =>
    match s with
    | none => best
    | some s =>
      let err := scaleErr t s vs
      match best with
      | none => some (s, err)
      | some (b, be) =>
        if (f32v err).lt (f32v be) || ((f32v err).eq (f32v be) && s != c && decide (s < b) && b != c)
        then some (s, err) else best) none
  (best.map (·.1)).getD c

/-! ### Exact sums of products (R220) -/

/-- The exact group value of products, with INV for 0 × ∞ and for ∞ − ∞ among them, whatever else the group holds; a zero is
−0 only when every product is −0. -/
def groupSum (ps : List (Val × Val)) : Val × Flags :=
  let qs := ps.map fun p => p.1.mul p.2
  let has (s : Bool) : Bool := qs.any fun q => match q.1 with | .inf t => t == s | _ => false
  (match qs with
    | [] => .zero
    | q :: rest => rest.foldl (fun acc q => (acc.add q.1).1) q.1,
    qs.foldl (fun f q => f ||| q.2) (flagIf (has false && has true) fINV))

/-- Only INV and OVF of a group addition are raised (R293). -/
def mmaFlags (f : Flags) : Flags := f &&& (fINV ||| fOVF)

/-- One group addition of R220: round32(acc + sc × P). A group value that is zero though P is not is +0. -/
def groupAdd (acc : Nat) (sc : Val) (ps : List (Val × Val)) : Nat × Flags :=
  let p := groupSum ps
  let s := sc.mul p.1
  let r := (f32v acc).add (if s.1.isZero && !p.1.isZero then .zero else s.1)
  let q := round32 r.1
  (q.1, mmaFlags (p.2 ||| s.2 ||| r.2 ||| q.2))

end Sys2Proof
end

