-- ==== Sys2Proof/Machine/State.lean ====
section
/-! DEFINITION. The machine's state: everything the spec gives the device, as plain data; its faults and
refusals; and the state after power-on reset. INVENTORY.md lists each field with its rule and reset value. -/

namespace Sys2Proof.Machine

/-! ### Memory (R190, R193 to R196, R200) -/

/-- All byte storage in one list of cells, addresses strictly rising, no cell holding zero (log 1, log 3).
Keys: physical addresses from 0; then vaults, scratchpads, operand memories and accumulator memories, each at its base. -/
abbrev Memory := List Host.Cell

/-- Key base of the vaults, 2^27 bytes apart (log 3). -/
def vaultBase : Nat := 2 ^ 44
/-- Key base of the scratchpads, 2^19 bytes apart (log 3). -/
def spadBase : Nat := 2 ^ 45
/-- Key base of the operand memories, 2^17 bytes apart (log 3). -/
def omBase : Nat := 2 ^ 46
/-- Key base of the accumulator memories, 2^18 bytes apart (log 3). -/
def accBase : Nat := 2 ^ 47
/-- Mark keys of the 64-bit words of register files and stream queues, 2^15 a tile (log 3). -/
def regBase : Nat := 2 ^ 48
/-- Mark keys of the scratchpad tags, 2^17 a tile (log 3). -/
def tagBase : Nat := 2 ^ 49
/-- Mark keys of line metadata, 64 a line (log 3). -/
def metaBase : Nat := 2 ^ 50

/-! ### Registers and results in flight (chapter 07) -/

/-- A value together with its file, as a bypass latch holds it (R159). -/
inductive RVal
  | x (w : Word)
  | v (w : VWord)
  | k (w : KWord)
  deriving DecidableEq, Repr

/-- Where a scheduled result lands; `none` is a transient destination or flags alone (R54, R154). -/
inductive WDst
  | x (n : Fin 64)
  | v (n : Fin 384)
  | k (n : Fin 16)
  | lc (n : Fin 32)
  | none
  deriving DecidableEq, Repr

/-- A write scheduled and not yet landed (R154, R155, R158): its cycle, the cycle of its commit, slot, whether it is an
arriving result, its order of commit, target, value, the bytes (v) or bits (k) it writes, and whether it enters the
bypass (R160). -/
structure PendW where
  due : Nat
  issued : Nat
  slot : Fin 8
  late : Bool
  seq : Nat
  dst : WDst
  val : RVal
  mask : KWord
  byp : Bool
  deriving DecidableEq, Repr

/-- A condition-bit change not yet visible (R142): visibility cycle, issue cycle, slot, bit, value. -/
structure CbChange where
  vis : Nat
  issued : Nat
  slot : Fin 8
  cb : Fin 32
  val : Bool
  deriving DecidableEq, Repr

/-- A token counter (R344). -/
structure Tk where
  count : BitVec 16
  sat : Bool
  deriving DecidableEq, Repr

/-- A repeat latch: the encoded syllable and the literal words it consumed (R41). -/
structure Latch where
  word : Word
  lits : List Word
  deriving DecidableEq, Repr

/-- A write of MTS, applied at the end of its cycle (R186); `gdl` names the group whose copy it reaches. -/
structure MtsW where
  slot : Fin 8
  reg : SysReg
  group : Fin 4
  val : Word
  deriving DecidableEq, Repr

/-- The register files of a tile (R152) with the results in flight and the latches (R41, R159); `tk0` holds the token
counters as they stood at the start of the cycle (R346), and `took` the condition bits that the CBTAKEs of the cycle
cleared, with their slots (R144). -/
structure Regs where
  x : Vector Word 64
  v : Vector VWord 384
  k : Vector KWord 16
  lc : Vector Word 32
  cb : BitVec 32
  tk : Vector Tk 16
  tk0 : Vector Tk 16
  pend : List PendW
  pendF : List (Nat × Flags)
  seq : Nat
  cbPend : List CbChange
  took : List (Fin 8 × Fin 32)
  byp : Vector (List RVal) 8
  bypDrop : Bool
  latch : Vector (Option Latch) 8
  deriving DecidableEq, Repr

/-- The effect of a wait on toc (R119, R123): the cycle of its decision, its slot, whether it clears toc, and whether its
bundle has committed. -/
structure TocOp where
  at_ : Nat
  slot : Fin 8
  clear : Bool
  done : Bool
  deriving DecidableEq, Repr

/-- The system registers of a tile that hold state of their own (R187); wclock, limit and gdl are elsewhere. `tocOps` holds
the toc effects of the waits that are decided, as far as toc does not hold them yet (R123);
`stop0` is stop as the cycle found it (R185); `mtsPlan` holds the MTS that other streams commit in the cycle, for
TFENCE (R223). -/
structure SysRegs where
  coord : BitVec 48
  rank : BitVec 8
  stage : BitVec 6
  ctx : Fin 64
  tclock : Word
  dlmax : BitVec 41
  esclim : BitVec 16
  toc : BitVec 16
  tocOps : List TocOp
  sticky : BitVec 8
  tenable : BitVec 8
  syncwin : Word
  wheel : Word
  stop : Bool
  stop0 : Bool
  bfmt : Vector Word 16
  mts : List MtsW
  mtsPlan : List MtsW
  deriving DecidableEq, Repr

/-! ### Traps (chapter 23) -/

/-- The kinds of a fault-queue entry (R385). -/
inductive TrapKind
  | illegal | repeatInvalid | fetchFault | loopNest | joinMismatch | trap | breakpoint | portConflict
  | bypassInvalid | streamData | addrSpace | misaligned | privilege | pageFault | dataError | bankFormat
  | arithmetic | enqTarget | operandSlot | metadata | syncWindow | wheel | deadlineEscalation | issueDeadline
  | engine | peer | schedStall | save
  deriving DecidableEq, Repr

/-- A fault as its detector describes it: the fields of the fault-queue entry that depend on the fault (R392). -/
structure Trap where
  kind : TrapKind
  slot : Fin 8 := 0
  cause : Nat := 0
  level : Nat := 0
  access : Nat := 0
  addr : Word := 0
  info0 : Word := 0
  info1 : Word := 0
  deriving DecidableEq, Repr

/-- The launch of the task that a piece of work belongs to: its slot, and the LID of its record (R85, R427, R428). -/
structure Owner where
  slot : Fin 16
  lid : BitVec 32
  deriving DecidableEq, Repr

/-- A fault-queue entry before it is written (R392); PHASE is fixed when it is appended. `lslot` is the slot of the launch
whose FAULTS it counts in (R427). -/
structure FaultEntry where
  trap : Trap
  rank : Nat
  group : Nat
  ctx : Fin 64
  pc : Nat
  lid : BitVec 32
  wclk : Nat
  token : Word
  lslot : Option (Fin 16)
  deriving DecidableEq, Repr

/-! ### Streams (R128) -/

/-- An entry of the loop stack (R128, R138). -/
structure Loop where
  start : Nat
  stop : Nat
  remaining : Nat
  n : Nat
  rings : List Ring
  exit : ExitTest
  deriving DecidableEq, Repr

/-- The frame of an explicit wait (R116): w, t, stamp, budget, clamp, whether re-executed, and the limit. -/
structure WaitFrame where
  wall : Bool
  t : Nat
  stamp : Nat
  budget : Nat
  clamp : Bool
  resumed : Bool
  limit : Nat
  deriving DecidableEq, Repr

/-- The decided outcome of a wait: CODE, DETAIL and LEFT (R118). -/
structure Decision where
  code : Nat
  detail : Nat
  left : Nat
  deriving DecidableEq, Repr

/-- A pending wait of a stream: its frame, its syllable and slot, the operands read in its issue cycle, the cycle of that
issue, the accesses committed before it, the request it sent if any, its decision and the value delivered, whether it
may escalate, whether its request has been withdrawn, and whether its effect on toc is counted (R123). -/
structure Wait where
  frame : WaitFrame
  ins : Instr
  slot : Fin 8
  args : List Word
  since : Nat
  mark : Nat
  sent : Option Nat
  dec : Option Decision
  value : Option Word
  forced : Bool
  withdrawn : Bool
  told : Bool
  deriving DecidableEq, Repr

/-- A parked group (R387): the fault, its SEQ (R394) and the latches kept at trap entry (R42). -/
structure Park where
  trap : Trap
  seq : BitVec 32
  latches : List (Fin 8 × Latch)
  deriving DecidableEq, Repr

/-- A leaf obtained by a translation, or the fault it met (R199, R201): physical address of the access, ORD, GRADE,
TIER, its level, and the address of the leaf entry itself. -/
structure Leaf where
  pa : Nat
  ord : Nat
  grade : Nat
  tier : Nat
  level : Nat
  at_ : Nat
  deriving DecidableEq, Repr

/-- What a walk yields (R198, R201): a leaf entry with its level and address, or a cause with level and entry read. -/
inductive XRes
  | leaf (entry : Word) (level at_ : Nat)
  | fault (cause level : Nat) (entry : Word)
  deriving DecidableEq, Repr

/-- A translation of the current bundle (R163): slot, virtual address, whether it asks for W, whether it is a walk and no hit
in the cluster's cache (R202), cycle at which it is obtained, and its result. -/
structure Xlat where
  slot : Fin 8
  va : Nat
  write : Bool
  walk : Bool
  due : Nat
  out : Option XRes
  deriving DecidableEq, Repr

/-- The settling of an accumulator tile that MDRAIN or MSTAT waits for (R289): the tile, NOCHK, the cycle in which it ends (0
while a command that writes the tile has not retired), and what the verification found: first mismatching row and column,
255 for none. -/
structure Settle where
  acc : Fin 10
  nochk : Bool
  due : Nat
  found : Option (Nat × Nat)
  deriving DecidableEq, Repr

/-- A row of the own scratchpad that an LS access has taken before its commit cycle (R243): the bytes that it found, the words
whose parity failed, and the bytes that a store left. -/
structure RowTaken where
  row : Nat
  bytes : Nat
  bad : Nat
  put : Option Nat
  deriving DecidableEq, Repr

/-- One instruction stream (R128): the lockstep stream is group 0 while the tile is in lockstep. `words` holds the code
words of a bundle that was fetched and has not committed, by address; `joined` the address after a JOIN bundle that has
committed, with its GAP, until the merge (R146); `jump` the target of a GOTO posted while the task was saved (R396);
`clocks` tclock and wclock of the cycle in which the bundle in hand issued (R126, R127). -/
structure Stream where
  pc : Nat
  members : BitVec 8
  loops : List Loop
  gdl : Word
  wait : Option Wait
  again : Option WaitFrame
  park : Option Park
  stopped : Bool
  readyAt : Nat
  stallWhy : Nat
  stallSlot : Fin 8
  stallLimit : Option Nat
  words : List (Nat × Word)
  joined : Option (Nat × Nat)
  refused : Bool
  got : List (Fin 384)
  rows : Nat
  rowGot : List RowTaken
  xlat : List Xlat
  holdTo : Option Nat
  settle : Option Settle
  cbVis : Nat
  jump : Option Word
  clocks : Option (Word × Nat)
  deriving DecidableEq, Repr

/-! ### Engines (chapters 13 to 15) -/

/-- The commands of a copy queue (R255). -/
inductive CopyOp
  | copy | copym (follow : Word) | stbind (st : Fin 8) | stdrop (st : Fin 8) | selp | selk | rput (flag : Option Word)
  deriving DecidableEq, Repr

/-- A window in the hands of its engines (R307): when it was dispatched and its answer is due, where its first byte lies and
under which grade, and the elements read so far as index, bits and mark; once all are, the partial list that returns, as index
and bits, and the counts. -/
structure Partial where
  window : Nat
  at_ : Nat
  due : Nat
  key : Nat
  grade : Nat
  els : List (Nat × Nat × Bool)
  made : Bool
  elems : List (Nat × Nat)
  qualify : Nat
  nans : Nat
  marked : Option Nat
  scanned : Nat
  deriving DecidableEq, Repr

/-- A selection in flight (R303 to R313): its descriptor and N, the frame of its limit, the next window to dispatch and
the cycle from which it may be, the windows dispatched, those merged, the list held, and what the header will say. -/
structure Sel where
  desc : List Word
  n : Nat
  frame : WaitFrame
  next : Nat
  nextAt : Nat
  sentAt : Option Nat
  out : List Partial
  merged : Nat
  list : List (Nat × Nat)
  count : Nat
  nans : Nat
  errIdx : Option Nat
  scanned : Nat
  late : Bool
  deriving DecidableEq, Repr

/-- A part of a chunk that the copy engine reads or writes at once (R354): source bytes from offset `o` to place `at_` of the
chunk, bytes from that place to offset `o` of DST or to the operand slot, or converted bytes, each with whether it is
marked, for offset `o` of the own scratchpad. -/
inductive ChunkPart
  | src (o len at_ : Nat)
  | dst (o len at_ : Nat)
  | slot (len at_ : Nat)
  | own (o : Nat) (l : List (Byte × Bool))
  deriving DecidableEq, Repr

/-- A chunk in progress (R261, R354): whether its source is still being read, the parts to come, and its bytes, each with
whether it is marked. -/
structure ChunkProg where
  reading : Bool
  parts : List ChunkPart
  got : List (Byte × Bool)
  deriving DecidableEq, Repr

/-- A started copy command (R256 to R265): the values read at start; the next chunk, what of it is in progress, and the
cycle from which it may go on; whether CPCANCEL or a kill stops it at the end of its chunk (R277); the bytes delivered to DST, to the operand slot and to each stream; the bytes read that a stream has still to
take, from position `bufAt`, with the positions that carry a mark; when its writes are acknowledged, each chunk's from its
first byte on, and when its last byte has landed; its suspension; whether the follow-on is handed over and the flag sent; its flags. -/
structure CopyRun where
  start : Nat
  shape : List Word
  bfmt : List Word
  conv : Bool
  total : Nat
  chunk : Nat
  prog : Option ChunkProg
  nextAt : Nat
  stopping : Bool
  accDst : Nat
  accOm : Nat
  accSt : List (Fin 8 × Nat)
  buf : List Byte
  bufAt : Nat
  bad : List Nat
  ackAt : Nat
  acks : List (Nat × Nat)
  landAt : Option Nat
  susp : Option (BitVec 32)
  handed : Bool
  flagged : Bool
  flags : Flags
  sel : Option Sel
  deriving DecidableEq, Repr

/-- A command of a copy queue (R255, R258). -/
structure CopyCmd where
  op : CopyOp
  slot : Fin 8
  pc : Nat
  pos : Nat
  entered : Nat
  mark : Nat
  sid : Fin 16
  tok : TokF
  src : Word
  dst : Word
  shp : Nat
  cmask : BitVec 10
  oms : Fin 8
  zero : Bool
  flush : Bool
  run : Option CopyRun
  deriving DecidableEq, Repr

/-- The queued matrix forms (R281). -/
inductive MxOp
  | omrel (mask : BitVec 8)
  | omld (om : Fin 8) (ptr : Word)
  | mma (ta tb : Ty) (acc : Fin 10) (oma omb : Fin 8) (sa sb : Bool)
  | mzero (acc : Fin 10)
  | macld (acc : Fin 10) (ptr : Word)
  | mdrain (acc : Fin 10) (ptr : Word)
  deriving DecidableEq, Repr

/-- A started matrix command: start and retirement cycles, the bfmt values and descriptor read at start (R282), the
values that an operand byte written meanwhile may be read as (R285); the aligned words of the scratchpad that it has read, each
byte with whether it is marked; and of a drain the next row, the words of earlier rows still to be written, and the flags (R354). -/
structure MxRun where
  start : Nat
  retireAt : Nat
  bfmt : List Word
  desc : List Word
  races : List (Nat × List (Byte × Bool))
  got : List (Nat × List (Byte × Bool))
  row : Nat
  out : List ChunkPart
  flags : Flags
  deriving DecidableEq, Repr

/-- A command of the matrix queue (R281). -/
structure MxCmd where
  op : MxOp
  slot : Fin 8
  pc : Nat
  pos : Nat
  entered : Nat
  tok : TokF
  run : Option MxRun
  deriving DecidableEq, Repr

/-- The state of an operand slot (R279). -/
inductive OmSt | free | claimed | releasing
  deriving DecidableEq, Repr

/-- POISON, STEP and COUNT of an accumulator tile (R287, R298). -/
structure AccSt where
  poison : Bool
  step : BitVec 16
  count : BitVec 16
  deriving DecidableEq, Repr

/-- A stream register with its decoder (R266 to R276): the bytes taken and not yet consumed; how many were taken and
consumed since the binding, with the positions of flushes; cycles spent on the block in hand; decompressed bytes and
finished lanes not yet in a vector; a finished vector with the repetitions left; the previous block; the watchdog's counts for
the current input chunk; and the flags gathered for each command in flight. A byte stands with the queue position of the
command that delivered it, while that is in flight (R222). -/
structure StreamReg where
  bound : Option (Fin 2)
  cut : Bool
  cause : Nat
  blocks : BitVec 32
  desc : Word
  table : List Nat
  queue : List VWord
  input : List (Byte × Option Nat)
  got : Nat
  used : Nat
  flush : List Nat
  work : Nat
  raw : List (Byte × Option Nat)
  lanes : List Nat
  out : Option (VWord × Nat)
  window : List Byte
  chunk : Nat
  vecs : Nat
  cycles : Nat
  flags : List (Nat × Flags)
  deriving DecidableEq, Repr

/-- The engines of a tile. -/
structure Engines where
  cq : Vector (List CopyCmd) 2
  cqPos : Vector Nat 2
  mq : List MxCmd
  mqPos : Nat
  om : Vector OmSt 8
  acc : Vector AccSt 10
  sts : Vector StreamReg 8
  deriving DecidableEq, Repr

/-! ### The scheduler's view of a tile (chapters 04 and 25) -/

/-- A task bound to a tile (R97, R90): context, launch slot, stage, and what is left of its output reservations. -/
structure Task where
  ctx : Fin 64
  slot : Fin 16
  stage : Nat
  lid : BitVec 32
  res : List (Nat × Nat)
  user : Bool
  deriving DecidableEq, Repr

/-- An entry of a tile's own queue for private pushes (R98); the words of its block each with whether they are marked (R205). -/
structure OwnEntry where
  ctx : Fin 64
  slot : Fin 16
  stage : Nat
  block : List (Word × Bool)
  deriving DecidableEq, Repr

/-- What Babbitt or the scheduler is doing for a tile: binding, saving from a cursor, a stalled save, restoring (R99,
R415, R417). A due cycle of 0 is a wait for the cluster's Babbitt; `last` is the cause and address last reported. -/
inductive Job
  | none
  | bind (due : Nat) (block : List (Word × Bool))
  | save (due cursor : Nat) (last : Option (Nat × Nat))
  | saveStalled (cursor : Nat) (last : Option (Nat × Nat)) (retryAt : Nat)
  | restore (due : Nat) (last : Option (Nat × Nat))
  | restoreStalled (last : Option (Nat × Nat)) (retryAt : Nat)
  deriving DecidableEq, Repr

/-- A tile as its die's scheduler sees it; `resident` says that a task stands on it that is not being saved or restored,
`ticking` that the task is resident in the sense of R110, so that its task clock advances, and `view` holds CLASS and
SLICE of every context as the tile's last selection found them, none for one not valid then (R84). `tail` is the task that
the tile last held, to which the commands in its engines belong after its end (R424, R428); `pausedAt` since when its slice
clock stands still (R419, R421); `stopFor` the launch slot and stage for whose work its task is being stopped (R95); `passed`
that the context it selected counts as passed over at this turn (R410). -/
structure Sched where
  task : Option Task
  tail : Option Task
  resident : Bool
  ticking : Bool
  own : List OwnEntry
  lastCtx : Option (Fin 64)
  ranCtx : Option (Fin 64)
  sliceStart : Nat
  sliceLen : Nat
  expired : Bool
  carried : List (Fin 64 × Nat)
  reqAt : Option Nat
  acceptAt : Nat
  idleSince : Nat
  job : Job
  parkSeq : BitVec 32
  killed : Bool
  view : List (Option (Nat × Nat))
  pausedAt : Option Nat
  stopFor : Option (Fin 16 × Nat)
  passed : Bool
  deriving DecidableEq, Repr

/-- An entry of a translation cache (R202): context, level, first address mapped, and the table entry's value and
address. -/
structure TlbEntry where
  ctx : Fin 64
  level : Nat
  va : Nat
  entry : Word
  at_ : Nat
  deriving DecidableEq, Repr

/-- A tile (R1, R128, R152, R187). The instruction buffer holds lines, each with its 32 words, or without where it was
found unreadable (R132, R133). -/
structure Tile where
  regs : Regs
  sys : SysRegs
  streams : Vector (Option Stream) 4
  lockstep : Bool
  savedLoops : List Loop
  tags : List Nat
  tagPend : List (Nat × Bool)
  eng : Engines
  sched : Sched
  vused : Vector Nat 8
  ibuf : List (Nat × Option (List Word))
  fills : List (Nat × Nat)
  tlb : List TlbEntry
  wheelSent : Option (Nat × Nat)
  deriving DecidableEq, Repr

/-! ### Device-level state -/

/-- A stage of a loaded image (R15, R16). -/
structure Stage where
  entry : Nat
  incap : Nat
  level : Nat
  gdle : Nat
  outs : List (Nat × Nat)
  deriving DecidableEq, Repr

/-- A loaded image: what the loader keeps of it (R14 to R22, R33). -/
structure Image where
  gen : BitVec 16
  off : Nat
  len : Nat
  sys : Bool
  secver : Nat
  stages : List Stage
  bars : List (Nat × Nat)
  tqs : List Nat
  qentries : Nat
  wheelreq : Nat
  drain : Nat
  portmap : List (BitVec 8)
  bankfmt : List (BitVec 32)
  deriving DecidableEq, Repr

/-- A slot of a context's image table (R33). -/
structure ImageSlot where
  off : Word
  len : Word
  gen : BitVec 16
  v : Bool
  image : Option Image
  deriving DecidableEq, Repr

/-- An unload whose completion is not yet reported (R34): the range, the handle, and the wall-clock time of the report. -/
structure Unload where
  off : Nat
  len : Nat
  handle : Nat
  due : Nat
  deriving DecidableEq, Repr

/-- The resume block of a context (R393). -/
structure ResumeBlock where
  token : Word
  form : BitVec 4
  reg : Fin 64
  value : Word
  result : BitVec 2
  fqfail : Bool
  deriving DecidableEq, Repr

/-- The accounting block of a context (R429). -/
structure Account where
  kbusy : Option Nat
  dfail : Bool
  busy : Nat
  slices : Nat
  stops : Nat
  overrun : Nat
  saves : Nat
  restores : Nat
  retired : Nat
  killed : Nat
  saved : Nat
  deriving DecidableEq, Repr

/-- The translation control block of a context (R197). -/
structure Tcb where
  rv : Bool
  root : BitVec 36
  ikind : BitVec 4
  iva : BitVec 36
  ibusy : Bool
  vbase : BitVec 7
  vlen : BitVec 7
  deriving DecidableEq, Repr

/-- A context (R83, R197, R393, R429, R33): its 16-word table entry, its blocks and its images. -/
structure Context where
  entry : Vector Word 16
  tcb : Tcb
  resume : ResumeBlock
  account : Account
  images : Vector ImageSlot 64
  unloads : List Unload
  stallSince : Option Nat
  stallTold : Bool
  noSave : Bool
  deriving DecidableEq, Repr

/-- One stage queue of a live launch (R87, R90, R91): its first queue entry, capacity, the pool blocks queued in order,
reservations and age reference. -/
structure StageQ where
  base : Nat
  cap : Nat
  queue : List Nat
  free : List Nat
  reserved : Nat
  last : Nat
  deriving DecidableEq, Repr

/-- A live launch (R86 to R91, R101, R425 to R427); `ended` holds REASON and WDONE once it is decided complete and its record
waits for its last accesses (R426, R428). -/
structure Live where
  ctx : Fin 64
  image : Image
  lid : BitVec 32
  anchor : Nat
  done : Word
  queues : List StageQ
  wheels : List (Nat × List Nat)
  waccept : Nat
  tasks : Nat
  kills : Nat
  tclk : Nat
  overrun : Nat
  sticky : BitVec 8
  faults : Nat
  ended : Option (Nat × Nat)
  deriving DecidableEq, Repr

/-- A launch slot (R85): the record's eight words, STATUS, a post held during Hold, and the live launch. -/
structure LaunchSlot where
  words : Vector Word 8
  status : BitVec 8
  held : Bool
  live : Option Live
  deriving DecidableEq, Repr

/-- A device barrier (R335). -/
structure Barrier where
  count : BitVec 8
  arr : BitVec 8
  kill : Bool
  phase : BitVec 32
  deriving DecidableEq, Repr

/-- A device token queue (R336). -/
structure TQueue where
  depth : Nat
  entries : List Word
  kill : Bool
  deriving DecidableEq, Repr

/-- A request to a sync hub, or to the home of a stage or own queue (R105, R334, R338 to R343). -/
inductive HubOp
  | barinit (n : Nat)
  | bararv
  | barwt (phase : BitVec 32)
  | barsync
  | step
  | barkill
  | qpush (v : Word)
  | qpop
  | enqStage (slot : Fin 16) (stg : Nat) (blk : List (Word × Bool))
  | enqOwn (tile : Fin 144) (slot : Fin 16) (ctx : Fin 64) (stg : Nat) (blk : List (Word × Bool))
  | withdraw (id : Nat)
  deriving DecidableEq, Repr

/-- A request on its way to a home, or pending there (R334): the phase joined by an arrival, when it has arrived. -/
structure HubReq where
  id : Nat
  at_ : Nat
  die : Nat
  tile : Fin 144
  group : Fin 4
  slot : Fin 8
  op : HubOp
  obj : Nat
  limit : Nat
  phase : Option (BitVec 32)
  dest : WDst
  deriving DecidableEq, Repr

/-- A reply of a home on its way back (R117, R334). -/
structure HubReply where
  id : Nat
  at_ : Nat
  tile : Fin 144
  group : Fin 4
  dec : Option Decision
  value : Option Word
  abandoned : Bool
  deriving DecidableEq, Repr

/-- What an access does at its home (R319 to R323, R349 to R351). -/
inductive AccOp
  | load (t : ITy)
  | store
  | atom (op : AtomOp) (w64 : Bool)
  | red (op : RedOp)
  | ldmeta
  | stmeta
  | scatom (op : AtomOp) (w64 : Bool) (rev pos : Nat)
  deriving DecidableEq, Repr

/-- A slot access that has committed and is not yet done (R203, R355 to R357); `owner` is the launch of its task, `seq` is its place in program order
(R355), `struck` says that the parity of its result fails at the tile (R386), and
`sent` that a peer access has left for its port. -/
structure Access where
  id : Nat
  seq : Nat
  tile : Fin 144
  slot : Fin 8
  sid : Fin 16
  pc : Nat
  space : Nat
  key : Nat
  va : Nat
  size : Nat
  op : AccOp
  data : Word
  data2 : Word
  dest : WDst
  kind : Nat
  acq : Bool
  rel : Bool
  grade : Nat
  leafAt : Nat
  ctx : Fin 64
  owner : Option Owner
  arrive : Nat
  performed : Bool
  replyAt : Nat
  result : Word
  marked : Bool
  struck : Bool
  sent : Bool
  deriving DecidableEq, Repr

/-- A merged reduction entry queued at a home (R322): number, line, grade, operation, the words with their combined
operands, and the cycle at which it leaves the queue. -/
structure GredEntry where
  id : Nat
  line : Nat
  grade : Nat
  op : RedOp
  words : List (Nat × Nat)
  due : Nat
  deriving DecidableEq, Repr

/-- A migration in progress (R329, R330): leaf, context, frames, new tier, pass, dirty lines, phase and times. -/
structure Migration where
  leaf : Nat
  ctx : Fin 64
  leaf0 : Word
  old : Nat
  new : Nat
  tier : Nat
  pass : Nat
  dirty : List Nat
  switching : Bool
  due : Nat
  deriving DecidableEq, Repr

/-- An invalidation in progress (R197, R204): context, the cycles of its start and of its earliest end, the accesses that
must be performed first, and the leaf when the migration engine made it (R330). -/
structure Inval where
  ctx : Fin 64
  since : Nat
  earliest : Nat
  accs : List Nat
  leaf : Option Nat
  deriving DecidableEq, Repr

/-- The control block of the hot-page tracker and its counters (R329); `demoteLo` keeps the half of DEMOTE written with the
register word before it (log 3). -/
structure Hot where
  en : Bool
  hot : BitVec 16
  half : BitVec 5
  freeH : Word
  freeL : Word
  headH : BitVec 10
  headL : BitVec 10
  tailH : BitVec 10
  tailL : BitVec 10
  demoteLo : BitVec 32
  skips : Nat
  done : Nat
  abandon : Nat
  counts : List (Nat × Fin 64 × Nat)
  posted : List (Nat × Fin 64 × Bool)
  halfAt : Nat
  deriving DecidableEq, Repr

/-- A public-key slot of the security block (R28). -/
structure KeySlot where
  key : List Byte
  ident : BitVec 64
  counter : BitVec 32
  deriving DecidableEq, Repr

/-- A frame on a peer port or the management port (R108, R324, R326): the station it is for, where a peer table or a request
names one, its EtherType, and its payload. -/
structure Frame where
  mac : Option (BitVec 48)
  etherType : BitVec 16
  bytes : List Byte
  deriving DecidableEq, Repr

/-- Firmware state (R23, R109): installed and next images of the three kinds, and the staging buffer. -/
structure Firmware where
  installed : Vector (List Byte) 3
  next : Vector (Option (List Byte)) 3
  staging : Option (Nat × List (Option Byte))
  stations : List (BitVec 48)
  keys : Vector KeySlot 8
  last : List (BitVec 48 × Nat × Nat × List Byte)
  out : List Frame
  deriving DecidableEq, Repr

/-- The power states of INFO (R109, R419, R420). -/
inductive Power | running | entering | held | leaving
  deriving DecidableEq, Repr

/-- Hold (R419, R420): the state, the trigger's wall-clock time, a pending exit, the exit's time, whether memories are at
nominal power, and the pin's level. -/
structure Hold where
  power : Power
  trigger : Nat
  exitAsked : Bool
  exitAt : Nat
  nominal : Bool
  pin : Bool
  deriving DecidableEq, Repr

/-- A peer message sent and not answered (R327), the station that the peer table gave for it (R324), and the context and
launch of its task. -/
structure PeerOut where
  msg : PeerMsg
  mac : BitVec 48
  first : Nat
  last : Nat
  tile : Fin 144
  slot : Fin 8
  pc : Nat
  index : Nat
  access : Option Nat
  cmd : Option (Fin 2 × Nat)
  ctx : Fin 64
  owner : Option Owner
  deriving DecidableEq, Repr

/-- A peer port (R325 to R327): whether its Ethernet link is up, whether it reports link-up, whether the partner's HELLO
was heard, the negotiated version, when the next HELLO is due, the next SEQ sent and awaited for each tile and stream,
messages held ahead of a missing SEQ, those refused, those unanswered, the frames sent, and the frames that reach the
port, each with its cycle. -/
structure Port where
  link : Bool
  up : Bool
  heard : Bool
  vmaj : Nat
  vmin : Nat
  helloAt : Nat
  seqOut : List (Nat × Nat × BitVec 32)
  seqIn : List (Nat × Nat × BitVec 32)
  heldIn : List PeerMsg
  naked : List (Nat × Nat × BitVec 32)
  unanswered : List PeerOut
  out : List Frame
  wire : List (Nat × Frame)
  deriving DecidableEq, Repr

/-- A task that Babbitt has saved (R413, R414; log 13): its tile, the marks of what the record holds, and whether Hold
saved it. -/
structure Saved where
  rank : Fin 144
  tile : Tile
  marks : List Nat
  byHold : Bool
  deriving DecidableEq, Repr

/-- One turn of the cycle's agenda (log 5): an event, a part of a tile's cycle, or a phase, which lists its own turns when it
comes. -/
inductive Turn
  | event (i : Instr)
  | land (t : Fin 144)
  | stream (t : Fin 144) (g : Fin 4)
  | groups (t : Fin 144)
  | decode (t : Fin 144)
  | close (t : Fin 144)
  | phase (n : Nat)
  deriving DecidableEq, Repr

/-- How the bundle in hand fares: it goes on, a trap, or it stays held for a reason code of R385 (0: not under R125). -/
inductive Flow
  | go
  | trapped (t : Trap)
  | stalled (why : Nat)
  deriving DecidableEq, Repr

/-- The cursor: the tile, stream and slot in hand, and what is known of the bundle in hand; `mark` is
the place in program order before every syllable of the cycle (R355), `lag` the cycles for which the bundle waits for
more than rows of the scratchpad (R243). -/
structure Cursor where
  tile : Fin 144
  group : Fin 4
  slot : Fin 8
  word : Word
  mark : Nat
  lag : Nat
  pc : Nat
  len : Nat
  gap : Nat
  rings : Option (List Ring)
  target : Option Nat
  penalty : Bool
  stopPt : Bool
  blocked : Bool
  moved : Bool
  flow : Flow
  deriving DecidableEq, Repr

/-- Time (R7, R110, R350; log 4). -/
structure Clock where
  now : Nat
  wclock : Nat
  tick : Nat
  wheel : Nat
  deriving DecidableEq, Repr

/-- What a core of the Bronze complex does at a home (R2, R353). -/
inductive CoreOp
  | read (n : Nat)
  | write (l : List Byte)
  | atom (op : AtomOp) (w64 : Bool) (x y : Word)
  deriving DecidableEq, Repr

/-- An access of a Bronze core to HBM4 or LPDDR-6, with the cycle in which it reaches the home of its physical address
(R2, R353). -/
structure CoreAcc where
  at_ : Nat
  core : Fin 32
  pa : Nat
  op : CoreOp
  deriving DecidableEq, Repr

/-- The sync hubs (R334 to R336): objects whose state is not all zero, requests, pending waits, replies. -/
structure Hubs where
  bars : List (Nat × Barrier)
  tqs : List (Nat × TQueue)
  reqs : List HubReq
  waits : List HubReq
  replies : List HubReply
  nextId : Nat
  deriving DecidableEq, Repr

/-- The accesses between tiles and homes (R203, R316, R322, R350). -/
structure Net where
  accs : List Access
  greds : List GredEntry
  nextId : Nat
  deriving DecidableEq, Repr

/-- Device registers and coordinators (R188, R202, R204, R329, R390); `loads` holds the codes that phimld reported, each
with its offset, identifier or handle (R434); `posts` the posts of a cycle, each with its context's block as it was posted
(R396). -/
structure Dev where
  limit : BitVec 32
  hot : Hot
  migrations : List Migration
  clusterTlb : Vector (List TlbEntry) 36
  walkCache : Vector (List TlbEntry) 2
  invals : List Inval
  faultNew : List FaultEntry
  faultWait : List FaultEntry
  posts : List (Fin 64 × ResumeBlock)
  pollAt : Nat
  irqs : List Nat
  loads : List (Nat × Nat)
  scrubAt : Nat
  corrected : Vector Nat 49
  uncorrected : Vector Nat 49
  linkErrs : Nat
  deriving DecidableEq, Repr

/-- The state of the device; `inputs` and `cores` hold what is to come from outside the tiles, `coreReads` what the Bronze
cores have read, each with whether it was marked; `marks` holds failing parity and uncorrectable marks, `lineMeta` the nonzero metadata of
lines, and `grades` the grade under which a line of DRAM was last written (R200, R318). -/
structure State where
  clk : Clock
  cur : Cursor
  agenda : List Turn
  freeCtr : Nat
  inputs : List (Nat × Instr)
  cores : List CoreAcc
  coreReads : List (Fin 32 × List Byte × Bool)
  mem : Memory
  marks : List Nat
  lineMeta : List (Nat × Nat)
  grades : List (Nat × Nat)
  tiles : Vector Tile 144
  ctxs : Vector Context 64
  slots : Vector LaunchSlot 16
  hubs : Hubs
  net : Net
  dev : Dev
  fw : Firmware
  hold : Hold
  ports : Vector Port 16
  saved : List Saved
  deriving DecidableEq, Repr

/-- Why the machine stops: nothing that the spec describes stops the device as a whole, so there is no such reason. Traps are
taken, and what the spec leaves undefined is a free value. -/
inductive Fault
  deriving DecidableEq, Repr

/-- Why an instruction is refused. -/
inductive Refusal
  /-- Raised by the dispatch arm of an instruction that has no meaning yet. Safe. -/
  | notModelled (mnemonic : String)
  deriving DecidableEq, Repr

/-! ### Reset (R10, and log 2 where the spec gives no value) -/

/-- The register files at power-on (R42, R152; log 2). -/
def Regs.reset : Regs where
  x := .replicate 64 0
  v := .replicate 384 0
  k := .replicate 16 0
  lc := .replicate 32 0
  cb := 0
  tk := .replicate 16 ⟨0, false⟩
  tk0 := .replicate 16 ⟨0, false⟩
  pend := []
  pendF := []
  seq := 0
  cbPend := []
  took := []
  byp := .replicate 8 []
  bypDrop := false
  latch := .replicate 8 none

/-- The system registers at power-on (R111, R115, R123, R170, R188, R100, R102, R215). -/
def SysRegs.reset : SysRegs where
  coord := 0
  rank := 0
  stage := 0
  ctx := 0
  tclock := 0
  dlmax := 0x400000000#41
  esclim := 16
  toc := 0
  tocOps := []
  sticky := 0
  tenable := 0
  syncwin := 0
  wheel := 0
  stop := false
  stop0 := false
  bfmt := .replicate 16 0
  mts := []
  mtsPlan := []

/-- An unbound stream register (R276). -/
def StreamReg.reset : StreamReg :=
  ⟨none, false, 0, 0, 0, [], [], [], 0, 0, [], 0, [], [], none, [], 0, 0, 0, []⟩

/-- The engines with empty queues and free slots (R279, R287). -/
def Engines.reset : Engines where
  cq := .replicate 2 []
  cqPos := .replicate 2 0
  mq := []
  mqPos := 0
  om := .replicate 8 .free
  acc := .replicate 10 ⟨false, 0, 0⟩
  sts := .replicate 8 .reset

/-- An idle tile on which no task has run (R92, R94). -/
def Sched.reset : Sched where
  task := none
  tail := none
  resident := false
  ticking := false
  own := []
  lastCtx := none
  ranCtx := none
  sliceStart := 0
  sliceLen := 0
  expired := false
  carried := []
  reqAt := none
  acceptAt := 0
  idleSince := 0
  job := .none
  parkSeq := 0
  killed := false
  view := []
  pausedAt := none
  stopFor := none
  passed := false

/-- A tile at power-on. -/
def Tile.reset : Tile where
  regs := .reset
  sys := .reset
  streams := .replicate 4 none
  lockstep := true
  savedLoops := []
  tags := []
  tagPend := []
  eng := .reset
  sched := .reset
  vused := .replicate 8 0
  ibuf := []
  fills := []
  tlb := []
  wheelSent := none

/-- A context at power-on (R83, R197, R393, R429, R33; log 2). -/
def Context.reset : Context where
  entry := .replicate 16 0
  tcb := ⟨false, 0, 0, 0, false, 0, 0⟩
  resume := ⟨0, 0, 0, 0, 0, false⟩
  account := ⟨none, false, 0, 0, 0, 0, 0, 0, 0, 0, 0⟩
  images := .replicate 64 ⟨0, 0, 0, false, none⟩
  unloads := []
  stallSince := none
  stallTold := false
  noSave := false

/-- The hot-page tracker at power-on (R329). -/
def Hot.reset : Hot where
  en := false
  hot := 256
  half := 10
  freeH := 0
  freeL := 0
  headH := 0
  headL := 0
  tailH := 0
  tailL := 0
  demoteLo := 0
  skips := 0
  done := 0
  abandon := 0
  counts := []
  posted := []
  halfAt := 0

/-- A peer port with its link down (R325). -/
def Port.reset : Port := ⟨false, false, false, 0, 0, 0, [], [], [], [], [], [], []⟩

/-- A cursor at rest. -/
def Cursor.reset : Cursor := ⟨0, 0, 0, 0, 0, 0, 0, 0, 0, none, none, false, false, false, false, .go⟩

/-- The machine right after power-on reset (R10, R23). -/
def State.reset : State where
  clk := ⟨0, 0, 0, 0⟩
  cur := .reset
  agenda := []
  freeCtr := 0
  inputs := []
  cores := []
  coreReads := []
  mem := []
  marks := []
  lineMeta := []
  grades := []
  tiles := .replicate 144 .reset
  ctxs := .replicate 64 .reset
  slots := .replicate 16 ⟨.replicate 8 0, 0, false, none⟩
  hubs := ⟨[], [], [], [], [], 0⟩
  net := ⟨[], [], 0⟩
  dev :=
    { limit := 4096, hot := .reset, migrations := [], clusterTlb := .replicate 36 [], walkCache := .replicate 2 []
      invals := [], faultNew := [], faultWait := [], posts := [], pollAt := 0, irqs := [], loads := [], scrubAt := 0
      corrected := .replicate 49 0, uncorrected := .replicate 49 0, linkErrs := 0 }
  fw :=
    { installed := Vector.ofFn fun i => Config.installed i.val, next := .replicate 3 none, staging := none
      stations := Config.stationsOf (Config.installed 2)
      keys := Vector.ofFn fun i => ⟨(Config.keySlots i.val).1, (Config.keySlots i.val).2.1, (Config.keySlots i.val).2.2⟩
      last := [], out := [] }
  hold := ⟨.running, 0, false, 0, true, false⟩
  ports := .replicate 16 .reset
  saved := []

end Sys2Proof.Machine
end

