-- ==== Sys2Proof/Machine/Operands.lean ====
section
/-! DEFINITION. Access to the tile and stream in hand, raising of traps, and every operand form: registers, ring
bases and bypass latches as sources, and written, rotating and transient destinations (R47, R54, R152 to R162). -/

namespace Sys2Proof.Machine

/-- A vector with the element at an index replaced. -/
def upd {α : Type} {n : Nat} (v : Vector α n) (i : Fin n) (x : α) : Vector α n := v.set i.val x i.isLt

/-- Why a meaning does not go on: an exact trap, or a bundle held for a reason code of R385 (0 when the hold is not
one of R125, 9 when it waits for rows of the scratchpad alone, R243), with the state as the hold leaves it. -/
inductive Stop
  | trap (t : Trap)
  | hold (why : Nat) (s : State)
  deriving DecidableEq, Repr

/-- The result of a meaning. -/
abbrev Res := Except Stop

namespace State

/-! ### The tile and stream in hand -/

/-- Tile `t`. -/
def tileAt (s : State) (t : Fin 144) : Tile := s.tiles.get t

/-- The tile in hand. -/
def tile (s : State) : Tile := s.tileAt s.cur.tile

/-- Replace tile `t`. -/
def setTile (s : State) (t : Fin 144) (x : Tile) : State := { s with tiles := upd s.tiles t x }

/-- Change tile `t`. -/
def modTile (s : State) (t : Fin 144) (f : Tile → Tile) : State := s.setTile t (f (s.tileAt t))

/-- Change the registers of the tile in hand. -/
def modRegs (s : State) (f : Regs → Regs) : State :=
  s.modTile s.cur.tile fun t => { t with regs := f t.regs }

/-- Change the system registers of the tile in hand. -/
def modSys (s : State) (f : SysRegs → SysRegs) : State :=
  s.modTile s.cur.tile fun t => { t with sys := f t.sys }

/-- Change the engines of the tile in hand. -/
def modEng (s : State) (f : Engines → Engines) : State :=
  s.modTile s.cur.tile fun t => { t with eng := f t.eng }

end State

/-- A stream at the start of its code (R97, R145). -/
def Stream.new (pc : Nat) (members : BitVec 8) (gdl : Word) (readyAt : Nat) : Stream where
  pc := pc
  members := members
  loops := []
  gdl := gdl
  wait := none
  again := none
  park := none
  stopped := false
  readyAt := readyAt
  stallWhy := 0
  stallSlot := 0
  stallLimit := none
  words := []
  joined := none
  refused := false
  got := []
  rows := 0
  rowGot := []
  xlat := []
  holdTo := none
  settle := none
  cbVis := 0
  jump := none
  clocks := none

/-- A stream without what a held bundle has gathered: its next bundle is fetched and issued anew (R125, R133, R157, R243,
R289). -/
def Stream.anew (st : Stream) : Stream :=
  { st with stallWhy := 0, stallLimit := none, words := [], refused := false, got := [], rows := 0, rowGot := [], xlat := []
            holdTo := none, settle := none, clocks := none }

namespace State

/-- Stream `g` of tile `t`; where there is none, one without members. -/
def streamAt (s : State) (t : Fin 144) (g : Fin 4) : Stream :=
  ((s.tileAt t).streams.get g).getD (Stream.new 0 0 0 0)

/-- The stream in hand. -/
def strm (s : State) : Stream := s.streamAt s.cur.tile s.cur.group

/-- Replace stream `g` of tile `t`. -/
def setStream (s : State) (t : Fin 144) (g : Fin 4) (x : Option Stream) : State :=
  s.modTile t fun tl => { tl with streams := upd tl.streams g x }

/-- Change the stream in hand. -/
def modStrm (s : State) (f : Stream → Stream) : State :=
  s.setStream s.cur.tile s.cur.group (some (f s.strm))

/-- Is slot `i` a member of the stream in hand? -/
def member (s : State) (i : Fin 8) : Bool := s.strm.members.getLsbD i.val

/-- The task on the tile in hand. -/
def task (s : State) : Option Task := s.tile.sched.task

/-- The context of the running task. -/
def ctxOf (s : State) : Fin 64 := s.tile.sys.ctx

/-- Context `c`. -/
def ctx (s : State) (c : Fin 64) : Context := s.ctxs.get c

/-- Change context `c`. -/
def modCtx (s : State) (c : Fin 64) (f : Context → Context) : State := { s with ctxs := upd s.ctxs c (f (s.ctx c)) }

/-- The live launch of a slot. -/
def liveAt (s : State) (n : Fin 16) : Option Live := (s.slots.get n).live

/-- Change the live launch of a slot. -/
def modLive (s : State) (n : Fin 16) (f : Live → Live) : State :=
  let sl := s.slots.get n
  { s with slots := upd s.slots n { sl with live := sl.live.map f } }

/-- The live launch of the running task. -/
def live (s : State) : Option Live := s.task.bind fun k => s.liveAt k.slot

/-- Is the running task a system task (R28)? -/
def isSys (s : State) : Bool :=
  match s.task with
  | some k => !k.user
  | none => false

/-- The cycle in hand. -/
def now (s : State) : Nat := s.clk.now

/-! ### Traps -/

/-- An exact trap of the slot in hand. -/
def raise {α : Type} (s : State) (kind : TrapKind) (info0 info1 : Word := 0) (addr : Word := 0) (access : Nat := 0)
    (cause level : Nat := 0) : Res α :=
  .error (.trap { kind, slot := s.cur.slot, cause, level, access, addr, info0, info1 })

/-- ILLEGAL at a syllable (R60, R385): INFO0 the syllable, INFO1 1. -/
def illegal {α : Type} (s : State) : Res α := s.raise .illegal s.cur.word 1

/-- Hold the bundle, the state kept. -/
def stall {α : Type} (s : State) (why : Nat) : Res α := .error (.hold why s)

/-! ### Marks and failing parity (R205, R436) -/

/-- Does a granule that the bytes [a, a + n) touch carry a mark? -/
def marked (s : State) (a n gran : Nat) : Bool :=
  s.marks.any fun m => decide (a / gran * gran ≤ m) && decide (m < (a + n + gran - 1) / gran * gran)

/-- The marks of the granules that lie wholly in [a, a + n) are cleared. -/
def clearMarks (s : State) (a n gran : Nat) : State :=
  { s with marks := s.marks.filter fun m =>
      !(decide (a ≤ m / gran * gran) && decide (m / gran * gran + gran ≤ a + n)) }

/-- A mark is set. -/
def setMark (s : State) (a : Nat) : State := { s with marks := if s.marks.contains a then s.marks else a :: s.marks }

/-- Every granule that the bytes [a, a + n) touch is marked. -/
def markAll (s : State) (a n gran : Nat) : State :=
  (List.range ((a + n + gran - 1) / gran - a / gran)).foldl (fun s i => s.setMark ((a / gran + i) * gran)) s

end State

/-- Key of 64-bit word `j` of x register `n`, for marks (log 3). -/
def xKey (t : Fin 144) (n : Nat) : Nat := regBase + t.val * 2 ^ 15 + n
/-- Key of word `j` of k register `n`. -/
def kKey (t : Fin 144) (n j : Nat) : Nat := regBase + t.val * 2 ^ 15 + 64 + 4 * n + j
/-- Key of word `j` of v register `n`. -/
def vKey (t : Fin 144) (n j : Nat) : Nat := regBase + t.val * 2 ^ 15 + 1024 + 32 * n + j
/-- Key of word `j` of entry `e` of the queue of stream register `st`. -/
def stKey (t : Fin 144) (st e j : Nat) : Nat := regBase + t.val * 2 ^ 15 + 16384 + 512 * st + 32 * e + j

namespace State

/-- DATA_ERROR of source 1: parity of a register read (R386). -/
def parityTrap {α : Type} (s : State) (file num : Nat) : Res α :=
  s.raise .dataError 1 (BitVec.ofNat 64 (file + num * 2 ^ 16))

/-! ### Rotation (R47) -/

/-- The register that a ring base names in the iteration of the innermost loop, or ILLEGAL. -/
def rotate (s : State) (v : Bool) (n : Nat) : Res Nat :=
  match s.strm.loops with
  | [] => s.illegal
  | l :: _ =>
    match l.rings.find? fun r => r.vec == v && r.base == n with
    | some r => .ok (r.base + l.n % r.len)
    | none => s.illegal

/-- A register number checked against its file's limit after rotation (R54). -/
def inFile (s : State) (bound n : Nat) : Res (Fin bound) := if h : n < bound then .ok ⟨n, h⟩ else s.illegal

/-! ### Sources (R153, R159 to R161) -/

/-- The value an x register reads: x0 is zero (R152). -/
def xReg (s : State) (n : Fin 64) : Word := if n = 0 then 0 else s.tile.regs.x.get n

/-- The value a k register reads: k0 is all ones (R152). -/
def kReg (s : State) (n : Fin 16) : KWord := if n = 0 then BitVec.allOnes 256 else s.tile.regs.k.get n

/-- The value a v register reads. -/
def vReg (s : State) (n : Fin 384) : VWord := s.tile.regs.v.get n

/-- Read an x register, with its parity check; x0 has no storage that could fail. -/
def takeX (s : State) (n : Fin 64) : Res Word :=
  if n ≠ 0 ∧ s.marked (xKey s.cur.tile n.val) 1 1 then s.parityTrap 0 n.val else .ok (s.xReg n)

/-- Read a v register, with its parity check. -/
def takeV (s : State) (n : Fin 384) : Res VWord :=
  if s.marked (vKey s.cur.tile n.val 0) 32 1 then s.parityTrap 1 n.val else .ok (s.vReg n)

/-- Read a k register, with its parity check; k0 has no storage that could fail. -/
def takeK (s : State) (n : Fin 16) : Res KWord :=
  if n ≠ 0 ∧ s.marked (kKey s.cur.tile n.val 0) 4 1 then s.parityTrap 2 n.val else .ok (s.kReg n)

/-- BYPASS_INVALID for a latch (R161, R385). -/
def badLatch {α : Type} (s : State) (slot : Fin 8) (depth : Fin 3) : Res α :=
  s.raise .bypassInvalid (BitVec.ofNat 64 (slot.val + 256 * depth.val))

/-- The value of a bypass latch, when it is a member's and valid (R161). -/
def latch (s : State) (slot : Fin 8) (depth : Fin 3) : Res RVal :=
  if s.member slot then
    match (s.tile.regs.byp.get slot)[depth.val]? with
    | some v => .ok v
    | none => s.badLatch slot depth
  else s.badLatch slot depth

/-- Read an x source field. -/
def readX (s : State) : XSrc → Res Word
  | .reg n => s.takeX n
  | .rot n => do s.takeX (← s.inFile 64 (← s.rotate false n.val))
  | .byp sl d => do
    match ← s.latch sl d with
    | .x w => .ok w
    | _ => s.badLatch sl d

/-- Read a v source field. -/
def readV (s : State) : VSrc → Res VWord
  | .reg n => s.takeV n
  | .rot n => do s.takeV (← s.inFile 384 (← s.rotate true n.val))
  | .byp sl d => do
    match ← s.latch sl d with
    | .v w => .ok w
    | _ => s.badLatch sl d

/-- Read a k source field. -/
def readK (s : State) : KSrc → Res KWord
  | .reg n => s.takeK n
  | .byp sl d => do
    match ← s.latch sl d with
    | .k w => .ok w
    | _ => s.badLatch sl d

/-- The v registers that a v source field reads, for the bank ports (R157). -/
def vNames (s : State) : VSrc → List (Fin 384)
  | .reg n => [n]
  | .rot n => match s.rotate true n.val >>= s.inFile 384 with
    | .ok m => [m]
    | .error _ => []
  | .byp .. => []

/-! ### Destinations (R54) -/

/-- The x register that a destination field writes; `none` for a transient one. -/
def destX (s : State) : XDst → Res WDst
  | .reg n => .ok (.x n)
  | .rot n => do return .x (← s.inFile 64 (← s.rotate false n.val))
  | .nwb _ => .ok .none

/-- The v register that a destination field writes. -/
def destV (s : State) : VDst → Res WDst
  | .reg n => .ok (.v n)
  | .rot n => do return .v (← s.inFile 384 (← s.rotate true n.val))
  | .nwb _ => .ok .none

/-- The k register that a destination field writes. -/
def destK (_ : State) : KDst → Res WDst
  | .reg n => .ok (.k n)
  | .nwb _ => .ok .none

end State

end Sys2Proof.Machine
end

