-- ==== Sys2Proof/Machine/Flags.lean ====
section
/-! DEFINITION. The arithmetic flags of a tile and the condition bits: when a flag enters sticky, when TFENCE finds
one, and in what order condition-bit changes become visible (R142 to R144, R170, R171, R222, R223). -/

namespace Sys2Proof.Machine

namespace State

/-- Flags raised by a syllable, to enter sticky when its result of latency `lat` becomes readable (R171). -/
def flag (s : State) (lat : Nat) (f : Flags) : State :=
  if f = 0 then s else s.modRegs fun r => { r with pendF := (s.now + lat, f) :: r.pendF }

end State

/-! ### MTS at the end of its cycle (R115, R158, R186) -/

/-- Insert an MTS in the order of R158: slot, then commit. -/
def insertMts (m : MtsW) : List MtsW → List MtsW
  | [] => [m]
  | n :: l => if n.slot.val ≤ m.slot.val then n :: insertMts m l else m :: n :: l

/-- The MTS of a cycle in the order of R158. -/
def sortMts (l : List MtsW) : List MtsW := l.foldl (fun l m => insertMts m l) []

/-- A stream's gdl after the MTS of its cycle (R115, R186). -/
def gdlAfter (l : List MtsW) (g : Fin 4) (old : Word) : Word :=
  (sortMts l).foldl (fun v m => if m.reg = .gdl ∧ m.group = g then m.val else v) old

/-- The flags that are due by a cycle, combined by OR (R171). -/
def dueFlags (now : Nat) (l : List (Nat × Flags)) : Flags :=
  (l.filter fun p => decide (p.1 ≤ now)).foldl (fun acc p => acc ||| p.2) 0

/-- sticky at the end of a cycle: the value MTS left, with the flags due ORed in (R171). -/
def stickyAfter (mts : BitVec 8) (now : Nat) (l : List (Nat × Flags)) : BitVec 8 := mts ||| dueFlags now l

/-- Insert a condition-bit change by issue cycle, then slot; a change of the same place comes after (R144). -/
def insertCb (c : CbChange) : List CbChange → List CbChange
  | [] => [c]
  | d :: l =>
    if d.issued < c.issued ∨ (d.issued = c.issued ∧ d.slot.val ≤ c.slot.val) then d :: insertCb c l else c :: d :: l

/-- Set a bit of the 32 condition bits. -/
def setCb (cb : BitVec 32) (i : Fin 32) (v : Bool) : BitVec 32 :=
  if v then cb ||| BitVec.twoPow 32 i.val else cb &&& ~~~(BitVec.twoPow 32 i.val)

/-- Step 1 of R144: apply the changes visible by this cycle, in the order of their issue and slot. -/
def Regs.settleCb (r : Regs) (now : Nat) : Regs :=
  let due := (r.cbPend.filter fun c => decide (c.vis ≤ now)).foldl (fun l c => insertCb c l) []
  { r with
    cb := due.foldl (fun cb c => setCb cb c.cb c.val) r.cb
    cbPend := r.cbPend.filter fun c => !decide (c.vis ≤ now) }

/-- A condition bit as the slot in hand reads it in step 2 of R144: the bits as step 1 left them, with the clears made by
the CBTAKEs of lower-numbered slots in this cycle. -/
def State.cbit (s : State) (i : Fin 32) : Bool :=
  s.tile.regs.cb.getLsbD i.val
    || s.tile.regs.took.any fun e => e.2 == i && decide (s.cur.slot.val ≤ e.1.val)

end Sys2Proof.Machine
end

