-- ==== Sys2Proof/Machine/Ops.lean ====
section
/-! DEFINITION. The named operations over memory and registers: bytes of memory, results scheduled and landing
(R153 to R162), taking an exact trap and returning from one (R384 to R397), waits (R112 to R124). -/

namespace Sys2Proof.Machine

/-! ### Memory (R8; log 1, log 3) -/

/-- The byte at a key; an unlisted key reads as zero (log 1). -/
def Memory.get : Memory → Nat → Byte
  | [], _ => 0
  | (k, b) :: l, a => if k = a then b else Memory.get l a

/-- One byte written; the list stays rising and lists no zero. -/
def Memory.set : Memory → Nat → Byte → Memory
  | [], a, b => if b = 0 then [] else [(a, b)]
  | (k, c) :: l, a, b =>
    if k < a then (k, c) :: Memory.set l a b
    else if k = a then (if b = 0 then l else (a, b) :: l)
    else if b = 0 then (k, c) :: l else (a, b) :: (k, c) :: l

/-- Every key of the list lies above `a`. -/
def Memory.above (a : Nat) : Memory → Bool
  | [] => true
  | (k, _) :: _ => decide (a < k)

/-- The canonical form: keys strictly rising, no zero byte listed. -/
def Memory.wf : Memory → Bool
  | [] => true
  | (k, b) :: l => b != 0 && Memory.above k l && Memory.wf l

/-- `n` bytes from key `a`, little-endian (R8). -/
def Memory.readN (m : Memory) (a : Nat) : Nat → Nat
  | 0 => 0
  | n + 1 => (m.get a).toNat + 256 * Memory.readN m (a + 1) n

/-- The low `n` bytes of `v` written from key `a`, little-endian (R8). -/
def Memory.writeN (m : Memory) (a : Nat) : Nat → Nat → Memory
  | 0, _ => m
  | n + 1, v => Memory.writeN (m.set a (BitVec.ofNat 8 v)) (a + 1) n (v / 256)

/-- `n` bytes from key `a`. -/
def Memory.bytes (m : Memory) (a : Nat) : Nat → List Byte
  | 0 => []
  | n + 1 => m.get a :: Memory.bytes m (a + 1) n

/-- Bytes written from key `a`. -/
def Memory.putBytes (m : Memory) (a : Nat) : List Byte → Memory
  | [] => m
  | b :: l => Memory.putBytes (m.set a b) (a + 1) l

/-- Bytes as a little-endian number (R8). -/
def leNat : List Byte → Nat
  | [] => 0
  | b :: l => b.toNat + 256 * leNat l

/-- The `n` low bytes of a number, little-endian. -/
def leBytes : Nat → Nat → List Byte
  | 0, _ => []
  | n + 1, v => BitVec.ofNat 8 v :: leBytes n (v / 256)

namespace State

/-- `n` bytes of memory, little-endian. -/
def load (s : State) (a n : Nat) : Nat := Memory.readN s.mem a n

/-- The 64-bit word at a key. -/
def load64 (s : State) (a : Nat) : Word := BitVec.ofNat 64 (s.load a 8)

/-- `n` bytes of memory written, and the marks of the granules they cover cleared (R436). -/
def store (s : State) (a n gran v : Nat) : State :=
  { s.clearMarks a n gran with mem := Memory.writeN s.mem a n v }

/-- Bytes of memory written, and the marks of the granules they cover cleared (R436). -/
def storeBytes (s : State) (a gran : Nat) (l : List Byte) : State :=
  { s.clearMarks a l.length gran with mem := Memory.putBytes s.mem a l }

/-- Pieces of bytes that one write stores: the marks of the granules that the pieces together replace are cleared (R436). -/
def clearCovered (s : State) (gran : Nat) (pieces : List (Nat × Nat)) : State :=
  if s.marks = [] then s
  else
    let covered (b : Nat) : Bool := pieces.any fun p => decide (p.1 ≤ b) && decide (b < p.1 + p.2)
    (pieces.map fun p => p.1 / gran).eraseDups.foldl (fun s g =>
      if (List.range gran).all fun i => covered (g * gran + i) then s.clearMarks (g * gran) gran gran else s) s

end State

/-! ### Lanes of a vector register (R152, R225) -/

/-- Lane `j` of width `w` bytes. -/
def lane (v : VWord) (w j : Nat) : Nat := v.toNat / 2 ^ (8 * w * j) % 2 ^ (8 * w)

/-- The number whose digits of `w` bytes are the list, first lowest. -/
def packLanes (w : Nat) : List Nat → Nat
  | [] => 0
  | x :: l => x % 2 ^ (8 * w) + 2 ^ (8 * w) * packLanes w l

/-- A register from its lanes, lane 0 first. -/
def ofLanes (w : Nat) (l : List Nat) : VWord := BitVec.ofNat 2048 (packLanes w l)

/-- The bytes that a byte mask selects, as a mask of bits (R225). -/
def maskBytes (m : KWord) : VWord :=
  if m = BitVec.allOnes 256 then BitVec.allOnes 2048
  else ofLanes 1 ((List.range 256).map fun i => if m.getLsbD i then 255 else 0)

/-- The byte mask of the lanes that a predicate selects. -/
def laneMask (w : Nat) (on : Nat → Bool) : KWord :=
  BitVec.ofNat 256 (((List.range (256 / w)).map fun j => if on j then (2 ^ w - 1) * 2 ^ (w * j) else 0).sum)

/-- Is lane `j` active under a mask register (R225)? -/
def active (m : KWord) (w j : Nat) : Bool := m.getLsbD (w * j)

/-- The byte mask of the active lanes (R225). -/
def activeMask (m : KWord) (w : Nat) : KWord := if m = BitVec.allOnes 256 then m else laneMask w (active m w)

/-! ### Scheduling and landing of results (R153 to R160) -/

/-- A result scheduled for the file and the bypass latches (R154, R160, R164). -/
def State.schedule (s : State) (dst : WDst) (val : RVal) (mask : KWord) (lat : Nat) (byp : Bool) : State :=
  s.modRegs fun r => { r with
    pend := { due := s.now + lat, issued := s.now, slot := s.cur.slot, late := false, seq := r.seq, dst, val, mask, byp } :: r.pend
    seq := r.seq + 1 }

/-- A result that arrives in this cycle (R155, R158), for a slot of a tile. -/
def State.arrive (s : State) (t : Fin 144) (slot : Fin 8) (dst : WDst) (val : RVal) : State :=
  s.modTile t fun tl =>
    { tl with regs := { tl.regs with
        pend := { due := s.now, issued := s.now, slot, late := true, seq := tl.regs.seq, dst, val
                  mask := BitVec.allOnes 256, byp := true } :: tl.regs.pend
        seq := tl.regs.seq + 1 } }

/-- Which of two writes that land together was committed first: an arriving result counts as committed when it arrives, so
after every result of fixed latency (R158). Two that arrive in one cycle count in the order of their arrival events (DESIGN
CHOICE, log 104). -/
def PendW.earlier (a b : PendW) : Bool := (!a.late && b.late) || (a.late == b.late && decide (a.seq < b.seq))

/-- Which of two writes comes first in the order that R158 settles them by: slot, then commit. -/
def PendW.before (a b : PendW) : Bool := a.slot.val < b.slot.val || (a.slot == b.slot && a.earlier b)

/-- Insert a write in the order of R158. -/
def insertPend (w : PendW) : List PendW → List PendW
  | [] => [w]
  | v :: l => if v.before w then v :: insertPend w l else w :: v :: l

/-- Insert a write in the order of commit (R160). -/
def insertSeq (w : PendW) : List PendW → List PendW
  | [] => [w]
  | v :: l => if v.earlier w then v :: insertSeq w l else w :: v :: l

/-- One write to the files; x0 and k0 discard it, masked bytes keep what they hold (R152, R225). -/
def Regs.put (r : Regs) (w : PendW) : Regs :=
  match w.dst, w.val with
  | .x n, .x v => if n = 0 then r else { r with x := upd r.x n v }
  | .lc n, .x v => { r with lc := upd r.lc n v }
  | .v n, .v v =>
    let m := maskBytes w.mask
    { r with v := upd r.v n ((r.v.get n &&& ~~~m) ||| (v &&& m)) }
  | .k n, .k v => if n = 0 then r else { r with k := upd r.k n ((r.k.get n &&& ~~~w.mask) ||| (v &&& w.mask)) }
  | _, _ => r

/-- One entry into a slot's bypass latches (R160). -/
def Regs.enter (r : Regs) (w : PendW) : Regs :=
  if w.byp then { r with byp := upd r.byp w.slot ((w.val :: r.byp.get w.slot).take 3) } else r

/-- The writes due by a cycle, in the order of R158. -/
def Regs.due (r : Regs) (now : Nat) : List PendW :=
  (r.pend.filter fun w => decide (w.due ≤ now)).foldl (fun l w => insertPend w l) []

/-- Land every write due by a cycle: files under R158, latches under R160. -/
def Regs.land (r : Regs) (now : Nat) : Regs :=
  let ws := r.due now
  let r := ws.foldl Regs.put { r with pend := r.pend.filter fun w => !decide (w.due ≤ now) }
  (ws.foldl (fun l w => insertSeq w l) []).foldl Regs.enter r

/-- Marks of the 64-bit words of registers that a landing write overwrites whole (R436). -/
def State.clearWritten (s : State) (t : Fin 144) (w : PendW) : State :=
  match w.dst with
  | .x n => s.clearMarks (xKey t n.val) 1 1
  | .k n => (List.range 4).foldl (fun s j =>
      if w.mask.extractLsb' (64 * j) 64 == BitVec.allOnes 64 then s.clearMarks (kKey t n.val j) 1 1 else s) s
  | .v n => (List.range 32).foldl (fun s j =>
      if (List.range 8).all fun b => w.mask.getLsbD (8 * j + b) then s.clearMarks (vKey t n.val j) 1 1 else s) s
  | _ => s

/-- A tile's cycle begins: its writes land (R153, R436), and what holds for one cycle starts anew. -/
def State.landTile (s : State) (t : Fin 144) : State :=
  let r := (s.tileAt t).regs
  let s := if s.marks.isEmpty then s else (r.due s.now).foldl (fun s w => s.clearWritten t w) s
  s.modTile t fun tl => { tl with
    regs := { tl.regs.land s.now with tk0 := tl.regs.tk, took := [] }
    sys := { tl.sys with stop0 := tl.sys.stop, mtsPlan := [] }
    vused := .replicate 8 0 }

namespace State

/-- Schedule an x result (R154). -/
def writeX (s : State) (d : XDst) (lat : Nat) (v : Word) : Res State := do
  return s.schedule (← s.destX d) (.x v) (BitVec.allOnes 256) lat true

/-- Schedule a k result (R154). -/
def writeK (s : State) (d : KDst) (lat : Nat) (v mask : KWord) : Res State := do
  return s.schedule (← s.destK d) (.k v) mask lat true

/-- Does the image's port map let a slot write a bank (R19, R156)? -/
def ownsPort (s : State) (slot : Fin 8) (bank : Nat) : Bool :=
  match s.live with
  | some l =>
    let b := l.image.portmap.getD bank 0
    fld b 0 4 == BitVec.ofNat 4 (8 + slot.val) || fld b 4 4 == BitVec.ofNat 4 (8 + slot.val)
  | none => false

/-- The two cases of PORT_CONFLICT for a write to v register `n` (R156). -/
def portClash (s : State) (n : Fin 384) (lat : Nat) : Bool :=
  !s.ownsPort s.cur.slot (n.val / 48) ||
    s.tile.regs.pend.any fun w => w.slot == s.cur.slot && w.due == s.now + lat &&
      match w.dst with
      | .v m => m != n && m.val / 48 == n.val / 48
      | _ => false

/-- Schedule a v result, with the port checks of R156; the value is zero in the bytes that the mask leaves out (R226). -/
def writeV (s : State) (d : VDst) (lat : Nat) (v : VWord) (mask : KWord) : Res State := do
  let w ← s.destV d
  match w with
  | .v n =>
    if s.portClash n lat then s.raise .portConflict (BitVec.ofNat 64 (n.val / 48 + n.val * 2 ^ 16))
    else return s.schedule w (.v (v &&& maskBytes mask)) mask lat true
  | _ => return s.schedule w (.v (v &&& maskBytes mask)) mask lat true

/-! ### Free values (log 6) -/

/-- A free number between two bounds, and the counter advanced. -/
def draw (s : State) (lo hi : Nat) : Nat × State :=
  (Config.within lo hi s.freeCtr, { s with freeCtr := s.freeCtr + 1 })

/-- A free number that is at least `lo`, and the counter advanced. -/
def drawFrom (s : State) (lo : Nat) : Nat × State :=
  (Config.atLeast lo s.freeCtr, { s with freeCtr := s.freeCtr + 1 })

/-! ### Rows of a store taken before its commit (R243, R244, R164) -/

/-- The byte at an offset that parts of a store, each an address, a number of bytes and a value, leave there: the last of those
that cover it. -/
def partByte (l : List (Nat × Nat × Nat)) (o : Nat) : Option Nat :=
  (l.filter fun e => decide (e.1 ≤ o) && decide (o < e.1 + e.2.1)).getLast?.map fun e => e.2.2 / 256 ^ (o - e.1) % 256

/-- A row that a store of a tile took in an earlier port cycle becomes what the parts `l` make of it, as if they had been
stored then: a byte that another access has written since stays (log 19). With no part the row is as it was found, its
failing parity with it. -/
def fixRow (t : Fin 144) (l : List (Nat × Nat × Nat)) (s : State) (x : RowTaken) : State :=
  match x.put with
  | none => s
  | some q =>
    let key := spadBase + t.val * 2 ^ 19 + 256 * x.row
    let byte (v i : Nat) : Nat := v / 256 ^ i % 256
    let mine (i : Nat) : Bool := (s.mem.get (key + i)).toNat == byte q i
    let s1 := { s with mem := s.mem.putBytes key ((List.range 256).map fun i => BitVec.ofNat 8
      (if mine i then (partByte l (256 * x.row + i)).getD (byte x.bytes i) else (s.mem.get (key + i)).toNat)) }
    (List.range 64).foldl (fun s k =>
      let is := (List.range 4).map (· + 4 * k)
      if is.all mine then
        if is.all fun i => (partByte l (256 * x.row + i)).isSome then s.clearMarks (key + 4 * k) 4 4
        else if x.bad.testBit k then s.setMark (key + 4 * k) else s
      else s) s1

/-- The rows that a bundle of a tile had stored to in port cycles before its commit are as they were (R164). -/
def undoRows (s : State) (t : Fin 144) (l : List RowTaken) : State := l.foldl (fixRow t []) s

/-! ### Taking an exact trap (R42, R162, R384 to R394) -/

/-- The repeat latches of a group's members. -/
def latchesOf (r : Regs) (members : BitVec 8) : List (Fin 8 × Latch) :=
  (List.finRange 8).filterMap fun i =>
    if members.getLsbD i.val then (r.latch.get i).map fun l => (i, l) else none

end State

/-- Clear the repeat latches of a set of slots (R42). -/
def Regs.clearLatches (r : Regs) (members : BitVec 8) : Regs :=
  { r with latch := Vector.ofFn fun i => if members.getLsbD i.val then none else r.latch.get i }

/-- A token of R394 for a parked group (WHAT 0) or a suspended command (1, 2). -/
def tokenOf (rank group what : Nat) (seq : BitVec 32) : Word :=
  BitVec.ofNat 64 (rank + 2 ^ 8 * group + 2 ^ 10 * what + 2 ^ 32 * seq.toNat)

namespace State

/-- The launch of the task that a tile holds, or held last (R428). -/
def ownerOf (s : State) (t : Fin 144) : Option Owner := (s.tileAt t).sched.tail.map fun k => ⟨k.slot, k.lid⟩

/-- A fault of a launch on a tile handed to its die's coordinator, to be appended at the end of the cycle (R390, R392). -/
def detectFor (s : State) (o : Option Owner) (c : Fin 64) (t : Fin 144) (group pc : Nat) (tr : Trap) (token : Word) : State :=
  let e : FaultEntry :=
    { trap := tr, rank := t.val, group := group, ctx := c, pc := pc, lid := (o.map fun o => o.lid).getD 0
      wclk := s.clk.wclock, token := token, lslot := o.map fun o => o.slot }
  { s with dev := { s.dev with faultNew := s.dev.faultNew ++ [e] } }

/-- A fault of the task of a tile (R390, R392). -/
def detect (s : State) (t : Fin 144) (group pc : Nat) (tr : Trap) (token : Word) : State :=
  s.detectFor (s.ownerOf t) (s.tileAt t).sys.ctx t group pc tr token

/-- Park group `g` of tile `t` on a trap: the latches are kept in the group's saved state and cleared, every bypass
latch is invalidated from the next cycle, and the entry is made (R387, R42, R162, R392, R394). A pending wait stays as
it was, but for its effect on toc, which is undone with the rest of the bundle (R164). -/
def park (s : State) (t : Fin 144) (g : Fin 4) (tr : Trap) : State :=
  let st := s.streamAt t g
  let s := s.undoRows t st.rowGot
  let tl := s.tileAt t
  let seq := tl.sched.parkSeq + 1
  let st' := { st.anew with
    park := some ⟨tr, seq, latchesOf tl.regs st.members⟩, wait := st.wait.map fun w => { w with told := false } }
  let s := s.setTile t { tl with
    streams := upd tl.streams g (some st')
    regs := { tl.regs.clearLatches st.members with bypDrop := true }
    sys := { tl.sys with tocOps := tl.sys.tocOps.filter fun e => e.done || !st.members.getLsbD e.slot.val }
    sched := { tl.sched with parkSeq := seq, ticking := true } }
  s.detect t (if tl.lockstep then 0 else g.val) st.pc tr (tokenOf t.val g.val 0 seq)

/-- An exact trap of the bundle in hand (R164, R384): nothing of the bundle commits, and its group parks. -/
def enterTrap (s : State) (tr : Trap) : State :=
  let s := s.park s.cur.tile s.cur.group tr
  { s with cur := { s.cur with flow := .trapped tr } }

/-- The outcome of a meaning: its next state; an exact trap taken; or the bundle held. -/
def finish (s : State) : Res State → Host.Outcome State Fault Refusal
  | .ok s' => .next s'
  | .error (.trap t) => .next (s.enterTrap t)
  | .error (.hold why s') => .next { s' with cur := { s'.cur with flow := .stalled why } }

/-- Return from a trap: the group runs again from `pc` after at most 300 cycles, unless a stop is requested, and every
bypass latch of the tile is invalidated (R162, R396); `back` restores the latches kept at entry (R43). A stop request that stands
already stops it here: a wait that is undecided, and has sent nothing, is re-formed from its frame after the restore; one
that is decided, or waits for its home, goes on and meets the request there (R121, R122). -/
def unpark (s : State) (t : Fin 144) (g : Fin 4) (pc : Nat) (wait : Option Wait) (back : Bool) : State :=
  let tl := s.tileAt t
  let st := s.streamAt t g
  let (d, s) := s.draw 1 299
  let latch := match st.park, back with
    | some p, true => p.latches.foldl (fun v e => upd v e.1 (some e.2)) tl.regs.latch
    | _, _ => tl.regs.latch
  let (w, again) := match wait with
    | some wt => if tl.sys.stop && wt.sent.isNone && wt.dec.isNone then (none, some wt.frame) else (wait, st.again)
    | none => (none, st.again)
  s.setTile t { tl with
    streams := upd tl.streams g (some { st with
      park := none, pc := pc, wait := w, again := again, readyAt := s.now + d, stopped := tl.sys.stop && w.isNone })
    regs := { tl.regs with latch := latch, byp := .replicate 8 [] } }

/-! ### Deadlines and waits (R112 to R124) -/

/-- The deadline value of a DLE field: whether wall clock, and T (R112, R113). -/
def deadline (s : State) : Dle → Bool × Nat
  | .code n => (false, if n = 0 then 0 else 2 ^ n.val)
  | .gdl => (s.strm.gdl.getLsbD 63, (fld s.strm.gdl 0 63).toNat)

/-- The limit of a frame now (R116). -/
def limitOf (s : State) (wall : Bool) (t stamp budget : Nat) : Nat :=
  if wall then t else s.clk.wclock + (budget - (s.tile.sys.tclock.toNat - stamp))

/-- The frame of a first issue (R114, R116). -/
def firstFrame (s : State) (wall : Bool) (t : Nat) : WaitFrame :=
  let cap := s.tile.sys.dlmax.toNat
  let clamp := if wall then decide (s.clk.wclock + cap < t) else decide (cap < t)
  let t := if clamp then (if wall then s.clk.wclock + cap else cap) else t
  let stamp := s.tile.sys.tclock.toNat
  { wall, t, stamp, budget := t, clamp, resumed := false, limit := s.limitOf wall t stamp t }

/-- The frame of a wait: formed at first issue, or the saved one after a stop (R116, R122). -/
def frame (s : State) (d : Dle) : WaitFrame :=
  match s.strm.again with
  | some f => { f with resumed := true, limit := s.limitOf f.wall f.t f.stamp f.budget }
  | none => let v := s.deadline d; s.firstFrame v.1 v.2

/-- Ticks from now to a limit, saturating (R118). -/
def leftOf (s : State) (limit : Nat) : Nat := min (limit - s.clk.wclock) (2 ^ 32 - 1)

end State

/-- The status word of R118. -/
def statusWord (f : WaitFrame) (d : Decision) : Word :=
  BitVec.ofNat 64 (d.code + (if f.clamp then 2 ^ 8 else 0) + (if f.resumed then 2 ^ 9 else 0)
    + d.detail % 2 ^ 16 * 2 ^ 16 + d.left * 2 ^ 32)

/-- Does a toc effect come before one of a cycle and a slot (R123)? -/
def TocOp.before (e : TocOp) (at_ : Nat) (slot : Nat) : Bool :=
  decide (e.at_ < at_) || (e.at_ == at_ && decide (e.slot.val < slot))

/-- Insert a toc effect by the cycle of its decision, then its slot (R123). -/
def insertToc (e : TocOp) : List TocOp → List TocOp
  | [] => [e]
  | d :: l => if d.before e.at_ (e.slot.val + 1) then d :: insertToc e l else e :: d :: l

/-- toc after one effect: cleared by OK, one more for TIMEOUT or PARTIAL, saturating (R119, R123). -/
def TocOp.on (c : BitVec 16) (e : TocOp) : BitVec 16 :=
  if e.clear then 0 else if c = BitVec.allOnes 16 then c else c + 1

/-- The toc effects of waits, in the order of their decisions, those of one cycle in increasing slot number (R123). -/
def applyToc (toc : BitVec 16) (ops : List TocOp) : BitVec 16 :=
  (ops.foldl (fun l e => insertToc e l) []).foldl TocOp.on toc

/-- toc as the waits decided in earlier cycles, and in this one by lower slots, left it (R123). -/
def tocNow (y : SysRegs) (now : Nat) (slot : Fin 8) : BitVec 16 :=
  applyToc y.toc (y.tocOps.filter fun e => e.before now slot.val)

/-- The toc effect of a code in a slot (R119). -/
def tocEffect (now : Nat) (slot : Fin 8) (code : Nat) (done : Bool) : List TocOp :=
  if code = 0 then [⟨now, slot, true, done⟩] else if code = 1 ∨ code = 2 then [⟨now, slot, false, done⟩] else []

/-- toc and the effects that it does not hold yet: those of bundles still to commit, and those that come after one of them. -/
def foldToc (toc : BitVec 16) : List TocOp → BitVec 16 × List TocOp
  | [] => (toc, [])
  | e :: l => if e.done then foldToc (e.on toc) l else (toc, e :: l)

/-- The end of a cycle for toc: the effects whose bundles have committed enter in their order (R123). -/
def SysRegs.settleToc (y : SysRegs) : SysRegs :=
  let r := foldToc y.toc (y.tocOps.foldl (fun l e => insertToc e l) [])
  { y with toc := r.1, tocOps := r.2 }

namespace State

/-- An operand of the pending wait, as its issue cycle read it, or the operand read now. -/
def kept (s : State) (k : Nat) (first : Res Word) : Res Word :=
  match s.strm.wait with
  | some wt => .ok (wt.args.getD k 0)
  | none => first

/-- The pending wait of the stream in hand, or the wait that begins now. -/
def pending (s : State) (i : Instr) (w : WaitF) (args : List Word) : Wait :=
  match s.strm.wait with
  | some wt => wt
  | none =>
    { frame := s.frame w.dle, ins := i, slot := s.cur.slot, args, since := s.now, mark := s.cur.mark, sent := none
      dec := none, value := none, forced := false, withdrawn := false, told := false }

/-- The stream in hand keeps a wait pending. -/
def keepWait (s : State) (wt : Wait) : State := s.modStrm fun st => { st with wait := some wt }

/-- Does a decision, as it is made, escalate (R124)? One whose effect on toc is counted has passed the test. -/
def escalates (s : State) (wt : Wait) (d : Decision) : Bool :=
  let sys := s.tile.sys
  !wt.told && !wt.forced && (d.code == 1 || d.code == 2) && sys.esclim != 0 &&
    decide (sys.esclim ≤ tocNow sys s.now wt.slot)

/-- DEADLINE_ESCALATION of a decided wait (R124, R385). -/
def escalation (s : State) (wt : Wait) (d : Decision) : Trap :=
  { kind := .deadlineEscalation, slot := wt.slot, info0 := statusWord wt.frame { d with left := 0 }
    info1 := (tocNow s.tile.sys s.now wt.slot).zeroExtend 64 }

/-- The wait of the stream in hand is decided and its bundle does not commit in this cycle: its effect on toc is counted in
the cycle of the decision all the same, so that the effects keep the order of R123 (DEDUCED, log 94). -/
def countWait (s : State) : State :=
  match s.strm.wait with
  | some wt => match wt.dec with
    | some d =>
      if wt.told then s
      else (s.modSys fun y => { y with tocOps := y.tocOps ++ tocEffect s.now wt.slot d.code false }).keepWait
        { wt with told := true }
    | none => s
  | none => s

/-- R124 escalate_or_complete: a decided wait escalates, or takes its toc effect, writes its status word 6 cycles
later and is over. -/
def endWait (s : State) (w : WaitF) (wt : Wait) (d : Decision) : Res State :=
  if s.escalates wt d then .error (.trap (s.escalation wt d))
  else
    let s := s.modSys fun y => { y with
      tocOps := if wt.told then y.tocOps.map fun e => if e.slot = wt.slot then { e with done := true } else e
        else y.tocOps ++ tocEffect s.now wt.slot d.code true }
    let s := s.modStrm fun st => { st with wait := none, again := none }
    .ok (s.schedule (.x w.stx) (.x (statusWord wt.frame d)) (BitVec.allOnes 256) 6 false)

/-- What a condition that holds gives: code, detail, the value delivered, and the state with the wait's effect. -/
structure Met where
  code : Nat := 0
  detail : Nat := 0
  value : Option Word := none
  after : State

/-- A wait decided at the tile (R116, R117, R131). The condition is tested first, so that completion wins ties; a limit
that passes is decided by the WAIT_TIMEOUT event, which records its decision in the pending wait. -/
def waitHere (s : State) (i : Instr) (w : WaitF) (args : List Word) (cond : Wait → Option Met) : Res (State × Decision × Option Word) :=
  let wt := s.pending i w args
  match wt.dec with
  | some d => if s.cur.blocked then .error (.hold 0 (s.keepWait wt)) else do
      return (← s.endWait w wt d, d, wt.value)
  | none =>
    match cond wt with
    | none => .error (.hold 0 (s.keepWait wt))
    | some m =>
      let d : Decision := ⟨m.code, m.detail, s.leftOf wt.frame.limit⟩
      if s.cur.blocked then .error (.hold 0 (m.after.keepWait { wt with dec := some d, value := m.value })) else do
        return (← m.after.endWait w wt d, d, m.value)

/-- Is an access a SCATOM's, whose bundle commits only with its reply (R163, R351)? -/
def isScatom (a : Access) : Bool := match a.op with | .scatom .. => true | _ => false

/-- Is every slot access that the tile committed before a wait's mark performed (R105, R343, R351)? -/
def performedTo (s : State) (mark : Nat) : Bool :=
  s.net.accs.all fun a => a.tile != s.cur.tile || mark ≤ a.seq || a.performed || isScatom a

/-- The time of a request to a sync home on a die (R334), or of a reply from it (R117): within 60 or 140 cycles. -/
def hopTime (s : State) (die : Nat) : Nat × State :=
  s.draw 1 (if s.cur.tile.val / 72 = die then 60 else 140)

/-- A request put on its way to a home (R334); it arrives after every earlier one of the tile to that home. -/
def ask (s : State) (op : HubOp) (obj die limit : Nat) (dest : WDst) : Nat × State :=
  let id := s.hubs.nextId
  let (d, s) := s.hopTime die
  let at_ := (s.hubs.reqs.filter fun r => r.tile == s.cur.tile && r.die == die).foldl (fun m r => max m r.at_)
    (s.now + d)
  let r : HubReq :=
    { id, at_, die, tile := s.cur.tile, group := s.cur.group, slot := s.cur.slot, op, obj, limit, phase := none, dest }
  (id, { s with hubs := { s.hubs with reqs := s.hubs.reqs ++ [r], nextId := id + 1 } })

/-- A wait decided at a remote home (R117, R131): once `ready` the request leaves, and the wait stays pending until
the home's reply records the decision. -/
def waitThere (s : State) (i : Instr) (w : WaitF) (args : List Word) (ready : Wait → Bool) (op : HubOp) (obj die : Nat) :
    Res (State × Decision × Option Word) :=
  let wt := s.pending i w args
  match wt.dec, wt.sent with
  | some d, _ => if s.cur.blocked then .error (.hold 0 (s.keepWait wt)) else do
      return (← s.endWait w wt d, d, wt.value)
  | none, some _ => .error (.hold 0 (s.keepWait wt))
  | none, none =>
    if ready wt then
      let r := s.ask op obj die wt.frame.limit .none
      .error (.hold 0 (r.2.keepWait { wt with sent := some r.1 }))
    else .error (.hold 0 (s.keepWait wt))

end State

end Sys2Proof.Machine
end

