-- ==== Sys2Proof/Machine/Lines.lean ====
section
/-! DEFINITION. Lines and granules at their homes: grades, marks, dirty lines of a migration, atomics, and reductions that
are queued at a line (chapters 09 and 16: R200, R205, R316, R318, R321, R322, R330, R436). -/

namespace Sys2Proof.Machine

/-- The check granule of storage at a key under a grade (R318, R436). -/
def granule (key grade : Nat) : Nat :=
  if spadBase ≤ key then 4
  else if vaultBase ≤ key then 8
  else if grade = 2 then 64 else if grade = 1 then 32 else 8

/-- The integer type of an atomic (R82). -/
def atomTy (w64 : Bool) : ITy := if w64 then .i64 else .i32

/-- The new value of an atomic, as a pattern of its width; `none` when a compare fails (R253, R321). -/
def atomNew (op : AtomOp) (t : ITy) (old x y : Nat) : Option Nat :=
  match op with
  | .add => some ((old + x) % 2 ^ t.width)
  | .and => some (old &&& x % 2 ^ t.width)
  | .or => some (old ||| x % 2 ^ t.width)
  | .xor => some (old ^^^ x % 2 ^ t.width)
  | .min => some (min (t.val old) (t.val x) % 2 ^ t.width).toNat
  | .max => some (max (t.val old) (t.val x) % 2 ^ t.width).toNat
  | .swap => some (x % 2 ^ t.width)
  | .cas => if t.val old = t.val x then some (y % 2 ^ t.width) else none

/-- Bytes of a reduction's operand (R82). -/
def redBytes : RedOp → Nat
  | .int _ w64 => if w64 then 8 else 4
  | .fadd | .fmax => 4

namespace State

/-! ### Forwarding and dirty lines (R330, R331) -/

/-- The key that a physical key names after every switched migration whose old frame is still forwarded (R330). A page may have
migrated again while its first frame still forwards: the accesses go on to its last frame; `fuel` bounds the frames. -/
def forwardBy (l : List Migration) : Nat → Nat → Nat
  | 0, key => key
  | fuel + 1, key =>
    match l.find? fun m => m.switching && decide (m.old ≤ key) && decide (key < m.old + 2 ^ 16) with
    | some m => forwardBy l fuel (m.new + (key - m.old))
    | none => key

/-- The key at which an access to a physical key is performed (R330, R331). -/
def forward (s : State) (key : Nat) : Nat := forwardBy s.dev.migrations s.dev.migrations.length key

/-- A write performed at a frame that is being copied marks its line dirty (R330). -/
def markDirty (s : State) (key : Nat) : State :=
  let f (m : Migration) : Migration :=
    if !m.switching && decide (m.old ≤ key ∧ key < m.old + 2 ^ 16) && !(m.dirty.contains (key / 64)) then
      { m with dirty := (key / 64) :: m.dirty }
    else m
  if s.dev.migrations.isEmpty then s
  else { s with dev := { s.dev with migrations := s.dev.migrations.map f } }

/-! ### Grades (R200, R318) -/

/-- Was the DRAM line at a key last written under another grade? Such a line reads as uncorrectable (R200). -/
def gradeClash (s : State) (key grade : Nat) : Bool :=
  decide (key < vaultBase) && s.grades.any fun e => e.1 == key / 64 && e.2 != grade

/-- The line at a key is written under a grade; its metadata are zero when that is the first write under it (R318). -/
def setGrade (s : State) (key grade : Nat) : State :=
  if decide (key < vaultBase) && !(s.grades.contains (key / 64, grade)) then
    { s with
      grades := (key / 64, grade) :: s.grades.filter fun e => e.1 != key / 64
      lineMeta := s.lineMeta.filter fun e => e.1 != key / 64 }
  else s

/-! ### Plain writes at a home -/

/-- `n` bytes of one line written at a home under a grade; `bad` writes marked data, which leave every granule they touch
marked (R205, R436). A write of part of a line that another grade wrote leaves what it does not replace marked under the
new grade, since a line reached under two grades reads as uncorrectable (R200). -/
def homePut (s : State) (key n grade v : Nat) (bad : Bool) : State :=
  let g := granule key grade
  let s' := ((s.store key n g v).markDirty key).setGrade key grade
  let s' := if s.gradeClash key grade then ((s'.markAll (key / 64 * 64) 64 g).clearMarks key n g) else s'
  if bad then s'.markAll key n g else s'

end State

/-- An operation of GRED on a word and an operand (R321); fadd rounds once, fmax is FMAX. -/
def redNew (op : RedOp) (old x : Nat) : Nat :=
  match op with
  | .int k w64 =>
    let t := atomTy w64
    let a : AtomOp := match k.val with
      | 0 => .add
      | 1 => .and
      | 2 => .or
      | 3 => .xor
      | 4 => .min
      | _ => .max
    (atomNew a t (old % 2 ^ t.width) x 0).getD 0
  | .fadd => (FTy.f32.add (old % 2 ^ 32) (x % 2 ^ 32)).1
  | .fmax => FTy.f32.minmax true (old % 2 ^ 32) (x % 2 ^ 32)

namespace State

/-! ### Queued reductions (R322) -/

/-- A queued reduction entry leaves its queue: every word takes its combined operand once. -/
def applyGred (s : State) (e : GredEntry) : State :=
  let n := redBytes e.op
  e.words.foldl (fun s w =>
    let bad := s.marked w.1 n (granule w.1 e.grade) || s.gradeClash w.1 e.grade
    s.homePut w.1 n e.grade (redNew e.op (s.load w.1 n) w.2) bad)
    { s with net := { s.net with greds := s.net.greds.filter fun x => x.id != e.id } }

/-- Every entry queued at a line that bytes [key, key + n) touch applies before another access there (R322). -/
def settleLine (s : State) (key n : Nat) : State :=
  (s.net.greds.filter fun e => decide (key / 64 ≤ e.line) && decide (e.line ≤ (key + n - 1) / 64)).foldl applyGred s

/-- Read `n` bytes at a home: the state with queued reductions applied, the bytes, and whether they are marked. -/
def homeRead (s : State) (key n grade : Nat) : State × Nat × Bool :=
  let s := s.settleLine key n
  (s, s.load key n, s.marked key n (granule key grade) || s.gradeClash key grade)

/-- Write `n` bytes of one line at a home. -/
def homeWrite (s : State) (key n grade v : Nat) (bad : Bool) : State := (s.settleLine key n).homePut key n grade v bad

/-- A reduction arrives: it merges into the entry of its line with the same operation and width, or opens one; an entry
of another operation applies first (R322). It counts as performed when it merges, so a frame that is being copied has
its line marked dirty then (R330, R362). -/
def reduceAt (s : State) (key grade : Nat) (op : RedOp) (x : Nat) : State :=
  match s.net.greds.find? fun e => e.line == key / 64 && e.op == op with
  | some e =>
    let words := match e.words.find? fun w => w.1 == key with
      | some w => e.words.map fun v => if v.1 == key then (key, redNew op w.2 x) else v
      | none => e.words ++ [(key, x % 2 ^ (8 * redBytes op))]
    let s := s.markDirty key
    { s with net := { s.net with greds := s.net.greds.map fun v => if v.id = e.id then { v with words } else v } }
  | none =>
    let s := (s.settleLine key 1).markDirty key
    let d := s.drawFrom 1
    let e : GredEntry := ⟨d.2.net.nextId, key / 64, grade, op, [(key, x % 2 ^ (8 * redBytes op))], d.2.now + d.1⟩
    { d.2 with net := { d.2.net with greds := d.2.net.greds ++ [e], nextId := d.2.net.nextId + 1 } }

end State

end Sys2Proof.Machine
end

