-- ==== Sys2Proof/Machine/Access.lean ====
section
/-! DEFINITION. Pointers, spaces, translation, and the accesses that a slot sends to a home (chapters 08, 09, 16,
18: R177, R190 to R203, R245, R316, R317, R355 to R357). -/

namespace Sys2Proof.Machine

/-! ### Pointers (R177, R190) -/

/-- The space of a pointer (R177). -/
def spaceOf (p : Word) : Nat := (fld p 60 4).toNat
/-- The rank of a pointer (R177). -/
def rankOf (p : Word) : Nat := (fld p 52 8).toNat
/-- The offset of a pointer (R177). -/
def offsetOf (p : Word) : Nat := (fld p 0 52).toNat

/-- The size of a space; 0 for a space that does not exist (R190). -/
def spaceSize (sp : Nat) : Nat :=
  match sp with
  | 0 | 6 => 2 ^ 52
  | 1 | 2 => 2 ^ 19
  | 3 => 108 * 2 ^ 20
  | 4 => 0x280000
  | 5 => 0x1000000
  | _ => 0

/-- The ranks below which a space admits (R177); `peers` is the length of the context's peer table. -/
def spaceRanks (peers sp : Nat) : Nat :=
  match sp with
  | 0 | 1 | 4 | 5 => 1
  | 2 => 144
  | 3 => 36
  | 6 => peers
  | _ => 0

/-- R177 check_pointer. -/
def pointerOk (peers : Nat) (sp rank off : Nat) : Bool :=
  decide (sp ≤ 6) && decide (rank < spaceRanks peers sp) && decide (off ≤ spaceSize sp)

namespace State

/-- Length of a context's peer table: bits [59:52] of its PEER field (R324). -/
def peerLen (s : State) (c : Fin 64) : Nat := (fld ((s.ctx c).entry.get 9) 52 8).toNat

/-- Is tile `t` in the TILES of a context (R83)? -/
def inTiles (s : State) (c : Fin 64) (t : Nat) : Bool :=
  if h : 1 + t / 64 < 16 then t < 144 && ((s.ctx c).entry.get ⟨1 + t / 64, h⟩).getLsbD (t % 64) else false

/-- Do the bytes [o, o + n) of a vault lie in the context's window (R196, R197)? -/
def inVault (s : State) (c : Fin 64) (o n : Nat) : Bool :=
  let b := (s.ctx c).tcb.vbase.toNat
  decide (b * 2 ^ 20 ≤ o) && decide (o + n ≤ (b + (s.ctx c).tcb.vlen.toNat) * 2 ^ 20)

/-- Do the bytes [o, o + n) of vault `r` touch the command blocks of a valid context, which no space reaches (R83, R87)? -/
def inPool (s : State) (r o n : Nat) : Bool :=
  (List.finRange 64).any fun c =>
    let p := (s.ctx c).entry.get 6
    let len := 64 * (fld ((s.ctx c).entry.get 5) 20 21).toNat
    ((s.ctx c).entry.get 0).getLsbD 0 && r == (fld p 52 8).toNat && decide (o < (fld p 0 52).toNat + len)
      && decide ((fld p 0 52).toNat < o + n)

/-- May a context's accesses reach the bytes [o, o + n) of vault `r` (R87, R197)? An access to command blocks in the window has
the outcome of one outside the window (DESIGN CHOICE, log 101). -/
def vaultOk (s : State) (c : Fin 64) (r o n : Nat) : Bool := s.inVault c o n && !s.inPool r o n

/-- check_pointer for the running context (R177). -/
def checkPointer (s : State) (p : Word) : Bool :=
  pointerOk (s.peerLen s.ctxOf) (spaceOf p) (rankOf p) (offsetOf p)

end State

/-- A pointer with its offset replaced, reduced to 52 bits. -/
def withOffset (p : Word) (o : Int) : Word := fld p 52 12 ++ BitVec.ofInt 52 o

namespace State

/-- The offset that base and OFF form, exact (R245). -/
def formOffset (p : Word) (off : BitVec 14) (scale : Nat) : Int := (offsetOf p : Int) + off.toInt * (scale : Int)

/-- The checks of R191 on a slot access of `size` bytes at offset `o` of pointer `p`, in order; the offset on success.
`access` is the ACCESS code of R392. -/
def checkAccess (s : State) (reach : List Nat) (p : Word) (o : Int) (size scale access : Nat) : Res Nat :=
  let sp := spaceOf p
  let addr := withOffset p o
  if !reach.contains sp || decide (o < 0) || !pointerOk (s.peerLen s.ctxOf) sp (rankOf p) o.toNat then
    s.raise .addrSpace 0 0 addr access
  else if spaceSize sp < o.toNat + size then s.raise .addrSpace 0 0 addr access
  else if sp = 2 ∧ !s.inTiles s.ctxOf (rankOf p) then s.raise .addrSpace 0 0 addr access
  else if sp = 3 ∧ !s.vaultOk s.ctxOf (rankOf p) o.toNat size then s.raise .addrSpace 0 0 addr access
  else if sp = 5 ∧ !s.isSys then s.raise .privilege 0 0 addr access
  else if o.toNat % scale ≠ 0 then s.raise .misaligned (BitVec.ofNat 64 scale) 0 addr access
  else .ok o.toNat

end State

/-- The key of offset `o` of a space other than the global one (log 3). -/
def spaceKey (t : Fin 144) (sp rank o : Nat) : Nat :=
  if sp = 1 then spadBase + t.val * 2 ^ 19 + o
  else if sp = 2 then spadBase + rank * 2 ^ 19 + o
  else if sp = 3 then vaultBase + rank * 2 ^ 27 + o
  else o

/-! ### Translation (R197 to R202) -/

/-- The index of a virtual address at a level (R198). -/
def walkIndex (lv va : Nat) : Nat :=
  match lv with
  | 0 => nbits va 39 13
  | 1 => nbits va 30 9
  | 2 => nbits va 21 9
  | _ => nbits va 16 5

/-- The bytes that a leaf of a level maps (R198). -/
def leafSpan (lv : Nat) : Nat :=
  match lv with
  | 1 => 2 ^ 30
  | 2 => 2 ^ 21
  | _ => 2 ^ 16

/-- The bytes that a non-leaf entry of a level serves (R198). -/
def tableSpan (lv : Nat) : Nat :=
  match lv with
  | 0 => 2 ^ 39
  | 1 => 2 ^ 30
  | _ => 2 ^ 21

/-- Is an entry a leaf at a level (R198)? -/
def isLeaf (e : Word) (lv : Nat) : Bool := lv == 3 || ((lv == 1 || lv == 2) && e.getLsbD 13)

/-- The physical frame of an entry. -/
def frameOf (e : Word) : Nat := (fld e 16 36).toNat * 2 ^ 16

/-- R198, R199: reserved bits zero; a non-leaf holds only V, PA and software bits; a leaf is aligned to its span and
its ORD, GRADE and MIG codes are defined. -/
def entryOk (e : Word) (lv : Nat) : Bool :=
  fld e 14 2 == 0 && fld e 52 4 == 0 &&
    if isLeaf e lv then
      !(lv == 3 && e.getLsbD 13) && frameOf e % leafSpan lv == 0 && fld e 4 2 != 3 && fld e 6 2 != 3
        && fld e 11 2 != 3
    else fld e 1 13 == 0

/-- R200: the mapped range lies in the range of the leaf's tier. -/
def rangeOk (e : Word) (lv : Nat) : Bool :=
  let pa := frameOf e
  if e.getLsbD 8 then decide (2 ^ 40 ≤ pa) && decide (pa + leafSpan lv ≤ 2 ^ 40 + Config.lpcap)
  else decide (pa + leafSpan lv ≤ 432 * 2 ^ 30)

/-- Does a physical address lie in one of the ranges of R200? -/
def physOk (a : Nat) : Bool := decide (a < 432 * 2 ^ 30) || (decide (2 ^ 40 ≤ a) && decide (a < 2 ^ 40 + Config.lpcap))

namespace State

/-- A table entry as a walker reads it; a free value where no memory is (R198, R200; DESIGN CHOICE, log 99). -/
def tableWord (s : State) (a : Nat) : Word := if physOk a then s.load64 a else Config.outside a

/-- The entry that a die's walk cache holds for a level and an address of a context (R202). -/
def cachedEntry (cache : List TlbEntry) (c : Fin 64) (lv va : Nat) : Option Word :=
  (cache.find? fun e => e.ctx == c && e.level == lv && decide (e.va ≤ va) && decide (va < e.va + tableSpan lv)).map
    fun e => e.entry

/-- The walk of R198 from a level with the table at `t`, over `fuel` levels; causes as R201 orders them. An entry that the
walk cache holds is not read again (R202). -/
def walkFrom (s : State) (cache : List TlbEntry) (c : Fin 64) (va : Nat) : Nat → Nat → Nat → XRes
  | 0, lv, _ => .fault 4 lv 0
  | fuel + 1, lv, t =>
    let a := t + 8 * walkIndex lv va
    match cachedEntry cache c lv va with
    | some e => s.walkFrom cache c va fuel (lv + 1) (frameOf e)
    | none =>
      let e := s.tableWord a
      if s.marked a 8 64 || s.gradeClash a 2 then .fault 6 lv e
      else if !e.getLsbD 0 then .fault 1 lv e
      else if !entryOk e lv then .fault 4 lv e
      else if isLeaf e lv then (if rangeOk e lv then .leaf e lv a else .fault 5 lv e)
      else s.walkFrom cache c va fuel (lv + 1) (frameOf e)

/-- A walk of a context's tables through a walk cache (R197, R198). -/
def walkBy (s : State) (cache : List TlbEntry) (c : Fin 64) (va : Nat) : XRes :=
  let b := (s.ctx c).tcb
  if b.rv then s.walkFrom cache c va 4 0 (b.root.toNat * 2 ^ 16) else .fault 1 0 0

/-- A walk of a context's tables as memory holds them (R197, R198). -/
def walk (s : State) (c : Fin 64) (va : Nat) : XRes := s.walkBy [] c va

/-- The reductions queued at the table lines that a walk reads apply before it reads them (R322). -/
def settleWalk (s : State) (cache : List TlbEntry) (c : Fin 64) (va : Nat) : Nat → Nat → Nat → State
  | 0, _, _ => s
  | fuel + 1, lv, t =>
    let a := t + 8 * walkIndex lv va
    match cachedEntry cache c lv va with
    | some e => s.settleWalk cache c va fuel (lv + 1) (frameOf e)
    | none =>
      let s := s.settleLine a 8
      let e := s.tableWord a
      if !e.getLsbD 0 || isLeaf e lv then s else s.settleWalk cache c va fuel (lv + 1) (frameOf e)

/-- The tables of a context as a walk finds them, once what is queued at their lines has applied (R197, R322). -/
def readyWalk (s : State) (cache : List TlbEntry) (c : Fin 64) (va : Nat) : State :=
  let b := (s.ctx c).tcb
  if s.net.greds = [] ∨ b.rv = false then s else s.settleWalk cache c va 4 0 (b.root.toNat * 2 ^ 16)

/-- The non-leaf entries on a walk that the cache does not hold yet, for the walk cache (R202). -/
def walkPath (s : State) (cache : List TlbEntry) (c : Fin 64) (va : Nat) : Nat → Nat → Nat → List TlbEntry
  | 0, _, _ => []
  | fuel + 1, lv, t =>
    let a := t + 8 * walkIndex lv va
    match cachedEntry cache c lv va with
    | some e => s.walkPath cache c va fuel (lv + 1) (frameOf e)
    | none =>
      let e := s.tableWord a
      if isLeaf e lv then []
      else ⟨c, lv, va / tableSpan lv * tableSpan lv, e, a⟩ :: s.walkPath cache c va fuel (lv + 1) (frameOf e)

end State

/-- The physical address of a virtual address under a leaf (R198). -/
def leafPa (e : Word) (lv va : Nat) : Nat := frameOf e + va % leafSpan lv

/-- Does a cached translation serve a virtual address of a context (R202)? -/
def TlbEntry.serves (e : TlbEntry) (c : Fin 64) (va : Nat) : Bool :=
  e.ctx == c && decide (e.va ≤ va) && decide (va < e.va + leafSpan e.level)

/-- A leaf as a cache entry (R202). -/
def tlbOf (c : Fin 64) (va : Nat) (e : Word) (lv at_ : Nat) : TlbEntry :=
  ⟨c, lv, va / leafSpan lv * leafSpan lv, e, at_⟩

/-- Add an entry to a translation cache of sets of `ways` entries: `set` gives an entry its set, and which entry of a full
set goes is free (R202; log 9). -/
def addTlb (ways pick : Nat) (set : TlbEntry → Nat) (e : TlbEntry) (l : List TlbEntry) : List TlbEntry :=
  if l.contains e then l
  else
    let mine := l.filter fun x => set x == set e
    if mine.length < ways then e :: l
    else match mine[pick % ways]? with
      | some old => e :: l.erase old
      | none => e :: l

/-- The cluster of a tile (R89). -/
def clusterOf (t : Nat) : Nat := t / 72 * 18 + t % 72 / 12 / 2 * 6 + t % 12 / 2

/-- The stack domain of a tile (R89). -/
def domainOf (t : Nat) : Nat := t / 72 * 6 + t % 72 / 12 / 2 * 2 + t % 12 / 6

namespace State

/-- The cluster cache that serves a tile (R202). -/
def clusterCache (s : State) (t : Fin 144) : List TlbEntry := s.dev.clusterTlb.toList.getD (clusterOf t.val) []

/-- Does the migration engine's invalidation hold a tile's further accesses through a leaf (R330)? -/
def heldByMigration (s : State) (t : Fin 144) (c : Fin 64) (leaf : Nat) : Bool :=
  s.dev.invals.any fun i => i.ctx == c && i.leaf == some leaf &&
    s.net.accs.any fun a => a.tile == t && a.leafAt == leaf && !a.performed && i.accs.contains a.id

end State

/-! ### Distances and unloaded times (R196, R316, R317) -/

/-- Distance between two numbers. -/
def dist (a b : Nat) : Nat := (a - b) + (b - a)

/-- Distance from a number to a range [lo, lo + n). -/
def distTo (a lo n : Nat) : Nat := (lo - a) + (a - (lo + n - 1))

/-- Mesh hops between two tiles; row 5 of die 0 faces row 0 of die 1 (R196). -/
def hops (a b : Nat) : Nat := dist (a / 12) (b / 12) + dist (a % 12) (b % 12)

/-- Hops from a tile to the nearest tile of a cluster (R196). -/
def hopsToCluster (t c : Nat) : Nat :=
  distTo (t / 12) (c / 18 * 6 + c % 18 / 6 * 2) 2 + distTo (t % 12) (c % 6 * 2) 2

/-- Hops from a tile to the nearest tile of a stack domain (R317). -/
def hopsToDomain (t d : Nat) : Nat :=
  distTo (t / 12) (d / 6 * 6 + d % 6 / 2 * 2) 2 + distTo (t % 12) (d % 2 * 6) 6

/-- The unloaded time of a 64-byte read by a tile (R196, R317). -/
def unloaded (t sp key : Nat) : Nat :=
  match sp with
  | 0 =>
    if 2 ^ 40 ≤ key then 320 + 2 * (t % 12)
    else
      let st := key / 0x900000000
      160 + 2 * hopsToDomain t st + if t / 72 = st / 6 then 0 else 20
  | 2 => 24 + 2 * hops t ((key - spadBase) / 2 ^ 19)
  | 3 =>
    let c := (key - vaultBase) / 2 ^ 27
    36 + 2 * hopsToCluster t c + if t / 72 = c / 18 then 0 else 20
  | _ => 240 + 2 * (t % 12)

namespace State

/-- What is known of a translation of the slot in hand: a tile-cache hit at once, otherwise the outcome of the
translation under way (R163, R202). `none` means that it must still be obtained. With RV clear every access faults at
L0, whatever a cache holds (R197). -/
def lookup (s : State) (va : Nat) : Option XRes :=
  if !(s.ctx s.ctxOf).tcb.rv then some (.fault 1 0 0)
  else match s.tile.tlb.find? fun e => e.serves s.ctxOf va with
  | some e => some (.leaf e.entry e.level e.at_)
  | none => (s.strm.xlat.find? fun x => x.slot == s.cur.slot && x.va == va).bind fun x => x.out

/-- When a walk of the page of `va` for the running context ends that a miss of this die waits for already (R202). -/
def pendingWalk (s : State) (va : Nat) : Option Nat :=
  (List.finRange 144).findSome? fun t =>
    let tl := s.tileAt t
    if t.val / 72 ≠ s.cur.tile.val / 72 ∨ tl.sys.ctx ≠ s.ctxOf then none
    else tl.streams.toList.findSome? fun st => st.bind fun st =>
      (st.xlat.find? fun x => x.walk && x.out.isNone && x.va / 2 ^ 16 == va / 2 ^ 16 && decide (s.now < x.due)).map fun x => x.due

/-- The time of the table reads of a walk, one after another, each in the unloaded time of R317: of the levels whose entries the
walk cache does not hold (R202). -/
def walkReads (s : State) (cache : List TlbEntry) (t : Nat) (c : Fin 64) (va : Nat) : Nat → Nat → Nat → Nat
  | 0, _, _ => 0
  | fuel + 1, lv, base =>
    let a := base + 8 * walkIndex lv va
    match cachedEntry cache c lv va with
    | some e => s.walkReads cache t c va fuel (lv + 1) (frameOf e)
    | none =>
      let e := s.tableWord a
      unloaded t 0 a + if !e.getLsbD 0 || isLeaf e lv then 0 else s.walkReads cache t c va fuel (lv + 1) (frameOf e)

/-- The least time of the table reads of a walk for the tile in hand (R202). -/
def walkTime (s : State) (va : Nat) : Nat :=
  let cache := s.dev.walkCache.toList.getD (s.cur.tile.val / 72) []
  s.walkReads cache s.cur.tile.val s.ctxOf va 4 0 ((s.ctx s.ctxOf).tcb.root.toNat * 2 ^ 16)

/-- Begin a translation: a cluster hit takes 12 cycles, a walk 40 and its table reads at least and 12,000 ticks at most; a miss
joins a pending walk of its page on the die (R202). -/
def beginXlat (s : State) (va : Nat) (write : Bool) : State :=
  if s.strm.xlat.any fun x => x.slot == s.cur.slot && x.va == va then s
  else
    let hit := (s.clusterCache s.cur.tile).any fun e => e.serves s.ctxOf va
    let d := if hit then (12, s) else match s.pendingWalk va with
      | some due => (due - s.now, s)
      | none => s.draw (40 + s.walkTime va) 12600
    let s := d.2
    s.modStrm fun st => { st with xlat := ⟨s.cur.slot, va, write, !hit, s.now + d.1, none⟩ :: st.xlat }

/-- Translate a global virtual address for the slot in hand, with the leaf checks of R201; the bundle is held until
the translation has been obtained (R163). -/
def translate (s : State) (p : Word) (va : Nat) (write : Bool) (access : Nat) : Res Leaf :=
  match s.lookup va with
  | none => .error (.hold 0 (s.beginXlat va write))
  | some (.fault cause lv e) => s.raise .pageFault e 0 p access cause lv
  | some (.leaf e lv at_) =>
    if !e.getLsbD 3 && !s.isSys then s.raise .pageFault e 0 p access 3 lv
    else if write && !e.getLsbD 1 then s.raise .pageFault e 0 p access 2 lv
    else .ok ⟨leafPa e lv va, (fld e 4 2).toNat, (fld e 6 2).toNat, (fld e 8 1).toNat, lv, at_⟩

end State

namespace State

/-! ### Sending accesses (R163, R203, R355 to R357) -/

/-- The request entries that the tile's slot accesses hold (R203): one for each granule, and they touch one. -/
def entriesUsed (s : State) (t : Fin 144) : Nat := (s.net.accs.filter fun a => a.tile == t).length

/-- Has a peer still to answer some engine command of a tile, be it one that has left its queue (R203, R428)? -/
def peersOpen (s : State) (t : Fin 144) : Bool :=
  s.ports.toList.any fun p => p.unanswered.any fun o => o.tile == t && o.cmd.isSome

/-- The request entries that the tile's engine commands hold (R203): a free number up to 3,840 while a command of its copy
queues is started (log 6, log 78), and at least one while a peer has still to answer a command; else none. -/
def engineEntries (s : State) (t : Fin 144) : Nat :=
  if s.peersOpen t then Config.within 1 3840 s.now
  else if (s.tileAt t).eng.cq.toList.any fun q => q.any fun c => c.run.isSome then Config.within 0 3840 s.now else 0

/-- Is a request entry free for a slot access (R203)? -/
def entryFree (s : State) : Bool := decide (s.entriesUsed s.cur.tile + s.engineEntries s.cur.tile < 4096)

/-- A bundle whose accesses need more free entries than remain waits (R203). -/
def needEntry (s : State) : Res Unit := if s.entryFree then .ok () else .error (.hold 4 s)

/-- The kind of an access by its space: 0 strongly ordered, 1 release-consistent, 2 unordered (R356). -/
def kindOf (sp ord : Nat) : Nat := if sp = 0 then ord else if sp = 2 ∨ sp = 3 then 1 else 0

/-- What a slot access carries besides its address. -/
structure AccReq where
  op : AccOp
  sid : Fin 16
  data : Word := 0
  data2 : Word := 0
  dest : WDst := .none
  acq : Bool := false
  rel : Bool := false

/-- Add one to the counter of an L3 leaf of tier 1 (R329); a full counter set replaces its smallest count. A counter keeps
the context that opened it (DESIGN CHOICE, log 82). -/
def bumpHot (h : Hot) (leaf : Nat) (c : Fin 64) : Hot :=
  match h.counts.find? fun e => e.1 == leaf with
  | some e => { h with counts := (leaf, e.2.1, min (e.2.2 + 1) 65535) :: h.counts.filter fun e => e.1 != leaf }
  | none =>
    if h.counts.length < 4096 then { h with counts := (leaf, c, 1) :: h.counts }
    else
      let m := h.counts.foldl (fun m e => min m e.2.2) 65535
      { h with counts := (leaf, c, 1) :: h.counts.eraseP fun e => e.2.2 == m }

/-- R328: a leaf of L3, which has LEAF clear, with PIN, PWT and MIG clear. -/
def eligible (e : Word) : Bool := e.getLsbD 0 && !e.getLsbD 9 && !e.getLsbD 10 && fld e 11 3 == 0

/-- Is the page of a leaf one that may migrate (R328)? One whose leaf no memory holds, or is marked, is not (DESIGN CHOICE, log 99). -/
def candidate (s : State) (leaf : Nat) : Bool :=
  physOk leaf && !s.marked leaf 8 64 && !s.gradeClash leaf 2 && eligible (s.load64 leaf)

/-- PROMOTION (R329): a count that reaches HOT posts a promotion of an eligible page; an ineligible one is counted. -/
def promote (s : State) (leaf : Nat) : State :=
  let h := s.dev.hot
  match h.counts.find? fun e => e.1 == leaf with
  | some e =>
    if e.2.2 = h.hot.toNat then
      let s := s.settleLine leaf 8
      let h := if s.candidate leaf then { h with posted := h.posted ++ [(leaf, e.2.1, true)] }
        else { h with skips := min (h.skips + 1) (2 ^ 32 - 1) }
      { s with dev := { s.dev with hot := h } }
    else s
  | none => s

/-- A global access or PREF through a leaf counts for the hot-page tracker (R329): L3 leaves of tier 1, while EN. -/
def touch (s : State) (l : Leaf) (c : Fin 64) : State :=
  if s.dev.hot.en && l.tier == 1 && l.level == 3 then
    let s := { s with dev := { s.dev with hot := bumpHot s.dev.hot l.at_ c } }
    s.promote l.at_
  else s

/-- An access through the leaf that maps an address of a context counts, as `touch` says (R329). -/
def touchVa (s : State) (c : Fin 64) (va : Nat) : State :=
  if !s.dev.hot.en then s
  else match s.walk c va with
    | .leaf e lv at_ => s.touch ⟨leafPa e lv va, (fld e 4 2).toNat, (fld e 6 2).toNat, (fld e 8 1).toNat, lv, at_⟩ c
    | .fault .. => s

/-- The place of the syllable in hand in the program order of its tile: the cycle, then the slot (R355). -/
def orderKey (s : State) : Nat := 8 * s.now + s.cur.slot.val

/-- Send an access to its home (R164, R355): it arrives after a free time (log 6), and its reply is not due before the
unloaded time of R317. -/
def send (s : State) (sp key va size kind grade leafAt : Nat) (r : AccReq) : State :=
  let t := s.cur.tile
  let d := s.drawFrom 1
  let s := d.2
  let a : Access :=
    { id := s.net.nextId, seq := s.orderKey, tile := t, slot := s.cur.slot, sid := r.sid, pc := s.cur.pc
      space := sp, key, va, size, op := r.op, data := r.data, data2 := r.data2, dest := r.dest, kind, acq := r.acq
      rel := r.rel, grade, leafAt, ctx := s.ctxOf, owner := s.ownerOf t, arrive := s.now + d.1, performed := false
      replyAt := s.now + unloaded t.val sp key, result := 0, marked := false, struck := false, sent := false }
  { s with net := { s.net with accs := s.net.accs ++ [a], nextId := s.net.nextId + 1 } }

/-- A slot access to a home: the checks of R191, the translation of R163 and the request entry of R203, then the access
leaves. `write` asks for W. -/
def access (s : State) (reach : List Nat) (p : Word) (o : Int) (size access : Nat) (write : Bool) (r : AccReq) :
    Res State := do
  let off ← s.checkAccess reach p o size size access
  if spaceOf p = 0 then
    let l ← s.translate (withOffset p o) off write access
    s.needEntry
    return (s.touch l s.ctxOf).send 0 l.pa off size l.ord l.grade l.at_ r
  else
    s.needEntry
    return s.send (spaceOf p) (spaceKey s.cur.tile (spaceOf p) (rankOf p) off)
      (if spaceOf p = 6 then off + rankOf p * 2 ^ 52 else off) size (kindOf (spaceOf p) 1) 2 0 r

/-! ### The own scratchpad (R193, R243 to R246) -/

/-- The key of an offset of the own scratchpad. -/
def spad (s : State) (o : Nat) : Nat := spadBase + s.cur.tile.val * 2 ^ 19 + o

/-- DATA_ERROR of source 2: a scratchpad word or tag read by the LS slot, with its pointer and the kind of access (R386, R392). -/
def spadTrap {α : Type} (s : State) (o : Nat) (access : Nat := 2) : Res α :=
  s.raise .dataError 2 (BitVec.ofNat 64 o) (BitVec.ofNat 64 (2 ^ 60 + o)) access

/-- Reductions queued at lines of the own scratchpad apply before an LS access touches them (R322). -/
def settleSpad (s : State) (o n : Nat) : State := s.settleLine (s.spad o) n

/-- Read bytes of the own scratchpad, with their parity check (R205). -/
def readSpad (s : State) (o n : Nat) (access : Nat := 2) : Res Nat :=
  if s.marked (s.spad o) n 4 then s.spadTrap o access else .ok (s.load (s.spad o) n)

/-- Write bytes of the own scratchpad (R246). -/
def writeSpad (s : State) (o n v : Nat) : State := s.store (s.spad o) n 4 v

/-- The address of a MEM form in the own scratchpad (R245). -/
def lsAddr (s : State) (m : MemF) (size scale access : Nat) : Res Nat := do
  let p ← s.readX m.base
  s.checkAccess [1] p (formOffset p m.off scale) size scale access

end State

end Sys2Proof.Machine
end

