-- ==== Sys2Proof/Machine/Fetch.lean ====
section
/-! DEFINITION. Fetching a bundle: the instruction buffer, the words of a bundle, its header checks in the order of
R60, and its syllables with their literal words and repeat latches (chapters 02 and 06: R35 to R60, R130 to R133). -/

namespace Sys2Proof

/-! ### Ring bases (R47) -/

/-- The ring base of an x source field. -/
def XSrc.ring : XSrc → Option (Bool × Nat)
  | .rot n => some (false, n.val)
  | _ => none

/-- The ring base of a v source field. -/
def VSrc.ring : VSrc → Option (Bool × Nat)
  | .rot n => some (true, n.val)
  | _ => none

/-- The ring base of an x destination field. -/
def XDst.ring : XDst → Option (Bool × Nat)
  | .rot n => some (false, n.val)
  | _ => none

/-- The ring base of a v destination field. -/
def VDst.ring : VDst → Option (Bool × Nat)
  | .rot n => some (true, n.val)
  | _ => none

/-- The ring bases that the operand fields of an instruction name, each with whether its file is v (R47). -/
def Instr.rings : Instr → List (Bool × Nat)
  | .loopx a _ _ | .jmpr a | .callr _ a | .ret a | .lcset _ a | .lcget a _ | .moviI64 a _ | .moviN64 a _ | .mfs a _
  | .mts _ a | .yield a | .barsync a _ | .barkill a | .tkwait _ _ a _ | .tkrd a _ | .fence a _ | .vmov _ a (.inr _) _
  | .vmovVI _ a _ _ | .kpop _ a _ | .omld _ a _ | .macld _ a _ | .mdrain _ _ a _ | .mstat a _ _ | .stbind _ a
  | .ststat a _ | .cpcancel a _ | .pref a _ =>
    [a.ring].reduceOption
  | .br _ a b _ | .addRI a b _ | .subRI a b _ | .mulRI a b _ | .andRI a b _ | .orRI a b _ | .xorRI a b _
  | .andnRI a b _ | .shlRI a b _ | .shrRI a b _ | .sarRI a b _ | .rolRI a b _ | .minRI a b _ | .maxRI a b _
  | .abs _ a b | .clz _ a b | .ctz _ a b | .popc _ a b | .sext _ a b | .zext _ a b | .cmpRI a b _ | .mov a b
  | .movk a b _ _ | .lea a b _ | .pspace a b | .prank a b | .paddRI a b _ | .fsqrt a b | .fcvt _ _ _ a b | .dlmk _ a b
  | .enq a b _ | .step a b _ | .barinit a b | .bararv a b | .barwt a b _ | .qpush a b _ | .qpop a b _
  | .vaddVI _ a b _ _ | .vsubVI _ a b _ _ | .vmulVI _ a b _ _ | .vminVI _ a b _ _ | .vmaxVI _ a b _ _ | .vabs _ a b _
  | .vneg _ a b _ | .vrcp _ a b _ | .vrsq _ a b _ | .vexp2 _ a b _ | .vlog2 _ a b _ | .vcmp _ _ _ a b _
  | .viaddVI _ a b _ _ | .visubVI _ a b _ _ | .vimulVI _ a b _ _ | .vandVI _ a b _ _ | .vorVI _ a b _ _
  | .vxorVI _ a b _ _ | .vshlVI _ a b _ _ | .vshrVI _ a b _ _ | .vsarVI _ a b _ _ | .vcvt _ _ _ _ a b _
  | .vqnt _ _ a b _ | .vrsum _ a b _ | .vrmax _ a b _ | .vrmin _ a b _ | .vbcast _ a b _ | .vmov _ a (.inl b) _
  | .ldmeta a b _ | .stmeta a b _ =>
    [a.ring, b.ring].reduceOption
  | .add _ a b c | .sub _ a b c | .mul _ a b c | .mulh _ a b c | .div _ a b c | .rem _ a b c | .and _ a b c
  | .or _ a b c | .xor _ a b c | .andn _ a b c | .shl _ a b c | .shr _ a b c | .sar _ a b c | .rol _ a b c
  | .min _ a b c | .max _ a b c | .cmp _ a b c | .padd a b c | .fadd a b c | .fsub a b c | .fmul a b c | .fmin a b c
  | .fmax a b c | .fdiv a b c | .fcmp a b c | .vadd _ a b c _ | .vsub _ a b c _ | .vmul _ a b c _ | .vmin _ a b c _
  | .vmax _ a b c _ | .vsel _ a b c _ _ | .viadd _ a b c _ | .visub _ a b c _ | .vimul _ a b c _ | .vand _ a b c _
  | .vor _ a b c _ | .vxor _ a b c _ | .vshl _ a b c _ | .vshr _ a b c _ | .vsar _ a b c _ | .vdqnt _ _ _ a b c _
  | .vperm _ a b c _ | .vzip _ _ a b c _ | .vunzip _ _ a b c _ | .vins _ a b c _ | .vext _ a b c | .vrng _ a b c _
  | .vlds _ a b c _ _ | .vsts _ a b c _ _ | .vgth _ a b c _ _ | .vsct _ a b c _ _ =>
    [a.ring, b.ring, c.ring].reduceOption
  | .sel a b c d | .pmake a b c d | .ffma a b c d | .vfma _ a b c d _ | .vslide _ a b c d _ =>
    [a.ring, b.ring, c.ring, d.ring].reduceOption
  | .vld a m _ | .vldd a m _ | .vst a m _ | .vste a m _ | .xld _ a m _ | .xst _ a m _ | .ldf a m _ _ | .ste a m _ _
  | .few a m _ _ | .feq _ a m | .gld _ a m _ | .gst _ a m _ | .gred _ a m _ =>
    [a.ring, m.base.ring].reduceOption
  | .latom _ _ _ m _ | .gatom _ _ _ m _ | .scatom _ _ _ m _ =>
    [m.base.ring].reduceOption
  | _ => []

end Sys2Proof

namespace Sys2Proof.Machine

/-- A syllable of a bundle as it issues: its slot, its word and literal words, and its instruction, or the trap that
its decoding or its repeat raises. -/
structure Item where
  slot : Fin 8
  word : Word
  lits : List Word
  ins : Except Trap Instr

/-- A bundle whose header checks passed. -/
structure Bundle where
  gap : Nat
  len : Nat
  rings : Option (List Ring)
  items : List Item

/-- What fetch finds at a PC: a fault of the bundle, with the bytes that the fetch has read, a missing line, or a bundle. -/
inductive Fetched
  | fault (t : Trap) (n : Nat)
  | miss (line : Nat)
  | bundle (b : Bundle)

/-! ### Code words (R33, R132, R133) -/

namespace State

/-- Offset of the running image's code in the instruction area (R33), as it was when the launch began: what a later write of
OFF or LEN does to a live launch the spec leaves open, and here it does nothing (DESIGN CHOICE, log 92). -/
def codeOff (s : State) : Nat := match s.live with | some l => l.image.off | none => 0

/-- codelen of the running image (R14, R132). -/
def codeLen (s : State) : Nat := match s.live with | some l => l.image.len | none => 0

/-- CBASE of a context (R83). -/
def codeBase (s : State) (c : Fin 64) : Nat := (fld ((s.ctx c).entry.get 10) 0 52).toNat

/-- A code word of the bundle in hand, or in the instruction buffer: its value; `none` in the inner position when its line
is unreadable; `none` outside when the line is absent (R133). Lines are numbered from CBASE, 256 bytes each. -/
def codeWord (s : State) (a : Nat) : Option (Option Word) :=
  match s.strm.words.find? fun e => e.1 == a with
  | some (_, w) => some (some w)
  | none => match s.tile.ibuf.find? fun e => e.1 == (s.codeOff + a) / 256 with
    | none => none
    | some (_, none) => some none
    | some (_, some ws) => some (some (ws.getD ((s.codeOff + a) % 256 / 8) 0))

/-- The line that holds a code address. -/
def codeLine (s : State) (a : Nat) : Nat := (s.codeOff + a) / 256

/-- Request a line that is neither present nor requested; a refill takes a free time (R133; log 6). -/
def requestLine (s : State) (line : Nat) : State :=
  if (s.tile.ibuf.any fun e => e.1 == line) || (s.tile.fills.any fun e => e.2 == line) then s
  else
    let d := s.drawFrom 1
    d.2.modTile s.cur.tile fun t => { t with fills := t.fills ++ [(s.now + d.1, line)] }

/-- A fetch from a line of the buffer: it becomes the most recently used, and the line after it is requested when it is
absent (R133). -/
def useLine (s : State) (line : Nat) : State :=
  let s := s.modTile s.cur.tile fun t =>
    match t.ibuf.find? fun e => e.1 == line with
    | some e => { t with ibuf := e :: t.ibuf.filter fun e => e.1 != line }
    | none => t
  s.requestLine (line + 1)

end State

/-! ### Classes of syllables (R130, R51, R44) -/

/-- The control transfers of R130, by slot and opcode. A code of the scalar space counts in SC1 too, where the forms of SC0
raise ILLEGAL (R75): the spec does not say whether it does (DESIGN CHOICE, log 93). -/
def isTransfer (slot : Fin 8) (w : Word) : Bool :=
  let op := (fld w 56 8).toNat
  [0xF0, 0xF1, 0xF2, 0xF3, 0xF8, 0xF9].contains op
    || (decide (slot.val < 2) && [0xE0, 0xE1, 0xE2, 0xE3, 0xE4, 0xE5, 0xE8, 0xE9].contains op)

/-- The waiting syllables (R56), by slot and opcode. -/
def isWaiting (slot : Fin 8) (w : Word) : Bool :=
  let op := (fld w 56 8).toNat
  [0xF6, 0xF7, 0xF8].contains op
    || (decide (slot.val < 2) && [0x36, 0x60, 0x63, 0x64, 0x66, 0x67, 0x68, 0x6A].contains op)
    || (slot == 4 && [0x20, 0x21, 0x22].contains op)
    || (slot == 5 && op == 0x01)
    || (decide (6 ≤ slot.val) && decide (0x50 ≤ op) && decide (op < 0x60))

/-- LOOP and LOOPX (R46). -/
def isLoop (w : Word) : Bool := fld w 56 8 == 0xF2 || fld w 56 8 == 0xF3

/-- The offset field that mode 0b11 increments: low bit and width (R44). -/
def offsetField (slot : Fin 8) (w : Word) : Option (Nat × Nat) :=
  let op := (fld w 56 8).toNat
  if slot.val < 2 then
    if (0x40 ≤ op ∧ op < 0x60) ∨ op = 0x30 ∨ op = 0x31 then some (0, 32) else none
  else if slot.val < 4 then if 0x80 ≤ op ∧ op < 0xF0 then some (18, 16) else none
  else if slot.val = 4 then if op < 0xF0 ∧ !(0x05 ≤ op ∧ op ≤ 0x08) then some (20, 14) else none
  else if slot.val = 5 then none
  else if 0x20 ≤ op ∧ op < 0x60 ∧ op ≠ 0x2E ∧ op ≠ 0x2F then some (20, 14) else none

/-- R44: DINC added to a field of a syllable, modulo the field's width. -/
def addDinc (w : Word) (lo width : Nat) (dinc : BitVec 12) : Word :=
  let old := w.toNat / 2 ^ lo % 2 ^ width
  let new := ((old : Int) + dinc.toInt) % (2 ^ width : Nat)
  BitVec.ofInt 64 ((w.toNat : Int) + (new - old) * (2 ^ lo : Nat))

/-- ILLEGAL of a header (R60, R385): SLOT 0, INFO0 the word, INFO1 0. -/
def headerTrap (w : Word) : Trap := { kind := .illegal, slot := 0, access := 0, info0 := w }

/-- FETCH_FAULT with a target or fetch address, which ADDR gives too (R132, R385, R392; DEDUCED, log 100). -/
def fetchTrap (a : Nat) (slot : Fin 8 := 0) : Trap :=
  { kind := .fetchFault, slot := slot, access := 1, addr := BitVec.ofNat 64 a, info0 := BitVec.ofNat 64 a }

/-- ILLEGAL of a syllable, or of the literal word of a COPYM that alone is at fault (R385). -/
def syllableTrap (slot : Fin 8) (w lit : Word) : Trap :=
  if 6 ≤ slot.val ∧ fld w 56 8 = 0x02 ∧ (decodeSyl slot w 0x0800000000000020).isSome then
    { kind := .illegal, slot, info0 := lit, info1 := 2 }
  else { kind := .illegal, slot, info0 := w, info1 := 1 }

/-- A syllable decoded in its slot. -/
def decodeItem (slot : Fin 8) (w : Word) (lits : List Word) : Item :=
  let lit := lits.headD 0
  { slot, word := w, lits
    ins := match decodeSyl slot w lit with
      | some i => .ok i
      | none => .error (syllableTrap slot w lit) }

/-! ### A bundle's words -/

/-- Read `n` code words, or name the first missing line, or say that one is unreadable (R132, R133). -/
def codeWords (s : State) (a : Nat) : Nat → Except (Option Nat) (List Word)
  | 0 => .ok []
  | n + 1 =>
    match s.codeWord a with
    | none => .error (some (s.codeLine a))
    | some none => .error none
    | some (some w) => do return w :: (← codeWords s (a + 8) n)

/-- The new syllables in slot order with the literal words they take in turn (R37, R58). -/
def newItems : List (Fin 8 × Word) → List Word → List (Fin 8 × Word × List Word)
  | [], _ => []
  | (sl, w) :: rest, lits =>
    let n := litCount sl w
    (sl, w, lits.take n) :: newItems rest (lits.drop n)

/-- The slots of a header with a mode. -/
def slotsOf (h : Header) (m : Nat) : List (Fin 8) := (List.finRange 8).filter fun i => h.slotMode i == m

/-- The slot mask of a bundle's repeats of clear latches (R385). -/
def clearMask (h : Header) (r : Regs) : Word :=
  BitVec.ofNat 64 (((List.finRange 8).filter fun i => decide (2 ≤ h.slotMode i) && (r.latch.get i).isNone).map
    fun i => 2 ^ i.val).sum

/-- The syllable that a slot issues in this bundle (R36, R41, R44); `none` for an empty slot. -/
def slotItem (h : Header) (r : Regs) (news : List (Fin 8 × Word × List Word)) (i : Fin 8) : Option Item :=
  match h.slotMode i with
  | 0 => none
  | 1 => (news.find? fun n => n.1 == i).map fun n => decodeItem i n.2.1 n.2.2
  | m =>
    match r.latch.get i with
    | none => some ⟨i, 0, [], .error { kind := .repeatInvalid, slot := i, info0 := clearMask h r }⟩
    | some l =>
      if m = 2 then some (decodeItem i l.word l.lits)
      else match offsetField i l.word with
        | some (lo, width) => some (decodeItem i (addDinc l.word lo width h.dinc) l.lits)
        | none => some ⟨i, l.word, l.lits, .error { kind := .illegal, slot := i, info0 := l.word, info1 := 1 }⟩

/-- Does a ring base resolve under the innermost loop's header, to a register of its file (R47, R54)? -/
def State.ringOk (s : State) (r : Bool × Nat) : Bool :=
  match s.rotate r.1 r.2 with
  | .ok m => decide (m < if r.1 then 384 else 64)
  | .error _ => false

/-- A syllable whose ROT bits are checked at issue: a misused one raises ILLEGAL whatever else the bundle does (R47, R60). -/
def State.ringItem (s : State) (it : Item) : Item :=
  match it.ins with
  | .ok i =>
    if i.rings.all s.ringOk then it
    else { it with ins := .error { kind := .illegal, slot := it.slot, info0 := it.word, info1 := 1 } }
  | .error _ => it

/-- Header faults found at issue: a literal total that does not equal LIT, or two control transfers or two waiting
syllables (R58, R130). -/
def bundleFault (h : Header) (news : List (Fin 8 × Word × List Word)) (items : List Item) : Bool :=
  (news.map fun n => litCount n.1 n.2.1).sum != h.lit.val
    || decide (1 < (items.filter fun i => isTransfer i.slot i.word).length)
    || decide (1 < (items.filter fun i => isWaiting i.slot i.word).length)

/-- Fetch the bundle at a PC for the stream in hand, with its header faults in the order of R60. -/
def fetch (s : State) (pc : Nat) : Fetched :=
  if s.codeLen < pc + 8 then .fault (fetchTrap pc) 0
  else match s.codeWord pc with
  | none => .miss (s.codeLine pc)
  | some none => .fault (fetchTrap pc) 8
  | some (some hw) =>
    match decodeHeader hw with
    | none => .fault (headerTrap hw) 8
    | some h =>
      if h.group == s.tile.lockstep
          || (List.finRange 8).any fun i => !s.strm.members.getLsbD i.val && h.slotMode i != 0 then
        .fault (headerTrap hw) 8
      else if s.codeLen < pc + h.bytes then .fault (fetchTrap pc) 8
      else match codeWords s (pc + 8) (h.news + h.lit.val) with
      | .error (some l) => .miss l
      | .error none => .fault (fetchTrap pc) h.bytes
      | .ok ws =>
        let news := newItems ((slotsOf h 1).zip ws) (ws.drop h.news)
        let items := ((List.finRange 8).filterMap (slotItem h s.tile.regs news)).map s.ringItem
        let done (rings : Option (List Ring)) (n : Nat) : Fetched :=
          if bundleFault h news items then .fault (headerTrap hw) n
          else .bundle ⟨h.gap.val, h.bytes, rings, items⟩
        if (items.any fun i => isLoop i.word) && decide (pc + h.bytes + 8 ≤ s.codeLen) then
          match s.codeWord (pc + h.bytes) with
          | none => .miss (s.codeLine (pc + h.bytes))
          | some none => .fault (fetchTrap (pc + h.bytes)) (h.bytes + 8)
          | some (some lw) =>
            if fld lw 62 2 == 2 then
              match decodeLoopHeader lw with
              | some rings => done (some rings) (h.bytes + 8)
              | none => .fault (headerTrap lw) (h.bytes + 8)
            else done none (h.bytes + 8)
        else done none h.bytes

end Sys2Proof.Machine
end

