-- ==== Sys2Proof/Machine/Control.lean ====
section
/-! DEFINITION. Control flow and condition bits (chapter 06): branches, calls, loops, CBSET to CBTAKE, FORK, JOIN,
loop registers, TRAP and BRKPT. -/

namespace Sys2Proof.Machine

namespace State

/-- R132 check_target. -/
def checkTarget (s : State) (t : Int) : Res Nat :=
  if t < 0 ∨ t % 8 ≠ 0 ∨ (s.codeLen : Int) ≤ t then s.raise .fetchFault (BitVec.ofInt 64 t) 0 (BitVec.ofInt 64 t) 1 else .ok t.toNat

/-- The target of a CT form: PC + 8 × OFF (R135). -/
def ctTarget (s : State) (off : BitVec 16) : Int := (s.cur.pc : Int) + 8 * off.toInt

end State

/-- R141 leave_loops: entries whose body does not hold the target are popped. -/
def leaveLoops (t : Nat) : List Loop → List Loop
  | [] => []
  | l :: ls => if l.start ≤ t ∧ t ≤ l.stop then l :: ls else leaveLoops t ls

namespace State

/-- The bundle's next PC, the penalty of R134, and whether it is a stop point (R406). -/
def goTo (s : State) (t : Nat) (penalty stop : Bool) : State :=
  { s with cur := { s.cur with target := some t, penalty := penalty, stopPt := s.cur.stopPt || stop } }

/-- A taken transfer of BRC, JMP, BR or JMPR: target check, loops left (R132, R136, R141). -/
def branch (s : State) (t : Int) (stop : Bool) : Res State := do
  let t ← s.checkTarget t
  return (s.modStrm fun st => { st with loops := leaveLoops t st.loops }).goTo t true stop

/-- A transfer of CALL, CALLR or RET: target check, loop stack unchanged (R137). -/
def transfer (s : State) (t : Int) (stop : Bool) : Res State := do
  let t ← s.checkTarget t
  return s.goTo t true stop

/-- The link of CALL and CALLR: the address of the next bundle, latency 1 (R137, R160). -/
def link (s : State) (l : Fin 64) : State :=
  s.schedule (.x l) (.x (BitVec.ofNat 64 (s.cur.pc + s.cur.len))) (BitVec.allOnes 256) 1 true

/-- Is the offset of a transfer zero or negative (R406)? -/
def backward (off : BitVec 16) : Bool := decide (off.toInt ≤ 0)

end State

/-- BRC (R136). -/
def execBrc (cb : Fin 32) (clr : Bool) (off : BitVec 16) (s : State) : Host.Outcome State Fault Refusal :=
  s.finish (if s.cbit cb != clr then s.branch (s.ctTarget off) (State.backward off) else .ok s)

/-- JMP (R136). -/
def execJmp (off : BitVec 16) (s : State) : Host.Outcome State Fault Refusal :=
  s.finish (s.branch (s.ctTarget off) (State.backward off))

/-- The comparison of BR (R136). -/
def brHolds : BrCond → Word → Word → Bool
  | .eq, a, b => a == b
  | .ne, a, b => a != b
  | .lt, a, b => a.slt b
  | .ge, a, b => b.sle a
  | .ltu, a, b => a.ult b
  | .geu, a, b => b.ule a

/-- BR (R136). -/
def execBr (cc : BrCond) (a b : XSrc) (off : BitVec 16) (s : State) : Host.Outcome State Fault Refusal :=
  s.finish do
    let x ← s.readX a
    let y ← s.readX b
    if brHolds cc x y then s.branch (s.ctTarget off) (State.backward off) else .ok s

/-- JMPR (R136). -/
def execJmpr (a : XSrc) (s : State) : Host.Outcome State Fault Refusal :=
  s.finish do s.branch (← s.readX a).toNat true

/-- CALL (R137). -/
def execCall (l : Fin 64) (off : BitVec 16) (s : State) : Host.Outcome State Fault Refusal :=
  s.finish do return (← s.transfer (s.ctTarget off) (State.backward off)).link l

/-- CALLR (R137): the target is read before the link is written. -/
def execCallr (l : Fin 64) (b : XSrc) (s : State) : Host.Outcome State Fault Refusal :=
  s.finish do return (← s.transfer (← s.readX b).toNat true).link l

/-- RET (R137). -/
def execRet (a : XSrc) (s : State) : Host.Outcome State Fault Refusal :=
  s.finish do s.transfer (← s.readX a).toNat true

/-! ### Loops (R138) -/

namespace State

/-- The address of the loop body's first bundle: after the bundle and its loop header (R138). -/
def loopStart (s : State) : Nat := s.cur.pc + s.cur.len + if s.cur.rings.isSome then 8 else 0

/-- The length of the bundle at a code address, from its header word, which is fetched; a missing line stalls as any fetch
does (R138). -/
def bundleLen (s : State) (a : Nat) : Res Nat :=
  match s.codeWord a with
  | none => .error (.hold 1 (s.requestLine (s.codeLine a)))
  | some none => s.raise .fetchFault (BitVec.ofNat 64 a) 0 (BitVec.ofNat 64 a) 1
  | some (some w) =>
    match decodeHeader w with
    | some h => .ok h.bytes
    | none => s.raise .illegal w

/-- The address of a loop's last bundle, with the checks of LOOP and LOOPX (R138). -/
def loopEnd (s : State) (off : BitVec 16) : Res Nat := do
  if s.ctTarget off < (s.loopStart : Int) then s.illegal
  else
    let stop ← s.checkTarget (s.ctTarget off)
    if s.strm.loops.length = 4 then s.raise .loopNest else .ok stop

/-- LOOP and LOOPX: open a loop of `cnt` iterations, or skip its body (R138). -/
def openLoop (s : State) (cnt : Word) (off : BitVec 16) (exit : ExitTest) : Res State := do
  let stop ← s.loopEnd off
  if cnt = 0 then
    let n ← s.bundleLen stop
    return s.goTo (stop + n) true false
  else
    let e : Loop :=
      { start := s.loopStart, stop, remaining := cnt.toNat, n := 0, rings := s.cur.rings.getD [], exit }
    return (s.modStrm fun st => { st with loops := e :: st.loops }).goTo s.loopStart false false

/-- A LOOP or LOOPX of no iterations fetches the header of its loop's last bundle, as any fetch does: its line is used
(R133, R138). -/
def touchSkip (s : State) (cnt : Word) (off : BitVec 16) : State :=
  match s.loopEnd off with
  | .ok stop => if cnt = 0 ∧ (s.codeWord stop).isSome then s.useLine (s.codeLine stop) else s
  | .error _ => s

/-- The fetches that an instruction makes beside its bundle's. -/
def touches (s : State) : Instr → State
  | .loop lc off => s.touchSkip (s.tile.regs.lc.get lc) off
  | .loopx a _ off => match s.readX a with
    | .ok v => s.touchSkip v off
    | .error _ => s
  | _ => s

end State

/-- LOOP (R138). -/
def execLoop (lc : Fin 32) (off : BitVec 16) (s : State) : Host.Outcome State Fault Refusal :=
  s.finish (s.openLoop (s.tile.regs.lc.get lc) off .never)

/-- LOOPX (R138). -/
def execLoopx (a : XSrc) (test : ExitTest) (off : BitVec 16) (s : State) : Host.Outcome State Fault Refusal :=
  s.finish do s.openLoop (← s.readX a) off test

/-- The lowest member slot of a stream; 0 where it has none. -/
def Stream.lowSlot (st : Stream) : Fin 8 := ((List.finRange 8).find? fun i => st.members.getLsbD i.val).getD 0

/-- Does the exit test of a loop hold, as a BRC in the last body bundle would read it (R139)? R144 gives the test no slot: it
stands in the stream's lowest member slot (DESIGN CHOICE, log 73). -/
def State.exits (s : State) (e : ExitTest) : Bool :=
  let s := { s with cur := { s.cur with slot := s.strm.lowSlot } }
  match e with
  | .never => false
  | .set cb => s.cbit cb
  | .clr cb => !s.cbit cb

/-- R139: the back edge at the end of the innermost loop, repeated while a popped entry leaves one with the same end.
Answers the loop stack, the next PC, and whether a back edge was taken. -/
def backEdge (exits : ExitTest → Bool) (pc next : Nat) : Nat → List Loop → List Loop × Nat × Bool
  | 0, ls => (ls, next, false)
  | _ + 1, [] => ([], next, false)
  | k + 1, e :: ls =>
    if e.stop ≠ pc then (e :: ls, next, false)
    else if !exits e.exit && decide (1 < e.remaining) then
      ({ e with remaining := e.remaining - 1, n := e.n + 1 } :: ls, e.start, true)
    else backEdge exits pc next k ls

/-! ### Condition bits (R142, R143) -/

namespace State

/-- Is a scheduled result a register write, and not transient or discarded (R54, R152)? -/
def isWrite (w : PendW) : Bool := w.dst != .none && w.dst != .x 0 && w.dst != .k 0

/-- The cycle from which every fixed-latency register write that slots of a set have issued can be read (R142); after a FORK
or a JOIN these are the writes of the slots that the stream now holds (DESIGN CHOICE, log 75). -/
def writesBy (s : State) (members : BitVec 8) : Nat :=
  (s.tile.regs.pend.filter fun w => !w.late && members.getLsbD w.slot.val && isWrite w).foldl (fun m w => max m w.due) 0

/-- A condition-bit change of the bundle in hand, visible from cycle `v` (R142). Where changes of several bundles become visible
in one cycle they apply in the order of their commits (DESIGN CHOICE, log 96). -/
def changeCb (s : State) (cb : Fin 32) (val : Bool) (v : Nat) : State :=
  let v := max v (max (s.now + 1) s.strm.cbVis)
  let s := s.modStrm fun st => { st with cbVis := v }
  s.modRegs fun r => { r with cbPend := r.cbPend ++ [⟨v, s.now, s.cur.slot, cb, val⟩] }

/-- The condition-bit changes of a bundle whose fixed-latency writes can be read from cycle `due`: each set waits for them, and
each change for those that stand before it in the bundle (R142). `v` is where the earlier of them left off. -/
def raiseSets (own : CbChange → Bool) (due : Nat) : Nat → List CbChange → List CbChange
  | _, [] => []
  | v, c :: l =>
    if own c then
      let w := max v (if c.val then max c.vis due else c.vis)
      { c with vis := w } :: raiseSets own due w l
    else c :: raiseSets own due v l

/-- A bundle of a stream with these members has committed: its condition-bit sets wait for the register writes of all its
syllables (R142), and the streams that now hold its slots make no change visible before them. -/
def settleSets (s : State) (members : BitVec 8) : State :=
  let due := s.writesBy members
  let own (c : CbChange) : Bool := c.issued == s.now && members.getLsbD c.slot.val
  if s.tile.regs.cbPend.any own then
    let l := raiseSets own due 0 s.tile.regs.cbPend
    let vis := (l.filter own).foldl (fun v c => max v c.vis) 0
    s.modTile s.cur.tile fun tl => { tl with
      streams := tl.streams.map fun st => st.map fun st =>
        if st.members &&& members = 0 then st else { st with cbVis := max st.cbVis vis }
      regs := { tl.regs with cbPend := l } }
  else s

end State

/-- CBSET (R142). -/
def execCbset (cb : Fin 32) (s : State) : Host.Outcome State Fault Refusal := s.finish (.ok (s.changeCb cb true (s.writesBy s.strm.members)))

/-- CBCLR (R142). -/
def execCbclr (cb : Fin 32) (s : State) : Host.Outcome State Fault Refusal := s.finish (.ok (s.changeCb cb false 0))

/-- CBWAIT (R143). -/
def execCbwait (cb : Fin 32) (clr : Bool) (w : WaitF) (s : State) : Host.Outcome State Fault Refusal :=
  s.finish do
    let r ← s.waitHere (.cbwait cb clr w) w [] fun _ => if s.cbit cb != clr then some { after := s } else none
    return r.1

/-- CBTAKE (R143): the bit is cleared in the deciding cycle; slots below it still read it in that cycle (R144). -/
def execCbtake (cb : Fin 32) (w : WaitF) (s : State) : Host.Outcome State Fault Refusal :=
  s.finish do
    let r ← s.waitHere (.cbtake cb w) w [] fun _ =>
      if s.cbit cb then
        some { after := s.modRegs fun r => { r with cb := setCb r.cb cb false, took := (s.cur.slot, cb) :: r.took } }
      else none
    return r.1

/-- CONDITION_BIT_VISIBLE (R142, R144 step 1): the changes whose visibility cycle has come are applied. -/
def execConditionBitVisible (t : Fin 144) (s : State) : Host.Outcome State Fault Refusal :=
  .next (s.modTile t fun tl => { tl with regs := tl.regs.settleCb s.now })

/-! ### FORK and JOIN (R145, R146) -/

/-- The members of group `g` in a group map (R145). -/
def forkMembers (map : BitVec 16) (g : Fin 4) : BitVec 8 :=
  BitVec.ofNat 8 (((List.finRange 8).map fun i => if fld map (2 * i.val) 2 = BitVec.ofFin g then 2 ^ i.val else 0).sum)

/-- The entry offset of group `g` in the literal word of FORK (R145). -/
def forkEntry (entries : Word) (g : Fin 4) : BitVec 16 := fld entries (16 * g.val) 16

/-- The groups that a map gives members. -/
def forkGroups (map : BitVec 16) : List (Fin 4) := (List.finRange 4).filter fun g => forkMembers map g != 0

namespace State

/-- The cycle in which the first bundle after a transfer with GAP `g` issues: c + 1 + max(g, 2) (R134). -/
def afterTransfer (s : State) (g : Nat) : Nat := s.now + 1 + max g 2

/-- FORK's targets checked in increasing group number (R145). -/
def forkTargets (s : State) (entries : Word) : List (Fin 4) → Res Unit
  | [] => .ok ()
  | g :: gs => do
    let _ ← s.checkTarget (s.ctTarget (forkEntry entries g))
    s.forkTargets entries gs

/-- The gdl of the lockstep stream as its bundle leaves it, with an MTS of the FORK bundle itself, which commits before the
groups copy it (R145, R186). -/
def forkGdl (s : State) : Word :=
  gdlAfter s.tile.sys.mts s.cur.group s.strm.gdl

/-- The group streams that FORK makes (R145, R134, R406). -/
def forked (s : State) (map : BitVec 16) (entries : Word) : State :=
  let st := s.strm
  let mk (g : Fin 4) : Option Stream :=
    if forkMembers map g = 0 then none
    else
      let n := Stream.new (s.ctTarget (forkEntry entries g)).toNat (forkMembers map g) s.forkGdl (s.afterTransfer s.cur.gap)
      some { n with cbVis := st.cbVis, stopped := s.tile.sys.stop && backward (forkEntry entries g) }
  let s := s.modTile s.cur.tile fun t => { t with
    streams := Vector.ofFn mk, lockstep := false, savedLoops := st.loops
    sys := { t.sys with mts := t.sys.mts.filter fun m => m.reg != .gdl }
    regs := { t.regs.clearLatches (BitVec.allOnes 8) with bypDrop := true } }
  { s with cur := { s.cur with moved := true } }

end State

/-- FORK (R145). -/
def execFork (map : BitVec 16) (entries : Word) (s : State) : Host.Outcome State Fault Refusal :=
  s.finish do
    if !s.tile.lockstep then s.illegal
    else
      s.forkTargets entries (forkGroups map)
      if (List.finRange 4).any fun g => forkMembers map g == 0 && forkEntry entries g != 0 then
        s.raise .illegal entries 2
      else return s.forked map entries

/-- The JOIN pending in a group, not parked: its GM and the cycle in which it arrived (R146). -/
def pendingJoin (st : Stream) : Option (BitVec 4 × Nat × Fin 8) :=
  match st.wait, st.park with
  | some wt, none =>
    match wt.ins, wt.dec with
    | .join gm _, none => some (gm, wt.since, wt.slot)
    | _, _ => none
  | _, _ => none

namespace State

/-- The pending JOINs of other groups that conflict with a JOIN of GM `gm` by the group in hand (R146): those whose GM
differs, where one of the two groups is named by the other's JOIN. Of two JOINs that name a third group the spec does
not say whether they conflict; here they do not (DESIGN CHOICE, log 74). -/
def joinClash (s : State) (gm : BitVec 4) : List (Fin 4 × BitVec 4 × Nat × Fin 8) :=
  (List.finRange 4).filterMap fun h =>
    if h = s.cur.group then none
    else match s.tile.streams.get h with
      | none => none
      | some st => match pendingJoin st with
        | some (gm', c, sl) =>
          if gm' != gm && (gm.getLsbD h.val || gm'.getLsbD s.cur.group.val) then some (h, gm', c, sl) else none
        | none => none

/-- The groups of GM whose JOIN with this GM is not pending (R146). -/
def joinMissing (s : State) (gm : BitVec 4) : Nat :=
  ((List.finRange 4).map fun g =>
    if gm.getLsbD g.val && ((s.tile.streams.get g).bind pendingJoin).map (·.1) != some gm then 2 ^ g.val else 0).sum

/-- The lowest group of a GM. -/
def lowest (gm : BitVec 4) : Fin 4 := ((List.finRange 4).find? fun g => gm.getLsbD g.val).getD 0

/-- The merge of R146: the lowest group takes the members of all, the others cease, and when it holds all eight slots
the tile is in lockstep again. Of an MTS of gdl in the merging bundles that of the lowest group is kept (R115). Changes of
condition bits by any of its groups count as the merged stream's earlier ones (DESIGN CHOICE, log 75). -/
def merge (s : State) (gm : BitVec 4) : State :=
  let t := s.tile
  let parts := (List.finRange 4).filter fun g => gm.getLsbD g.val
  let members := parts.foldl (fun m g => m ||| (s.streamAt s.cur.tile g).members) (0 : BitVec 8)
  let c := lowest gm
  let st := s.streamAt s.cur.tile c
  let all := members = BitVec.allOnes 8
  let next := if c = s.cur.group then (s.cur.pc + s.cur.len, s.cur.gap) else st.joined.getD (st.pc, 0)
  let n := { Stream.new next.1 members st.gdl (s.afterTransfer next.2) with
    loops := if all then t.savedLoops else st.loops
    cbVis := parts.foldl (fun v g => max v (s.streamAt s.cur.tile g).cbVis) 0 }
  let home : Fin 4 := if all then 0 else c
  let s := s.modTile s.cur.tile fun t => { t with
    streams := Vector.ofFn fun g => if g = home then some n else if gm.getLsbD g.val then none else t.streams.get g
    lockstep := all, savedLoops := if all then [] else t.savedLoops
    sys := { t.sys with
      mts := (t.sys.mts.filter fun m => m.reg != .gdl || m.group == c || !gm.getLsbD m.group.val).map fun m =>
        if m.reg = .gdl ∧ m.group = c then { m with group := home } else m }
    regs := { t.regs.clearLatches members with bypDrop := true } }
  { s with cur := { s.cur with group := home, moved := true } }

/-- A JOIN bundle of a merge commits: the merge is made when every other group of GM has committed its own (R146). -/
def joinCommits (s : State) (gm : BitVec 4) : State :=
  if (List.finRange 4).all fun h =>
      h == s.cur.group || !gm.getLsbD h.val || (s.streamAt s.cur.tile h).joined.isSome then s.merge gm
  else
    let s := s.modStrm fun st => { st with joined := some (s.cur.pc + s.cur.len, s.cur.gap) }
    { s with cur := { s.cur with moved := true } }

end State

/-- JOIN (R146). The arrival becomes pending; the tile decides the merge once per cycle after every JOIN of the cycle
has arrived. On OK the last of the merging bundles to commit makes the merge. -/
def execJoin (gm : BitVec 4) (w : WaitF) (s : State) : Host.Outcome State Fault Refusal :=
  s.finish do
    let g := s.cur.group
    if s.tile.lockstep then s.illegal
    else if (s.strm.wait.bind (·.dec)).isNone && (!gm.getLsbD g.val || gm == BitVec.twoPow 4 g.val
        || (List.finRange 4).any fun h => gm.getLsbD h.val && (s.tile.streams.get h).isNone) then
      s.raise .joinMismatch (gm.zeroExtend 64) 0
    else
      let clash := if (s.strm.wait).isNone then s.joinClash gm else []
      match clash.find? fun c => decide (c.2.2.1 < s.now) || decide (c.1.val < g.val) with
      | some c => s.raise .joinMismatch (gm.zeroExtend 64) (c.2.1.zeroExtend 64)
      | none =>
        let s := clash.foldl (fun s c => (s.park s.cur.tile c.1
          { kind := .joinMismatch, slot := c.2.2.2, info0 := c.2.1.zeroExtend 64, info1 := gm.zeroExtend 64 })) s
        let r ← s.waitHere (.join gm w) w [] fun _ => none
        return if r.2.1.code = 0 then r.1.joinCommits gm else r.1

/-! ### Loop registers, TRAP and BRKPT (R148, R150) -/

/-- LCSET (R148): readable by bundles issued from the next cycle. -/
def execLcset (lc : Fin 32) (a : XSrc) (s : State) : Host.Outcome State Fault Refusal :=
  s.finish do
    return s.schedule (.lc lc) (.x (← s.readX a)) (BitVec.allOnes 256) 1 false

/-- LCGET (R148). -/
def execLcget (d : XDst) (lc : Fin 32) (s : State) : Host.Outcome State Fault Refusal :=
  s.finish (s.writeX d 1 (s.tile.regs.lc.get lc))

/-- TRAP (R150). -/
def execTrap (code : BitVec 16) (s : State) : Host.Outcome State Fault Refusal :=
  s.finish (s.raise .trap (code.zeroExtend 64))

/-- BRKPT (R150). -/
def execBrkpt (code : BitVec 16) (s : State) : Host.Outcome State Fault Refusal :=
  s.finish (s.raise .breakpoint (code.zeroExtend 64))

end Sys2Proof.Machine
end

