-- ==== Sys2Proof/Machine/Scalar.lean ====
section
/-! DEFINITION. Scalar integer instructions, moves and pointers (chapter 08: R168 to R179). -/

namespace Sys2Proof.Machine

/-! ### Results (R169, R172 to R175) -/

/-- A result m with IOV when it lies outside the type (R172). -/
def iovResult (t : ITy) (m : Int) : Word × Flags := (t.extW m, flagIf (!t.inRange m) fIOV)

/-- ADD (R172). -/
def addR (t : ITy) (a b : Word) : Word × Flags := iovResult t (t.val a.toNat + t.val b.toNat)
/-- SUB (R172). -/
def subR (t : ITy) (a b : Word) : Word × Flags := iovResult t (t.val a.toNat - t.val b.toNat)
/-- MUL (R172). -/
def mulR (t : ITy) (a b : Word) : Word × Flags := iovResult t (t.val a.toNat * t.val b.toNat)
/-- MULH (R172): the high half of the double-width product. -/
def mulhR (t : ITy) (a b : Word) : Word × Flags := (t.extW ((t.val a.toNat * t.val b.toNat) / 2 ^ t.width), 0)

/-- DIV (R172): toward zero; IDZ for a zero divisor, IOV for the one quotient out of range. -/
def divR (t : ITy) (a b : Word) : Word × Flags :=
  let x := t.val a.toNat
  let y := t.val b.toNat
  if y = 0 then (t.extW (if t.signed then -1 else 2 ^ t.width - 1), fIDZ)
  else if t.signed ∧ x = t.lo ∧ y = -1 then (t.extW x, fIOV)
  else (t.extW (x.tdiv y), 0)

/-- REM (R172): the sign of the dividend. -/
def remR (t : ITy) (a b : Word) : Word × Flags :=
  let x := t.val a.toNat
  let y := t.val b.toNat
  if y = 0 then (t.extW x, fIDZ)
  else if t.signed ∧ x = t.lo ∧ y = -1 then (0, 0)
  else (t.extW (x - y * x.tdiv y), 0)

/-- Logic on the bits below the width (R173). -/
def logicR (f : Word → Word → Word) (t : ITy) (a b : Word) : Word × Flags := (t.extW (f a b).toNat, 0)

/-- The shift amount of R173: the 64-bit operand modulo the width. -/
def shamt (t : ITy) (b : Word) : Nat := b.toNat % t.width

/-- SHL (R173). -/
def shlR (t : ITy) (a b : Word) : Word × Flags := (t.extW (t.bits a.toNat * 2 ^ shamt t b : Nat), 0)
/-- SHR (R173). -/
def shrR (t : ITy) (a b : Word) : Word × Flags := (t.extW (t.bits a.toNat / 2 ^ shamt t b : Nat), 0)

/-- The two's-complement reading of the bits at the width, whatever the signedness (R173). -/
def twos (t : ITy) (n : Nat) : Int :=
  let u := t.bits n
  if 2 ^ (t.width - 1) ≤ u then (u : Int) - 2 ^ t.width else u

/-- SAR (R173). -/
def sarR (t : ITy) (a b : Word) : Word × Flags := (t.extW (twos t a.toNat / 2 ^ shamt t b), 0)
/-- ROL (R173). -/
def rolR (t : ITy) (a b : Word) : Word × Flags :=
  let u := t.bits a.toNat
  let k := shamt t b
  (t.extW ((u * 2 ^ k + u / 2 ^ (t.width - k)) % 2 ^ t.width : Nat), 0)

/-- MIN (R174). -/
def minR (t : ITy) (a b : Word) : Word × Flags := (t.extW (min (t.val a.toNat) (t.val b.toNat)), 0)
/-- MAX (R174). -/
def maxR (t : ITy) (a b : Word) : Word × Flags := (t.extW (max (t.val a.toNat) (t.val b.toNat)), 0)

/-- ABS (R174): IOV for the least value, which it leaves. -/
def absR (t : ITy) (a : Word) : Word × Flags :=
  let x := t.val a.toNat
  (t.extW x.natAbs, flagIf (x == t.lo) fIOV)

/-- Zero bits above the leading one of the low `w` bits (R174). -/
def clzN (u : Nat) : Nat → Nat
  | 0 => 0
  | w + 1 => if u / 2 ^ w % 2 = 1 then 0 else 1 + clzN u w

/-- Zero bits below the lowest one, at most `w` (R174). -/
def ctzN (u : Nat) : Nat → Nat
  | 0 => 0
  | w + 1 => if u % 2 = 1 then 0 else 1 + ctzN (u / 2) w

/-- Set bits of the low `w` bits (R174). -/
def popN (u : Nat) : Nat → Nat
  | 0 => 0
  | w + 1 => u % 2 + popN (u / 2) w

/-- CLZ (R174). -/
def clzR (t : ITy) (a : Word) : Word × Flags := (BitVec.ofNat 64 (clzN a.toNat t.width), 0)
/-- CTZ (R174). -/
def ctzR (t : ITy) (a : Word) : Word × Flags := (BitVec.ofNat 64 (ctzN a.toNat t.width), 0)
/-- POPC (R174). -/
def popcR (t : ITy) (a : Word) : Word × Flags := (BitVec.ofNat 64 (popN a.toNat t.width), 0)
/-- SEXT and ZEXT (R174): ext of the low bits. -/
def extR (t : ITy) (a : Word) : Word × Flags := (t.extW a.toNat, 0)

/-- CMP (R175). -/
def cmpR (t : ITy) (a b : Word) : Word × Flags :=
  let x := t.val a.toNat
  let y := t.val b.toNat
  (if x < y then -1 else if x = y then 0 else 1, 0)

/-! ### The shape of the forms (R168) -/

namespace State

/-- A scalar result with its flags, both at latency `lat` (R154, R171). -/
def result (s : State) (d : XDst) (lat : Nat) (r : Word × Flags) : Res State := do
  return (← s.writeX d lat r.1).flag lat r.2

/-- Two x sources and an x destination. -/
def alu2 (s : State) (lat : Nat) (d : XDst) (a b : XSrc) (f : Word → Word → Word × Flags) : Res State := do
  let x ← s.readX a
  let y ← s.readX b
  s.result d lat (f x y)

/-- One x source and an x destination. -/
def alu1 (s : State) (lat : Nat) (d : XDst) (a : XSrc) (f : Word → Word × Flags) : Res State := do
  let x ← s.readX a
  s.result d lat (f x)

/-- Three x sources and an x destination. -/
def alu3 (s : State) (lat : Nat) (d : XDst) (a b c : XSrc) (f : Word → Word → Word → Word × Flags) : Res State := do
  let x ← s.readX a
  let y ← s.readX b
  let z ← s.readX c
  s.result d lat (f x y z)

end State

/-! ### The instructions -/

/-- ADD (R172). -/
def execAdd (t : ITy) (d : XDst) (a b : XSrc) (s : State) : Host.Outcome State Fault Refusal :=
  s.finish (s.alu2 1 d a b (addR t))

/-- ADD with an immediate (R172, R51, R57). -/
def execAddRI (d : XDst) (a : XSrc) (i : RImm) (s : State) : Host.Outcome State Fault Refusal :=
  s.finish (s.alu1 1 d a fun x => addR .i64 x (i.value true))

/-- SUB (R172). -/
def execSub (t : ITy) (d : XDst) (a b : XSrc) (s : State) : Host.Outcome State Fault Refusal :=
  s.finish (s.alu2 1 d a b (subR t))

/-- SUB with an immediate (R172, R51, R57). -/
def execSubRI (d : XDst) (a : XSrc) (i : RImm) (s : State) : Host.Outcome State Fault Refusal :=
  s.finish (s.alu1 1 d a fun x => subR .i64 x (i.value true))

/-- MUL (R172). -/
def execMul (t : ITy) (d : XDst) (a b : XSrc) (s : State) : Host.Outcome State Fault Refusal :=
  s.finish (s.alu2 3 d a b (mulR t))

/-- MUL with an immediate (R172, R51, R57). -/
def execMulRI (d : XDst) (a : XSrc) (i : RImm) (s : State) : Host.Outcome State Fault Refusal :=
  s.finish (s.alu1 3 d a fun x => mulR .i64 x (i.value true))

/-- MULH (R172). -/
def execMulh (t : ITy) (d : XDst) (a b : XSrc) (s : State) : Host.Outcome State Fault Refusal :=
  s.finish (s.alu2 3 d a b (mulhR t))

/-- DIV (R172). -/
def execDiv (t : ITy) (d : XDst) (a b : XSrc) (s : State) : Host.Outcome State Fault Refusal :=
  s.finish (s.alu2 20 d a b (divR t))

/-- REM (R172). -/
def execRem (t : ITy) (d : XDst) (a b : XSrc) (s : State) : Host.Outcome State Fault Refusal :=
  s.finish (s.alu2 20 d a b (remR t))

/-- AND (R173). -/
def execAnd (t : ITy) (d : XDst) (a b : XSrc) (s : State) : Host.Outcome State Fault Refusal :=
  s.finish (s.alu2 1 d a b ((logicR (· &&& ·)) t))

/-- AND with an immediate (R173, R51, R57). -/
def execAndRI (d : XDst) (a : XSrc) (i : RImm) (s : State) : Host.Outcome State Fault Refusal :=
  s.finish (s.alu1 1 d a fun x => (logicR (· &&& ·)) .n64 x (i.value false))

/-- OR (R173). -/
def execOr (t : ITy) (d : XDst) (a b : XSrc) (s : State) : Host.Outcome State Fault Refusal :=
  s.finish (s.alu2 1 d a b ((logicR (· ||| ·)) t))

/-- OR with an immediate (R173, R51, R57). -/
def execOrRI (d : XDst) (a : XSrc) (i : RImm) (s : State) : Host.Outcome State Fault Refusal :=
  s.finish (s.alu1 1 d a fun x => (logicR (· ||| ·)) .n64 x (i.value false))

/-- XOR (R173). -/
def execXor (t : ITy) (d : XDst) (a b : XSrc) (s : State) : Host.Outcome State Fault Refusal :=
  s.finish (s.alu2 1 d a b ((logicR (· ^^^ ·)) t))

/-- XOR with an immediate (R173, R51, R57). -/
def execXorRI (d : XDst) (a : XSrc) (i : RImm) (s : State) : Host.Outcome State Fault Refusal :=
  s.finish (s.alu1 1 d a fun x => (logicR (· ^^^ ·)) .n64 x (i.value false))

/-- ANDN (R173). -/
def execAndn (t : ITy) (d : XDst) (a b : XSrc) (s : State) : Host.Outcome State Fault Refusal :=
  s.finish (s.alu2 1 d a b ((logicR fun u v => u &&& ~~~v) t))

/-- ANDN with an immediate (R173, R51, R57). -/
def execAndnRI (d : XDst) (a : XSrc) (i : RImm) (s : State) : Host.Outcome State Fault Refusal :=
  s.finish (s.alu1 1 d a fun x => (logicR fun u v => u &&& ~~~v) .n64 x (i.value false))

/-- SHL (R173). -/
def execShl (t : ITy) (d : XDst) (a b : XSrc) (s : State) : Host.Outcome State Fault Refusal :=
  s.finish (s.alu2 1 d a b (shlR t))

/-- SHL with an immediate (R173, R51, R57). -/
def execShlRI (d : XDst) (a : XSrc) (i : RImm) (s : State) : Host.Outcome State Fault Refusal :=
  s.finish (s.alu1 1 d a fun x => shlR .n64 x (i.value false))

/-- SHR (R173). -/
def execShr (t : ITy) (d : XDst) (a b : XSrc) (s : State) : Host.Outcome State Fault Refusal :=
  s.finish (s.alu2 1 d a b (shrR t))

/-- SHR with an immediate (R173, R51, R57). -/
def execShrRI (d : XDst) (a : XSrc) (i : RImm) (s : State) : Host.Outcome State Fault Refusal :=
  s.finish (s.alu1 1 d a fun x => shrR .n64 x (i.value false))

/-- SAR (R173). -/
def execSar (t : ITy) (d : XDst) (a b : XSrc) (s : State) : Host.Outcome State Fault Refusal :=
  s.finish (s.alu2 1 d a b (sarR t))

/-- SAR with an immediate (R173, R51, R57). -/
def execSarRI (d : XDst) (a : XSrc) (i : RImm) (s : State) : Host.Outcome State Fault Refusal :=
  s.finish (s.alu1 1 d a fun x => sarR .n64 x (i.value false))

/-- ROL (R173). -/
def execRol (t : ITy) (d : XDst) (a b : XSrc) (s : State) : Host.Outcome State Fault Refusal :=
  s.finish (s.alu2 1 d a b (rolR t))

/-- ROL with an immediate (R173, R51, R57). -/
def execRolRI (d : XDst) (a : XSrc) (i : RImm) (s : State) : Host.Outcome State Fault Refusal :=
  s.finish (s.alu1 1 d a fun x => rolR .n64 x (i.value false))

/-- MIN (R174). -/
def execMin (t : ITy) (d : XDst) (a b : XSrc) (s : State) : Host.Outcome State Fault Refusal :=
  s.finish (s.alu2 1 d a b (minR t))

/-- MIN with an immediate (R174, R51, R57). -/
def execMinRI (d : XDst) (a : XSrc) (i : RImm) (s : State) : Host.Outcome State Fault Refusal :=
  s.finish (s.alu1 1 d a fun x => minR .i64 x (i.value true))

/-- MAX (R174). -/
def execMax (t : ITy) (d : XDst) (a b : XSrc) (s : State) : Host.Outcome State Fault Refusal :=
  s.finish (s.alu2 1 d a b (maxR t))

/-- MAX with an immediate (R174, R51, R57). -/
def execMaxRI (d : XDst) (a : XSrc) (i : RImm) (s : State) : Host.Outcome State Fault Refusal :=
  s.finish (s.alu1 1 d a fun x => maxR .i64 x (i.value true))

/-- CMP (R175). -/
def execCmp (t : ITy) (d : XDst) (a b : XSrc) (s : State) : Host.Outcome State Fault Refusal :=
  s.finish (s.alu2 1 d a b (cmpR t))

/-- CMP with an immediate (R175, R51, R57). -/
def execCmpRI (d : XDst) (a : XSrc) (i : RImm) (s : State) : Host.Outcome State Fault Refusal :=
  s.finish (s.alu1 1 d a fun x => cmpR .i64 x (i.value true))

/-- ABS (R174). -/
def execAbs (t : ITy) (d : XDst) (a : XSrc) (s : State) : Host.Outcome State Fault Refusal :=
  s.finish (s.alu1 1 d a (absR t))

/-- CLZ (R174). -/
def execClz (t : ITy) (d : XDst) (a : XSrc) (s : State) : Host.Outcome State Fault Refusal :=
  s.finish (s.alu1 1 d a (clzR t))

/-- CTZ (R174). -/
def execCtz (t : ITy) (d : XDst) (a : XSrc) (s : State) : Host.Outcome State Fault Refusal :=
  s.finish (s.alu1 1 d a (ctzR t))

/-- POPC (R174). -/
def execPopc (t : ITy) (d : XDst) (a : XSrc) (s : State) : Host.Outcome State Fault Refusal :=
  s.finish (s.alu1 1 d a (popcR t))

/-- SEXT (R174). -/
def execSext (t : ITy) (d : XDst) (a : XSrc) (s : State) : Host.Outcome State Fault Refusal :=
  s.finish (s.alu1 1 d a (extR t))

/-- ZEXT (R174). -/
def execZext (t : ITy) (d : XDst) (a : XSrc) (s : State) : Host.Outcome State Fault Refusal :=
  s.finish (s.alu1 1 d a (extR t))

/-- SEL (R175). -/
def execSel (d : XDst) (a b c : XSrc) (s : State) : Host.Outcome State Fault Refusal :=
  s.finish (s.alu3 1 d a b c fun x y z => (if z ≠ 0 then x else y, 0))

/-- MOV (R175). -/
def execMov (d : XDst) (a : XSrc) (s : State) : Host.Outcome State Fault Refusal :=
  s.finish (s.alu1 1 d a fun x => (x, 0))

/-- MOVI.i64 (R176). -/
def execMoviI64 (d : XDst) (i : RImm) (s : State) : Host.Outcome State Fault Refusal :=
  s.finish (s.writeX d 1 (i.value true))

/-- MOVI.n64 (R176). -/
def execMoviN64 (d : XDst) (i : RImm) (s : State) : Host.Outcome State Fault Refusal :=
  s.finish (s.writeX d 1 (i.value false))

/-- MOVK (R176). -/
def execMovk (d : XDst) (a : XSrc) (hi : Bool) (v : BitVec 32) (s : State) : Host.Outcome State Fault Refusal :=
  s.finish (s.alu1 1 d a fun x => (if hi then v ++ fld x 0 32 else fld x 32 32 ++ v, 0))

/-! ### Pointers (R177 to R179) -/

/-- ADDR_SPACE of pointer formation: ADDR holds the pointer as far as it was formed. -/
def State.badPointer {α : Type} (s : State) (p : Word) : Res α := s.raise .addrSpace 0 0 p

/-- LEA (R179). -/
def execLea (d : XDst) (a : XSrc) (i : RImm) (s : State) : Host.Outcome State Fault Refusal :=
  s.finish (s.alu1 1 d a fun p => (withOffset p (offsetOf p + (i.value true).toInt), 0))

/-- PMAKE (R178). -/
def execPmake (d : XDst) (a b c : XSrc) (s : State) : Host.Outcome State Fault Refusal :=
  s.finish do
    let sp ← s.readX a
    let k ← s.readX b
    let o ← s.readX c
    let p : Word := fld sp 0 4 ++ fld k 0 8 ++ fld o 0 52
    if 0xF < sp.toNat ∨ 0xFF < k.toNat ∨ 2 ^ 52 ≤ o.toNat ∨ !s.checkPointer p then s.badPointer p
    else s.writeX d 1 p

/-- PSPACE (R178). -/
def execPspace (d : XDst) (a : XSrc) (s : State) : Host.Outcome State Fault Refusal :=
  s.finish (s.alu1 1 d a fun p => (BitVec.ofNat 64 (spaceOf p), 0))

/-- PRANK (R178). -/
def execPrank (d : XDst) (a : XSrc) (s : State) : Host.Outcome State Fault Refusal :=
  s.finish (s.alu1 1 d a fun p => (BitVec.ofNat 64 (rankOf p), 0))

/-- PADD's sum with its check (R179). -/
def State.padd (s : State) (d : XDst) (p : Word) (n : Int) : Res State :=
  let o := (offsetOf p : Int) + n
  let q := withOffset p o
  if o < 0 ∨ 2 ^ 52 ≤ o ∨ !s.checkPointer q then s.badPointer q else s.writeX d 1 q

/-- PADD (R179). -/
def execPadd (d : XDst) (a b : XSrc) (s : State) : Host.Outcome State Fault Refusal :=
  s.finish do
    let p ← s.readX a
    let n ← s.readX b
    s.padd d p n.toInt

/-- PADD with an immediate (R179). -/
def execPaddRI (d : XDst) (a : XSrc) (i : RImm) (s : State) : Host.Outcome State Fault Refusal :=
  s.finish do
    let p ← s.readX a
    s.padd d p (i.value true).toInt

end Sys2Proof.Machine
end

