-- ==== Sys2Proof/Machine/ScalarFloat.lean ====
section
/-! DEFINITION. Bank formats (R215 to R217), scalar floating point (R180 to R184), system registers (R185 to R188),
DLMK, CLKRD and TFENCE (R126, R127, R223). -/

namespace Sys2Proof.Machine

/-! ### Bank formats (R215 to R217) -/

/-- FMT of a bfmt value; `none` for RAW (R215). -/
def bankTy (b : Word) : Option Ty := Ty.ofCode (fld b 0 8)

/-- SCALE 0b01 (R215). -/
def bankScaled (b : Word) : Bool := fld b 8 2 == 1

/-- A defined bfmt value (R215). -/
def bankOk (b : Word) : Bool :=
  (fld b 0 8 == 0 || (bankTy b).isSome)
    && (fld b 8 2 == 0 || (fld b 8 2 == 1 && match bankTy b with | some t => t.width == 8 | none => false))
    && fld b 10 2 != 3 && fld b 12 4 == 0

/-- The rounding of encode_bank for the element at a bank-relative offset of bank `i` (R213, R217). -/
def bankMode (b : Word) (i off : Nat) : RMode :=
  match (fld b 10 2).toNat with
  | 0 => .rne
  | 1 => .rtz
  | _ => .sto ((fld b 32 32 ++ fld b 16 16 : BitVec 48).zeroExtend 64) (BitVec.ofNat 64 (off + 2 ^ 15 * i))

/-- R217 decode_bank: the exact value of an element's bits under its scale byte. -/
def decodeBank (t : Ty) (scaled : Bool) (scale bits : Nat) : Val :=
  if scaled then ((t.value bits).mul (e5m3 scale)).1 else t.value bits

/-- R217 encode_bank: one rounding from the exact quotient; under a zero scale a number gives the zero that scale
search assumed (R219; log 17), and to nearest even the code is that of the search (R219; log 85). -/
def encodeBank (b : Word) (t : Ty) (i off : Nat) (scale : Option Nat) (v : Val) : Nat × Flags :=
  match scale with
  | some c =>
    if (e5m3 c).isZero && !v.isNan then (0, 0)
    else match bankMode b i off with
      | .rne => roundSat t (v.div (e5m3 c)).1
      | mode => roundTo t fSAT mode (v.div (e5m3 c)).1
  | none => roundTo t fSAT (bankMode b i off) v

/-! ### Scalar floating point (R180 to R184) -/

/-- An f32 result in the low half of an x register (R169). -/
def f32Result (r : Nat × Flags) : Word × Flags := (BitVec.ofNat 64 r.1, r.2)

/-- The f32 pattern of an x register. -/
def lowF32 (w : Word) : Nat := w.toNat % 2 ^ 32

/-- FCMP's value (R183). -/
def fcmpR (a b : Word) : Word :=
  match (f32v (lowF32 a)).cmp (f32v (lowF32 b)) with
  | none => 2
  | some .lt => -1
  | some .eq => 0
  | some .gt => 1

/-- A converted value as the register receives it: ext for an integer type, zeros above a floating one (R169, R184). -/
def convertedWord (t : Ty) (n : Nat) : Word :=
  match t with
  | .int i => i.extW n
  | _ => BitVec.ofNat 64 n

/-- FADD (R181). -/
def execFadd (d : XDst) (a b : XSrc) (s : State) : Host.Outcome State Fault Refusal :=
  s.finish (s.alu2 4 d a b fun x y => f32Result (FTy.f32.add (lowF32 x) (lowF32 y)))

/-- FSUB (R181). -/
def execFsub (d : XDst) (a b : XSrc) (s : State) : Host.Outcome State Fault Refusal :=
  s.finish (s.alu2 4 d a b fun x y => f32Result (FTy.f32.sub (lowF32 x) (lowF32 y)))

/-- FMUL (R181). -/
def execFmul (d : XDst) (a b : XSrc) (s : State) : Host.Outcome State Fault Refusal :=
  s.finish (s.alu2 4 d a b fun x y => f32Result (FTy.f32.mul (lowF32 x) (lowF32 y)))

/-- FDIV (R181). -/
def execFdiv (d : XDst) (a b : XSrc) (s : State) : Host.Outcome State Fault Refusal :=
  s.finish (s.alu2 16 d a b fun x y => f32Result (FTy.f32.div (lowF32 x) (lowF32 y)))

/-- FMIN (R182). -/
def execFmin (d : XDst) (a b : XSrc) (s : State) : Host.Outcome State Fault Refusal :=
  s.finish (s.alu2 4 d a b fun x y => f32Result (FTy.f32.minmax false (lowF32 x) (lowF32 y), 0))

/-- FMAX (R182). -/
def execFmax (d : XDst) (a b : XSrc) (s : State) : Host.Outcome State Fault Refusal :=
  s.finish (s.alu2 4 d a b fun x y => f32Result (FTy.f32.minmax true (lowF32 x) (lowF32 y), 0))

/-- FFMA (R181). -/
def execFfma (d : XDst) (a b c : XSrc) (s : State) : Host.Outcome State Fault Refusal :=
  s.finish (s.alu3 4 d a b c fun x y z => f32Result (FTy.f32.fma (lowF32 x) (lowF32 y) (lowF32 z)))

/-- FSQRT (R181). -/
def execFsqrt (d : XDst) (a : XSrc) (s : State) : Host.Outcome State Fault Refusal :=
  s.finish (s.alu1 16 d a fun x => f32Result (FTy.f32.sqrt (lowF32 x)))

/-- FCVT (R184). -/
def execFcvt (dst src : Ty) (rtz : Bool) (d : XDst) (a : XSrc) (s : State) : Host.Outcome State Fault Refusal :=
  s.finish (s.alu1 4 d a fun x =>
    let r := convert dst src rtz x.toNat
    (convertedWord dst r.1, r.2))

/-- FCMP (R183). -/
def execFcmp (d : XDst) (a b : XSrc) (s : State) : Host.Outcome State Fault Refusal :=
  s.finish (s.alu2 4 d a b fun x y => (fcmpR x y, 0))

/-! ### System registers (R185 to R188) -/

namespace State

/-- The value of a system register at the start of the cycle (R185, R187); reserved fields read zero. -/
def sysValue (s : State) (r : SysReg) : Word :=
  let y := s.tile.sys
  match r with
  | .coord => y.coord.zeroExtend 64
  | .rank => y.rank.zeroExtend 64
  | .stage => y.stage.zeroExtend 64
  | .ctx => BitVec.ofNat 64 y.ctx.val
  | .tclock => y.tclock
  | .wclock => BitVec.ofNat 64 s.clk.wclock
  | .gdl => s.strm.gdl
  | .dlmax => y.dlmax.zeroExtend 64
  | .esclim => y.esclim.zeroExtend 64
  | .toc => (tocNow y s.now 0).zeroExtend 64
  | .sticky => y.sticky.zeroExtend 64
  | .tenable => y.tenable.zeroExtend 64
  | .syncwin => y.syncwin
  | .wheel => y.wheel
  | .limit => s.dev.limit.zeroExtend 64
  | .stop => if y.stop0 then 1 else 0
  | .bfmt n => y.bfmt.get n

end State

/-- The registers with access SYS (R187). -/
def sysOnly : SysReg → Bool
  | .dlmax | .esclim | .toc | .syncwin | .wheel | .limit => true
  | _ => false

/-- R115: a value written to dlmax is clipped to 1 to 2^40. -/
def clipDlmax (v : Word) : BitVec 41 :=
  if v = 0 then 1 else if 2 ^ 40 ≤ v.toNat then 0x10000000000#41 else BitVec.ofNat 41 v.toNat

/-- One MTS to a register of the tile other than gdl and limit; read-only registers ignore it (R10, R186). -/
def SysRegs.write (y : SysRegs) (r : SysReg) (v : Word) : SysRegs :=
  match r with
  | .dlmax => { y with dlmax := clipDlmax v }
  | .esclim => { y with esclim := fld v 0 16 }
  | .toc => { y with toc := fld v 0 16 }
  | .sticky => { y with sticky := fld v 0 8 }
  | .tenable => { y with tenable := fld v 0 8 }
  | .syncwin => { y with syncwin := v &&& 0x3FFFFFFF1FFF7FFF }
  | .wheel => { y with wheel := v &&& 0x0000000001FF01FF }
  | .bfmt n => { y with bfmt := upd y.bfmt n v }
  | .coord | .rank | .stage | .ctx | .tclock | .wclock | .gdl | .limit | .stop => y

/-- The end of a cycle for the system registers: MTS in slot order, then the flags into sticky and the waits' effects on
toc (R171, R186, R158). -/
def SysRegs.settle (y : SysRegs) (now : Nat) (flags : List (Nat × Flags)) : SysRegs :=
  let y := (sortMts y.mts).foldl (fun y m => y.write m.reg m.val) y
  { y.settleToc with sticky := stickyAfter y.sticky now flags, mts := [], mtsPlan := [] }

/-- A written LIM of zero is stored as one (R188). -/
def limitValue (v : Word) : BitVec 32 := if fld v 0 32 = 0 then 1 else fld v 0 32

/-- MFS (R185). -/
def execMfs (d : XDst) (r : SysReg) (s : State) : Host.Outcome State Fault Refusal :=
  s.finish (s.writeX d 2 (s.sysValue r))

/-- MTS (R186): privilege is checked before x[A] is read; the write takes place at the end of the commit cycle. -/
def execMts (r : SysReg) (a : XSrc) (s : State) : Host.Outcome State Fault Refusal :=
  s.finish do
    if sysOnly r && !s.isSys then s.raise .privilege (r.index.zeroExtend 64)
    let v ← s.readX a
    match r with
    | .bfmt n =>
      if bankOk v then return s.modSys fun y => { y with mts := y.mts ++ [⟨s.cur.slot, r, s.cur.group, v⟩] }
      else s.raise .bankFormat (BitVec.ofNat 64 n.val) v
    | _ => return s.modSys fun y => { y with mts := y.mts ++ [⟨s.cur.slot, r, s.cur.group, v⟩] }

/-! ### DLMK, CLKRD, TFENCE -/

/-- tclock and wclock of the issue cycle of the bundle in hand, which is this cycle where it has not issued before (R126,
R127). -/
def State.issueClocks (s : State) : Word × Nat := s.strm.clocks.getD (s.tile.sys.tclock, s.clk.wclock)

/-- DLMK's value (R126). -/
def dlmkR (wall : Bool) (wclock : Nat) (a : Word) : Word :=
  if wall then
    let t : Int := (wclock : Int) + a.toInt
    BitVec.ofNat 64 (2 ^ 63 + (max 0 (min t (2 ^ 63 - 1))).toNat)
  else BitVec.ofNat 64 (min a.toNat (2 ^ 63 - 1))

/-- DLMK (R126): wclock is read in the issue cycle. -/
def execDlmk (wall : Bool) (d : XDst) (a : XSrc) (s : State) : Host.Outcome State Fault Refusal :=
  s.finish (s.alu1 2 d a fun x => (dlmkR wall s.issueClocks.2 x, 0))

/-- CLKRD (R127): both clocks as the issue cycle had them, x[D] first into the bypass (R160). -/
def execClkrd (d : Fin 64) (s : State) : Host.Outcome State Fault Refusal :=
  s.finish do
    let s1 ← s.writeX (.reg d) 2 s.issueClocks.1
    s1.writeX (.reg (d + 1)) 2 (BitVec.ofNat 64 s.issueClocks.2)

/-- The first cycle by which every fixed-latency result that the tile committed before this cycle has landed (R223). -/
def State.landedBy (s : State) : Nat :=
  (s.tile.regs.pend.filter fun w => !w.late && decide (w.issued < s.now)).foldl (fun m w => max m w.due) s.now

/-- The system registers as a TFENCE of this cycle tests them: with the flags that enter in it and every MTS that a group
commits in it (R223). -/
def State.fenced (s : State) : SysRegs :=
  let y := s.tile.sys
  ({ y with mts := y.mts ++ y.mtsPlan.filter fun m => !y.mts.contains m }).settle s.now s.tile.regs.pendF

/-- TFENCE (R223). The bundle is held to the first cycle by which every fixed-latency result committed before it issued
has landed; in that cycle it traps on sticky AND tenable, or is passed, also where a wait or another syllable keeps its
bundle longer (DEDUCED, log 95). -/
def execTfence (s : State) : Host.Outcome State Fault Refusal :=
  s.finish <|
    let d := s.strm.holdTo.getD s.landedBy
    if d < s.now then .ok s
    else if d = s.now then
      let f := s.fenced.sticky &&& s.fenced.tenable
      if f ≠ 0 then s.raise .arithmetic (f.zeroExtend 64) else .ok s
    else .error (.hold 0 (s.modStrm fun st => { st with holdTo := some d }))

end Sys2Proof.Machine
end

