-- ==== Sys2Proof/Machine/Vector.lean ====
section
/-! DEFINITION. Vector and mask instructions (chapter 11: R225 to R241). -/

namespace Sys2Proof.Machine

/-! ### Lane by lane (R225 to R228) -/

/-- The results of the active lanes, zero in the others, with the flags of the active lanes combined. -/
def laneResults (w : Nat) (k : KWord) (f : Nat → Nat × Flags) : VWord × Flags :=
  let rs := (List.range (256 / w)).map fun j => if active k w j then f j else (0, 0)
  (ofLanes w (rs.map (·.1)), rs.foldl (fun acc r => acc ||| r.2) 0)

namespace State

/-- A vector result under a mask register, with its flags, at latency `lat` (R171, R225, R226). -/
def vresult (s : State) (d : VDst) (lat w : Nat) (k : KWord) (r : VWord × Flags) : Res State := do
  return (← s.writeV d lat r.1 (activeMask k w)).flag lat r.2

/-- One vector source. -/
def vec1 (s : State) (w lat : Nat) (d : VDst) (a : VSrc) (m : Fin 16) (f : Nat → Nat × Flags) : Res State := do
  let x ← s.readV a
  let k ← s.takeK m
  s.vresult d lat w k (laneResults w k fun j => f (lane x w j))

/-- Two vector sources. -/
def vec2 (s : State) (w lat : Nat) (d : VDst) (a b : VSrc) (m : Fin 16) (f : Nat → Nat → Nat × Flags) : Res State := do
  let x ← s.readV a
  let y ← s.readV b
  let k ← s.takeK m
  s.vresult d lat w k (laneResults w k fun j => f (lane x w j) (lane y w j))

/-- Three vector sources. -/
def vec3 (s : State) (w lat : Nat) (d : VDst) (a b c : VSrc) (m : Fin 16) (f : Nat → Nat → Nat → Nat × Flags) :
    Res State := do
  let x ← s.readV a
  let y ← s.readV b
  let z ← s.readV c
  let k ← s.takeK m
  s.vresult d lat w k (laneResults w k fun j => f (lane x w j) (lane y w j) (lane z w j))

/-- A vector source and an immediate: its conversion's flags are those of the issue (R57). -/
def vecI (s : State) (w lat : Nat) (d : VDst) (a : VSrc) (i : Nat × Flags) (m : Fin 16) (f : Nat → Nat → Nat × Flags) :
    Res State := do
  return (← s.vec1 w lat d a m fun x => f x i.1).flag lat i.2

end State

/-- Lane width in bytes (R225). -/
def bytesOf (t : Ty) : Nat := t.width / 8

/-! ### Integer lanes (R233) -/

/-- A lane result with IOV when it lies outside the type. -/
def iovLane (t : ITy) (m : Int) : Nat × Flags := ((m % 2 ^ t.width).toNat, flagIf (!t.inRange m) fIOV)

/-- VIADD (R233). -/
def viaddL (t : ITy) (a b : Nat) : Nat × Flags := iovLane t (t.val a + t.val b)
/-- VISUB (R233). -/
def visubL (t : ITy) (a b : Nat) : Nat × Flags := iovLane t (t.val a - t.val b)
/-- VIMUL (R233). -/
def vimulL (t : ITy) (a b : Nat) : Nat × Flags := iovLane t (t.val a * t.val b)
/-- VAND (R233). -/
def vandL (_ : ITy) (a b : Nat) : Nat × Flags := (a &&& b, 0)
/-- VOR (R233). -/
def vorL (_ : ITy) (a b : Nat) : Nat × Flags := (a ||| b, 0)
/-- VXOR (R233). -/
def vxorL (_ : ITy) (a b : Nat) : Nat × Flags := (a ^^^ b, 0)
/-- VSHL (R233). -/
def vshlL (t : ITy) (a b : Nat) : Nat × Flags := (a * 2 ^ (b % t.width) % 2 ^ t.width, 0)
/-- VSHR (R233). -/
def vshrL (t : ITy) (a b : Nat) : Nat × Flags := (a / 2 ^ (b % t.width), 0)
/-- VSAR (R233). -/
def vsarL (t : ITy) (a b : Nat) : Nat × Flags := ((twos t a / 2 ^ (b % t.width) % 2 ^ t.width).toNat, 0)

/-! ### The arithmetic forms -/

/-- VADD (R229). -/
def execVadd (t : FTy) (d : VDst) (a b : VSrc) (m : Fin 16) (s : State) : Host.Outcome State Fault Refusal :=
  s.finish (s.vec2 (bytesOf (.flt t)) 4 d a b m t.add)

/-- VADD with an immediate (R228, R229). -/
def execVaddVI (t : FTy) (d : VDst) (a : VSrc) (i : BitVec 16) (m : Fin 16) (s : State) :
    Host.Outcome State Fault Refusal :=
  s.finish (s.vecI (bytesOf (.flt t)) 4 d a (viImm (.flt t) i) m t.add)

/-- VSUB (R229). -/
def execVsub (t : FTy) (d : VDst) (a b : VSrc) (m : Fin 16) (s : State) : Host.Outcome State Fault Refusal :=
  s.finish (s.vec2 (bytesOf (.flt t)) 4 d a b m t.sub)

/-- VSUB with an immediate (R228, R229). -/
def execVsubVI (t : FTy) (d : VDst) (a : VSrc) (i : BitVec 16) (m : Fin 16) (s : State) :
    Host.Outcome State Fault Refusal :=
  s.finish (s.vecI (bytesOf (.flt t)) 4 d a (viImm (.flt t) i) m t.sub)

/-- VMUL (R229). -/
def execVmul (t : FTy) (d : VDst) (a b : VSrc) (m : Fin 16) (s : State) : Host.Outcome State Fault Refusal :=
  s.finish (s.vec2 (bytesOf (.flt t)) 4 d a b m t.mul)

/-- VMUL with an immediate (R228, R229). -/
def execVmulVI (t : FTy) (d : VDst) (a : VSrc) (i : BitVec 16) (m : Fin 16) (s : State) :
    Host.Outcome State Fault Refusal :=
  s.finish (s.vecI (bytesOf (.flt t)) 4 d a (viImm (.flt t) i) m t.mul)

/-- VMIN (R229). -/
def execVmin (t : FTy) (d : VDst) (a b : VSrc) (m : Fin 16) (s : State) : Host.Outcome State Fault Refusal :=
  s.finish (s.vec2 (bytesOf (.flt t)) 4 d a b m (fun x y => (t.minmax false x y, 0)))

/-- VMIN with an immediate (R228, R229). -/
def execVminVI (t : FTy) (d : VDst) (a : VSrc) (i : BitVec 16) (m : Fin 16) (s : State) :
    Host.Outcome State Fault Refusal :=
  s.finish (s.vecI (bytesOf (.flt t)) 4 d a (viImm (.flt t) i) m (fun x y => (t.minmax false x y, 0)))

/-- VMAX (R229). -/
def execVmax (t : FTy) (d : VDst) (a b : VSrc) (m : Fin 16) (s : State) : Host.Outcome State Fault Refusal :=
  s.finish (s.vec2 (bytesOf (.flt t)) 4 d a b m (fun x y => (t.minmax true x y, 0)))

/-- VMAX with an immediate (R228, R229). -/
def execVmaxVI (t : FTy) (d : VDst) (a : VSrc) (i : BitVec 16) (m : Fin 16) (s : State) :
    Host.Outcome State Fault Refusal :=
  s.finish (s.vecI (bytesOf (.flt t)) 4 d a (viImm (.flt t) i) m (fun x y => (t.minmax true x y, 0)))

/-- VFMA (R229). -/
def execVfma (t : FTy) (d : VDst) (a b c : VSrc) (m : Fin 16) (s : State) : Host.Outcome State Fault Refusal :=
  s.finish (s.vec3 (bytesOf (.flt t)) 4 d a b c m t.fma)

/-- VABS (R230). -/
def execVabs (t : FTy) (d : VDst) (a : VSrc) (m : Fin 16) (s : State) : Host.Outcome State Fault Refusal :=
  s.finish (s.vec1 (bytesOf (.flt t)) 4 d a m (fun x => (t.signOp false x, 0)))

/-- VNEG (R230). -/
def execVneg (t : FTy) (d : VDst) (a : VSrc) (m : Fin 16) (s : State) : Host.Outcome State Fault Refusal :=
  s.finish (s.vec1 (bytesOf (.flt t)) 4 d a m (fun x => (t.signOp true x, 0)))

/-- VRCP (R230). -/
def execVrcp (t : FTy) (d : VDst) (a : VSrc) (m : Fin 16) (s : State) : Host.Outcome State Fault Refusal :=
  s.finish (s.vec1 (bytesOf (.flt t)) 4 d a m t.rcp)

/-- VRSQ (R230). -/
def execVrsq (t : FTy) (d : VDst) (a : VSrc) (m : Fin 16) (s : State) : Host.Outcome State Fault Refusal :=
  s.finish (s.vec1 (bytesOf (.flt t)) 4 d a m t.rsq)

/-- VEXP2 (R230). -/
def execVexp2 (t : FTy) (d : VDst) (a : VSrc) (m : Fin 16) (s : State) : Host.Outcome State Fault Refusal :=
  s.finish (s.vec1 (bytesOf (.flt t)) 4 d a m t.exp2)

/-- VLOG2 (R230). -/
def execVlog2 (t : FTy) (d : VDst) (a : VSrc) (m : Fin 16) (s : State) : Host.Outcome State Fault Refusal :=
  s.finish (s.vec1 (bytesOf (.flt t)) 4 d a m t.log2)

/-- The truth of a VCMP predicate on two lanes (R231). -/
def vcmpHolds (p : Fin 8) (t : Ty) (a b : Nat) : Bool :=
  match p.val, (t.value a).cmp (t.value b) with
  | 0, c => c == some .eq
  | 1, c => c != some .eq
  | 2, c => c == some .lt
  | 3, c => c == some .lt || c == some .eq
  | 4, c => c == some .gt
  | 5, c => c == some .gt || c == some .eq
  | 6, c => c.isSome
  | _, c => c.isNone

/-- VCMP (R231): every bit of an active lane takes the result. -/
def execVcmp (p : Fin 8) (t : Ty) (d : KDst) (a b : VSrc) (m : Fin 16) (s : State) :
    Host.Outcome State Fault Refusal :=
  s.finish do
    let x ← s.readV a
    let y ← s.readV b
    let k ← s.takeK m
    let w := bytesOf t
    let r := laneMask w fun j => active k w j && vcmpHolds p t (lane x w j) (lane y w j)
    s.writeK d 4 r (activeMask k w)

/-- VSEL (R232). -/
def execVsel (t : Ty) (d : VDst) (a b : VSrc) (c : KSrc) (m : Fin 16) (s : State) :
    Host.Outcome State Fault Refusal :=
  s.finish do
    let x ← s.readV a
    let y ← s.readV b
    let z ← s.readK c
    let k ← s.takeK m
    let w := bytesOf t
    s.vresult d 4 w k (laneResults w k fun j => (if active z w j then lane x w j else lane y w j, 0))

/-- VIADD (R233). -/
def execViadd (t : ITy) (d : VDst) (a b : VSrc) (m : Fin 16) (s : State) : Host.Outcome State Fault Refusal :=
  s.finish (s.vec2 (bytesOf (.int t)) 4 d a b m (viaddL t))

/-- VIADD with an immediate (R228, R233). -/
def execViaddVI (t : ITy) (d : VDst) (a : VSrc) (i : BitVec 16) (m : Fin 16) (s : State) :
    Host.Outcome State Fault Refusal :=
  s.finish (s.vecI (bytesOf (.int t)) 4 d a (viImm (.int t) i) m (viaddL t))

/-- VISUB (R233). -/
def execVisub (t : ITy) (d : VDst) (a b : VSrc) (m : Fin 16) (s : State) : Host.Outcome State Fault Refusal :=
  s.finish (s.vec2 (bytesOf (.int t)) 4 d a b m (visubL t))

/-- VISUB with an immediate (R228, R233). -/
def execVisubVI (t : ITy) (d : VDst) (a : VSrc) (i : BitVec 16) (m : Fin 16) (s : State) :
    Host.Outcome State Fault Refusal :=
  s.finish (s.vecI (bytesOf (.int t)) 4 d a (viImm (.int t) i) m (visubL t))

/-- VIMUL (R233). -/
def execVimul (t : ITy) (d : VDst) (a b : VSrc) (m : Fin 16) (s : State) : Host.Outcome State Fault Refusal :=
  s.finish (s.vec2 (bytesOf (.int t)) 4 d a b m (vimulL t))

/-- VIMUL with an immediate (R228, R233). -/
def execVimulVI (t : ITy) (d : VDst) (a : VSrc) (i : BitVec 16) (m : Fin 16) (s : State) :
    Host.Outcome State Fault Refusal :=
  s.finish (s.vecI (bytesOf (.int t)) 4 d a (viImm (.int t) i) m (vimulL t))

/-- VAND (R233). -/
def execVand (t : ITy) (d : VDst) (a b : VSrc) (m : Fin 16) (s : State) : Host.Outcome State Fault Refusal :=
  s.finish (s.vec2 (bytesOf (.int t)) 2 d a b m (vandL t))

/-- VAND with an immediate (R228, R233). -/
def execVandVI (t : ITy) (d : VDst) (a : VSrc) (i : BitVec 16) (m : Fin 16) (s : State) :
    Host.Outcome State Fault Refusal :=
  s.finish (s.vecI (bytesOf (.int t)) 2 d a (viImm (.int t) i) m (vandL t))

/-- VOR (R233). -/
def execVor (t : ITy) (d : VDst) (a b : VSrc) (m : Fin 16) (s : State) : Host.Outcome State Fault Refusal :=
  s.finish (s.vec2 (bytesOf (.int t)) 2 d a b m (vorL t))

/-- VOR with an immediate (R228, R233). -/
def execVorVI (t : ITy) (d : VDst) (a : VSrc) (i : BitVec 16) (m : Fin 16) (s : State) :
    Host.Outcome State Fault Refusal :=
  s.finish (s.vecI (bytesOf (.int t)) 2 d a (viImm (.int t) i) m (vorL t))

/-- VXOR (R233). -/
def execVxor (t : ITy) (d : VDst) (a b : VSrc) (m : Fin 16) (s : State) : Host.Outcome State Fault Refusal :=
  s.finish (s.vec2 (bytesOf (.int t)) 2 d a b m (vxorL t))

/-- VXOR with an immediate (R228, R233). -/
def execVxorVI (t : ITy) (d : VDst) (a : VSrc) (i : BitVec 16) (m : Fin 16) (s : State) :
    Host.Outcome State Fault Refusal :=
  s.finish (s.vecI (bytesOf (.int t)) 2 d a (viImm (.int t) i) m (vxorL t))

/-- VSHL (R233). -/
def execVshl (t : ITy) (d : VDst) (a b : VSrc) (m : Fin 16) (s : State) : Host.Outcome State Fault Refusal :=
  s.finish (s.vec2 (bytesOf (.int t)) 2 d a b m (vshlL t))

/-- VSHL with an immediate (R228, R233). -/
def execVshlVI (t : ITy) (d : VDst) (a : VSrc) (i : BitVec 16) (m : Fin 16) (s : State) :
    Host.Outcome State Fault Refusal :=
  s.finish (s.vecI (bytesOf (.int t)) 2 d a (viImm (.int t) i) m (vshlL t))

/-- VSHR (R233). -/
def execVshr (t : ITy) (d : VDst) (a b : VSrc) (m : Fin 16) (s : State) : Host.Outcome State Fault Refusal :=
  s.finish (s.vec2 (bytesOf (.int t)) 2 d a b m (vshrL t))

/-- VSHR with an immediate (R228, R233). -/
def execVshrVI (t : ITy) (d : VDst) (a : VSrc) (i : BitVec 16) (m : Fin 16) (s : State) :
    Host.Outcome State Fault Refusal :=
  s.finish (s.vecI (bytesOf (.int t)) 2 d a (viImm (.int t) i) m (vshrL t))

/-- VSAR (R233). -/
def execVsar (t : ITy) (d : VDst) (a b : VSrc) (m : Fin 16) (s : State) : Host.Outcome State Fault Refusal :=
  s.finish (s.vec2 (bytesOf (.int t)) 2 d a b m (vsarL t))

/-- VSAR with an immediate (R228, R233). -/
def execVsarVI (t : ITy) (d : VDst) (a : VSrc) (i : BitVec 16) (m : Fin 16) (s : State) :
    Host.Outcome State Fault Refusal :=
  s.finish (s.vecI (bytesOf (.int t)) 2 d a (viImm (.int t) i) m (vsarL t))

/-! ### Conversion and quantisation (R234 to R236) -/

/-- The source lane of a VCVT destination lane, when the form writes that lane (R234). -/
def vcvtLane (ws wd part j : Nat) : Option Nat :=
  if wd < ws then
    let n := 256 / ws
    if part * n ≤ j ∧ j < part * n + n then some (j - part * n) else none
  else if ws < wd then some (part * (256 / wd) + j)
  else some j

/-- VCVT (R234). -/
def execVcvt (dst src : Ty) (rtz : Bool) (part : Fin 4) (d : VDst) (a : VSrc) (m : Fin 16) (s : State) :
    Host.Outcome State Fault Refusal :=
  s.finish do
    let x ← s.readV a
    let k ← s.takeK m
    let ws := bytesOf src
    let wd := bytesOf dst
    let on : KWord := laneMask wd fun j => active k wd j && (vcvtLane ws wd part.val j).isSome
    let r := laneResults wd on fun j =>
      match vcvtLane ws wd part.val j with
      | some i => convert dst src rtz (lane x ws i)
      | none => (0, 0)
    return (← s.writeV d 3 r.1 on).flag 3 r.2

/-- The code of one VQNT element, with its flags: NaN code, INX when the code differs from its quotient, SAT when it
saturated (R235). -/
def vqntCode (t : Ty) (c : Nat) (v : Val) : Nat × Flags :=
  if v.isNan then roundTo t fSAT .rne v
  else
    if (e5m3 c).isZero then (quantCode t c v, 0)
    else
      let exact := (v.div (e5m3 c)).1
      let r := roundSat t exact
      (r.1, flagIf (!(t.value r.1).eq exact) fINX ||| r.2 &&& fSAT)

/-- The registers that VQNT reads: G from the effective A, a multiple of G; other fields raise ILLEGAL (R235). -/
def State.vqntGroup (s : State) (a : VSrc) (g : Nat) : Res (List (Fin 384)) := do
  let base ← match a with
    | .reg n => Except.ok n.val
    | .rot n => s.rotate true n.val
    | .byp _ _ => s.illegal
  if base % g ≠ 0 then s.illegal
  else (List.range g).mapM fun i => s.inFile 384 (base + i)

/-- VQNT (R235): codes to D, scales to x[C], both after 8 cycles. -/
def execVqnt (dst : Ty) (bf : Bool) (d : VDst) (a : VSrc) (x : Fin 64) (s : State) :
    Host.Outcome State Fault Refusal :=
  s.finish do
    let src : Ty := .flt (if bf then .bf16 else .f32)
    let w := bytesOf src
    let regs ← s.vqntGroup a w
    let vs ← regs.mapM s.takeV
    let elems := vs.flatMap fun v => (List.range (256 / w)).map fun j => src.value (lane v w j)
    let blocks := (List.range 8).map fun b => (elems.drop (32 * b)).take 32
    let scales := blocks.map (scaleSearch dst)
    let codes := ((blocks.zip scales).map fun p => p.1.map (vqntCode dst p.2)).flatten
    let s ← s.writeV d 8 (ofLanes 1 (codes.map (·.1))) (BitVec.allOnes 256)
    let s := s.flag 8 (codes.foldl (fun f c => f ||| c.2) 0)
    s.writeX (.reg x) 8 (BitVec.ofNat 64 (packLanes 1 scales))

/-- VDQNT (R236). -/
def execVdqnt (bf : Bool) (src : Ty) (part : Fin 4) (d : VDst) (a : VSrc) (b : XSrc) (m : Fin 16) (s : State) :
    Host.Outcome State Fault Refusal :=
  s.finish do
    let x ← s.readV a
    let c ← s.readX b
    let k ← s.takeK m
    let dst : Ty := .flt (if bf then .bf16 else .f32)
    let w := bytesOf dst
    s.vresult d 4 w k (laneResults w k fun j =>
      let e := part.val * (256 / w) + j
      let v := ((src.value (lane x 1 e)).mul (e5m3 (c.toNat / 2 ^ (8 * (e / 32)) % 256))).1
      roundTo dst fINV .rne v)

/-! ### Reductions (R221, R237) -/

/-- One level of the tree: adjacent results combined in pairs (R221). -/
def pairUp {α : Type} (f : α → α → α) : List α → List α
  | a :: b :: l => f a b :: pairUp f l
  | l => l

/-- The tree of R221 over at most 2^n values. -/
def reduceTree {α : Type} (f : α → α → α) : Nat → List α → List α
  | 0, l => l
  | n + 1, l => reduceTree f n (pairUp f l)

/-- The root of the tree over a register's lanes. -/
def reduceLanes {α : Type} (z : α) (f : α → α → α) (l : List α) : α := (reduceTree f 8 l).headD z

/-- An IEEE lane widened exactly to f32 (R221). -/
def widenF32 (t : FTy) (n : Nat) : Nat := (FTy.f32.fmt.round .rne (t.fmt.value n)).1

/-- VRSUM (R237). -/
def vrsumR (t : Ty) (x : VWord) (k : KWord) : VWord × Flags :=
  let w := bytesOf t
  match t with
  | .flt f =>
    let l := (List.range (256 / w)).map fun j =>
      (if active k w j then (if f = .f32 then lane x w j else widenF32 f (lane x w j)) else 0x80000000, (0 : Flags))
    let r := reduceLanes (0, 0) (fun a b => let q := FTy.f32.add a.1 b.1; (q.1, a.2 ||| b.2 ||| q.2)) l
    (ofLanes 4 (List.replicate 64 r.1), r.2)
  | .int i =>
    let l := (List.range (256 / w)).map fun j => if active k w j then i.val (lane x w j) else 0
    (ofLanes 8 (List.replicate 32 ((reduceLanes 0 (· + ·) l) % 2 ^ 64).toNat), 0)
  | .b8 _ => (0, 0)

/-- VRMAX and VRMIN (R237). -/
def vrminmaxR (hi : Bool) (t : Ty) (x : VWord) (k : KWord) : VWord × Flags :=
  let w := bytesOf t
  match t with
  | .flt f =>
    let l := (List.range (256 / w)).map fun j =>
      if active k w j then (if f = .f32 then lane x w j else widenF32 f (lane x w j)) else 0x7FC00000
    (ofLanes 4 (List.replicate 64 (reduceLanes 0 (FTy.f32.minmax hi) l)), 0)
  | .int i =>
    let l := (List.range (256 / w)).map fun j =>
      if active k w j then i.val (lane x w j) else if hi then i.lo else i.hi
    (ofLanes 8 (List.replicate 32 ((reduceLanes 0 (fun a b => if hi then max a b else min a b) l) % 2 ^ 64).toNat), 0)
  | .b8 _ => (0, 0)

/-- A reduction: D is written in full whatever the mask holds (R237). -/
def State.reduce (s : State) (f : VWord → KWord → VWord × Flags) (d : VDst) (a : VSrc) (m : Fin 16) : Res State := do
  let x ← s.readV a
  let k ← s.takeK m
  let r := f x k
  return (← s.writeV d 6 r.1 (BitVec.allOnes 256)).flag 6 r.2

/-- VRSUM (R237). -/
def execVrsum (t : Ty) (d : VDst) (a : VSrc) (m : Fin 16) (s : State) : Host.Outcome State Fault Refusal :=
  s.finish (s.reduce (vrsumR t) d a m)

/-- VRMAX (R237). -/
def execVrmax (t : Ty) (d : VDst) (a : VSrc) (m : Fin 16) (s : State) : Host.Outcome State Fault Refusal :=
  s.finish (s.reduce (vrminmaxR true t) d a m)

/-- VRMIN (R237). -/
def execVrmin (t : Ty) (d : VDst) (a : VSrc) (m : Fin 16) (s : State) : Host.Outcome State Fault Refusal :=
  s.finish (s.reduce (vrminmaxR false t) d a m)

/-! ### Permutes (R238) -/

/-- Lane `i` of the 2L lanes of two registers (R238). -/
def lane2 (a b : VWord) (w i : Nat) : Nat := if i < 256 / w then lane a w i else lane b w (i - 256 / w)

/-- VPERM (R238). -/
def execVperm (t : Ty) (d : VDst) (a b : VSrc) (m : Fin 16) (s : State) : Host.Outcome State Fault Refusal :=
  s.finish do
    let x ← s.readV a
    let y ← s.readV b
    let k ← s.takeK m
    let w := bytesOf t
    s.vresult d 3 w k (laneResults w k fun j => (lane x w (lane y w j % (256 / w)), 0))

/-- VBCAST (R238). -/
def execVbcast (t : Ty) (d : VDst) (a : XSrc) (m : Fin 16) (s : State) : Host.Outcome State Fault Refusal :=
  s.finish do
    let x ← s.readX a
    let k ← s.takeK m
    let w := bytesOf t
    s.vresult d 3 w k (laneResults w k fun _ => (x.toNat % 2 ^ t.width, 0))

/-- VSLIDE (R238). -/
def execVslide (t : Ty) (d : VDst) (a b : VSrc) (c : XSrc) (m : Fin 16) (s : State) :
    Host.Outcome State Fault Refusal :=
  s.finish do
    let x ← s.readV a
    let y ← s.readV b
    let n ← s.readX c
    let k ← s.takeK m
    let w := bytesOf t
    s.vresult d 3 w k (laneResults w k fun j => (lane2 x y w (j + min n.toNat (256 / w)), 0))

/-- VZIP (R238). -/
def execVzip (t : Ty) (part : Bool) (d : VDst) (a b : VSrc) (m : Fin 16) (s : State) :
    Host.Outcome State Fault Refusal :=
  s.finish do
    let x ← s.readV a
    let y ← s.readV b
    let k ← s.takeK m
    let w := bytesOf t
    s.vresult d 3 w k (laneResults w k fun j =>
      let h := (if part then 256 / w / 2 else 0) + j / 2
      (if j % 2 = 0 then lane x w h else lane y w h, 0))

/-- VUNZIP (R238). -/
def execVunzip (t : Ty) (part : Bool) (d : VDst) (a b : VSrc) (m : Fin 16) (s : State) :
    Host.Outcome State Fault Refusal :=
  s.finish do
    let x ← s.readV a
    let y ← s.readV b
    let k ← s.takeK m
    let w := bytesOf t
    s.vresult d 3 w k (laneResults w k fun j => (lane2 x y w (2 * j + if part then 1 else 0), 0))

/-! ### Moves and stream reads (R165, R239, R267, R276) -/

/-- The value STSTAT gives of a stream register (R276). -/
def stStat (r : StreamReg) : Word :=
  BitVec.ofNat 64 ((if r.bound.isSome then 1 else 0) + (if r.bound = some 1 then 2 else 0) + (if r.cut then 4 else 0)
    + r.queue.length % 32 * 2 ^ 8 + r.cause * 2 ^ 16 + r.blocks.toNat * 2 ^ 32)

/-- The marks of a stream queue after its head is popped: those of the head go, the others move up. -/
def popMarks (t : Fin 144) (st : Nat) (marks : List Nat) : List Nat :=
  let base := stKey t st 0 0
  marks.filterMap fun m =>
    if base ≤ m ∧ m < base + 512 then (if m < base + 32 then none else some (m - 32)) else some m

/-- Pop the head of a stream register (R165, R239, R267): a poisoned head raises STREAM_DATA, an empty queue holds the
bundle as an issue stall. -/
def State.popStream (s : State) (n : Fin 8) : Res (VWord × State) :=
  let r := s.tile.eng.sts.get n
  match r.queue with
  | v :: rest =>
    if s.marked (stKey s.cur.tile n.val 0 0) 32 1 then s.parityTrap 3 n.val
    else
      let s := s.modEng fun e => { e with sts := upd e.sts n { r with queue := rest } }
      .ok (v, { s with marks := popMarks s.cur.tile n.val s.marks })
  | [] =>
    if r.bound.isNone || r.cut then s.raise .streamData (BitVec.ofNat 64 n.val) (stStat r) else .error (.hold 5 s)

/-- VMOV from a register or a stream register (R239). -/
def execVmov (t : Ty) (d : VDst) (a : VSrc ⊕ Fin 8) (m : Fin 16) (s : State) : Host.Outcome State Fault Refusal :=
  s.finish do
    let (x, s') ← match a with
      | .inl v => do let x ← s.readV v; Except.ok (x, s)
      | .inr n => s.popStream n
    let k ← s.takeK m
    s'.vresult d 2 (bytesOf t) k (x, 0)

/-- VMOV of an immediate (R239, R57). -/
def execVmovVI (t : Ty) (d : VDst) (i : BitVec 16) (m : Fin 16) (s : State) : Host.Outcome State Fault Refusal :=
  s.finish do
    let k ← s.takeK m
    let w := bytesOf t
    let v := viImm t i
    s.vresult d 2 w k ((laneResults w k fun _ => (v.1, 0)).1, v.2)

/-- VINS (R239): one lane, when it is active. -/
def execVins (t : Ty) (d : VDst) (a b : XSrc) (m : Fin 16) (s : State) : Host.Outcome State Fault Refusal :=
  s.finish do
    let x ← s.readX a
    let n ← s.readX b
    let k ← s.takeK m
    let w := bytesOf t
    let l := n.toNat % (256 / w)
    let on : KWord := laneMask w fun j => j == l && active k w j
    s.writeV d 2 (ofLanes w ((List.range (256 / w)).map fun _ => x.toNat % 2 ^ t.width)) on

/-- VEXT (R239). -/
def execVext (t : Ty) (d : XDst) (a : VSrc) (b : XSrc) (s : State) : Host.Outcome State Fault Refusal :=
  s.finish do
    let x ← s.readV a
    let n ← s.readX b
    let w := bytesOf t
    s.writeX d 2 (convertedWord t (lane x w (n.toNat % (256 / w))))

/-- VRNG (R240). -/
def execVrng (t : Ty) (d : VDst) (a b : XSrc) (m : Fin 16) (s : State) : Host.Outcome State Fault Refusal :=
  s.finish do
    let key ← s.readX a
    let ctr ← s.readX b
    let k ← s.takeK m
    let w := bytesOf t
    s.vresult d 5 w k (laneResults w k fun j =>
      let g := (gen key (ctr + BitVec.ofNat 64 j)).toNat
      match t with
      | .int .n64 => (g, 0)
      | .int _ => (g / 2 ^ 32, 0)
      | _ => ((FTy.f32.fmt.round .rne (.dyadic (g / 2 ^ 40) (-24))).1, 0))

/-! ### Mask forms (R241) -/

/-- Two mask sources. -/
def State.mask2 (s : State) (d : KDst) (a b : KSrc) (f : KWord → KWord → KWord) : Res State := do
  let x ← s.readK a
  let y ← s.readK b
  s.writeK d 1 (f x y) (BitVec.allOnes 256)

/-- KAND (R241). -/
def execKand (d : KDst) (a b : KSrc) (s : State) : Host.Outcome State Fault Refusal := s.finish (s.mask2 d a b (· &&& ·))

/-- KOR (R241). -/
def execKor (d : KDst) (a b : KSrc) (s : State) : Host.Outcome State Fault Refusal := s.finish (s.mask2 d a b (· ||| ·))

/-- KXOR (R241). -/
def execKxor (d : KDst) (a b : KSrc) (s : State) : Host.Outcome State Fault Refusal := s.finish (s.mask2 d a b (· ^^^ ·))

/-- KNOT (R241). -/
def execKnot (d : KDst) (a : KSrc) (s : State) : Host.Outcome State Fault Refusal :=
  s.finish do s.writeK d 1 (~~~(← s.readK a)) (BitVec.allOnes 256)

/-- KPOP (R241): governing bits only. -/
def execKpop (t : Ty) (d : XDst) (a : KSrc) (s : State) : Host.Outcome State Fault Refusal :=
  s.finish do
    let x ← s.readK a
    let w := bytesOf t
    s.writeX d 1 (BitVec.ofNat 64 ((List.range (256 / w)).filter fun j => active x w j).length)

/-- KMOV (R241). -/
def execKmov (d : KDst) (a : KSrc) (s : State) : Host.Outcome State Fault Refusal :=
  s.finish do s.writeK d 1 (← s.readK a) (BitVec.allOnes 256)

end Sys2Proof.Machine
end

