-- ==== Sys2Proof/Machine/LoadStore.lean ====
section
/-! DEFINITION. The LS slot: loads, stores, strided and gathered vectors, decoding loads and encoding stores, full/empty
tags, FEQ and LATOM (chapter 12: R243 to R254). -/

namespace Sys2Proof.Machine

namespace State

/-! ### Order with earlier accesses of the stream (R244, R356, R357) -/

/-- May an LS access of stream `sid` be performed now? Under R357, its kind ranking as release-consistent, an earlier
access of the stream comes first when it is strongly ordered or an acquire, or this one is a release, or both are either. -/
def lsInOrder (s : State) (sid : Fin 16) (acq rel : Bool) : Bool :=
  s.net.accs.all fun a =>
    a.tile != s.cur.tile || a.sid != sid || a.performed || !(a.kind == 0 || a.acq || rel || (a.rel && acq))

/-- The bundle is held until R357 lets the access be performed. -/
def lsOrder (s : State) (sid : Fin 16) (acq rel : Bool) : Res Unit :=
  if s.lsInOrder sid acq rel then .ok () else .error (.hold 0 s)

/-! ### Rows (R243) -/

end State

/-- A row put in its place among rows in ascending order, once. -/
def insertRow (r : Nat) (l : List Nat) : List Nat := l.takeWhile (fun x => decide (x < r)) ++ r :: l.dropWhile fun x => decide (x ≤ r)

/-- The 256-byte rows that the bytes [o, o + n) touch. -/
def rowsOf (o n : Nat) : List Nat := (List.range ((o + n - 1) / 256 + 1 - o / 256)).map (· + o / 256)

/-- The rows of the bank of row `r` (128 rows a bank), of rows in ascending order without repeats. -/
def sameBank (rows : List Nat) (r : Nat) : List Nat := rows.filter fun x => x / 128 == r / 128

/-- The port cycles of such a set of rows: the most rows of one bank (R243). -/
def portCycles (rows : List Nat) : Nat := rows.foldl (fun m r => max m (sameBank rows r).length) 0

/-- The port cycle in which a row is taken: ascending in its bank, the last of each bank in the commit cycle (R243). -/
def rowCycle (rows : List Nat) (r : Nat) : Nat :=
  portCycles rows - (sameBank rows r).length + ((sameBank rows r).takeWhile fun x => decide (x < r)).length

namespace State

/-- Write bytes of the own scratchpad from the LS slot: lanes, elements, scales, each as address, bytes and value (R246).
Together they clear the failing parity of the words that they replace whole (R436). -/
def putSpad (s : State) (l : List (Nat × Nat × Nat)) : State :=
  (l.foldl (fun s e => (s.settleSpad e.1 e.2.1).writeSpad e.1 e.2.1 e.2.2) s).clearCovered 4
    (l.map fun e => (s.spad e.1, e.2.1))

/-- A row of the own scratchpad read in a port cycle before the commit cycle (R243, R244). -/
def catchRow (s : State) (r : Nat) : State :=
  let s := s.settleSpad (256 * r) 256
  let bad := ((List.range 64).map fun k => if s.marked (s.spad (256 * r + 4 * k)) 4 4 then 2 ^ k else 0).sum
  s.modStrm fun st => { st with rowGot := ⟨r, s.load (s.spad (256 * r)) 256, bad, none⟩ :: st.rowGot }

/-- Has a row been taken already? -/
def rowTaken (s : State) (r : Nat) : Bool := s.strm.rowGot.any fun x => x.row == r

/-- A row of the own scratchpad written in a port cycle before the commit cycle, with the parts of the store as its sources
stand in this cycle (R243, R244). -/
def leaveRow (l : List (Nat × Nat × Nat)) (s : State) (r : Nat) : State :=
  let s1 := s.catchRow r
  let s2 := s1.putSpad (l.filter fun e => e.1 / 256 == r)
  s2.modStrm fun st => { st with rowGot := match st.rowGot with
    | x :: rest => { x with put := some (s2.load (s2.spad (256 * r)) 256) } :: rest
    | [] => [] }

/-- A store commits: its rows of this cycle are written, and those of earlier port cycles hold what the sources of the commit
cycle make of them (R153, R218, R243, R244, R248; log 19). -/
def putRows (s : State) (l : List (Nat × Nat × Nat)) : State :=
  if s.strm.rowGot = [] then s.putSpad l
  else (s.strm.rowGot.foldl (fixRow s.cur.tile l) s).putSpad (l.filter fun e => !s.rowTaken (e.1 / 256))

/-- One port cycle of an LS access of several rows, which stores `l` or loads: the rows of this cycle are performed. -/
def portCycle (s : State) (rows : List Nat) (l : Option (List (Nat × Nat × Nat))) : State :=
  let now := rows.filter fun r => rowCycle rows r == s.strm.rows && !s.rowTaken r
  let s := match l with
    | none => now.foldl catchRow s
    | some l => now.foldl (leaveRow l) s
  s.modStrm fun st => { st with rows := st.rows + 1 }

/-- Each row of a bank beyond the first costs the stream one bank-conflict cycle before the bundle commits: the rows are
taken in consecutive port cycles, the last in the commit cycle (R243, R244). While the bundle waits longer for something
else, they are left for the cycles just before its commit; a store's rows are corrected in the commit cycle to what its
sources are then, and undone when the bundle traps (log 19). -/
def takeRows (s : State) (touched : List Nat) (l : Option (List (Nat × Nat × Nat))) : Res Unit :=
  let rows := touched.foldr insertRow []
  if s.strm.rows + 1 < portCycles rows then
    .error (.hold 9 (if s.cur.lag < portCycles rows - s.strm.rows then s.portCycle rows l else s))
  else .ok ()

/-- Bytes of the own scratchpad that an access of several rows reads, from the rows taken and from those of the commit cycle,
with their parity check (R205, R243). -/
def readRows (s : State) (o n : Nat) : Res Nat :=
  if s.strm.rowGot = [] then s.readSpad o n
  else do
    let vs ← (rowsOf o n).mapM fun r => do
      let lo := max o (256 * r)
      let hi := min (o + n) (256 * (r + 1))
      match s.strm.rowGot.find? fun x => x.row == r with
      | some x =>
        if (List.range 64).any fun k => x.bad.testBit k && decide (lo < 256 * r + 4 * k + 4) && decide (256 * r + 4 * k < hi) then
          s.spadTrap o
        else return x.bytes / 2 ^ (8 * (lo - 256 * r)) % 2 ^ (8 * (hi - lo)) * 2 ^ (8 * (lo - o))
      | none => return (← s.readSpad lo (hi - lo)) * 2 ^ (8 * (lo - o))
    return vs.sum

/-! ### Tags (R249, R250) -/

/-- The tag of a word as it stood at the start of the cycle: full? (R250). -/
def tagFull (s : State) (w : Nat) : Bool := s.tile.tags.contains w

/-- A tag written; the change is seen from the next cycle (R250). -/
def setTag (s : State) (w : Nat) (full : Bool) : State :=
  (s.clearMarks (tagBase + s.cur.tile.val * 2 ^ 17 + w) 1 1).modTile s.cur.tile fun t =>
    { t with tagPend := t.tagPend ++ [(w, full)] }

/-- Does the parity of a tag fail (R205)? -/
def tagMarked (s : State) (w n : Nat) : Bool := s.marked (tagBase + s.cur.tile.val * 2 ^ 17 + w) n 1

end State

/-- The changes of a cycle applied to a tile's tags, in order; the list of full words stays without repeats. -/
def applyTags (tags : List Nat) (l : List (Nat × Bool)) : List Nat :=
  l.foldl (fun ts e => if e.2 then (if ts.contains e.1 then ts else e.1 :: ts) else ts.filter (· != e.1)) tags

/-! ### Plain loads and stores (R246) -/

/-- VLD (R246). -/
def execVld (d : VDst) (m : MemF) (o : OrdF) (s : State) : Host.Outcome State Fault Refusal :=
  s.finish do
    let a ← s.lsAddr m 256 256 2
    s.lsOrder m.sid o.acq o.rel
    let s := s.settleSpad a 256
    let v ← s.readSpad a 256
    s.writeV d 6 (BitVec.ofNat 2048 v) (BitVec.allOnes 256)

/-- VST (R246). -/
def execVst (v : VSrc) (m : MemF) (o : OrdF) (s : State) : Host.Outcome State Fault Refusal :=
  s.finish do
    let a ← s.lsAddr m 256 256 3
    let x ← s.readV v
    s.lsOrder m.sid o.acq o.rel
    return (s.settleSpad a 256).writeSpad a 256 x.toNat

/-- XLD (R246, R169). -/
def execXld (t : ITy) (d : XDst) (m : MemF) (o : OrdF) (s : State) : Host.Outcome State Fault Refusal :=
  s.finish do
    let a ← s.lsAddr m (t.width / 8) (t.width / 8) 2
    s.lsOrder m.sid o.acq o.rel
    let s := s.settleSpad a (t.width / 8)
    let v ← s.readSpad a (t.width / 8)
    s.writeX d 4 (t.extW v)

/-- XST (R246); the code `w` gives 2^w bytes. -/
def execXst (w : Fin 4) (v : XSrc) (m : MemF) (o : OrdF) (s : State) : Host.Outcome State Fault Refusal :=
  s.finish do
    let n := 2 ^ w.val
    let a ← s.lsAddr m n n 3
    let x ← s.readX v
    s.lsOrder m.sid o.acq o.rel
    return (s.settleSpad a n).writeSpad a n x.toNat

/-! ### Strided, gathered and scattered vectors (R247) -/

namespace State

/-- The addresses of the active lanes, lane by lane, with the checks of R245 for each (R247). -/
def laneAddrs (s : State) (p : Word) (w access : Nat) (k : KWord) (e : Nat → Int) : Res (List (Nat × Nat)) :=
  ((List.range (256 / w)).filter fun j => active k w j).mapM fun j => do
    return (j, ← s.checkAccess [1] p (e j) w w access)

/-- The effective offset of a lane of a strided access (R247). -/
def strideAt (p stride : Word) (j : Nat) : Int := (offsetOf p : Int) + (j : Int) * stride.toInt

/-- The effective offset of a lane of a gather or scatter (R247). -/
def indexAt (p : Word) (w : Nat) (v : VWord) (j : Nat) : Int := (offsetOf p : Int) + (w : Int) * (lane v w j : Int)

/-- The load of VLDS and VGTH from its lanes' addresses (R247). -/
def loadLanes (s : State) (d : VDst) (w : Nat) (k : KWord) (sid : Fin 16) (l : List (Nat × Nat)) : Res State := do
  s.lsOrder sid false false
  s.takeRows (l.flatMap fun p => rowsOf p.2 w) none
  let s := l.foldl (fun s p => s.settleSpad p.2 w) s
  let vs ← l.mapM fun p => do return (p.1, ← s.readRows p.2 w)
  let lanes := (List.range (256 / w)).map fun j => ((vs.find? fun p => p.1 == j).map (·.2)).getD 0
  s.writeV d 6 (ofLanes w lanes) (activeMask k w)

/-- The store of VSTS and VSCT: lanes in increasing order, so that the higher lane's bytes remain (R247). -/
def storeLanes (s : State) (v : VWord) (w : Nat) (sid : Fin 16) (l : List (Nat × Nat)) : Res State := do
  s.lsOrder sid false false
  let parts := l.map fun p => (p.2, w, lane v w p.1)
  s.takeRows (l.flatMap fun p => rowsOf p.2 w) (some parts)
  return s.putRows parts

end State

/-- VLDS (R247). -/
def execVlds (t : Ty) (d : VDst) (a b : XSrc) (sid : Fin 16) (m : Fin 16) (s : State) :
    Host.Outcome State Fault Refusal :=
  s.finish do
    let p ← s.readX a
    let st ← s.readX b
    let k ← s.takeK m
    s.loadLanes d (bytesOf t) k sid (← s.laneAddrs p (bytesOf t) 2 k (State.strideAt p st))

/-- VGTH (R247). -/
def execVgth (t : Ty) (d : VDst) (a : XSrc) (b : VSrc) (sid : Fin 16) (m : Fin 16) (s : State) :
    Host.Outcome State Fault Refusal :=
  s.finish do
    let p ← s.readX a
    let ix ← s.readV b
    let k ← s.takeK m
    s.loadLanes d (bytesOf t) k sid (← s.laneAddrs p (bytesOf t) 2 k (State.indexAt p (bytesOf t) ix))

/-- VSTS (R247). -/
def execVsts (t : Ty) (v : VSrc) (a b : XSrc) (sid : Fin 16) (m : Fin 16) (s : State) :
    Host.Outcome State Fault Refusal :=
  s.finish do
    let x ← s.readV v
    let p ← s.readX a
    let st ← s.readX b
    let k ← s.takeK m
    s.storeLanes x (bytesOf t) sid (← s.laneAddrs p (bytesOf t) 3 k (State.strideAt p st))

/-- VSCT (R247). -/
def execVsct (t : Ty) (v : VSrc) (a : XSrc) (b : VSrc) (sid : Fin 16) (m : Fin 16) (s : State) :
    Host.Outcome State Fault Refusal :=
  s.finish do
    let x ← s.readV v
    let p ← s.readX a
    let ix ← s.readV b
    let k ← s.takeK m
    s.storeLanes x (bytesOf t) sid (← s.laneAddrs p (bytesOf t) 3 k (State.indexAt p (bytesOf t) ix))

/-! ### Decoding loads and encoding stores (R248) -/

/-- The scale bytes of the two blocks that 64 one-byte elements at an offset touch (R216, R248). -/
def scaleAt (o : Nat) : Nat := o / 2 ^ 15 * 2 ^ 15 + 0x7C00 + o % 2 ^ 15 / 32

/-- The rows of 64 elements of `w` bytes, with the scale row of a scaled bank (R243). -/
def bankRows (o w : Nat) (scaled : Bool) : List Nat :=
  rowsOf o (64 * w) ++ if scaled then rowsOf (scaleAt o) 2 else []

namespace State

/-- The address of VLDD or VSTE and the element type of its bank, with the checks of R245, then those of R248. -/
def bankAddr (s : State) (m : MemF) (access : Nat) : Res (Nat × Word × Ty) := do
  let p ← s.readX m.base
  let o := formOffset p m.off 32
  let i := (o / 2 ^ 15).toNat % 16
  let b := s.tile.sys.bfmt.get (Fin.ofNat 16 i)
  let size := match bankTy b with
    | some t => 64 * bytesOf t
    | none => 64
  let a ← s.checkAccess [1] p o size 32 access
  match bankTy b with
  | none => s.raise .bankFormat (BitVec.ofNat 64 i) 0 (withOffset p a) access
  | some t =>
    if 2 ^ 15 < a % 2 ^ 15 + size ∨ (bankScaled b ∧ 0x7C00 < a % 2 ^ 15 + size) then
      s.raise .bankFormat (BitVec.ofNat 64 i) 0 (withOffset p a) access
    else return (a, b, t)

end State

/-- VLDD (R248). -/
def execVldd (d : VDst) (m : MemF) (o : OrdF) (s : State) : Host.Outcome State Fault Refusal :=
  s.finish do
    let (a, b, t) ← s.bankAddr m 2
    let w := bytesOf t
    s.lsOrder m.sid o.acq o.rel
    s.takeRows (bankRows a w (bankScaled b)) none
    let s := (s.settleSpad a (64 * w)).settleSpad (scaleAt a) 2
    let bits ← s.readRows a (64 * w)
    let sc ← if bankScaled b then s.readRows (scaleAt a) 2 else pure 0
    let rs := (List.range 64).map fun j =>
      roundTo (.flt .f32) fINV .rne
        (decodeBank t (bankScaled b) (sc / 2 ^ (8 * (j / 32)) % 256) (bits / 2 ^ (8 * w * j) % 2 ^ (8 * w)))
    let s ← s.writeV d 7 (ofLanes 4 (rs.map (·.1))) (BitVec.allOnes 256)
    return s.flag 7 (rs.foldl (fun f r => f ||| r.2) 0)

/-- The scales that VSTE chooses for the two blocks of a scaled bank (R219, R248). -/
def vsteScales (b : Word) (t : Ty) (vs : List Val) : List (Option Nat) :=
  if bankScaled b then [some (scaleSearch t (vs.take 32)), some (scaleSearch t (vs.drop 32))] else [none, none]

/-- VSTE (R248). Its flags count as a result of latency 4, which no register takes (R223). -/
def execVste (v : VSrc) (m : MemF) (o : OrdF) (s : State) : Host.Outcome State Fault Refusal :=
  s.finish do
    let (a, b, t) ← s.bankAddr m 3
    let x ← s.readV v
    let w := bytesOf t
    s.lsOrder m.sid o.acq o.rel
    let vs := (List.range 64).map fun j => f32v (lane x 4 j)
    let sc := vsteScales b t vs
    let rs := (vs.zip (List.range 64)).map fun p =>
      encodeBank b t (a / 2 ^ 15) (a % 2 ^ 15 + w * p.2) (sc.getD (p.2 / 32) none) p.1
    let parts := (rs.zip (List.range 64)).map (fun p => (a + w * p.2, w, p.1.1))
      ++ (sc.zip [0, 1]).filterMap fun p => p.1.map fun c => (scaleAt a + p.2, 1, c)
    s.takeRows (bankRows a w (bankScaled b)) (some parts)
    return ((s.putRows parts).flag 4 (rs.foldl (fun f r => f ||| r.2) 0)).schedule .none (.x 0) 0 4 false

/-! ### LDF, STE and FEW (R251) -/

namespace State

/-- The address of a waiting form, read in its issue cycle and kept. -/
def tagAddr (s : State) (m : MemF) (access : Nat) : Res Nat := do
  return (← s.kept 0 (do return BitVec.ofNat 64 (← s.lsAddr m 4 4 access))).toNat

/-- Is the wait of the stream in hand decided already? -/
def decided (s : State) : Bool := (s.strm.wait.bind (·.dec)).isSome

/-- The wait of LDF and FEW: the word at `a`, once its tag is full; LDF empties the tag in the deciding cycle. A word or
tag that fails parity raises DATA_ERROR there (R386). -/
def tagLoad (s : State) (i : Instr) (d : XDst) (m : MemF) (w : WaitF) (empty : Bool) : Res State := do
  let dst ← s.destX d
  let a ← s.tagAddr m 2
  let ready := s.tagFull (a / 4) && s.lsInOrder m.sid true false
  let s := if !s.decided && ready then s.settleSpad a 4 else s
  let v ← if !s.decided && ready then
      (if s.tagMarked (a / 4) 1 then s.spadTrap a else s.readSpad a 4) else pure 0
  let r ← s.waitHere i w [BitVec.ofNat 64 a] fun _ =>
    if ready then
      some { value := some (BitVec.ofNat 64 v), after := if empty then s.setTag (a / 4) false else s }
    else none
  return match r.2.1.code, r.2.2 with
    | 0, some v => r.1.schedule dst (.x v) (BitVec.allOnes 256) 6 true
    | _, _ => r.1

end State

/-- LDF (R251). -/
def execLdf (d : XDst) (m : MemF) (scope : BitVec 2) (w : WaitF) (s : State) : Host.Outcome State Fault Refusal :=
  s.finish (s.tagLoad (.ldf d m scope w) d m w true)

/-- FEW (R251). -/
def execFew (d : XDst) (m : MemF) (scope : BitVec 2) (w : WaitF) (s : State) : Host.Outcome State Fault Refusal :=
  s.finish (s.tagLoad (.few d m scope w) d m w false)

/-- STE (R251): a release, which the earlier accesses of its stream come before (R357); its data are read in the
deciding cycle. -/
def execSte (v : XSrc) (m : MemF) (scope : BitVec 2) (w : WaitF) (s : State) : Host.Outcome State Fault Refusal :=
  s.finish do
    let a ← s.tagAddr m 3
    let ready := !s.tagFull (a / 4) && s.lsInOrder m.sid false true
    let x ← if !s.decided && ready then s.readX v else pure 0
    let r ← s.waitHere (.ste v m scope w) w [BitVec.ofNat 64 a] fun _ =>
      if ready then some { after := ((s.settleSpad a 4).writeSpad a 4 x.toNat).setTag (a / 4) true } else none
    return r.1

/-! ### FEQ and LATOM (R252, R253) -/

/-- The x register whose value FEQ reads from its DATA field, which is laid out as a destination (R252). -/
def State.dataX (s : State) : XDst → Res Word
  | .reg n => s.takeX n
  | .rot n => do s.takeX (← s.inFile 64 (← s.rotate false n.val))
  | .nwb n => s.takeX n

/-- The new tag of word `k` of a row under an FEQ (R252). -/
def feqTag (op : FeqOp) (x : Word) (k : Nat) : Option Bool :=
  match op with
  | .q => none
  | .clr => some false
  | .set => some true
  | .wr => some (x.getLsbD k)

/-- FEQ (R252). -/
def execFeq (op : FeqOp) (d : XDst) (m : MemF) (s : State) : Host.Outcome State Fault Refusal :=
  s.finish do
    let a ← s.lsAddr m 4 4 (if op = .q then 2 else 3)
    let x ← if op = .wr then s.dataX d else pure 0
    s.lsOrder m.sid false false
    let row := a / 256 * 64
    if s.tagMarked row 64 then s.spadTrap a (if op = .q then 2 else 3)
    else
      let mask := ((List.range 64).map fun k => if s.tagFull (row + k) then 2 ^ k else 0).sum
      let s1 := (List.range 64).foldl (fun s k =>
        match feqTag op x k with
        | some f => s.setTag (row + k) f
        | none => s) s
      s1.writeX d 4 (BitVec.ofNat 64 mask)

/-- The second operand of a compare-and-swap: x[DATA + 1] (R82). -/
def State.casX (s : State) (op : AtomOp) (d : Fin 64) : Res Word := if op = .cas then s.takeX (d + 1) else pure 0

/-- LATOM (R253). -/
def execLatom (op : AtomOp) (w64 : Bool) (d : Fin 64) (m : MemF) (o : OrdF) (s : State) :
    Host.Outcome State Fault Refusal :=
  s.finish do
    let t := atomTy w64
    let n := t.width / 8
    let a ← s.lsAddr m n n 4
    let x ← s.takeX d
    let y ← s.casX op d
    s.lsOrder m.sid o.acq o.rel
    let s := s.settleSpad a n
    let old ← s.readSpad a n 4
    let s := match atomNew op t old x.toNat y.toNat with
      | some v => s.writeSpad a n v
      | none => s
    s.writeX (.reg d) 4 (t.extW old)

end Sys2Proof.Machine
end

