-- ==== Sys2Proof/Machine/Global.lean ====
section
/-! DEFINITION. The memory forms of the copy slots: GLD, GST, PREF, LDMETA, STMETA, GATOM, GRED and SCATOM (chapters 16
and 17: R319 to R323, R351). What each does at its home stands in Homes.lean. -/

namespace Sys2Proof.Machine

/-- GLD (R319, R320): the data arrive later (R155). -/
def execGld (t : ITy) (d : XDst) (m : MemF) (o : OrdF) (s : State) : Host.Outcome State Fault Refusal :=
  s.finish do
    let p ← s.readX m.base
    let dst ← s.destX d
    let n := t.width / 8
    s.access (if n = 8 then [0, 2, 3, 5] else [0, 2, 3]) p (State.formOffset p m.off n) n 2 false
      { op := .load t, sid := m.sid, dest := dst, acq := o.acq, rel := o.rel }

/-- GST (R319); the code `w` gives 2^w bytes. -/
def execGst (w : Fin 4) (v : XSrc) (m : MemF) (o : OrdF) (s : State) : Host.Outcome State Fault Refusal :=
  s.finish do
    let p ← s.readX m.base
    let x ← s.readX v
    let n := 2 ^ w.val
    s.access (if n = 8 then [0, 2, 3, 5, 6] else [0, 2, 3, 6]) p (State.formOffset p m.off n) n 3 true
      { op := .store, sid := m.sid, data := x, acq := o.acq, rel := o.rel }

/-- PREF (R319): a translation alone, whose refusal raises no trap. -/
def execPref (base : XSrc) (off : BitVec 14) (s : State) : Host.Outcome State Fault Refusal :=
  s.finish do
    let p ← s.readX base
    let a ← s.checkAccess [0] p (State.formOffset p off 64) 64 64 2
    match s.translate (withOffset p a) a false 2 with
    | .ok l => return s.touch l s.ctxOf
    | .error (.trap _) => return s
    | .error (.hold why s') => .error (.hold why s')

namespace State

/-- LDMETA and STMETA: a line of global memory, whose page must not be of symbol grade (R323). -/
def lineAccess (s : State) (p : Word) (write : Bool) (r : AccReq) : Res State := do
  let a ← s.checkAccess [0] p (offsetOf p) 64 64 6
  let l ← s.translate (withOffset p a) a write 6
  if l.grade = 2 then s.raise .metadata 0 0 (withOffset p a) 6
  else
    s.needEntry
    return (s.touch l s.ctxOf).send 0 l.pa a 64 l.ord l.grade l.at_ r

end State

/-- LDMETA (R323). -/
def execLdmeta (d : XDst) (a : XSrc) (sid : Fin 16) (s : State) : Host.Outcome State Fault Refusal :=
  s.finish do
    let p ← s.readX a
    let dst ← s.destX d
    s.lineAccess p false { op := .ldmeta, sid, dest := dst }

/-- STMETA (R323). -/
def execStmeta (a b : XSrc) (sid : Fin 16) (s : State) : Host.Outcome State Fault Refusal :=
  s.finish do
    let p ← s.readX a
    let x ← s.readX b
    s.lineAccess p true { op := .stmeta, sid, data := x }

/-- GATOM (R321): the old value arrives later (R155). -/
def execGatom (op : AtomOp) (w64 : Bool) (d : Fin 64) (m : MemF) (o : OrdF) (s : State) :
    Host.Outcome State Fault Refusal :=
  s.finish do
    let p ← s.readX m.base
    let x ← s.takeX d
    let y ← s.casX op d
    let n := (atomTy w64).width / 8
    s.access [0, 2, 3] p (State.formOffset p m.off n) n 4 true
      { op := .atom op w64, sid := m.sid, data := x, data2 := y, dest := .x d, acq := o.acq, rel := o.rel }

/-- GRED (R321). -/
def execGred (op : RedOp) (v : XSrc) (m : MemF) (o : OrdF) (s : State) : Host.Outcome State Fault Refusal :=
  s.finish do
    let p ← s.readX m.base
    let x ← s.readX v
    s.access [0, 2, 3, 6] p (State.formOffset p m.off (redBytes op)) (redBytes op) 5 true
      { op := .red op, sid := m.sid, data := x, acq := o.acq, rel := o.rel }

/-! ### SCATOM (R350, R351) -/

/-- Does a wheel register own position `p` (R102)? -/
def ownsPosition (wheel : Word) (p : Nat) : Bool :=
  (wheel.getLsbD 8 && (fld wheel 0 8).toNat == p) || (wheel.getLsbD 24 && (fld wheel 16 8).toNat == p)

namespace State

/-- The revolution and position that are open now (R350). -/
def openStamp (s : State) : Nat × Nat := (s.clk.wheel / 2048, s.clk.wheel % 2048 / 8)

/-- May a SCATOM leave now: an open position of the tile, not yet used, and a free request entry (R350, R351, R203)? -/
def mayLeave (s : State) : Bool :=
  ownsPosition s.tile.sys.wheel s.openStamp.2 && s.tile.wheelSent != some s.openStamp
    && s.entryFree

/-- The operands of a SCATOM, checked and translated at first issue (R351): space, key, virtual address, kind, grade,
leaf. -/
def scatomArgs (s : State) (m : MemF) (n : Nat) : Res (List Word) := do
  let p ← s.readX m.base
  let o ← s.checkAccess [0, 2, 3] p (State.formOffset p m.off n) n n 4
  let f (l : List Nat) : List Word := l.map (BitVec.ofNat 64)
  if spaceOf p = 0 then
    let l ← s.translate (withOffset p o) o true 4
    return f [0, l.pa, o, l.ord, l.grade, l.at_, l.tier, l.level]
  else return f [spaceOf p, spaceKey s.cur.tile (spaceOf p) (rankOf p) o, o, 1, 2, 0, 0, 0]

/-- The SCATOM leaves with its stamp; its home applies it within 600 cycles of the position's close (R350). -/
def leaveAtWheel (s : State) (op : AtomOp) (w64 : Bool) (m : MemF) (args : List Word) (x y : Word) : Nat × State :=
  let n (k : Nat) : Nat := (args.getD k 0).toNat
  let st := s.openStamp
  let id := s.net.nextId
  let l : Leaf := ⟨n 1, n 3, n 4, n 6, n 7, n 5⟩
  let s := if n 0 = 0 then s.touch l s.ctxOf else s
  let s := s.send (n 0) (n 1) (n 2) ((atomTy w64).width / 8) (n 3) (n 4) (n 5)
    { op := .scatom op w64 st.1 st.2, sid := m.sid, data := x, data2 := y, acq := true, rel := true }
  let d := s.draw 1 600
  let close := s.now + (8 - s.clk.wheel % 8)
  let s := { d.2 with net := { d.2.net with
    accs := d.2.net.accs.map fun (a : Access) => if a.id = id then { a with arrive := close + d.1 - 1 } else a } }
  (id, s.modTile s.cur.tile fun t => { t with wheelSent := some st })

end State

/-- SCATOM (R351). Its frame is formed when its translation has been obtained, not in the cycle in which it first asks
for it (DESIGN CHOICE, log 80). -/
def execScatom (op : AtomOp) (w64 : Bool) (d : Fin 64) (m : MemF) (w : WaitF) (s : State) :
    Host.Outcome State Fault Refusal :=
  s.finish do
    if s.strm.wait.isNone && !s.tile.sys.wheel.getLsbD 8 && !s.tile.sys.wheel.getLsbD 24 then s.raise .wheel
    else
      let args ← match s.strm.wait with
        | some wt => pure wt.args
        | none => s.scatomArgs m ((atomTy w64).width / 8)
      let wt := s.pending (.scatom op w64 d m w) w args
      match wt.dec, wt.sent with
      | some dec, _ =>
        if s.cur.blocked then .error (.hold 0 (s.keepWait wt))
        else
          let s ← s.endWait w wt dec
          return match wt.value with
            | some v => s.schedule (.x d) (.x v) (BitVec.allOnes 256) 6 true
            | none => s
      | none, some _ => .error (.hold 0 (s.keepWait wt))
      | none, none =>
        if s.performedTo wt.mark && s.mayLeave then
          let x ← s.takeX d
          let y ← s.casX op d
          let r := s.leaveAtWheel op w64 m args x y
          .error (.hold 0 (r.2.keepWait { wt with sent := some r.1 }))
        else .error (.hold 0 (s.keepWait wt))

end Sys2Proof.Machine
end

