-- ==== Sys2Proof/Machine/Sync.lean ====
section
/-! DEFINITION. The scalar synchronisation forms: barriers, STEP, token queues, token counters and fences (chapter 17:
R333 to R348). What a hub does with a request stands in Hubs.lean. -/

namespace Sys2Proof.Machine

namespace State

/-! ### Sync objects (R100, R333, R334) -/

/-- The offset of a sync-window pointer, with the checks that both kinds of object share (R333). -/
def syncOffset (s : State) (p : Word) : Res Nat :=
  if spaceOf p ≠ 4 ∨ rankOf p ≠ 0 then s.raise .addrSpace 0 0 p
  else if offsetOf p % 64 ≠ 0 then s.raise .syncWindow p
  else .ok (offsetOf p)

/-- The device barrier that a pointer names (R333). -/
def barrierOf (s : State) (p : Word) : Res Nat := do
  let o ← s.syncOffset p
  let win := s.tile.sys.syncwin
  let n := match s.live with | some l => l.image.bars.length | none => 0
  if o / 64 < n ∧ o / 64 < (fld win 32 16).toNat then return (fld win 0 15).toNat + o / 64
  else s.raise .syncWindow p

/-- The device token queue that a pointer names (R333). -/
def queueOf (s : State) (p : Word) : Res Nat := do
  let o ← s.syncOffset p
  let win := s.tile.sys.syncwin
  let n := match s.live with | some l => l.image.tqs.length | none => 0
  let q := (o - 0x200000) / 64
  if 0x200000 ≤ o ∧ o ≤ 0x27FFC0 ∧ q < n ∧ q < (fld win 48 14).toNat then return (fld win 16 13).toNat + q
  else s.raise .syncWindow p

end State

/-- The die whose hub is home to a device barrier (R334). -/
def barrierDie (n : Nat) : Nat := n / 16384
/-- The die whose hub is home to a device token queue (R334). -/
def queueDie (m : Nat) : Nat := m / 4096

namespace State

/-- The object of a waiting form, named in its issue cycle and kept. -/
def keptObj (s : State) (f : Word → Res Nat) (a : XSrc) : Res Nat := do
  return (← s.kept 0 (do return BitVec.ofNat 64 (← f (← s.readX a)))).toNat

/-- An operand of a waiting form, read in its issue cycle and kept (R337). -/
def keptX (s : State) (k : Nat) (b : XSrc) : Res Word := s.kept k (s.readX b)

/-! ### Draining (R342, R348) -/

/-- Is stream `sid` of a tile drained of what it committed before accesses `mark` and cycle `since` (R348)? A SCATOM that has
left commits only with its reply (R163), so that none of those still on their way has committed. -/
def drained (s : State) (t : Fin 144) (mask : Word) (mark since : Nat) (sid : Fin 16) : Bool :=
  (s.net.accs.all fun a => a.tile != t || a.sid != sid || decide (mark ≤ a.seq) || isScatom a)
    && (!mask.getLsbD 16 || (s.tileAt t).eng.cq.toList.all fun q =>
        q.all fun c => c.sid != sid || decide (since ≤ c.entered))
    && (!mask.getLsbD 17 || sid != 0 || (s.tileAt t).eng.mq.all fun c => decide (since ≤ c.entered))

/-- The streams of SMASK that are not drained, as a mask (R348). -/
def undrained (s : State) (t : Fin 144) (mask : Word) (mark since : Nat) : Nat :=
  (((List.finRange 16).filter fun sid => mask.getLsbD sid.val && !s.drained t mask mark since sid).map
    fun sid => 2 ^ sid.val).sum

/-- A drain mask, whose bits [63:18] must be zero (R342, R348). -/
def drainMask (s : State) (k : Nat) (b : XSrc) : Res Word := do
  let m ← s.keptX k b
  if fld m 18 46 ≠ 0 then s.illegal else return m

/-- A request that waits for no reply, or for one that lands in a register (R334). -/
def tell (s : State) (op : HubOp) (obj die : Nat) (dest : WDst) : State := (s.ask op obj die 0 dest).2

end State

/-! ### Barriers (R338 to R341) -/

/-- BARINIT (R338). -/
def execBarinit (a b : XSrc) (s : State) : Host.Outcome State Fault Refusal :=
  s.finish do
    let n ← s.barrierOf (← s.readX a)
    let c ← s.readX b
    if 144 < c.toNat then s.raise .syncWindow c
    else return s.tell (.barinit c.toNat) n (barrierDie n) .none

/-- BARARV (R339): the reply lands later (R334). -/
def execBararv (d : XDst) (a : XSrc) (s : State) : Host.Outcome State Fault Refusal :=
  s.finish do
    let dst ← s.destX d
    let n ← s.barrierOf (← s.readX a)
    return s.tell .bararv n (barrierDie n) dst

/-- BARKILL (R341). -/
def execBarkill (a : XSrc) (s : State) : Host.Outcome State Fault Refusal :=
  s.finish do
    let n ← s.barrierOf (← s.readX a)
    return s.tell .barkill n (barrierDie n) .none

/-- BARWT (R340). -/
def execBarwt (a b : XSrc) (w : WaitF) (s : State) : Host.Outcome State Fault Refusal :=
  s.finish do
    let n ← s.keptObj s.barrierOf a
    let p ← s.keptX 1 b
    let r ← s.waitThere (.barwt a b w) w [BitVec.ofNat 64 n, p] (fun _ => true) (.barwt (fld p 0 32)) n (barrierDie n)
    return r.1

/-- BARSYNC (R340). -/
def execBarsync (a : XSrc) (w : WaitF) (s : State) : Host.Outcome State Fault Refusal :=
  s.finish do
    let n ← s.keptObj s.barrierOf a
    let r ← s.waitThere (.barsync a w) w [BitVec.ofNat 64 n] (fun _ => true) .barsync n (barrierDie n)
    return r.1

/-- STEP (R342): the drain, then the arrival under the same limit. -/
def execStep (a b : XSrc) (w : WaitF) (s : State) : Host.Outcome State Fault Refusal :=
  s.finish do
    let m ← s.drainMask 1 b
    let n ← s.keptObj s.barrierOf a
    let r ← s.waitThere (.step a b w) w [BitVec.ofNat 64 n, m]
      (fun wt => s.undrained s.cur.tile m wt.mark wt.since == 0) .step n (barrierDie n)
    return r.1

/-! ### Token queues (R343) -/

/-- QPUSH (R343): the request leaves once every earlier slot access of the tile is performed. -/
def execQpush (a b : XSrc) (w : WaitF) (s : State) : Host.Outcome State Fault Refusal :=
  s.finish do
    let q ← s.keptObj s.queueOf a
    let v ← s.keptX 1 b
    let r ← s.waitThere (.qpush a b w) w [BitVec.ofNat 64 q, v] (fun wt => s.performedTo wt.mark) (.qpush v) q
      (queueDie q)
    return r.1

/-- QPOP (R343): the data land with the status (R117). -/
def execQpop (d : XDst) (a : XSrc) (w : WaitF) (s : State) : Host.Outcome State Fault Refusal :=
  s.finish do
    let dst ← s.destX d
    let q ← s.keptObj s.queueOf a
    let r ← s.waitThere (.qpop d a w) w [BitVec.ofNat 64 q] (fun _ => true) .qpop q (queueDie q)
    return match r.2.1.code, r.2.2 with
      | 0, some v => r.1.schedule dst (.x v) (BitVec.allOnes 256) 6 true
      | _, _ => r.1

/-! ### Token counters (R344 to R347) -/

/-- One token more; at 65,535 the count stays and SAT is set (R344). -/
def Tk.inc (k : Tk) : Tk := if k.count = BitVec.allOnes 16 then { k with sat := true } else { k with count := k.count + 1 }

/-- The condition of TKWAIT on a count (R347). -/
def tkHolds (c : TkCond) (count n : Nat) : Bool :=
  match c with
  | .ge _ => decide (n ≤ count)
  | .lt => decide (count < n)

/-- The counter after an OK TKWAIT (R347). -/
def tkAfter (c : TkCond) (k : Tk) (n : Nat) : Tk :=
  match c with
  | .ge true => { k with count := k.count - BitVec.ofNat 16 n }
  | _ => k

/-- TKWAIT (R347). -/
def execTkwait (tk : Fin 16) (c : TkCond) (b : XSrc) (w : WaitF) (s : State) : Host.Outcome State Fault Refusal :=
  s.finish do
    let n ← s.keptX 0 b
    let k := s.tile.regs.tk.get tk
    let r ← s.waitHere (.tkwait tk c b w) w [n] fun _ =>
      if tkHolds c k.count.toNat n.toNat then
        some { code := if k.sat then 6 else 0, detail := k.count.toNat
               after := s.modRegs fun r => { r with tk := upd r.tk tk (tkAfter c k n.toNat) } }
      else none
    return r.1

/-- TKRD (R346): the counter at the start of the commit cycle. -/
def execTkrd (d : XDst) (tk : Fin 16) (s : State) : Host.Outcome State Fault Refusal :=
  s.finish do
    let k := s.tile.regs.tk0.get tk
    s.writeX d 2 (BitVec.ofNat 64 (k.count.toNat + if k.sat then 2 ^ 16 else 0))

/-! ### FENCE (R348) -/

/-- FENCE (R348). -/
def execFence (a : XSrc) (w : WaitF) (s : State) : Host.Outcome State Fault Refusal :=
  s.finish do
    let m ← s.drainMask 0 a
    let r ← s.waitHere (.fence a w) w [m] fun wt =>
      if s.undrained s.cur.tile m wt.mark wt.since = 0 then some { after := s } else none
    return r.1

end Sys2Proof.Machine
end

