-- ==== Sys2Proof/Machine/Matrix.lean ====
section
/-! DEFINITION. The matrix engine: operand slots, the command queue, MMA, MZERO, MACLD, MDRAIN and MSTAT, and the events
of its queue (chapter 14: R279 to R300). -/

namespace Sys2Proof.Machine

/-! ### Keys of the engine's memories (R194, R195, R287; log 3) -/

/-- Key of byte 0 of an operand slot. -/
def omKey (t : Fin 144) (n : Nat) : Nat := omBase + t.val * 2 ^ 17 + n * 2 ^ 14
/-- Key of element (0, 0) of an accumulator tile; element (i, j) is at 256·i + 4·j. -/
def accKey (t : Fin 144) (n : Nat) : Nat := accBase + t.val * 2 ^ 18 + n * 25216
/-- Key of col[i] of an accumulator tile. -/
def colKey (t : Fin 144) (n i : Nat) : Nat := accKey t n + 24576 + 4 * i
/-- Key of row[j] of an accumulator tile. -/
def rowKey (t : Fin 144) (n j : Nat) : Nat := accKey t n + 24960 + 4 * j

/-- The digits of `w` bytes of a number, `n` of them, lowest first. -/
def digits (w : Nat) : Nat → Nat → List Nat
  | 0, _ => []
  | n + 1, v => v % 2 ^ (8 * w) :: digits w n (v / 2 ^ (8 * w))

namespace State

/-- Row `i` of an accumulator tile, 64 f32 patterns. -/
def accRow (s : State) (t : Fin 144) (n i : Nat) : List Nat := digits 4 64 (s.load (accKey t n + 256 * i) 256)

/-- One row of an accumulator tile written, and both checksums changed by the differences (R287). -/
def setAccRow (s : State) (t : Fin 144) (n i : Nat) (new : List Nat) : State :=
  let ds := (new.zip (s.accRow t n i)).map fun p => (p.1 + 2 ^ 32 - p.2) % 2 ^ 32
  let s := s.store (accKey t n + 256 * i) 256 4 (packLanes 4 new)
  let s := s.store (colKey t n i) 4 4 (s.load (colKey t n i) 4 + ds.sum)
  s.store (rowKey t n 0) 256 4
    (packLanes 4 (((digits 4 64 (s.load (rowKey t n 0) 256)).zip ds).map fun p => p.1 + p.2))

/-- An accumulator tile written whole, from its rows. -/
def setAcc (s : State) (t : Fin 144) (n : Nat) (rows : List (List Nat)) : State :=
  (rows.zip (List.range 96)).foldl (fun s p => s.setAccRow t n p.2 p.1) s

/-- POISON, STEP and COUNT of an accumulator tile. -/
def setAccSt (s : State) (t : Fin 144) (n : Fin 10) (a : AccSt) : State :=
  s.modTile t fun tl => { tl with eng := { tl.eng with acc := upd tl.eng.acc n a } }

/-- R294: every element and checksum zero, POISON, STEP and COUNT clear. -/
def zeroAcc (s : State) (t : Fin 144) (n : Fin 10) : State :=
  (s.store (accKey t n.val) 25216 4 0).setAccSt t n ⟨false, 0, 0⟩

/-- The verification of R287: the first row whose col and the first column whose row do not match; 255 for none. -/
def verify (s : State) (t : Fin 144) (n : Nat) : Nat × Nat :=
  let rows := (List.range 96).map fun i => s.accRow t n i
  let badRow := (List.range 96).find? fun i =>
    (rows.getD i []).sum % 2 ^ 32 != s.load (colKey t n i) 4
  let sums := rows.foldl (fun acc r => (acc.zip r).map fun p => p.1 + p.2) (List.replicate 64 0)
  let badCol := (List.range 64).find? fun j => sums.getD j 0 % 2 ^ 32 != s.load (rowKey t n j) 4
  (badRow.getD 255, badCol.getD 255)

/-! ### Token counters of a tile (R344, R345) -/

/-- Change the token counters of a tile. -/
def modTk (s : State) (t : Fin 144) (k : Fin 16) (f : Tk → Tk) : State :=
  s.modTile t fun tl => { tl with regs := { tl.regs with tk := upd tl.regs.tk k (f (tl.regs.tk.get k)) } }

/-- A retirement adds one to the PROD counter (R344). -/
def produce (s : State) (t : Fin 144) (k : Fin 16) : State := s.modTk t k Tk.inc

end State

/-- The counters that a command consumes; 0xF is none (R53, R284). -/
def consumed (k : TokF) : List (Fin 16) := [k.cons0, k.cons1, k.cons2].filter (· != 15)

namespace State

/-- Does each consumed counter hold the number of times the command names it (R256, R282)? -/
def tokensOk (s : State) (t : Fin 144) (k : TokF) : Bool :=
  (consumed k).all fun c => decide ((consumed k).count c ≤ ((s.tileAt t).regs.tk.get c).count.toNat)

/-- The start of a command takes its tokens (R256, R282). -/
def consume (s : State) (t : Fin 144) (k : TokF) : State :=
  (consumed k).foldl (fun s c => s.modTk t c fun x => { x with count := x.count - 1 }) s

/-- Flags of engine work enter sticky in this cycle (R222). -/
def engineFlags (s : State) (t : Fin 144) (f : Flags) : State :=
  if f = 0 then s
  else s.modTile t fun tl => { tl with regs := { tl.regs with pendF := (s.now, f) :: tl.regs.pendF } }

/-- An ENGINE entry (R265, R385): cause, queue, position, chunk, address, level. -/
def engineFault (s : State) (t : Fin 144) (slot : Fin 8) (pc queue pos chunk cause : Nat) (addr : Word) (level : Nat)
    (token : Word) : State :=
  s.detect t 0 pc
    { kind := .engine, slot, cause, level, access := 7, addr
      info0 := BitVec.ofNat 64 (queue + pos * 2 ^ 16), info1 := BitVec.ofNat 64 chunk } token

/-! ### The queue (R281, R282) -/

/-- Replace the matrix queue of a tile. -/
def setMq (s : State) (t : Fin 144) (q : List MxCmd) : State :=
  s.modTile t fun tl => { tl with eng := { tl.eng with mq := q } }

/-- A command enters the matrix queue of a tile at this cycle. -/
def pushMx (s : State) (t : Fin 144) (slot : Fin 8) (pc : Nat) (op : MxOp) (tok : TokF) : State :=
  s.modTile t fun tl => { tl with eng := { tl.eng with
    mq := tl.eng.mq ++ [⟨op, slot, pc, tl.eng.mqPos, s.now, tok, none⟩], mqPos := tl.eng.mqPos + 1 } }

/-- A queued form takes its entry, or its bundle waits at issue (R281). -/
def enqueueMx (s : State) (op : MxOp) (tok : TokF) : Res State :=
  if s.tile.eng.mq.length < 16 then return s.pushMx s.cur.tile s.cur.slot s.cur.pc op tok else s.stall 3

end State

/-- The slots of a mask. -/
def slotsIn (mask : BitVec 8) : List (Fin 8) := (List.finRange 8).filter fun i => mask.getLsbD i.val

/-- The slots that a command reads, and those that it writes (R282). -/
def MxOp.oms : MxOp → List (Fin 8) × List (Fin 8)
  | .omrel m => ([], slotsIn m)
  | .omld n _ => ([], [n])
  | .mma _ _ _ a b _ _ => ([a, b], [])
  | .mzero _ | .macld _ _ | .mdrain _ _ => ([], [])

/-- The tile that a command reads or writes; every one of them counts as its writer (R282). -/
def MxOp.acc : MxOp → Option (Fin 10)
  | .mma _ _ n _ _ _ _ | .mzero n | .macld n _ | .mdrain n _ => some n
  | .omrel _ | .omld _ _ => none

/-- The array phase of an MMA (R283). -/
def mmaPhase (ta : Ty) : Nat := if ta.width = 8 then 32 else 64

/-- The unit of a command and the cycles for which it is busy (R282, R283): 0 array, 1 loader, 2 drain unit. -/
def MxOp.busy (op : MxOp) (desc : List Word) : Option (Nat × Nat) :=
  match op with
  | .mma ta _ _ _ _ _ _ => some (0, mmaPhase ta)
  | .mzero _ => some (0, 24)
  | .omld _ _ => some (1, 64)
  | .macld _ _ => some (2, 96)
  | .mdrain _ _ => some (2, 16 + (fld (desc.getD 2 0) 0 7).toNat)
  | .omrel _ => none

/-- Cycles from the start of a command to its retirement (R283). -/
def MxOp.time (op : MxOp) (desc : List Word) : Nat :=
  match op with
  | .mma ta _ _ _ _ _ _ => mmaPhase ta + 8
  | .mzero _ => 24
  | .omld _ _ => 68
  | .macld _ _ => 100
  | .mdrain _ _ => 16 + (fld (desc.getD 2 0) 0 7).toNat
  | .omrel _ => 1

/-- Does a command read the scratchpad (R282)? -/
def MxOp.readsSpad : MxOp → Bool
  | .omld _ _ | .macld _ _ | .mdrain _ _ => true
  | _ => false

/-- Is a command an MDRAIN? -/
def MxOp.isDrain : MxOp → Bool
  | .mdrain _ _ => true
  | _ => false

/-- Must command `c` wait for the retirement of the earlier command `e` (R282)? The array phase of an earlier MMA into
the same tile suffices for an MMA. -/
def mustWait (now : Nat) (e c : MxCmd) : Bool :=
  let chained := match e.op, c.op with
    | .mma ta _ m _ _ _ _, .mma _ _ n _ _ _ _ =>
      m == n && match e.run with | some r => decide (r.start + mmaPhase ta ≤ now) | none => false
    | _, _ => false
  let tiles := match e.op.acc, c.op.acc with
    | some m, some n => m == n && !chained
    | _, _ => false
  let (er, ew) := e.op.oms
  let (cr, cw) := c.op.oms
  tiles || (ew.any fun o => cr.contains o || cw.contains o) || (er.any fun o => cw.contains o)
    || (c.op.readsSpad && e.op.isDrain)

/-- Does a started command hold the unit that `c` needs (R282)? -/
def unitTaken (now : Nat) (e c : MxCmd) : Bool :=
  match e.run, c.op.busy [] with
  | some r, some (u, _) =>
    match e.op.busy r.desc with
    | some (v, n) => u == v && decide (now < r.start + n)
    | none => false
  | _, _ => false

namespace State

/-- The first command of the matrix queue that has not started, when R282 lets it start now: its index and itself. A
stop request keeps commands from starting (R286). -/
def mxReady (s : State) (t : Fin 144) : Option (Nat × MxCmd) :=
  let q := (s.tileAt t).eng.mq
  let i := (q.takeWhile fun c => c.run.isSome).length
  match q[i]? with
  | none => none
  | some c =>
    if !(s.tileAt t).sys.stop && decide (c.entered + 2 ≤ s.now) && s.tokensOk t c.tok
        && (q.take i).all (fun e => !mustWait s.now e c && !unitTaken s.now e c) then some (i, c)
    else none

end State

/-! ### OMCLAIM, OMREL, OMLD, MMA, MZERO, MACLD -/

/-- Slots of a list as a mask. -/
def maskOf (l : List (Fin 8)) : Word := BitVec.ofNat 64 (l.map fun i => 2 ^ i.val).sum

namespace State

/-- The named slots in a state, or not in it. -/
def omIn (s : State) (l : List (Fin 8)) (st : OmSt) (yes : Bool) : List (Fin 8) :=
  l.filter fun i => (s.tile.eng.om.get i == st) == yes

/-- Set the state of slots of a tile. -/
def setOm (s : State) (t : Fin 144) (l : List (Fin 8)) (st : OmSt) : State :=
  s.modTile t fun tl => { tl with eng := { tl.eng with om := l.foldl (fun v i => upd v i st) tl.eng.om } }

/-- OPERAND_SLOT unless every named slot is Claimed (R290 to R293). -/
def needClaimed (s : State) (l : List (Fin 8)) : Res Unit :=
  if s.omIn l .claimed false = [] then .ok () else s.raise .operandSlot (maskOf l) (maskOf (s.omIn l .claimed false))

/-- A scratchpad pointer of the MX slot or of STBIND, 64-byte aligned (R274, R292, R295, R296). -/
def mxPointer (s : State) (p : Word) (size : Nat) : Res Nat := s.checkAccess [1] p (offsetOf p) size 64 2

end State

/-- OMCLAIM (R290). -/
def execOmclaim (mask : BitVec 8) (w : WaitF) (s : State) : Host.Outcome State Fault Refusal :=
  s.finish do
    let l := slotsIn mask
    if s.strm.wait.isNone && s.omIn l .claimed true != [] then
      s.raise .operandSlot (maskOf l) (maskOf (s.omIn l .claimed true))
    else
      let r ← s.waitHere (.omclaim mask w) w [] fun _ =>
        if s.omIn l .free false = [] then some { after := s.setOm s.cur.tile l .claimed } else none
      return r.1

/-- OMREL (R291). -/
def execOmrel (mask : BitVec 8) (tok : TokF) (s : State) : Host.Outcome State Fault Refusal :=
  s.finish do
    s.needClaimed (slotsIn mask)
    return (← s.enqueueMx (.omrel mask) tok).setOm s.cur.tile (slotsIn mask) .releasing

/-- OMLD (R292). -/
def execOmld (om : Fin 8) (c : XSrc) (tok : TokF) (s : State) : Host.Outcome State Fault Refusal :=
  s.finish do
    let p ← s.readX c
    let _ ← s.mxPointer p 16384
    s.needClaimed [om]
    s.enqueueMx (.omld om p) tok

/-- MMA (R293). -/
def execMma (ta tb : Ty) (acc : Fin 10) (oma omb : Fin 8) (sa sb : Bool) (tok : TokF) (s : State) :
    Host.Outcome State Fault Refusal :=
  s.finish do
    s.needClaimed (slotsIn (BitVec.twoPow 8 oma.val ||| BitVec.twoPow 8 omb.val))
    s.enqueueMx (.mma ta tb acc oma omb sa sb) tok

/-- MZERO (R294). -/
def execMzero (acc : Fin 10) (tok : TokF) (s : State) : Host.Outcome State Fault Refusal :=
  s.finish (s.enqueueMx (.mzero acc) tok)

/-- MACLD (R295). -/
def execMacld (acc : Fin 10) (c : XSrc) (tok : TokF) (s : State) : Host.Outcome State Fault Refusal :=
  s.finish do
    let p ← s.readX c
    let _ ← s.mxPointer p 24576
    s.enqueueMx (.macld acc p) tok

/-! ### Settling (R289) -/

namespace State

/-- Has a queued command that writes tile `n` not retired (R289)? -/
def accBusy (s : State) (t : Fin 144) (n : Fin 10) : Bool := (s.tileAt t).eng.mq.any fun c => c.op.acc == some n

/-- The stream keeps its settling. -/
def keepSettle (s : State) (v : Settle) : State := s.modStrm fun st => { st with settle := some v }

/-- The bundle waits until tile `n` has settled (R289); then what the verification found. With NOCHK it goes on in the
cycle after the last retirement, at once when there was nothing to wait for. A command that enters the queue while the
bundle waits, a follow-on or another group's, is earlier than the bundle's commit and is waited for too (DEDUCED, log 86). -/
def settled (s : State) (n : Fin 10) (nochk : Bool) : Res (Nat × Nat) :=
  let wait (due : Nat) : Res (Nat × Nat) := .error (.hold 6 (s.keepSettle ⟨n, nochk, due, none⟩))
  if s.accBusy s.cur.tile n then wait 0
  else match s.strm.settle with
  | none => if nochk then .ok (255, 255) else wait (s.now + 24)
  | some v =>
    match v.found with
    | some r => .ok r
    | none => wait (if v.due ≠ 0 then v.due else s.now + if nochk then 1 else 24)

/-- DATA_ERROR of source 4 on a poisoned or mismatching tile (R289, R386). -/
def accChecked (s : State) (n : Fin 10) (nochk : Bool) (r : Nat × Nat) : Res Unit :=
  let a := s.tile.eng.acc.get n
  let bad := r.1 != 255 || r.2 != 255
  if !nochk && (a.poison || bad) then
    s.raise .dataError 4 (BitVec.ofNat 64 (n.val + (if a.poison then 2 ^ 4 else 0) + (if bad then 2 ^ 5 else 0)
      + r.1 * 2 ^ 8 + r.2 * 2 ^ 16 + a.step.toNat * 2 ^ 32))
  else .ok ()

end State

/-- MDRAIN (R296): queued once its tile has settled (R289). -/
def execMdrain (acc : Fin 10) (nochk : Bool) (c : XSrc) (tok : TokF) (s : State) :
    Host.Outcome State Fault Refusal :=
  s.finish do
    let p ← s.readX c
    let _ ← s.mxPointer p 64
    let r ← s.settled acc nochk
    s.accChecked acc nochk r
    s.enqueueMx (.mdrain acc p) tok

/-- The word that MSTAT writes (R299). -/
def mstatWord (a : AccSt) (r : Nat × Nat) : Word :=
  BitVec.ofNat 64 ((if a.poison then 1 else 0) + r.1 * 2 ^ 8 + r.2 * 2 ^ 16 + a.step.toNat * 2 ^ 32
    + a.count.toNat * 2 ^ 48)

/-- MSTAT (R299). -/
def execMstat (d : XDst) (acc : Fin 10) (nochk : Bool) (s : State) : Host.Outcome State Fault Refusal :=
  s.finish do
    let r ← s.settled acc nochk
    s.accChecked acc nochk r
    s.writeX d 2 (mstatWord (s.tile.eng.acc.get acc) r)

/-- MATRIX_SETTLE (R289): the settling of a stream's tile ends; unless NOCHK is set, the drain unit has verified it. -/
def execMatrixSettle (t : Fin 144) (g : Fin 4) (s : State) : Host.Outcome State Fault Refusal :=
  let st := s.streamAt t g
  match st.settle with
  | some v =>
    if v.due ≠ 0 ∧ v.due ≤ s.now ∧ v.found.isNone then
      .next (s.setStream t g (some { st with
        settle := some { v with found := some (if v.nochk then (255, 255) else s.verify t v.acc.val) } }))
    else .next s
  | none => .next s

/-! ### The effect of MMA (R280, R288, R293) -/

/-- Consecutive groups of `n` of a list, at most `k` of them. -/
def chunksOf {α : Type} (n : Nat) : Nat → List α → List (List α)
  | 0, _ => []
  | k + 1, l => l.take n :: chunksOf n k (l.drop n)

namespace State

/-- Memory as an MMA reads it: each operand byte that changed meanwhile reads as one of its values, with the parity of that
value; which one is free (R285, R288). -/
def raced (s : State) (races : List (Nat × List (Byte × Bool))) : State × State :=
  races.foldl (fun p r =>
    let d := p.2.draw 0 (r.2.length - 1)
    let e := r.2.getD d.1 (0, false)
    let v := { p.1 with mem := p.1.mem.set r.1 e.1 }
    (if e.2 then v.setMark r.1 else v.clearMarks r.1 1 1, d.2)) (s, s)

/-- Do bytes [a, a + n) of the operand memory hold failing parity? -/
def omBad (s : State) (a n : Nat) : Bool := !s.marks.isEmpty && s.marked a n 1

/-- The rows of A as exact values (R280). -/
def rowsA (s : State) (t : Fin 144) (ty : Ty) (om : Nat) : List (List Val) :=
  let w := bytesOf ty
  (List.range 96).map fun i => (digits w (128 / w) (s.load (omKey t om + 128 * i) 128)).map ty.value

/-- The columns of B as exact values (R280). -/
def colsB (s : State) (t : Fin 144) (ty : Ty) (om : Nat) : List (List Val) :=
  let w := bytesOf ty
  let rows := (List.range (128 / w)).map fun k => (digits w 64 (s.load (omKey t om + 64 * w * k) (64 * w))).map ty.value
  (List.range 64).map fun j => rows.map fun r => r.getD j .zero

/-- The scales of row i of A, one a group; ones when A is not scaled (R280). -/
def scalesA (s : State) (t : Fin 144) (om i : Nat) (on : Bool) (groups : Nat) : List Val :=
  if on then (digits 1 4 (s.load (omKey t om + 0x3000 + 4 * i) 4)).map e5m3 else List.replicate groups (Val.ofInt 1)

/-- The scales of column j of B (R280). -/
def scalesB (s : State) (t : Fin 144) (om j : Nat) (on : Bool) (groups : Nat) : List Val :=
  if on then (List.range 4).map fun g => e5m3 (s.load (omKey t om + 0x2000 + 64 * g + j) 1)
  else List.replicate groups (Val.ofInt 1)

end State

/-- One element of an MMA: the group additions in ascending k (R220, R293). -/
def mmaElement (acc : Nat) (a b : List (List Val)) (sa sb : List Val) : Nat × Flags :=
  ((a.zip b).zip (sa.zip sb)).foldl (fun (r : Nat × Flags) g =>
    let q := groupAdd r.1 (g.2.1.mul g.2.2).1 (g.1.1.zip g.1.2)
    (q.1, r.2 ||| q.2)) (acc, 0)

namespace State

/-- Is row `i` of A, or column `j` of B, reached by a byte of failing parity (R288)? -/
def badA (s : State) (t : Fin 144) (om i : Nat) (sa : Bool) : Bool :=
  s.omBad (omKey t om + 128 * i) 128 || (sa && s.omBad (omKey t om + 0x3000 + 4 * i) 4)

/-- Is column `j` of B reached by a byte of failing parity (R288)? -/
def badB (s : State) (t : Fin 144) (ty : Ty) (om j : Nat) (sb : Bool) : Bool :=
  let w := bytesOf ty
  !s.marks.isEmpty && ((List.range (128 / w)).any (fun k => s.omBad (omKey t om + 64 * w * k + w * j) w)
    || (sb && (List.range 4).any fun g => s.omBad (omKey t om + 0x2000 + 64 * g + j) 1))

/-- The effect of an MMA at its retirement: elements, POISON, STEP and COUNT (R288, R293). Elements computed from bytes
of failing parity are free. -/
def runMma (s : State) (t : Fin 144) (run : MxRun) (ta tb : Ty) (n : Fin 10) (oma omb : Fin 8) (sa sb : Bool) : State :=
  let (v, s) := s.raced run.races
  let gs := if ta.width = 8 then 32 else 8
  let k := 128 / bytesOf ta / gs
  let as := ((v.rowsA t ta oma.val).map (chunksOf gs k)).zip (List.range 96)
  let bs := ((v.colsB t tb omb.val).map (chunksOf gs k)).zip (List.range 64)
  let sbs := (List.range 64).map fun j => (v.scalesB t omb.val j sb k, v.badB t tb omb.val j sb)
  let r := as.foldl (fun (r : State × Flags × Bool) a =>
    let sca := v.scalesA t oma.val a.2 sa k
    let ba := v.badA t oma.val a.2 sa
    let old := r.1.accRow t n.val a.2
    let cells := (bs.zip (sbs.zip old)).map fun b =>
      (mmaElement b.2.2 a.1 b.1.1 sca b.2.1.1, ba || b.2.1.2)
    let freed := cells.foldl (fun (q : List Nat × State) c =>
      if c.2 then let d := q.2.draw 0 (2 ^ 32 - 1); (d.1 :: q.1, d.2) else (c.1.1 :: q.1, q.2)) ([], r.1)
    (freed.2.setAccRow t n.val a.2 freed.1.reverse, cells.foldl (fun f c => f ||| c.1.2) r.2.1,
      r.2.2 || cells.any (·.2))) (s, 0, false)
  let st := (s.tileAt t).eng.acc.get n
  let count := if st.count = BitVec.allOnes 16 then st.count else st.count + 1
  let s := r.1.setAccSt t n ⟨st.poison || r.2.2, if r.2.2 && !st.poison then count else st.step, count⟩
  s.engineFlags t r.2.1

/-- Operand bytes from key `a` on are about to become `new`, each with whether its parity fails: an MMA in its array phase
may read either, one past it has read what stood there (R285, R288). -/
def raceOm (s : State) (t : Fin 144) (om : Fin 8) (a : Nat) (new : List (Byte × Bool)) : State :=
  s.setMq t ((s.tileAt t).eng.mq.map fun (c : MxCmd) =>
    match c.op, c.run with
    | .mma ta _ _ x y _ _, some r =>
      if x == om || y == om then
        let add (rs : List (Nat × List (Byte × Bool))) (p : (Byte × Bool) × Nat) : List (Nat × List (Byte × Bool)) :=
          let k := a + p.2
          let old := match rs.find? fun e => e.1 == k with | some e => e.2 | none => [(s.mem.get k, s.marked k 1 1)]
          (k, if s.now < r.start + mmaPhase ta then old ++ [p.1] else old) :: rs.filter fun e => e.1 != k
        { c with run := some { r with races := (new.zip (List.range new.length)).foldl add r.races } }
      else c
    | _, _ => c)

/-- Operand bytes written by an engine, with failing parity at the offsets `bad` of them (R265, R285, R292). -/
def putOm (s : State) (t : Fin 144) (om : Fin 8) (off : Nat) (l : List Byte) (bad : List Nat) : State :=
  let a := omKey t om.val + off
  let s := (s.raceOm t om a ((l.zip (List.range l.length)).map fun p => (p.1, bad.contains p.2))).storeBytes a 1 l
  bad.foldl (fun s i => s.setMark (a + i)) s

/-! ### OMLD and MACLD (R292, R295) -/

/-- Marks of the scratchpad words of a range, as byte offsets in the range. -/
def spadMarks (s : State) (t : Fin 144) (o n : Nat) : List Nat :=
  if s.marks.isEmpty then [] else
    (List.range (n / 4)).filter (fun i => s.marked (spadBase + t.val * 2 ^ 19 + o + 4 * i) 4 4)

/-- The scratchpad of a tile is about to be accessed by its engine: reductions queued at those lines apply first (R322). -/
def settleEng (s : State) (t : Fin 144) (o n : Nat) : State := s.settleLine (spadBase + t.val * 2 ^ 19 + o) n

/-- Bytes written to the own scratchpad, each with whether it leaves its word marked. -/
def putOwn (s : State) (t : Fin 144) (o : Nat) (l : List (Byte × Bool)) : State :=
  let k := spadBase + t.val * 2 ^ 19 + o
  let s := s.storeBytes k 4 (l.map (·.1))
  (List.range l.length).foldl (fun s j => if (l.getD j (0, false)).2 then s.setMark ((k + j) / 4 * 4) else s) s

/-! ### Words of the scratchpad that a command reads at free times (R354; log 11) -/

/-- An aligned word of the own scratchpad as it stands: each byte with whether it is marked. -/
def ownWord (s : State) (t : Fin 144) (w : Nat) : List (Byte × Bool) :=
  let k := spadBase + t.val * 2 ^ 19 + 8 * w
  (List.range 8).map fun i => (s.mem.get (k + i), s.marked (k + i) 1 4)

/-- A free choice of the words of a range, some of those that follow each other, is read now; a word read before stays as it
was read. -/
def takeWords (s : State) (t : Fin 144) (o n : Nat) (got : List (Nat × List (Byte × Bool))) :
    State × List (Nat × List (Byte × Bool)) :=
  let m := (o + n - 1) / 8 + 1 - o / 8
  let i := s.draw 0 (m - 1)
  let k := i.2.draw 0 (m - i.1)
  (List.range k.1).foldl (fun r j =>
    let w := o / 8 + i.1 + j
    if r.2.any fun e => e.1 == w then r
    else
      let s := r.1.settleEng t (8 * w) 8
      (s, (w, s.ownWord t w) :: r.2)) (k.2, got)

/-- The machine as a command sees it: the words that it has read already stand as they were then. -/
def seen (s : State) (t : Fin 144) (got : List (Nat × List (Byte × Bool))) : State :=
  got.foldl (fun v e => v.putOwn t (8 * e.1) e.2) s

/-- A free choice of the next parts of some work: one or several that follow each other; the others keep their order. A part of
kind S is performed after all before it, and before all after it (R357). -/
def pickParts (s : State) (strong : ChunkPart → Bool) (l : List ChunkPart) : State × List ChunkPart × List ChunkPart :=
  let free := (l.takeWhile fun p => !strong p).length
  let i := s.draw 0 (free - 1)
  let n := i.2.draw 1 (if i.1 = 0 then l.length else free - i.1)
  (n.2, (l.drop i.1).take n.1, l.take i.1 ++ l.drop (i.1 + n.1))

/-- The effect of OMLD: 16 KiB of the scratchpad into the slot, failing parity carried (R292). -/
def runOmld (s : State) (t : Fin 144) (run : MxRun) (om : Fin 8) (p : Word) : State :=
  let s := s.settleEng t (offsetOf p) 16384
  let v := s.seen t run.got
  let bad := (v.spadMarks t (offsetOf p) 16384).flatMap fun i => (List.range 4).map fun b => 4 * i + b
  s.putOm t om 0 (v.mem.bytes (spadBase + t.val * 2 ^ 19 + offsetOf p) 16384) bad

/-- The effect of MACLD (R295). -/
def runMacld (s : State) (t : Fin 144) (run : MxRun) (n : Fin 10) (p : Word) : State :=
  let s := s.settleEng t (offsetOf p) 24576
  let v := s.seen t run.got
  let bad := v.spadMarks t (offsetOf p) 24576 != []
  let rows := (List.range 96).map fun i => digits 4 64 (v.load (spadBase + t.val * 2 ^ 19 + offsetOf p + 256 * i) 256)
  let s := (s.zeroAcc t n).setAcc t n.val rows
  s.setAccSt t n ⟨bad, 0, 0⟩

end State

/-! ### Parts of engine work (R354) -/

/-- A range cut at multiples of `u`: start and length of each part, at most `fuel` of them. -/
def cutParts (u : Nat) : Nat → Nat → Nat → List (Nat × Nat)
  | 0, _, _ => []
  | _ + 1, _, 0 => []
  | k + 1, a, n => let m := min n (u - a % u); (a, m) :: cutParts u k (a + m) (n - m)

/-- A range cut into parts of one unit of `u` bytes each. -/
def partsIn (u a n : Nat) : List (Nat × Nat) := cutParts u (n / u + 2) a n

/-- Bytes for consecutive offsets of the own scratchpad, as parts of a chunk. -/
def ownParts (o : Nat) (l : List (Byte × Bool)) : List ChunkPart :=
  (partsIn 8 o l.length).map fun p => .own p.1 ((l.drop (p.1 - o)).take p.2)

/-- The parts that write a converted row: its elements, and the scale bytes that share a word together. -/
def rowParts (d : Nat) (l : List (Byte × Bool)) (scales : List (Nat × Byte × Bool)) : List ChunkPart :=
  ownParts d l ++ ((scales.map fun x => x.1 / 8).eraseDups.map fun w =>
    let ws := scales.filter fun x => x.1 / 8 == w
    .own (match ws with | x :: _ => x.1 | [] => 8 * w) (ws.map (·.2)))

/-! ### MDRAIN (R296 to R298) -/

/-- The fields of an MDRAIN descriptor (R296). -/
structure Drain where
  dst : Word
  res : Word
  rows : Nat
  cols : Nat
  act : Nat
  drop : Bool
  zaft : Bool
  scale : Nat
  thr : Nat
  lo : Nat
  hi : Nat
  key : Word
  tid : Nat
  row0 : Nat
  col0 : Nat
  dstr : Nat
  rstr : Nat

/-- A descriptor's fields from its eight words (R296). -/
def drainOf (w : List Word) : Drain :=
  let f (k lo len : Nat) : Nat := (fld (w.getD k 0) lo len).toNat
  { dst := w.getD 0 0, res := w.getD 1 0, rows := f 2 0 7, cols := f 2 7 7, act := f 2 14 2
    drop := (w.getD 2 0).getLsbD 16, zaft := (w.getD 2 0).getLsbD 17, scale := f 3 0 32, thr := f 3 32 24
    lo := f 4 0 32, hi := f 4 32 32, key := w.getD 5 0, tid := f 6 0 16, row0 := f 6 16 24, col0 := f 6 40 24
    dstr := f 7 0 32, rstr := f 7 32 32 }

/-- The fields that R298 checks with cause SHAPE. -/
def drainShapeBad (w : List Word) : Bool :=
  let d := drainOf w
  d.rows == 0 || decide (96 < d.rows) || d.cols == 0 || decide (64 < d.cols) || d.act == 3
    || fld (w.getD 2 0) 18 46 != 0 || fld (w.getD 3 0) 56 8 != 0
    || (d.act == 2 && ((f32v d.lo).isNan || (f32v d.hi).isNan || (f32v d.hi).lt (f32v d.lo)))

/-- The bank of a scratchpad offset in a list of bfmt values. -/
def bankAt (bfmt : List Word) (o : Nat) : Word := bfmt.getD (o / 2 ^ 15) 0

/-- The element width in a bank; 1 for a RAW bank, which the format check refuses. -/
def bankWidth (b : Word) : Nat := match bankTy b with | some t => bytesOf t | none => 1

/-- The space and alignment of a drain's pointer: space 0x1, a multiple of the element width of its bank (R298). -/
def drainPointerBad (bfmt : List Word) (p : Word) : Bool :=
  spaceOf p != 1 || rankOf p != 0 || decide (2 ^ 19 ≤ offsetOf p)
    || offsetOf p % bankWidth (bankAt bfmt (offsetOf p)) != 0

/-- The first failing check of one row at offset `o` (R298): cause, or none. -/
def drainRowBad (bfmt : List Word) (o cols : Nat) (isDst : Bool) : Option Nat :=
  let b := bankAt bfmt o
  let w := bankWidth b
  let stop := o + cols * w
  if 2 ^ 19 < stop then some 2
  else if o / 2 ^ 15 ≠ (stop - 1) / 2 ^ 15 then some 3
  else if (bankTy b).isNone then some 6
  else if bankScaled b ∧ (0x7C00 < (stop - 1) % 2 ^ 15 + 1 ∨ (isDst ∧ (o % 32 ≠ 0 ∨ cols % 32 ≠ 0))) then some 6
  else none

/-- The start checks of MDRAIN in their order: cause and address, or none (R298). -/
def drainCheck (bfmt w : List Word) : Option (Nat × Word) :=
  let d := drainOf w
  if drainPointerBad bfmt d.dst then some (2, d.dst)
  else if d.res != 0 && drainPointerBad bfmt d.res then some (2, d.res)
  else if drainShapeBad w then some (3, 0)
  else
    ((List.range d.rows).flatMap fun i =>
      let a := offsetOf d.dst + i * d.dstr
      let b := offsetOf d.res + i * d.rstr
      [(drainRowBad bfmt a d.cols true).map fun c => (c, if c = 2 then withOffset d.dst a else 0)] ++
        if d.res = 0 then [] else [(drainRowBad bfmt b d.cols false).map fun c => (c, if c = 2 then withOffset d.res b else 0)]
    ).findSome? id

/-- One element of a drain before encoding: scale, residual, dropout, activation (R297). -/
def drainValue (d : Drain) (i j acc : Nat) (res : Option Val) : Nat × Flags :=
  let p := (f32v acc).mul (f32v d.scale)
  let q := match res with | some r => p.1.add r | none => (p.1, 0)
  let v := round32 q.1
  let ctr := d.tid * 2 ^ 48 + (d.row0 + i) % 2 ^ 24 * 2 ^ 24 + (d.col0 + j) % 2 ^ 24
  let x := if d.drop && decide ((fld (gen d.key (BitVec.ofNat 64 ctr)) 40 24).toNat < d.thr) then 0 else v.1
  let y :=
    if (f32v x).isNan then x
    else if d.act = 1 then (if (f32v x).lt .zero || (f32v x).isZero then 0 else x)
    else if d.act = 2 then FTy.f32.minmax false (FTy.f32.minmax true x d.lo) d.hi
    else x
  (y, p.2 ||| q.2 ||| v.2)

namespace State

/-- The residual element at an offset, exact, and whether its word fails parity (R297). -/
def drainResidual (s : State) (t : Fin 144) (bfmt : List Word) (o : Nat) : Val × Bool :=
  let b := bankAt bfmt o
  let k := spadBase + t.val * 2 ^ 19
  match bankTy b with
  | none => (.zero, false)
  | some ty =>
    let sc := o / 2 ^ 15 * 2 ^ 15 + 0x7C00 + o % 2 ^ 15 / 32
    (decodeBank ty (bankScaled b) (s.load (k + sc) 1) (s.load (k + o) (bytesOf ty)),
      !s.marks.isEmpty && (s.marked (k + o) (bytesOf ty) 4 || (bankScaled b && s.marked (k + sc) 1 4)))

/-- The scale bytes of the elements from an offset of a bank. -/
def metaAt (o : Nat) : Nat := o / 2 ^ 15 * 2 ^ 15 + 0x7C00 + o % 2 ^ 15 / 32

/-- One row of a drain read and encoded: values, scales, and the words to write (R297). The words that the row replaces whole lose
their failing parity (R436); the elements that depend on a failing residual keep theirs, which in a scaled block are all, with
its scale. -/
def drainRow (s : State) (t : Fin 144) (run : MxRun) (d : Drain) (n : Fin 10) (i : Nat) : State × List ChunkPart × Flags :=
  let bfmt := run.bfmt
  let a := offsetOf d.dst + i * d.dstr
  let b := bankAt bfmt a
  match bankTy b with
  | none => (s, [], 0)
  | some ty =>
    let w := bytesOf ty
    let ro := offsetOf d.res + i * d.rstr
    let wr := bankWidth (bankAt bfmt ro)
    let s := if d.res = 0 then s else (s.settleEng t ro (d.cols * wr)).settleEng t (metaAt ro) 3
    let v := s.seen t run.got
    let vs := (((s.accRow t n.val i).take d.cols).zip (List.range d.cols)).map fun p =>
      let r := if d.res = 0 then none else some (v.drainResidual t bfmt (ro + p.2 * wr))
      (drainValue d i p.2 p.1 (r.map (·.1)), match r with | some r => r.2 | none => false)
    let sc := if bankScaled b then
        (List.range (d.cols / 32)).map fun g => some (scaleSearch ty (((vs.drop (32 * g)).take 32).map fun v => f32v v.1.1))
      else []
    let enc := (vs.zip (List.range d.cols)).map fun p =>
      (encodeBank b ty (a / 2 ^ 15) (a % 2 ^ 15 + w * p.2) (sc.getD (p.2 / 32) none) (f32v p.1.1.1), p.1.2, p.2)
    let failing (j : Nat) : Bool :=
      if bankScaled b then ((vs.drop (j / 32 * 32)).take 32).any (·.2) else (vs.getD j ((0, 0), false)).2
    let scales := (sc.zip (List.range sc.length)).map fun c => (metaAt a + c.2, BitVec.ofNat 8 (c.1.getD 0), failing (32 * c.2))
    (s, rowParts a (enc.flatMap fun e => (leBytes w e.1.1).map fun b => (b, failing e.2.2)) scales, vs.foldl (fun f v => f ||| v.1.2) 0 ||| enc.foldl (fun f e => f ||| e.1.2) 0)

/-- Parts of a row are written. -/
def writeParts (s : State) (t : Fin 144) (l : List ChunkPart) : State :=
  l.foldl (fun s p => match p with
    | .own o l => (s.settleEng t o l.length).putOwn t o l
    | _ => s) s

/-- A drain goes on before its retirement (R354): words of the row in hand are read, the row is encoded, or words of it are
written, in a free order and at free times, a row after the one before. -/
def workDrain (s : State) (t : Fin 144) (run : MxRun) (n : Fin 10) : State × MxRun :=
  let d := drainOf run.desc
  if run.out ≠ [] then
    let x := s.pickParts (fun _ => false) run.out
    (x.1.writeParts t x.2.1, { run with out := x.2.2 })
  else if d.rows ≤ run.row then (s, run)
  else
    let ro := offsetOf d.res + run.row * d.rstr
    let c := s.draw 0 2
    if c.1 = 0 ∨ d.res = 0 then
      let x := c.2.drainRow t run d n run.row
      (x.1, { run with row := run.row + 1, out := x.2.1, got := [], flags := run.flags ||| x.2.2 })
    else
      let x := if c.1 = 1 then c.2.takeWords t ro (d.cols * bankWidth (bankAt run.bfmt ro)) run.got
        else c.2.takeWords t (metaAt ro) 3 run.got
      (x.1, { run with got := x.2 })

/-- The effect of MDRAIN by its retirement (R297): what is left of it. -/
def runMdrain (s : State) (t : Fin 144) (run : MxRun) (n : Fin 10) : State :=
  let d := drainOf run.desc
  let r := (List.range (d.rows - run.row)).foldl (fun (r : State × MxRun) i =>
    let q := r.1.drainRow t r.2 d n (run.row + i)
    (q.1.writeParts t q.2.1, { r.2 with got := [], flags := r.2.flags ||| q.2.2 })) (s.writeParts t run.out, run)
  let s := if d.zaft then r.1.zeroAcc t n else r.1
  s.engineFlags t r.2.flags

end State

/-! ### The events of the queue (R282, R283) -/

/-- MATRIX_COMMAND_START (R282): tokens taken, registers read, start checks applied; a drain that fails one is aborted
with an ENGINE entry (R298). Words of a descriptor that fail parity are used as they stand (DESIGN CHOICE, log 102). -/
def execMatrixCommandStart (t : Fin 144) (s : State) : Host.Outcome State Fault Refusal :=
  match s.mxReady t with
  | none => .next s
  | some (i, c) =>
    let s := s.consume t c.tok
    let s := match c.op with
      | .mdrain _ p => s.settleEng t (offsetOf p) 64
      | _ => s
    let bfmt := (s.tileAt t).sys.bfmt.toList
    let q := (s.tileAt t).eng.mq
    let desc := match c.op with
      | .mdrain _ p => (List.range 8).map fun k => s.load64 (spadBase + t.val * 2 ^ 19 + offsetOf p + 8 * k)
      | _ => []
    let bad := if c.op.isDrain then drainCheck bfmt desc else none
    match bad with
    | some (cause, addr) => .next ((s.setMq t (q.eraseIdx i)).engineFault t c.slot c.pc 2 c.pos 0 cause addr 0 0)
    | none =>
      let run : MxRun := { start := s.now, retireAt := s.now + c.op.time desc, bfmt, desc, races := [], got := [], row := 0, out := [], flags := 0 }
      .next (s.setMq t (q.set i { c with run := some run }))

/-- The effect of a command at its retirement. -/
def State.runMx (s : State) (t : Fin 144) (op : MxOp) (run : MxRun) : State :=
  match op with
  | .omrel m => s.setOm t (slotsIn m) .free
  | .omld om p => s.runOmld t run om p
  | .mma ta tb n a b sa sb => s.runMma t run ta tb n a b sa sb
  | .mzero n => s.zeroAcc t n
  | .macld n p => s.runMacld t run n p
  | .mdrain n _ => s.runMdrain t run n

/-- Is the head of the matrix queue ready to retire (R283)? -/
def State.mxRetires (s : State) (t : Fin 144) : Option (MxCmd × MxRun) :=
  match (s.tileAt t).eng.mq with
  | c :: _ => match c.run with
    | some r => if r.retireAt ≤ s.now then some (c, r) else none
    | none => none
  | [] => none

/-- A started command reads and writes the scratchpad at free times before its retirement (R354; log 11). -/
def State.workMx (s : State) (t : Fin 144) (c : MxCmd) : State × MxCmd :=
  match c.run with
  | none => (s, c)
  | some r => match c.op with
    | .omld _ p => let x := s.takeWords t (offsetOf p) 16384 r.got; (x.1, { c with run := some { r with got := x.2 } })
    | .macld _ p => let x := s.takeWords t (offsetOf p) 24576 r.got; (x.1, { c with run := some { r with got := x.2 } })
    | .mdrain n _ => let x := s.workDrain t r n; (x.1, { c with run := some x.2 })
    | _ => (s, c)

/-- The started commands of the matrix queue that do not retire in this cycle go on. -/
def State.workAll (s : State) (t : Fin 144) : State :=
  let r := (s.tileAt t).eng.mq.foldl (fun (r : State × List MxCmd) c =>
    let x := r.1.workMx t c
    (x.1, r.2 ++ [x.2])) (s, [])
  r.1.setMq t r.2

/-- MATRIX_COMMAND_RETIRE (R283): in queue order; the effect, PROD and the flags. While none retires, the started commands go
on. -/
def execMatrixCommandRetire (t : Fin 144) (s : State) : Host.Outcome State Fault Refusal :=
  match s.mxRetires t with
  | none => .next (s.workAll t)
  | some (c, r) =>
    let s := s.runMx t c.op r
    .next ((s.setMq t ((s.tileAt t).eng.mq.drop 1)).produce t c.tok.prod)

end Sys2Proof.Machine
end

