-- ==== Sys2Proof/Machine/Homes.lean ====
section
/-! DEFINITION. What homes do: reads and writes of lines with grades, marks, queued reductions and migrations (chapter 16:
R316, R318, R321 to R323, R330), and when an access may be performed (R350, R357). -/

namespace Sys2Proof.Machine

namespace State

/-- An atomic at its home, with no access between read and write (R321): the old value and its mark. -/
def atomAt (s : State) (key grade : Nat) (op : AtomOp) (w64 : Bool) (x y : Word) : State × Nat × Bool :=
  let t := atomTy w64
  let r := s.homeRead key (t.width / 8) grade
  match atomNew op t r.2.1 x.toNat y.toNat with
  | some v => (r.1.homePut key (t.width / 8) grade v r.2.2, r.2.1, r.2.2)
  | none => r

/-! ### Metadata (R318, R323) -/

/-- Bits of metadata of a line under a grade (R318). -/
def metaBits (grade : Nat) : Nat := if grade = 1 then 32 else if grade = 0 then 48 else 0

/-- The metadata of a line, zero when never written, and whether it is marked (R318, R436). -/
def metaOf (s : State) (key grade : Nat) : Nat × Bool :=
  ((match s.lineMeta.find? fun e => e.1 == key / 64 with | some e => e.2 | none => 0) % 2 ^ metaBits grade,
    s.marked (metaBase + key / 64 * 64) 64 1 || s.gradeClash key grade)

/-- The metadata of a line written; every metadata mark of the line clears (R323, R436). The data of a line that another grade
wrote stay uncorrectable under the new one (R200). -/
def setMeta (s : State) (key grade v : Nat) : State :=
  let s := if s.gradeClash key grade then s.markAll (key / 64 * 64) 64 (granule key grade) else s
  let s := ((s.clearMarks (metaBase + key / 64 * 64) 64 1).markDirty key).setGrade key grade
  let rest := s.lineMeta.filter fun e => e.1 != key / 64
  let v := v % 2 ^ metaBits grade
  { s with lineMeta := if v = 0 then rest else (key / 64, v) :: rest }

end State

/-! ### When an access may be performed (R350, R355 to R357) -/

/-- The stamp of a SCATOM (R350). -/
def stampOf (a : Access) : Option (Nat × Nat) :=
  match a.op with
  | .scatom _ _ rev pos => some (rev, pos)
  | _ => none

/-- Does the order of R357 put access `b` before the later access `a` of the same tile? -/
def ordered (b a : Access) : Bool :=
  (b.sid == a.sid &&
    match min b.kind a.kind with
    | 0 => !(b.space == 6 && a.space == 6 && b.va / 2 ^ 52 == a.va / 2 ^ 52 && b.sent)
    | 1 => b.acq || a.rel || ((b.acq || b.rel) && (a.acq || a.rel))
    | _ => false)
    || (b.slot == a.slot && b.space == a.space && decide (b.key < a.key + a.size) && decide (a.key < b.key + b.size))

namespace State

/-- May access `a` be performed now: every earlier access that R357 puts before it, and for a SCATOM every one of a
lower stamp (R350), has been performed. -/
def mayPerform (s : State) (a : Access) : Bool :=
  (s.net.accs.all fun b => b.performed || b.tile != a.tile || decide (a.seq ≤ b.seq) || !ordered b a)
    && match stampOf a with
      | none => true
      | some (r, p) => s.net.accs.all fun b =>
          b.performed || match stampOf b with
            | some (r', p') => !(decide (r' < r) || (r' == r && decide (p' < p)))
            | none => true

/-- The access of a number. -/
def accOf (s : State) (id : Nat) : Option Access := s.net.accs.find? fun a => a.id == id

/-- Replace an access. -/
def putAcc (s : State) (a : Access) : State :=
  { s with net := { s.net with accs := s.net.accs.map fun b => if b.id = a.id then a else b } }

/-- Remove an access: its request entry is free (R203). -/
def dropAcc (s : State) (id : Nat) : State :=
  { s with net := { s.net with accs := s.net.accs.filter fun b => b.id != id } }

/-- An access performed at its home with a result; its reply is on the way for a free time, no shorter than R317 lets
it be; the reply of a SCATOM takes at most 140 cycles (R117). -/
def donePerform (s : State) (a : Access) (result : Word) (marked : Bool) : State :=
  let d := s.drawFrom 1
  let at_ := max a.replyAt (d.2.now + d.1)
  d.2.putAcc { a with performed := true, result, marked, replyAt := if (stampOf a).isSome then min at_ (d.2.now + 140) else at_ }

/-- The effect of an access of space 0x0, 0x2 or 0x3 at its home (R319 to R323). -/
def performAcc (s : State) (a : Access) : State :=
  let key := if a.space = 0 then s.forward a.key else a.key
  match a.op with
  | .load t =>
    let r := s.homeRead key a.size a.grade
    r.1.donePerform a (t.extW r.2.1) r.2.2
  | .store => (s.homeWrite key a.size a.grade a.data.toNat false).donePerform a 0 false
  | .atom op w64 =>
    let r := s.atomAt key a.grade op w64 a.data a.data2
    r.1.donePerform a ((atomTy w64).extW r.2.1) r.2.2
  | .scatom op w64 _ _ =>
    let r := s.atomAt key a.grade op w64 a.data a.data2
    r.1.donePerform a ((atomTy w64).extW r.2.1) r.2.2
  | .red op => (s.reduceAt key a.grade op a.data.toNat).donePerform a 0 false
  | .ldmeta =>
    let s := s.settleLine key 64
    let r := s.metaOf key a.grade
    s.donePerform a (BitVec.ofNat 64 r.1) r.2
  | .stmeta => ((s.settleLine key 64).setMeta key a.grade a.data.toNat).donePerform a 0 false

end State

end Sys2Proof.Machine
end

