-- ==== Sys2Proof/Machine/Ports.lean ====
section
/-! DEFINITION. Translation for engines, the peer table, and messages leaving through a peer port (R191, R201, R202,
R324 to R327). -/

namespace Sys2Proof.Machine

namespace State

/-! ### Translation outside a bundle (R198, R202) -/

/-- Is the task whose engines a tile's are a system task? -/
def sysOn (s : State) (t : Fin 144) : Bool := match (s.tileAt t).sched.tail with | some k => !k.user | none => false

/-- The checks that a leaf makes against an access (R201): cause, or none. -/
def leafRefuses (e : Word) (sys write : Bool) : Option Nat :=
  if !e.getLsbD 3 && !sys then some 3 else if write && !e.getLsbD 1 then some 2 else none

/-- A leaf enters the caches of a tile and of its cluster (R202), of 64 sets of 8 ways and 512 sets of 16; how an entry's set is chosen, and which entry a full set gives up, is
free (log 9). -/
def cacheLeaf (s : State) (t : Fin 144) (e : TlbEntry) : State :=
  let d := s.draw 0 511
  let s := d.2.modTile t fun tl => { tl with tlb := addTlb 8 d.1 (fun e => Config.tileSet e.ctx.val e.level e.va % 64) e tl.tlb }
  let d := s.draw 0 8191
  let c := clusterOf t.val
  if h : c < 36 then
    { d.2 with dev := { d.2.dev with
      clusterTlb := d.2.dev.clusterTlb.set c (addTlb 16 d.1 (fun e => Config.clusterSet e.ctx.val e.level e.va % 512) e (d.2.dev.clusterTlb.get ⟨c, h⟩)) h } }
  else d.2

/-- The walk cache of a tile's die (R202). -/
def dieCache (s : State) (t : Fin 144) : List TlbEntry := s.dev.walkCache.toList.getD (t.val / 72) []

/-- The non-leaf entries of a walk enter the walk cache of a die (R202); which entries a full cache gives up is free. -/
def cachePath (s : State) (t : Fin 144) (l : List TlbEntry) : State :=
  let d := s.draw 0 255
  let die : Fin 2 := if t.val / 72 = 0 then 0 else 1
  { d.2 with dev := { d.2.dev with
    walkCache := upd d.2.dev.walkCache die (l.foldl (fun m e => addTlb 256 d.1 (fun _ => 0) e m) (d.2.dev.walkCache.get die)) } }

/-- The outcome of a translation for a tile: its cache, its cluster's cache, or a walk through its die's walk cache
(R202); with RV clear it faults whatever a cache holds (R197). -/
def resolve (s : State) (t : Fin 144) (c : Fin 64) (va : Nat) : State × XRes :=
  if !(s.ctx c).tcb.rv then (s, .fault 1 0 0)
  else match ((s.tileAt t).tlb ++ s.clusterCache t).find? fun e => e.serves c va with
  | some e => (s, .leaf e.entry e.level e.at_)
  | none =>
    let s := s.readyWalk (s.dieCache t) c va
    let b := (s.ctx c).tcb
    match s.walkBy (s.dieCache t) c va with
    | .leaf e lv at_ =>
      (s.cachePath t (s.walkPath (s.dieCache t) c va 4 0 (b.root.toNat * 2 ^ 16)), .leaf e lv at_)
    | r => (s, r)

/-- The leaf that maps an address of a tile's context for an engine; or cause, level and entry (R201). -/
def engineLeaf (s : State) (t : Fin 144) (va : Nat) (write : Bool) : State × Except (Nat × Nat × Word) Leaf :=
  let c := (s.tileAt t).sys.ctx
  match s.resolve t c va with
  | (s, .fault cause lv e) => (s, .error (cause, lv, e))
  | (s, .leaf e lv at_) =>
    match leafRefuses e (s.sysOn t) write with
    | some cause => (s, .error (cause, lv, e))
    | none =>
      (s.cacheLeaf t (tlbOf c va e lv at_),
        .ok ⟨leafPa e lv va, (fld e 4 2).toNat, (fld e 6 2).toNat, (fld e 8 1).toNat, lv, at_⟩)

/-- The checks of R191 on bytes [o, o + n) of an engine's pointer. -/
def reachOk (s : State) (t : Fin 144) (reach : List Nat) (p : Word) (o : Int) (n : Nat) : Bool :=
  let sp := spaceOf p
  let c := (s.tileAt t).sys.ctx
  reach.contains sp && decide (0 ≤ o) && pointerOk (s.peerLen c) sp (rankOf p) o.toNat
    && decide (o.toNat + n ≤ spaceSize sp) && (sp != 2 || s.inTiles c (rankOf p)) && (sp != 3 || s.vaultOk c (rankOf p) o.toNat n)

/-! ### The peer table (R324) and messages (R325, R326) -/

/-- A word of a context's memory at a global virtual address, for a read by the device itself, with its mark (R205); `none`
when untranslated. What is queued at its line applies first (R322). -/
def readVa (s : State) (c : Fin 64) (va : Nat) : State × Option (Word × Bool) :=
  let s := s.readyWalk [] c va
  match s.walk c va with
  | .leaf e lv _ =>
    let r := (s.touchVa c va).homeRead (s.forward (leafPa e lv va)) 8 (fld e 6 2).toNat
    (r.1, some (BitVec.ofNat 64 r.2.1, r.2.2))
  | .fault .. => (s, none)

/-- Entry `r` of a context's peer table when it is valid: port, station address and context at the peer (R324). An entry
that cannot be read, or that is marked, is none (log 42). -/
def peerEntry (s : State) (c : Fin 64) (r : Nat) : State × Option (Fin 16 × BitVec 48 × Fin 64) :=
  let f := (s.ctx c).entry.get 9
  let a := (fld f 0 52).toNat + 16 * r
  if (fld f 52 8).toNat ≤ r then (s, none)
  else
    let r0 := s.readVa c a
    let r1 := r0.1.readVa c (a + 8)
    (r1.1, match r0.2, r1.2 with
      | some (w0, false), some (w1, false) =>
        if w0.getLsbD 4 then some ((fld w0 0 4).toFin, fld w0 16 48, (fld w1 0 6).toFin) else none
      | _, _ => none)

/-- A PEER entry of a launch (R325, R385): cause 1 NOENTRY, 2 NOLINK, 3 REJECT. -/
def peerReport (s : State) (o : Option Owner) (c : Fin 64) (t : Fin 144) (slot : Fin 8) (pc access index cause : Nat) (addr : Word) :
    State :=
  s.detectFor o c t 0 pc { kind := .peer, slot, cause, access, addr, info0 := BitVec.ofNat 64 index } 0

/-- Replace a peer port. -/
def setPort (s : State) (p : Fin 16) (x : Port) : State := { s with ports := upd s.ports p x }

/-- The next SEQ of a tile and stream on a port (R326). -/
def nextSeq (l : List (Nat × Nat × BitVec 32)) (a b : Nat) : BitVec 32 :=
  match l.find? fun e => e.1 == a && e.2.1 == b with
  | some e => e.2.2
  | none => 0

/-- The SEQ of a tile and stream set. -/
def putSeq (l : List (Nat × Nat × BitVec 32)) (a b : Nat) (v : BitVec 32) : List (Nat × Nat × BitVec 32) :=
  (a, b, v) :: l.filter fun e => !(e.1 == a && e.2.1 == b)

end State

/-- The 32-byte header of a peer message and its payload (R326). -/
def peerBytes (m : PeerMsg) : List Byte :=
  [BitVec.ofNat 8 m.vmaj, BitVec.ofNat 8 m.vmin, BitVec.ofNat 8 m.ty.code, m.op, BitVec.ofNat 8 m.srank,
    BitVec.ofNat 8 m.sid.val, BitVec.ofNat 8 m.rctx.val, 0]
    ++ leBytes 4 m.seq.toNat ++ leBytes 2 m.payload.length ++ leBytes 2 m.cause ++ leBytes 8 (m.addr % 2 ^ 52)
    ++ leBytes 8 0 ++ m.payload

/-- The message that the payload of a frame holds (R326); none for one whose zero fields are not zero, whose TYPE is not
defined, or that is shorter than DLEN says. Bytes after the message are padding of the frame. -/
def peerOfBytes (l : List Byte) : Option PeerMsg :=
  let at_ (o n : Nat) : Nat := leNat ((l.drop o).take n)
  let dlen := at_ 12 2
  match PeerTy.ofCode (at_ 2 1) with
  | none => none
  | some ty =>
    if l.length < 32 + dlen ∨ 4096 < dlen ∨ 16 ≤ at_ 5 1 ∨ 64 ≤ at_ 6 1 ∨ at_ 7 1 ≠ 0 ∨ 2 ^ 52 ≤ at_ 16 8 ∨ at_ 24 8 ≠ 0 then
      none
    else some
      { vmaj := at_ 0 1, vmin := at_ 1 1, ty, op := BitVec.ofNat 8 (at_ 3 1), srank := at_ 4 1
        sid := Fin.ofNat 16 (at_ 5 1), rctx := Fin.ofNat 64 (at_ 6 1), seq := BitVec.ofNat 32 (at_ 8 4)
        cause := at_ 14 2, addr := at_ 16 8, payload := (l.drop 32).take dlen }

/-- The EtherType of the peer transport (R326). -/
def peerEtherType : BitVec 16 := 0x88B6

/-- The frame that carries a message to a station (R324, R326). The spec gives no station for a HELLO, an ACK or a NAK,
which then name none (log 60). -/
def peerFrame (m : PeerMsg) (mac : Option (BitVec 48)) : Frame := ⟨mac, peerEtherType, peerBytes m⟩

namespace State

/-- Access code of R392 for a peer message. -/
def peerAccess (ty : PeerTy) (cmd : Bool) : Nat := if cmd then 7 else if ty = .reduce then 5 else 3

/-- A message of a launch leaves for peer `r` (R324 to R327); `false` when it is refused on the spot, with its PEER entry. -/
def peerSend (s : State) (owner : Option Owner) (t : Fin 144) (c : Fin 64) (slot : Fin 8) (pc : Nat) (sid : Fin 16) (r off : Nat) (ty : PeerTy)
    (op : BitVec 8) (payload : List Byte) (access : Option Nat) (cmd : Option (Fin 2 × Nat)) : State × Bool :=
  let addr : Word := BitVec.ofNat 64 (6 * 2 ^ 60 + r * 2 ^ 52 + off)
  let e := s.peerEntry c r
  let s := e.1
  match e.2 with
  | none => (s.peerReport owner c t slot pc (peerAccess ty cmd.isSome) r 1 addr, false)
  | some (p, mac, rctx) =>
    let pt := s.ports.get p
    if !pt.up then (s.peerReport owner c t slot pc (peerAccess ty cmd.isSome) r 2 addr, false)
    else
      let q := nextSeq pt.seqOut t.val sid.val
      let m : PeerMsg :=
        { vmaj := pt.vmaj, vmin := pt.vmin, ty, op, srank := t.val, sid, rctx, seq := q, cause := 0, addr := off
          payload }
      let o : PeerOut := ⟨m, mac, s.clk.wclock, s.clk.wclock, t, slot, pc, r, access, cmd, c, owner⟩
      (s.setPort p { pt with
        seqOut := putSeq pt.seqOut t.val sid.val (q + 1), unanswered := pt.unanswered ++ [o], out := pt.out ++ [peerFrame m (some mac)] }, true)

/-- Does a command still wait for answers of a peer (R257)? -/
def peerWaiting (s : State) (t : Fin 144) (q : Fin 2) (pos : Nat) : Bool :=
  s.ports.toList.any fun p => p.unanswered.any fun o => o.tile == t && o.cmd == some (q, pos)

/-- The bytes of a command that a peer has not answered (R262). -/
def peerPending (s : State) (t : Fin 144) (q : Fin 2) (pos : Nat) : Nat :=
  (s.ports.toList.map fun p =>
    ((p.unanswered.filter fun o => o.tile == t && o.cmd == some (q, pos)).map fun o => o.msg.payload.length).sum).sum

end State

end Sys2Proof.Machine
end

