-- ==== Sys2Proof/Machine/Streams.lean ====
section
/-! DEFINITION. Stream decoders: FBC blocks, element decoding, repetition, flushing, cut-off and watchdog (chapter 13:
R266 to R272, R274). -/

namespace Sys2Proof.Machine

/-! ### The descriptor (R274) -/

/-- A field of descriptor word 0. -/
def dfld (d : Word) (lo len : Nat) : Nat := nbits d.toNat lo len
/-- FMT; `none` for raw bytes. -/
def dFmt (d : Word) : Option Ty := Ty.ofCode (fld d 0 8)
/-- SCALE 0b01. -/
def dScaled (d : Word) : Bool := dfld d 8 2 == 1
/-- OUT: 0 f32, 1 bf16, 2 raw. -/
def dOut (d : Word) : Nat := dfld d 10 2
/-- CMP FBC. -/
def dFbc (d : Word) : Bool := dfld d 12 2 == 1
/-- REP. -/
def dRep (d : Word) : Nat := dfld d 14 4
/-- RATIO. -/
def dRatio (d : Word) : Nat := dfld d 18 8
/-- WOUT. -/
def dWout (d : Word) : Nat := dfld d 26 12
/-- WCYC. -/
def dWcyc (d : Word) : Nat := dfld d 38 20

/-- Does a table of code lengths hold a length above 15, or oversubscribe the code space (R274)? -/
def tableBad (t : List Nat) : Bool :=
  t.any (fun n => decide (15 < n)) || decide (2 ^ 15 < (t.map fun n => if n = 0 then 0 else 2 ^ (15 - n)).sum)

/-- A defined descriptor, from its eight words and the table read (R274). -/
def descOk (w : List Word) (table : List Nat) : Bool :=
  let d := w.getD 0 0
  let p := w.getD 1 0
  (dfld d 0 8 == 0 || (dFmt d).isSome)
    && (dfld d 8 2 == 0 || (dScaled d && match dFmt d with | some t => t.width == 8 | none => false))
    && (match dOut d with
      | 2 => dfld d 0 8 == 0 && dfld d 8 2 == 0
      | 3 => false
      | _ => dfld d 0 8 != 0)
    && decide (dfld d 12 2 < 2) && !(dFbc d && dRatio d == 0) && dWout d != 0 && dWcyc d != 0 && fld d 58 6 == 0
    && (p == 0 || (spaceOf p == 1 && rankOf p == 0 && offsetOf p % 64 == 0 && decide (offsetOf p + 512 ≤ 2 ^ 19)))
    && !tableBad table && (w.drop 2).all (· == 0)

/-! ### Cut-off (R268) -/

/-- A stream is cut off; the first cause stays. -/
def StreamReg.cutOff (r : StreamReg) (cause : Nat) : StreamReg :=
  if r.cut then r
  else { r with cut := true, cause, input := [], raw := [], lanes := [], out := none, flush := [], work := 0 }

/-! ### FBC (R269 to R271) -/

/-- One step of a reflected CRC-32C over a bit. -/
def crcBit (c : Nat) : Nat := if c % 2 = 1 then (c / 2) ^^^ 0x82F63B78 else c / 2

/-- CRC-32C (R269). -/
def crc32c (l : List Byte) : Nat :=
  (l.foldl (fun c b => (List.range 8).foldl (fun c _ => crcBit c) (c ^^^ b.toNat)) 0xFFFFFFFF) ^^^ 0xFFFFFFFF

/-- A piece of a decoded payload: a literal byte, a run of zeros, or a match of a length and distance (R270). -/
inductive Piece
  | lit (b : Byte)
  | zeros (n : Nat)
  | copy (len dist : Nat)
  deriving DecidableEq, Repr

/-- Bytes that a piece produces. -/
def Piece.size : Piece → Nat
  | .lit _ => 1
  | .zeros n => n
  | .copy n _ => n

/-- Pieces of a payload, whether it ends otherwise than with its pieces, and a failure (7 CODE). -/
structure Parsed where
  pieces : List Piece
  left : Bool
  code : Bool

/-- A ZRLE payload up to `need` bytes (R270); a run of literals that the payload cuts short is not whole (R271). -/
def parseZrle : Nat → Nat → List Byte → List Piece → Parsed
  | 0, _, l, ps => ⟨ps.reverse, !l.isEmpty, false⟩
  | _ + 1, _, [], ps => ⟨ps.reverse, false, false⟩
  | fuel + 1, need, c :: l, ps =>
    if need = 0 then ⟨ps.reverse, true, false⟩
    else
      let n := c.toNat % 128 + 1
      if c.toNat < 128 then
        if l.length < n then ⟨ps.reverse, true, false⟩
        else parseZrle fuel (need - n) (l.drop n) ((l.take n).foldl (fun ps b => .lit b :: ps) ps)
      else parseZrle fuel (need - n) l (.zeros n :: ps)

/-- Bits of a byte, least significant first (R270). -/
def bitsOf (b : Byte) : List Bool := (List.range 8).map fun i => b.getLsbD i

/-- The first canonical code of a length (RFC 1951; R270). -/
def firstCode (t : List Nat) : Nat → Nat
  | 0 => 0
  | n + 1 => (firstCode t n + if n = 0 then 0 else t.count n) * 2

/-- The symbol of code `c` of length `n`: the symbols of one length take consecutive codes (R270). -/
def symbolOf (t : List Nat) (n c : Nat) : Option Nat :=
  let syms := (List.range t.length).filter fun i => t.getD i 0 == n
  if firstCode t n ≤ c then syms[c - firstCode t n]? else none

/-- One symbol from bits, code words most significant bit first: the symbol and the rest; `none` inside when the bits
end; `none` outside when no code word matches (R270). -/
def takeSymbol (t : List Nat) : Nat → Nat → Nat → List Bool → Option (Option (Nat × List Bool))
  | 0, _, _, _ => none
  | _ + 1, _, _, [] => some none
  | fuel + 1, n, c, b :: l =>
    let c := 2 * c + if b then 1 else 0
    match symbolOf t (n + 1) c with
    | some s => some (some (s, l))
    | none => takeSymbol t fuel (n + 1) c l

/-- A number from bits, least significant first. -/
def bitsNat : List Bool → Nat
  | [] => 0
  | b :: l => (if b then 1 else 0) + 2 * bitsNat l

/-- An LZT payload up to `need` bytes (R270). -/
def parseLzt (t : List Nat) : Nat → Nat → List Bool → List Piece → Parsed
  | 0, _, l, ps => ⟨ps.reverse, !l.isEmpty, false⟩
  | fuel + 1, need, l, ps =>
    if need = 0 then ⟨ps.reverse, decide (8 ≤ l.length) || l.any id, false⟩
    else
      match takeSymbol t 15 0 0 l with
      | none => ⟨ps.reverse, false, true⟩
      | some none => ⟨ps.reverse, false, false⟩
      | some (some (s, l)) =>
        if s < 256 then parseLzt t fuel (need - 1) l (.lit (BitVec.ofNat 8 s) :: ps)
        else if l.length < 13 then ⟨ps.reverse, false, false⟩
        else parseLzt t fuel (need - (s - 253)) (l.drop 13) (.copy (s - 253) (bitsNat (l.take 13) + 1) :: ps)

/-- Does a match reach before the start of its window, `prev` bytes of the previous block and those produced (R270)? -/
def windowBad (prev : Nat) : List Piece → Nat → Bool
  | [], _ => false
  | .copy n d :: ps, k => decide (prev + k < d) || windowBad prev ps (k + n)
  | p :: ps, k => windowBad prev ps (k + p.size)

/-- One byte of a match appended, from `d` bytes back in a reversed history. -/
def copyBack (d : Nat) : Nat → List Byte → List Byte
  | 0, h => h
  | n + 1, h => copyBack d n (h.getD (d - 1) 0 :: h)

/-- The history after pieces, reversed, starting from the previous block (R270). -/
def produce : List Piece → List Byte → List Byte
  | [], h => h
  | .lit b :: ps, h => produce ps (b :: h)
  | .zeros n :: ps, h => produce ps (List.replicate n 0 ++ h)
  | .copy n d :: ps, h => produce ps (copyBack d n h)

/-- The header checks of a block (R271): a cause, or CLEN. -/
def fbcHeader (ratio : Nat) (h : Nat) : Except Nat Nat :=
  let method := h % 4
  let clen := h / 4 % 2 ^ 13
  if method = 3 ∨ h / 2 ^ 15 ≠ 0 then .error 4
  else if (method = 0 ∧ clen ≠ 4096) ∨ (method ≠ 0 ∧ 4096 ≤ clen) then .error 5
  else if ratio * (clen + 8) < 4096 then .error 1
  else .ok clen

/-- The content checks of a block whose header passed (R271): a cause, or its 4096 bytes. -/
def fbcContent (hasTable : Bool) (table : List Nat) (window : List Byte) (method : Nat) (payload : List Byte)
    (check : Nat) : Except Nat (List Byte) :=
  if method = 0 then (if crc32c payload = check then .ok payload else .error 8)
  else if method = 2 ∧ !hasTable then .error 7
  else
    let p := if method = 1 then parseZrle 4097 4096 payload []
      else parseLzt table 4097 4096 (payload.flatMap bitsOf) []
    let n := (p.pieces.map Piece.size).sum
    if p.code then .error 7
    else if windowBad window.length p.pieces 0 then .error 6
    else if n ≠ 4096 ∨ p.left then .error 5
    else
      let out := ((produce p.pieces window.reverse).take 4096).reverse
      if crc32c out = check then .ok out else .error 8

/-- Output bytes per cycle of a block's method (R267). -/
def fbcRate (method : Nat) : Nat := if method = 0 then 256 else if method = 1 then 128 else 16

/-! ### From bytes to vectors (R266) -/

/-- Lanes of a finished vector. -/
def lanesPer (d : Word) : Nat := if dOut d = 0 then 64 else if dOut d = 1 then 128 else 256

/-- Bytes of a lane. -/
def laneBytes (d : Word) : Nat := 256 / lanesPer d

/-- Decode raw bytes as far as whole elements, or whole units of 264 bytes, reach: the lanes, each with its flags and the
command of its last byte, and the rest. -/
def decodeRaw (d : Word) (raw : List (Byte × Option Nat)) : List (Nat × Flags × Option Nat) × List (Byte × Option Nat) :=
  let owner (i : Nat) : Option Nat := match raw[i]? with | some b => b.2 | none => none
  match dFmt d with
  | none => (raw.map fun b => (b.1.toNat, 0, b.2), [])
  | some t =>
    let out : Ty := .flt (if dOut d = 0 then .f32 else .bf16)
    let w := bytesOf t
    if dScaled d then
      let u := raw.length / 264
      let rs := (List.range u).flatMap fun i =>
        let unit := ((raw.drop (264 * i)).take 264).map (·.1)
        (List.range 256).map fun e =>
          let r := roundTo out fINV .rne ((t.value (unit.getD e 0).toNat).mul (e5m3 (unit.getD (256 + e / 32) 0).toNat)).1
          (r.1, r.2, owner (264 * i + 263))
      (rs, raw.drop (264 * u))
    else
      let k := raw.length / w
      let rs := (List.range k).map fun e =>
        let r := roundTo out fINV .rne (t.value (leNat (((raw.drop (w * e)).take w).map (·.1))))
        (r.1, r.2, owner (w * e + w - 1))
      (rs, raw.drop (w * k))

/-- The flags of the decoded lanes that are a command's (R222). -/
def laneFlags (l : List (Nat × Flags × Option Nat)) (pos : Nat) : Flags :=
  (l.filter fun x => x.2.2 == some pos).foldl (fun f x => f ||| x.2.1) 0

/-- Flags gathered by command, with those of decoded lanes added: a lane of no command in flight adds none (R222). -/
def gather (g : List (Nat × Flags)) (l : List (Nat × Flags × Option Nat)) : List (Nat × Flags) :=
  ((l.filterMap fun x => x.2.2).eraseDups).foldl (fun g p =>
    match g.find? fun e => e.1 == p with
    | some e => (p, e.2 ||| laneFlags l p) :: g.filter fun e => e.1 != p
    | none => (p, laneFlags l p) :: g) g

namespace StreamReg

/-- Elements are decoded as far as the released bytes reach, and the next full vector is formed (R266); their flags are
gathered for the commands that delivered them (R222). -/
def form (r : StreamReg) : StreamReg :=
  if r.out.isSome then r
  else
    let (l, rest) := decodeRaw r.desc r.raw
    let lanes := r.lanes ++ l.map (·.1)
    let n := lanesPer r.desc
    let r := { r with raw := rest, flags := gather r.flags l }
    if n ≤ lanes.length then
      { r with lanes := lanes.drop n, out := some (ofLanes (laneBytes r.desc) (lanes.take n), dRep r.desc) }
    else { r with lanes }

/-- Can no full vector be formed of what has been released, and is none to be enqueued? -/
def formless (r : StreamReg) : Bool := r.form.out.isNone

/-- Enqueue the finished vector once: at most one vector a cycle (R266, R267). -/
def emit (r : StreamReg) : StreamReg :=
  match r.out with
  | some (v, k) => { r with queue := r.queue ++ [v], vecs := r.vecs + 1, out := if k = 0 then none else some (v, k - 1) }
  | none => r

/-- The input bytes that may be consumed: those before the first flush. -/
def open_ (r : StreamReg) : List (Byte × Option Nat) :=
  match r.flush with
  | m :: _ => r.input.take (m - r.used)
  | [] => r.input

/-- `n` input bytes consumed. -/
def consume (r : StreamReg) (n : Nat) : StreamReg := { r with input := r.input.drop n, used := r.used + n }

/-- The cause for which the watchdog fires, if any (R272). -/
def watch (r : StreamReg) : Option Nat :=
  if r.bound.isNone || r.cut then none
  else if dWout r.desc * 4096 < r.vecs * 256 then some 2
  else if dWcyc r.desc < r.cycles then some 3 else none

/-- The input chunk that holds the last of the next `n` bytes (R272). -/
def chunkOf (r : StreamReg) (n : Nat) : Nat := (r.used + n - 1) / 4096

/-- May the decoder turn to the next `n` input bytes? Into another chunk only when every vector that the earlier ones complete
has been enqueued, so that a vector counts for the chunk that holds its last byte (DEDUCED, log 87). -/
def mayTurn (r : StreamReg) (n : Nat) : Bool := r.chunkOf n == r.chunk || (r.out.isNone && r.formless)

/-- The decoder turns to the next `n` input bytes: in another chunk the counts start again, once the watchdog has judged those
of the one before (R272). A block counts for the chunk that holds its last byte (DEDUCED, log 87). -/
def turn (r : StreamReg) (n : Nat) : StreamReg :=
  if r.chunkOf n = r.chunk then r
  else match r.watch with
    | some c => r.cutOff c
    | none => { r with chunk := r.chunkOf n, vecs := 0, cycles := 0 }

/-- The header of the block at the front of the input, when its four bytes are there. -/
def header (r : StreamReg) : Option Nat :=
  if 4 ≤ r.open_.length then some (leNat ((r.open_.take 4).map (·.1))) else none

/-- Is a whole block at the front of the input, with its header checks passed? -/
def blockReady (r : StreamReg) : Option (Nat × Nat) :=
  match r.header with
  | some h => match fbcHeader (dRatio r.desc) h with
    | .ok clen => if clen + 8 ≤ r.open_.length then some (h % 4, clen) else none
    | .error _ => none
  | none => none

/-- Is the block in hand to be judged now: its header fails, or it has been decoded and the released bytes of the one
before are used up (R271)? -/
def blockDue (r : StreamReg) : Bool :=
  r.bound.isSome && !r.cut && dFbc r.desc && match r.header with
    | some h => match fbcHeader (dRatio r.desc) h with
      | .error _ => true
      | .ok _ => r.blockReady.isSome && decide (4096 ≤ r.work) && r.raw.length < 264 && r.formless
    | none => false

/-- The judgement of the block in hand: cut off, or released to element decoding (R271). -/
def judge (r : StreamReg) : StreamReg :=
  match r.header with
  | none => r
  | some h =>
    match fbcHeader (dRatio r.desc) h with
    | .error c => r.cutOff c
    | .ok clen =>
      let b := r.open_.map (·.1)
      match fbcContent (!r.table.isEmpty) r.table r.window (h % 4) ((b.drop 4).take clen)
          (leNat ((b.drop (4 + clen)).take 4)) with
      | .error c => r.cutOff c
      | .ok out =>
        let by_ := match r.open_[clen + 7]? with | some x => x.2 | none => none
        let r := r.consume (clen + 8)
        { r with raw := r.raw ++ out.map (·, by_), window := out, work := 0
                 blocks := if r.blocks = BitVec.allOnes 32 then r.blocks else r.blocks + 1 }

/-- Can nothing before the first flush make a full vector any more? -/
def drained (r : StreamReg) : Bool :=
  r.formless && if dFbc r.desc then r.blockReady.isNone else r.open_.isEmpty

/-- FLUSH (R266): the rest of the vector is filled with +0 lanes. -/
def doFlush (r : StreamReg) : StreamReg :=
  match r.flush with
  | [] => r
  | _ :: fl =>
    if r.lanes.isEmpty then { r with flush := fl }
    else
      let n := lanesPer r.desc
      { r with flush := fl, lanes := []
               out := some (ofLanes (laneBytes r.desc) ((r.lanes ++ List.replicate n 0).take n), dRep r.desc) }

/-- One cycle's input of a decoder, when it has room for decompressed bytes: work on the block in hand, or bytes released to
element decoding; `none` when there is nothing to do (R267). -/
def take (r : StreamReg) : Option StreamReg :=
  if 512 ≤ r.raw.length ∨ r.out.isSome then none
  else if dFbc r.desc then
    match r.blockReady with
    | some (m, n) => if r.mayTurn (n + 8) && decide (r.work < 4096) then
        let q := r.turn (n + 8)
        some (if q.cut then q else { q with work := q.work + fbcRate m })
      else none
    | none => none
  else
    let b := r.open_.take (min 256 (4096 - r.used % 4096))
    if b.isEmpty || !r.mayTurn b.length then none
    else
      let q := r.turn b.length
      some (if q.cut then q else let q := q.consume b.length; { q with raw := q.raw ++ b })

/-- One cycle of a decoder: it stands still while its queue is full (R267). A cycle in which it does something counts for the
chunk in hand; that of a vector for the chunk of the vector (R272). -/
def cycle (r : StreamReg) : StreamReg :=
  if r.bound.isNone || r.cut || decide (16 ≤ r.queue.length) then r
  else
    let one (r : StreamReg) : StreamReg := { r with cycles := r.cycles + 1 }
    let r := r.form
    let gives := r.out.isSome
    let r := if gives then one r.emit else r
    let r := match r.take with
      | some q => if gives || q.cut then q else one q
      | none => r
    if r.flush.isEmpty || !r.drained then r else (r.form).doFlush

/-- The bytes of the whole blocks at the front of an input that pass their checks, each with the command of its block (R271). -/
def comingBytes (r : StreamReg) : Nat → List Byte → List (Byte × Option Nat) → List (Byte × Option Nat)
  | 0, _, _ => []
  | k + 1, window, l =>
    let b := l.map (·.1)
    match fbcHeader (dRatio r.desc) (leNat (b.take 4)) with
    | .error _ => []
    | .ok n =>
      if l.length < n + 8 then []
      else match fbcContent (!r.table.isEmpty) r.table window (leNat (b.take 4) % 4) ((b.drop 4).take n)
          (leNat ((b.drop (4 + n)).take 4)) with
        | .error _ => []
        | .ok out => out.map (·, match l[n + 7]? with | some x => x.2 | none => none) ++ comingBytes r k out (l.drop (n + 8))

/-- A command is in flight no longer: what it delivered adds no flag from here on (R222). -/
def forget (r : StreamReg) (pos : Nat) : StreamReg :=
  let anon (b : Byte × Option Nat) : Byte × Option Nat := if b.2 = some pos then (b.1, none) else b
  { r with input := r.input.map anon, raw := r.raw.map anon, flags := r.flags.filter fun e => e.1 != pos }

/-- The flags that a retiring feeder takes: those gathered for it, and those of every whole element among its bytes that is not
decoded yet, which are not gathered again when the decoder reaches them (R257, R222; DEDUCED, log 88). -/
def takeFlags (r : StreamReg) (pos : Nat) : StreamReg × Flags :=
  let coming := if r.cut || r.bound.isNone then []
    else (decodeRaw r.desc (r.raw ++ if dFbc r.desc then r.comingBytes (r.input.length / 8) r.window r.input else r.input)).1
  let got := match r.flags.find? fun e => e.1 == pos with | some e => e.2 | none => 0
  (r.forget pos, got ||| laneFlags coming pos)

end StreamReg

namespace State

/-- Stream register `st` of a tile. -/
def streamReg (s : State) (t : Fin 144) (st : Fin 8) : StreamReg := (s.tileAt t).eng.sts.get st

/-- Replace a stream register. -/
def setStreamReg (s : State) (t : Fin 144) (st : Fin 8) (r : StreamReg) : State :=
  s.modTile t fun tl => { tl with eng := { tl.eng with sts := upd tl.eng.sts st r } }

end State

/-- FBC_BLOCK (R271): the decoder checks a block and releases it, or cuts the stream off. -/
def execFbcBlock (t : Fin 144) (st : Fin 8) (s : State) : Host.Outcome State Fault Refusal :=
  let r := s.streamReg t st
  .next (if r.blockDue then s.setStreamReg t st r.judge else s)

/-- WATCHDOG (R272). -/
def execWatchdog (t : Fin 144) (st : Fin 8) (s : State) : Host.Outcome State Fault Refusal :=
  let r := s.streamReg t st
  .next (match r.watch with
    | some c => s.setStreamReg t st (r.cutOff c)
    | none => s)

end Sys2Proof.Machine
end

