-- ==== Sys2Proof/Machine/Copy.lean ====
section
/-! DEFINITION. The copy engine: its queues, the forms that enter them, chunks, consumers, conversion, follow-ons, aborts
and suspensions (chapter 13: R255 to R265, R273 to R277; RPUT, R349). Selections stand in Select.lean. -/

namespace Sys2Proof.Machine

namespace State

/-! ### Entering a queue (R255) -/

/-- The copy queue of the slot in hand: CP0 feeds queue 0, CP1 queue 1. -/
def ownQueue (s : State) : Fin 2 := if s.cur.slot = 7 then 1 else 0

/-- Replace copy queue `q` of a tile. -/
def setCq (s : State) (t : Fin 144) (q : Fin 2) (l : List CopyCmd) : State :=
  s.modTile t fun tl => { tl with eng := { tl.eng with cq := upd tl.eng.cq q l } }

/-- Copy queue `q` of a tile. -/
def cqOf (s : State) (t : Fin 144) (q : Fin 2) : List CopyCmd := (s.tileAt t).eng.cq.get q

/-- A command takes an entry of its slot's queue, or its bundle waits at issue (R255). -/
def enqueueCopy (s : State) (op : CopyOp) (src dst : Word) (shp : Nat) (cmask : BitVec 10) (oms : Fin 8) (tok : TokF)
    (sid : Fin 16) (zero flush : Bool) : Res State :=
  let q := s.ownQueue
  let l := s.cqOf s.cur.tile q
  if l.length < 32 then
    let c : CopyCmd :=
      { op, slot := s.cur.slot, pc := s.cur.pc, pos := s.tile.eng.cqPos.get q, entered := s.now, mark := s.orderKey
        sid, tok, src, dst, shp, cmask, oms, zero, flush, run := none }
    let s := s.setCq s.cur.tile q (l ++ [c])
    .ok (s.modEng fun e => { e with cqPos := upd e.cqPos q (c.pos + 1) })
  else s.stall 2

end State

/-- The token fields of a form that has none. -/
def noTok : TokF := ⟨15, 15, 15, 15⟩

/-- COPY (R273). -/
def execCopy (src dst shp : Fin 64) (cmask : BitVec 10) (oms : Fin 8) (tok : TokF) (sid : Fin 16) (zero flush : Bool)
    (s : State) : Host.Outcome State Fault Refusal :=
  s.finish do
    let a ← s.takeX src
    let b ← s.takeX dst
    s.enqueueCopy .copy a b shp.val cmask oms tok sid zero flush

/-- COPYM (R264, R273). -/
def execCopym (src dst shp : Fin 64) (cmask : BitVec 10) (oms : Fin 8) (tok : TokF) (sid : Fin 16) (zero flush : Bool)
    (follow : Word) (s : State) : Host.Outcome State Fault Refusal :=
  s.finish do
    let a ← s.takeX src
    let b ← s.takeX dst
    s.enqueueCopy (.copym follow) a b shp.val cmask oms tok sid zero flush

/-- STBIND (R274). -/
def execStbind (st : Fin 8) (a : XSrc) (s : State) : Host.Outcome State Fault Refusal :=
  s.finish do
    let p ← s.readX a
    let _ ← s.mxPointer p 64
    s.enqueueCopy (.stbind st) p 0 0 0 0 noTok 0 false false

/-- STDROP (R275). -/
def execStdrop (st : Fin 8) (s : State) : Host.Outcome State Fault Refusal :=
  s.finish (s.enqueueCopy (.stdrop st) 0 0 0 0 0 noTok 0 false false)

/-- STSTAT (R276). -/
def execStstat (d : XDst) (st : Fin 8) (s : State) : Host.Outcome State Fault Refusal :=
  s.finish (s.writeX d 2 (stStat (s.tile.eng.sts.get st)))

/-- SELP (R302). -/
def execSelp (src dst : Fin 64) (lc : Fin 32) (tok : TokF) (sid : Fin 16) (s : State) :
    Host.Outcome State Fault Refusal :=
  s.finish do
    let a ← s.takeX src
    let b ← s.takeX dst
    s.enqueueCopy .selp a b lc.val 1 0 tok sid false false

/-- SELK (R302). -/
def execSelk (src dst : Fin 64) (lc : Fin 32) (tok : TokF) (sid : Fin 16) (s : State) :
    Host.Outcome State Fault Refusal :=
  s.finish do
    let a ← s.takeX src
    let b ← s.takeX dst
    s.enqueueCopy .selk a b lc.val 1 0 tok sid false false

/-- RPUT (R349): a copy to the DST consumer alone, with the flag pointer read at commit. -/
def execRput (src dst shp : Fin 64) (flg : Option (Fin 64)) (tok : TokF) (sid : Fin 16) (s : State) :
    Host.Outcome State Fault Refusal :=
  s.finish do
    let a ← s.takeX src
    let b ← s.takeX dst
    let f ← match flg with
      | some n => some <$> s.takeX n
      | none => pure none
    s.enqueueCopy (.rput f) a b shp.val 1 0 tok sid false false

/-! ### Shapes and rows (R259) -/

/-- A field of the shape registers. -/
def shapeN (sh : List Word) (lo len : Nat) : Nat := (fld (sh.getD 0 0) lo len).toNat
/-- Bytes per row. -/
def shapeN0 (sh : List Word) : Nat := shapeN sh 0 24
/-- Rows per plane. -/
def shapeN1 (sh : List Word) : Nat := shapeN sh 24 24
/-- Planes. -/
def shapeN2 (sh : List Word) : Nat := shapeN sh 48 16

/-- The offset of row `r` of the sequence: SRC + p·SP + r·SR, or the same for DST (R259). -/
def rowAt (sh : List Word) (p : Word) (dst : Bool) (r : Nat) : Int :=
  let k := if dst then 3 else 1
  (offsetOf p : Int) + (r / shapeN1 sh : Nat) * (sh.getD (k + 1) 0).toInt + (r % shapeN1 sh : Nat) * (sh.getD k 0).toInt

/-- A piece of a row: its row, its start in the row, its length, and its place in the byte sequence. -/
structure Seg where
  row : Nat
  start : Nat
  len : Nat
  seq : Nat

/-- The pieces of rows that the bytes [a, b) of the sequence make. -/
def segsOf (n0 a b : Nat) : List Seg :=
  if n0 = 0 ∨ b ≤ a then []
  else (List.range ((b - 1) / n0 + 1 - a / n0)).map fun i =>
    let r := a / n0 + i
    let lo := max a (r * n0)
    let hi := min b ((r + 1) * n0)
    ⟨r, lo - r * n0, hi - lo, lo⟩

/-- A range cut into parts of one line each. -/
def linesOf (a n : Nat) : List (Nat × Nat) := partsIn 64 a n

/-- The unit in which the copy engine reads and writes through a pointer: an aligned word of 8 bytes (R354), and in global
memory the part of one line, which a channel performs as one access (log 11). -/
def partUnit (p : Word) : Nat := if spaceOf p = 0 then 64 else 8

/-! ### The bytes of a pointer (R190, R261) -/

/-- Why a chunk cannot go on: a row leaves its space, or a translation fails with cause, level and address. -/
inductive ChunkStop
  | addr (p : Word)
  | page (cause level : Nat) (p : Word)

namespace State

/-- The key and grade of an offset of an engine's pointer; a global one is translated (R198). -/
def engineKey (s : State) (t : Fin 144) (p : Word) (o : Nat) (write : Bool) :
    State × Except ChunkStop (Nat × Nat) :=
  if spaceOf p = 0 then
    match s.engineLeaf t o write with
    | (s, .ok l) => ((s.touch l (s.tileAt t).sys.ctx), .ok (s.forward l.pa, l.grade))
    | (s, .error (cause, lv, _)) => (s, .error (.page cause lv (withOffset p o)))
  else (s, .ok (spaceKey t (spaceOf p) (rankOf p) o, 2))

/-- Translate every page of a range, or say where it fails. -/
def rangeOkay (s : State) (t : Fin 144) (p : Word) (o n : Nat) (write : Bool) : State × Option ChunkStop :=
  if spaceOf p ≠ 0 ∨ n = 0 then (s, none)
  else (List.range ((o + n - 1) / 2 ^ 16 + 1 - o / 2 ^ 16)).foldl (fun (r : State × Option ChunkStop) i =>
    match r.2 with
    | some _ => r
    | none =>
      match r.1.engineLeaf t (max o ((o / 2 ^ 16 + i) * 2 ^ 16)) write with
      | (s, .ok _) => (s, none)
      | (s, .error (cause, lv, _)) =>
        (s, some (.page cause lv (withOffset p (max o ((o / 2 ^ 16 + i) * 2 ^ 16) : Nat))))) (s, none)

/-- The positions, counted from `seq`, of bytes [key, key + n) that a mark covers. -/
def badBytes (s : State) (key n grade seq : Nat) : List Nat :=
  if s.gradeClash key grade then (List.range n).map (· + seq)
  else if s.marks.isEmpty then []
  else ((List.range n).filter fun i => s.marked (key + i) 1 (granule key grade)).map (· + seq)

/-- Read a range through a pointer, line by line: bytes and marked positions. -/
def readRange (s : State) (t : Fin 144) (p : Word) (o n seq : Nat) : State × List Byte × List Nat :=
  (linesOf o n).foldl (fun (r : State × List Byte × List Nat) part =>
    match r.1.engineKey t p part.1 false with
    | (s, .ok (key, grade)) =>
      let s := s.settleLine key part.2
      (s, r.2.1 ++ s.mem.bytes key part.2, r.2.2 ++ s.badBytes key part.2 grade (seq + (part.1 - o)))
    | (s, .error _) => (s, r.2.1, r.2.2)) (s, [], [])

/-- Write a range through a pointer, line by line; positions of `bad` carry marks. -/
def writeRange (s : State) (t : Fin 144) (p : Word) (o : Nat) (l : List Byte) (seq : Nat) (bad : List Nat) : State :=
  (linesOf o l.length).foldl (fun s part =>
    match s.engineKey t p part.1 true with
    | (s, .ok (key, grade)) =>
      let s := s.homeWrite key part.2 grade (leNat ((l.drop (part.1 - o)).take part.2)) false
      let g := granule key grade
      (bad.filter fun b => decide (seq + (part.1 - o) ≤ b) && decide (b < seq + (part.1 - o) + part.2)).foldl
        (fun s b => s.setMark ((key + (b - (seq + (part.1 - o)))) / g * g)) s
    | (s, .error _) => s) s

/-! ### Conversion (R261) -/

end State

/-- The bank of an offset given as an exact number. -/
def bankOf (bfmt : List Word) (o : Int) : Word := bankAt bfmt o.toNat

/-- Does a copy between two offsets of the scratchpad convert (R261)? -/
def converts (bfmt : List Word) (src dst : Word) : Bool :=
  spaceOf src == 1 && spaceOf dst == 1
    && fld (bankAt bfmt (offsetOf src)) 0 12 != fld (bankAt bfmt (offsetOf dst)) 0 12

/-- The banks, by number, that rows of `len` bytes at the given offsets reach in the scratchpad. -/
def banksOf (offs : List Int) (len : Nat) : List Nat :=
  (offs.flatMap fun (o : Int) =>
    let a := o.toNat / 2 ^ 15
    let b := (o + (len : Int) - 1).toNat / 2 ^ 15
    (List.range (b + 1 - a)).map (· + a)).eraseDups.filter (· < 16)

/-- The start conditions of a converting copy (R261, R265): 6 FORMAT, then 3 SHAPE. -/
def convertBad (bfmt sh : List Word) (src dst : Word) : Option Nat :=
  let rows := List.range (shapeN1 sh * shapeN2 sh)
  let so := rows.map (rowAt sh src false)
  let ws := bankWidth (bankAt bfmt (offsetOf src))
  let wd := bankWidth (bankAt bfmt (offsetOf dst))
  let do_ := rows.map (rowAt sh dst true)
  let dl := shapeN0 sh / ws * wd
  let sb := banksOf so (shapeN0 sh)
  let db := banksOf do_ dl
  let bank (i : Nat) : Word := bfmt.getD i 0
  let spill (os : List Int) (n : Nat) : Bool := os.any fun (o : Int) =>
    let a := o.toNat
    (List.range ((a + n - 1) / 2 ^ 15 + 1 - a / 2 ^ 15)).any fun i =>
      let b := a / 2 ^ 15 + i
      bankScaled (bank b) && decide (b * 2 ^ 15 + 0x7C00 < a + n) && decide (a < (b + 1) * 2 ^ 15)
  if (sb ++ db).any fun i => (bankTy (bank i)).isNone then some 6
  else if sb.any (fun i => bankWidth (bank i) != ws) || db.any (fun i => bankWidth (bank i) != wd)
      || shapeN0 sh % ws != 0
      || (db.any (fun i => bankScaled (bank i)) && (shapeN0 sh / ws % 32 != 0 || do_.any fun o => o % 32 != 0))
      || spill so (shapeN0 sh) || spill do_ dl then some 3
  else none

namespace State

/-- One element of a converting copy from its bytes, decoded exactly, with whether it or its scale is marked (R217). -/
def decodeAt (s : State) (t : Fin 144) (bfmt : List Word) (o : Nat) (l : List (Byte × Bool)) : Val × Bool :=
  let b := bankAt bfmt o
  let k := spadBase + t.val * 2 ^ 19 + scaleAt o
  match bankTy b with
  | none => (.zero, false)
  | some ty => (decodeBank ty (bankScaled b) (s.load k 1) (leNat (l.map (·.1))),
      l.any (·.2) || (bankScaled b && s.marked k 1 4))

end State

/-- Decoded elements converted for consecutive places from offset `d`, each under its own destination bank (R218, R261):
the element bytes, the scale bytes with their offsets, each byte with whether it is marked, and the flags. In a scaled
bank the elements of a block share their scale and so their mark (R265). -/
def convertRow (bfmt : List Word) (d wd : Nat) (vs : List (Val × Bool)) :
    List (Byte × Bool) × List (Nat × Byte × Bool) × Flags :=
  let bank (e : Nat) : Word := bankAt bfmt (d + e * wd)
  let ty (e : Nat) : Ty := (bankTy (bank e)).getD (.int .n8)
  let block (g : Nat) : List (Val × Bool) := (vs.drop (32 * g)).take 32
  let scales := (List.range ((vs.length + 31) / 32)).map fun g =>
    if bankScaled (bank (32 * g)) then some (scaleSearch (ty (32 * g)) ((block g).map (·.1)), (block g).any (·.2)) else none
  let rs := (vs.zip (List.range vs.length)).map fun p =>
    let o := d + p.2 * wd
    let sc := scales.getD (p.2 / 32) none
    (encodeBank (bank p.2) (ty p.2) (o / 2 ^ 15) (o % 2 ^ 15) (sc.map (·.1)) p.1.1, match sc with | some x => x.2 | none => p.1.2)
  (rs.flatMap fun r => (leBytes wd r.1.1).map fun b => (b, r.2),
    (scales.zip (List.range scales.length)).filterMap fun p =>
      p.1.map fun x => (scaleAt (d + 32 * p.2), BitVec.ofNat 8 x.1, x.2),
    rs.foldl (fun f r => f ||| r.1.2) 0)

namespace State

/-- What the DST consumer of a converting copy takes of a chunk whose source bytes have been read: the parts to write, and
the flags (R261). -/
def convertChunk (s : State) (t : Fin 144) (run : CopyRun) (src dst : Word) (segs : List Seg) (a : Nat)
    (got : List (Byte × Bool)) : List ChunkPart × Flags :=
  let ws := bankWidth (bankAt run.bfmt (offsetOf src))
  let wd := bankWidth (bankAt run.bfmt (offsetOf dst))
  let rows := segs.map fun g =>
    let so := (rowAt run.shape src false g.row).toNat + g.start
    let d := (rowAt run.shape dst true g.row).toNat + g.start / ws * wd
    let vs := (List.range (g.len / ws)).map fun e =>
      s.decodeAt t run.bfmt (so + e * ws) ((got.drop (g.seq - a + e * ws)).take ws)
    (d, convertRow run.bfmt d wd vs)
  (rows.flatMap fun r => rowParts r.1 r.2.1 r.2.2.1, rows.foldl (fun f r => f ||| r.2.2.2) 0)

/-! ### Commands of a queue -/

/-- Replace the command of a position. -/
def putCmd (s : State) (t : Fin 144) (q : Fin 2) (c : CopyCmd) : State :=
  s.setCq t q ((s.cqOf t q).map fun d => if d.pos = c.pos then c else d)

/-- Remove the command of a position: its entry is free (R255). -/
def dropCmd (s : State) (t : Fin 144) (q : Fin 2) (pos : Nat) : State :=
  s.setCq t q ((s.cqOf t q).filter fun d => d.pos != pos)

end State

/-- The stream consumers of a CMASK (R260). -/
def streamsIn (cmask : BitVec 10) : List (Fin 8) := (List.finRange 8).filter fun i => cmask.getLsbD (2 + i.val)

namespace State

/-- The stream consumers of a started command are cut off with cause ABORT (R265, R277); a command that does not complete
adds no flag (R222). -/
def cutStreams (s : State) (t : Fin 144) (q : Fin 2) (c : CopyCmd) : State :=
  (streamsIn c.cmask).foldl (fun s st =>
    let r := s.streamReg t st
    if r.bound = some q then s.setStreamReg t st ((r.cutOff 11).forget c.pos) else s) s

/-- A command ends without retirement: its entry is free and its streams are cut off (R265, R277). -/
def endCmd (s : State) (t : Fin 144) (q : Fin 2) (c : CopyCmd) : State := (s.dropCmd t q c.pos).cutStreams t q c

/-- Does a cancelled command still complete the writes of its chunk (R277)? -/
def cancelled (c : CopyCmd) : Bool := match c.run with | some r => r.stopping | none => false

/-- A command is aborted: its entry is free, its streams are cut off, and an ENGINE entry says why (R265); a cancelled one ends
at once, with no entry (R277; DESIGN CHOICE, log 98). -/
def abortCmd (s : State) (t : Fin 144) (q : Fin 2) (c : CopyCmd) (chunk cause : Nat) (addr : Word) : State :=
  if cancelled c then s.endCmd t q c
  else (s.endCmd t q c).engineFault t c.slot c.pc q.val c.pos chunk cause addr 0 0

/-- A command is suspended on a page fault at a chunk or window, with an ENGINE entry that takes a resume (R265, R394); a
cancelled one ends at once (R277; DESIGN CHOICE, log 98). -/
def suspendCmd (s : State) (t : Fin 144) (q : Fin 2) (c : CopyCmd) (run : CopyRun) (chunk level : Nat) (addr : Word) :
    State :=
  if run.stopping then s.endCmd t q c else
  let seq := (s.tileAt t).sched.parkSeq + 1
  let s := s.modTile t fun tl => { tl with sched := { tl.sched with parkSeq := seq } }
  let s := s.putCmd t q { c with run := some { run with susp := some seq } }
  s.engineFault t c.slot c.pc q.val c.pos chunk 1 addr level (tokenOf t.val 0 (1 + q.val) seq)

end State

/-- Chunks of a sequence (R259). -/
def chunksIn (total : Nat) : Nat := (total + 4095) / 4096

/-- Has a started command sent its last source read request (R256)? One with ZERO sends none, one that CPCANCEL stops ends with
its chunk, and nothing starts behind a suspended one (R397). -/
def lastReadSent (c : CopyCmd) (windows : Nat) : Bool :=
  match c.run with
  | none => false
  | some r => r.susp.isNone && match r.sel with
    | some v => decide (windows ≤ v.next) || v.late
    | none => match c.op with
      | .stbind _ | .stdrop _ => false
      | _ => c.zero || r.chunk == chunksIn r.total || match r.prog with
        | some p => (r.stopping || r.chunk + 1 == chunksIn r.total) && (!p.reading || p.parts.isEmpty)
        | none => false

/-! ### Windows of a selection (R307), which the start rule of R256 needs -/

/-- The element type of a selection's descriptor. -/
def selTy (desc : List Word) : Option Ty := Ty.ofCode (fld (desc.getD 1 0) 0 8)
/-- Bytes of an element of a selection. -/
def selWidth (desc : List Word) : Nat := match selTy desc with | some t => bytesOf t | none => 1
/-- The offset of a selection's region. -/
def selBase (desc : List Word) : Nat := offsetOf (desc.getD 0 0)
/-- The number of windows of a selection (R307). -/
def selWindows (v : Sel) : Nat :=
  let a := selBase v.desc
  let b := a + v.n * selWidth v.desc
  (b - 1) / 4096 + 1 - a / 4096

/-- The windows of a command, 0 for one that is no selection. -/
def cmdWindows (c : CopyCmd) : Nat := match c.run with
  | some r => match r.sel with | some v => selWindows v | none => 0
  | none => 0

/-! ### The start of a command (R256, R258, R265) -/

namespace State

/-- Is a command one of the binding forms? -/
def isBinding (op : CopyOp) : Bool := match op with | .stbind _ | .stdrop _ => true | _ => false

/-- Have the slot accesses that a command observes been performed (R263)? -/
def observed (s : State) (t : Fin 144) (c : CopyCmd) : Bool :=
  s.net.accs.all fun a => a.tile != t || a.sid != c.sid || a.performed || decide (c.mark ≤ a.seq)

/-- The first command of a queue that has not started, when R256 lets it start now. A selection reads its descriptor at its
start, so that the slot accesses it observes come before (R303, R361). A stop request keeps commands from starting
(R408). -/
def copyReady (s : State) (t : Fin 144) (q : Fin 2) : Option CopyCmd :=
  let l := s.cqOf t q
  let i := (l.takeWhile fun c => c.run.isSome).length
  match l[i]? with
  | none => none
  | some c =>
    let before := l.take i
    let seen := match c.op with | .selp | .selk => s.observed t c | _ => true
    let free := match before.getLast? with
      | none => true
      | some e => lastReadSent e (cmdWindows e) && decide (i < 2) && !isBinding e.op && !isBinding c.op
    if !(s.tileAt t).sys.stop && decide (c.entered + 4 ≤ s.now) && free && seen && s.tokensOk t c.tok
    then some c else none

/-- The checks of a command's pointers at start (R191, R265): the first that fails. -/
def pointersBad (s : State) (t : Fin 144) (c : CopyCmd) : Option Word :=
  match c.op with
  | .rput f =>
    if !s.reachOk t [1] c.src (offsetOf c.src) 1 then some c.src
    else if !s.reachOk t [2, 6] c.dst (offsetOf c.dst) 1 then some c.dst
    else match f with
      | none => none
      | some p =>
        let six := spaceOf c.dst = 6
        let n := if six then 8 else 4
        if s.reachOk t [if six then 6 else 2] p (offsetOf p) n && rankOf p == rankOf c.dst && offsetOf p % n == 0 then none
        else some p
  | _ =>
    if !c.zero && !s.reachOk t [0, 1, 2, 3] c.src (offsetOf c.src) 1 then some c.src
    else if c.cmask.getLsbD 0 && !s.reachOk t [0, 1, 2, 3, 6] c.dst (offsetOf c.dst) 1 then some c.dst
    else none

/-- The start checks of a copy or RPUT in the order of R265: cause and address. -/
def copyStartBad (s : State) (t : Fin 144) (q : Fin 2) (c : CopyCmd) (sh bfmt : List Word) : Option (Nat × Word) :=
  let total := shapeN0 sh * shapeN1 sh * shapeN2 sh
  match s.pointersBad t c with
  | some p => some (2, p)
  | none =>
    if total = 0 then some (3, 0)
    else if c.cmask.getLsbD 1 && ((s.tileAt t).eng.om.get c.oms != .claimed || decide (16384 < total)) then some (4, 0)
    else if (streamsIn c.cmask).any fun st => (s.streamReg t st).bound != some q then some (5, 0)
    else if !c.zero && c.cmask.getLsbD 0 && converts bfmt c.src c.dst then
      (convertBad bfmt sh c.src c.dst).map fun k => (k, 0)
    else none

/-- A fresh run record of a command that starts now. -/
def newRun (s : State) (sh bfmt : List Word) (conv : Bool) (total : Nat) (c : CopyCmd) (nextAt : Nat) : CopyRun :=
  { start := s.now, shape := sh, bfmt, conv, total, chunk := 0, prog := none, nextAt, stopping := false, accDst := 0, accOm := 0
    accSt := (streamsIn c.cmask).map fun i => (i, 0), buf := [], bufAt := 0, bad := [], ackAt := s.now, acks := []
    landAt := none, susp := none, handed := false, flagged := false, flags := 0, sel := none }

/-- STBIND at its start (R274): the stream is emptied, and bound when its descriptor is defined. Words of the descriptor or the
table that fail parity are used as they stand (DESIGN CHOICE, log 102). -/
def startBind (s : State) (t : Fin 144) (q : Fin 2) (c : CopyCmd) (st : Fin 8) : State :=
  let k := spadBase + t.val * 2 ^ 19
  let s := s.settleEng t (offsetOf c.src) 64
  let w := (List.range 8).map fun i => s.load64 (k + offsetOf c.src + 8 * i)
  let p := w.getD 1 0
  let s := if p = 0 then s else s.settleEng t (offsetOf p) 512
  let table := if p = 0 then [] else (s.mem.bytes (k + offsetOf p) 512).map (·.toNat)
  let r := if descOk w table then { StreamReg.reset with bound := some q, desc := w.getD 0 0, table }
    else { StreamReg.reset with cause := 10 }
  let s := (s.setStreamReg t st r).clearMarks (stKey t st.val 0 0) 512 1
  if p = 0 then s.dropCmd t q c.pos
  else s.putCmd t q { c with run := some { s.newRun [] [] false 0 c 0 with ackAt := s.now + 64 } }

/-- STDROP at its start (R275). -/
def startDrop (s : State) (t : Fin 144) (q : Fin 2) (c : CopyCmd) (st : Fin 8) : State :=
  ((s.setStreamReg t st .reset).clearMarks (stKey t st.val 0 0) 512 1).dropCmd t q c.pos

/-- COPY, COPYM or RPUT at its start (R256, R258, R261). -/
def startCopy (s : State) (t : Fin 144) (q : Fin 2) (c : CopyCmd) : State :=
  let sh := (List.range 5).map fun i => (s.tileAt t).regs.lc.toList.getD (c.shp + i) 0
  let bfmt := (s.tileAt t).sys.bfmt.toList
  match s.copyStartBad t q c sh bfmt with
  | some (cause, p) => s.abortCmd t q c 0 cause p
  | none =>
    let conv := !c.zero && c.cmask.getLsbD 0 && (match c.op with | .rput _ => false | _ => true) && converts bfmt c.src c.dst
    let d := s.drawFrom 1
    d.2.putCmd t q { c with
      run := some (s.newRun sh bfmt conv (shapeN0 sh * shapeN1 sh * shapeN2 sh) c (s.now + d.1)) }

/-! ### Chunks (R259 to R263) -/

/-- What a command's slowest stream consumer has accepted; its whole sequence when it feeds none. -/
def slowest (run : CopyRun) : Nat := run.accSt.foldl (fun m p => min m p.2) run.total

/-- What the DST consumer of a command has accepted: its writes have been performed and acknowledged (R262); the whole
sequence when there is no such consumer. -/
def dstAccepted (s : State) (t : Fin 144) (q : Fin 2) (c : CopyCmd) (run : CopyRun) : Nat :=
  if !c.cmask.getLsbD 0 then run.total
  else if spaceOf c.dst = 6 then run.accDst - s.peerPending t q c.pos
  else (run.acks.filter fun x => decide (s.now < x.2)).foldl (fun m x => min m x.1) run.accDst

/-- May the next chunk of a command begin now (R262, R263, R408)? -/
def chunkReady (s : State) (t : Fin 144) (q : Fin 2) (c : CopyCmd) (run : CopyRun) : Bool :=
  run.sel.isNone && !isBinding c.op && run.susp.isNone && !(s.tileAt t).sys.stop && decide (run.nextAt ≤ s.now)
    && decide (run.chunk < chunksIn run.total) && s.observed t c
    && decide (min run.total (4096 * run.chunk + 4096) ≤ min (slowest run) (s.dstAccepted t q c run) + 8192)

/-- The pieces of rows of a chunk checked and translated (R191, R265): the first that stops it. -/
def chunkCheck (s : State) (t : Fin 144) (c : CopyCmd) (run : CopyRun) (segs : List Seg) : State × Option ChunkStop :=
  let ws := bankWidth (bankAt run.bfmt (offsetOf c.src))
  let wd := bankWidth (bankAt run.bfmt (offsetOf c.dst))
  let cv (n : Nat) : Nat := if run.conv then n / ws * wd else n
  let step (write : Bool) (p : Word) (start len : Nat) (reach : List Nat) (r : State × Option ChunkStop) (g : Seg) :
      State × Option ChunkStop :=
    match r.2 with
    | some _ => r
    | none =>
      let o := rowAt run.shape p write g.row + start
      if !r.1.reachOk t reach p o len then (r.1, some (.addr (withOffset p o)))
      else r.1.rangeOkay t p o.toNat len write
  let r := if c.zero then (s, none)
    else segs.foldl (fun r g => step false c.src g.start g.len [0, 1, 2, 3] r g) (s, none)
  if c.cmask.getLsbD 0 then segs.foldl (fun r g => step true c.dst (cv g.start) (cv g.len) [0, 1, 2, 3, 6] r g) r else r

/-- The first byte of the chunk in hand, the byte after its last, and the pieces of rows that it covers (R259). -/
def chunkSpan (run : CopyRun) : Nat × Nat × List Seg :=
  let a := 4096 * run.chunk
  let b := min run.total (a + 4096)
  (a, b, segsOf (shapeN0 run.shape) a b)

/-- Does the DST consumer still lack the chunk in hand, and the operand slot? -/
def toDst (c : CopyCmd) (run : CopyRun) : Bool := c.cmask.getLsbD 0 && decide (run.accDst ≤ 4096 * run.chunk)
/-- Does the operand slot still lack the chunk in hand? -/
def toSlot (c : CopyCmd) (run : CopyRun) : Bool := c.cmask.getLsbD 1 && decide (run.accOm ≤ 4096 * run.chunk)

/-- The parts of rows that a pointer gives a chunk, each with its place in the chunk. -/
def segParts (p : Word) (sh : List Word) (dst : Bool) (a : Nat) (segs : List Seg) : List (Nat × Nat × Nat) :=
  segs.flatMap fun g =>
    let o := (rowAt sh p dst g.row).toNat + g.start
    (partsIn (partUnit p) o g.len).map fun x => (x.1, x.2, g.seq - a + (x.1 - o))

/-- A command goes on with a changed run record, after a free time; a short one under a context kill, which is over within
200 µs (R431; DESIGN CHOICE, log 98). -/
def goOn (s : State) (t : Fin 144) (q : Fin 2) (c : CopyCmd) (run : CopyRun) : State :=
  let d := if (s.ctx (s.tileAt t).sys.ctx).account.kbusy.isSome then s.draw 1 8 else s.drawFrom 1
  d.2.putCmd t q { c with run := some { run with nextAt := s.now + d.1 } }

/-- A chunk begins (R259, R265): its rows are checked and translated, and the parts of its source are to be read. -/
def beginChunk (s : State) (t : Fin 144) (q : Fin 2) (c : CopyCmd) (run : CopyRun) : State :=
  let (a, b, segs) := chunkSpan run
  match s.chunkCheck t c run segs with
  | (s, some (.addr p)) => s.abortCmd t q c run.chunk 2 p
  | (s, some (.page _ lv p)) => s.suspendCmd t q c run run.chunk lv p
  | (s, none) =>
    let parts := if c.zero then []
      else (segParts c.src run.shape false a segs).map fun x => ChunkPart.src x.1 x.2.1 x.2.2
    s.goOn t q c { run with prog := some ⟨true, parts, List.replicate (b - a) (0, false)⟩ }

/-- One part of a chunk is read or written (R260, R265): the chunk's bytes after it. -/
def runPart (s : State) (t : Fin 144) (c : CopyCmd) (run : CopyRun) (got : List (Byte × Bool)) :
    ChunkPart → State × List (Byte × Bool)
  | .src o n i =>
    let r := s.readRange t c.src o n 0
    (r.1, got.take i ++ (r.2.1.zip (List.range n)).map (fun p => (p.1, r.2.2.contains p.2)) ++ got.drop (i + n))
  | .dst o n i =>
    let l := (got.drop i).take n
    (s.writeRange t c.dst o (l.map (·.1)) 0 ((List.range n).filter fun j => (l.getD j (0, false)).2), got)
  | .slot n i =>
    let l := (got.drop i).take n
    (s.putOm t c.oms (4096 * run.chunk + i) (l.map (·.1)) ((List.range n).filter fun j => (l.getD j (0, false)).2), got)
  | .own o l => ((s.settleEng t o l.length).putOwn t o l, got)

/-- The pages of parts can still be translated; or what stops the chunk (R265). -/
def partsOkay (s : State) (t : Fin 144) (c : CopyCmd) (l : List ChunkPart) : State × Option ChunkStop :=
  l.foldl (fun (r : State × Option ChunkStop) p => match r.2, p with
    | none, .src o n _ => r.1.rangeOkay t c.src o n false
    | none, .dst o n _ => r.1.rangeOkay t c.dst o n true
    | _, _ => r) (s, none)

/-- Reductions queued at the scale bytes that a converting chunk reads apply first (R322). -/
def settleScales (s : State) (t : Fin 144) (run : CopyRun) (src : Word) (segs : List Seg) : State :=
  segs.foldl (fun s g =>
    let o := (rowAt run.shape src false g.row).toNat + g.start
    if bankScaled (bankAt run.bfmt o) then s.settleEng t (scaleAt o) (scaleAt (o + g.len - 1) + 1 - scaleAt o) else s) s

/-- The source of a chunk has been read: the parts that its consumers take are to be written; a peer's are sent (R260, R261,
R325), marked bytes among them as plain data (DESIGN CHOICE, log 105). -/
def turnChunk (s : State) (t : Fin 144) (q : Fin 2) (c : CopyCmd) (run : CopyRun) (got : List (Byte × Bool)) : State :=
  let (a, _, segs) := chunkSpan run
  let s := if toDst c run && run.conv then s.settleScales t run c.src segs else s
  let cv := if toDst c run && run.conv then s.convertChunk t run c.src c.dst segs a got else ([], 0)
  let peer := toDst c run && spaceOf c.dst == 6
  let plain := if toDst c run && !run.conv && !peer then
      (segParts c.dst run.shape true a segs).map fun x => ChunkPart.dst x.1 x.2.1 x.2.2 else []
  let om := if toSlot c run then (partsIn 8 a got.length).map fun x => ChunkPart.slot x.2 (x.1 - a) else []
  let s := if peer then segs.foldl (fun s g =>
      (s.peerSend (s.ownerOf t) t (s.tileAt t).sys.ctx c.slot c.pc c.sid (rankOf c.dst) ((rowAt run.shape c.dst true g.row).toNat + g.start)
        .write 0 (((got.drop (g.seq - a)).take g.len).map (·.1)) none (some (q, c.pos))).1) s
    else s
  s.goOn t q c { run with
    flags := run.flags ||| cv.2, prog := some { reading := false, parts := cv.1 ++ plain ++ om, got } }

/-- A chunk has been delivered (R259 to R262); a cancelled command stops at this boundary (R277). -/
def endChunk (s : State) (t : Fin 144) (q : Fin 2) (c : CopyCmd) (run : CopyRun) (got : List (Byte × Bool)) : State :=
  if run.stopping then s.endCmd t q c else
  let (a, b, _) := chunkSpan run
  let late := (streamsIn c.cmask) != []
  let e := s.drawFrom 1
  let ack := if toDst c run then s.now + e.1 else s.now
  let bad := (List.range got.length).filter fun i => (got.getD i (0, false)).2
  e.2.goOn t q c { run with
    chunk := run.chunk + 1, prog := none
    ackAt := max run.ackAt ack, acks := (a, ack) :: run.acks.filter fun x => decide (s.now < x.2)
    accDst := max run.accDst b, accOm := max run.accOm b
    buf := if late then run.buf ++ got.map (·.1) else [], bad := if late then run.bad ++ bad.map (· + a) else []
    bufAt := if late then run.bufAt else b }

/-- Is a part of kind S (R263, R356)? -/
def strongPart (s : State) (t : Fin 144) (c : CopyCmd) : ChunkPart → Bool
  | .src o _ _ => spaceOf c.src == 0 && (match (s.engineLeaf t o false).2 with | .ok l => l.ord == 0 | .error _ => false)
  | .dst o _ _ => spaceOf c.dst == 0 && (match (s.engineLeaf t o true).2 with | .ok l => l.ord == 0 | .error _ => false)
  | _ => false

/-- The next parts of a chunk: of the operand slot, or of what is read or written elsewhere, each in the order that `pickParts`
leaves free. -/
def pickChunk (s : State) (t : Fin 144) (c : CopyCmd) (l : List ChunkPart) : State × List ChunkPart × List ChunkPart :=
  let isSlot (p : ChunkPart) : Bool := match p with | .slot .. => true | _ => false
  let om := l.filter isSlot
  let rest := l.filter fun p => !isSlot p
  let d := s.draw 0 1
  if rest = [] ∨ (om ≠ [] ∧ d.1 = 0) then
    let x := d.2.pickParts (fun _ => false) om
    (x.1, x.2.1, rest ++ x.2.2)
  else
    let x := d.2.pickParts (s.strongPart t c) rest
    (x.1, x.2.1, x.2.2 ++ om)

/-- The last byte of a sequence lands in the operand slot with these parts, which leave `rest` of its last chunk (R264). -/
def landsNow (run : CopyRun) (now rest : List ChunkPart) : Bool :=
  let isSlot (p : ChunkPart) : Bool := match p with | .slot .. => true | _ => false
  run.chunk + 1 == chunksIn run.total && now.any isSlot && !rest.any isSlot

/-- A chunk in progress goes on (R261, R354): every part of its source is read before any is written. A part whose page can
no longer be translated suspends the command at the start of the chunk (R265). -/
def runChunk (s : State) (t : Fin 144) (q : Fin 2) (c : CopyCmd) (run : CopyRun) (p : ChunkProg) : State :=
  if p.parts = [] then (if p.reading then s.turnChunk t q c run p.got else s.endChunk t q c run p.got)
  else
    let r := s.pickChunk t c p.parts
    match r.1.partsOkay t c r.2.1 with
    | (s, some (.page _ lv a)) => s.suspendCmd t q c { run with prog := none } run.chunk lv a
    | (s, some (.addr a)) => s.abortCmd t q c run.chunk 2 a
    | (s, none) =>
      let x := r.2.1.foldl (fun (x : State × List (Byte × Bool)) part => x.1.runPart t c run x.2 part) (s, p.got)
      x.1.goOn t q c { run with
        prog := some { p with parts := r.2.2, got := x.2 }
        landAt := if landsNow run r.2.1 r.2.2 then some s.now else run.landAt }

/-- Has a copy moved every byte to its DST and slot consumers, acknowledged (R257)? -/
def bytesDone (s : State) (t : Fin 144) (q : Fin 2) (c : CopyCmd) (run : CopyRun) : Bool :=
  run.chunk == chunksIn run.total && decide (run.ackAt ≤ s.now) && !s.peerWaiting t q c.pos

/-- The flag of an RPUT, once every data write is acknowledged (R349): the tag of the flag word is set full, or a FLAG
message leaves. -/
def runFlag (s : State) (t : Fin 144) (q : Fin 2) (c : CopyCmd) (run : CopyRun) (p : Word) : State :=
  let d := s.drawFrom 1
  let s := d.2.putCmd t q { c with run := some { run with flagged := true, ackAt := s.now + d.1 } }
  if spaceOf p = 6 then
    (s.peerSend (s.ownerOf t) t (s.tileAt t).sys.ctx c.slot c.pc c.sid (rankOf p) (offsetOf p) .flag 0 [] none (some (q, c.pos))).1
  else if h : rankOf p < 144 then
    (s.clearMarks (tagBase + rankOf p * 2 ^ 17 + offsetOf p / 4) 1 1).modTile ⟨rankOf p, h⟩ fun tl =>
      { tl with tagPend := tl.tagPend ++ [(offsetOf p / 4, true)] }
  else s

/-- Is the flag of an RPUT to be sent now? -/
def flagReady (s : State) (t : Fin 144) (q : Fin 2) (c : CopyCmd) (run : CopyRun) : Option Word :=
  match c.op with
  | .rput (some p) =>
    if !run.flagged && s.bytesDone t q c run then some p else none
  | _ => none

/-! ### Stream consumers (R262) -/

/-- The bytes that a stream consumer takes into its input buffer in this cycle: none while its queue is full; a cut one
discards all (R262, R268). A marked byte cuts it off with cause DATA (R265). The bytes of a command come after those of the
commands `before` it in its queue (DEDUCED, log 88). -/
def intakeOne (s : State) (t : Fin 144) (before : List CopyCmd) (pos : Nat) (run : CopyRun) (p : Fin 8 × Nat) :
    State × (Fin 8 × Nat) :=
  let r := s.streamReg t p.1
  let have_ := run.bufAt + run.buf.length - p.2
  let waits := before.any fun d => match d.run with
    | some x => x.accSt.any fun y => y.1 == p.1 && decide (y.2 < x.total)
    | none => false
  if r.cut then (s, (p.1, p.2 + have_))
  else if waits then (s, p)
  else
    let room := if r.queue.length < 16 then 8192 - r.input.length else 0
    let n := min have_ room
    if n = 0 then (s, p)
    else if run.bad.any fun b => decide (p.2 ≤ b) && decide (b < p.2 + n) then
      (s.setStreamReg t p.1 (r.cutOff 9), (p.1, p.2 + have_))
    else
      let b := (run.buf.drop (p.2 - run.bufAt)).take n
      (s.setStreamReg t p.1 { r with input := r.input ++ b.map (·, some pos), got := r.got + n }, (p.1, p.2 + n))

/-- The stream consumers of one command take what they can; a consumer no longer bound to the queue aborts the command
with cause BINDING (R265, R275). -/
def intake (s : State) (t : Fin 144) (q : Fin 2) (c : CopyCmd) : State :=
  match c.run with
  | none => s
  | some run =>
    if run.accSt.isEmpty then s
    else if run.accSt.any fun p => decide (p.2 < run.total) && (s.streamReg t p.1).bound != some q then
      s.abortCmd t q c run.chunk 5 0
    else
      let before := (s.cqOf t q).takeWhile fun d => d.pos != c.pos
      let r := run.accSt.foldl (fun (r : State × List (Fin 8 × Nat)) p =>
        let x := r.1.intakeOne t before c.pos run p
        (x.1, r.2 ++ [x.2])) (s, [])
      let low := r.2.foldl (fun m p => min m p.2) (run.bufAt + run.buf.length)
      r.1.putCmd t q { c with run := some { run with
        accSt := r.2, buf := run.buf.drop (low - run.bufAt), bufAt := low } }

/-- One cycle of a tile's stream consumers and decoders (R262, R266, R267). -/
def streamCycle (s : State) (t : Fin 144) : State :=
  let s := (s.cqOf t 0).foldl (fun s c => s.intake t 0 c) s
  let s := (s.cqOf t 1).foldl (fun s c => s.intake t 1 c) s
  s.modTile t fun tl => { tl with eng := { tl.eng with sts := tl.eng.sts.map StreamReg.cycle } }

end State

/-! ### Events of the copy queues -/

/-- The started commands of a queue, in order. -/
def State.inFlight (s : State) (t : Fin 144) (q : Fin 2) : List CopyCmd := (s.cqOf t q).filter fun c => c.run.isSome

/-- COPY_CHUNK (R259): the next chunk of an in-flight command begins or goes on, or the flag of an RPUT whose data are
acknowledged is sent. -/
def execCopyChunk (t : Fin 144) (q : Fin 2) (i : Fin 2) (s : State) : Host.Outcome State Fault Refusal :=
  match (s.inFlight t q)[i.val]? with
  | none => .next s
  | some c => match c.run with
    | none => .next s
    | some run =>
      match s.flagReady t q c run with
      | some p => .next (s.runFlag t q c run p)
      | none => match run.prog with
        | some p => .next (if run.nextAt ≤ s.now then s.runChunk t q c run p else s)
        | none => .next (if s.chunkReady t q c run then s.beginChunk t q c run else s)

/-- The command of a queue whose follow-on is to be handed over now (R264). -/
def State.handOffReady (s : State) (t : Fin 144) (q : Fin 2) : Option (CopyCmd × CopyRun × Word) :=
  (s.inFlight t q).findSome? fun c => match c.op, c.run with
    | .copym w, some run =>
      if !run.handed && !run.stopping && (match run.landAt with | some n => decide (n < s.now) | none => false)
          && decide ((s.tileAt t).eng.mq.length < 16) then some (c, run, w) else none
    | _, _ => none

/-- FOLLOW_ON_HANDOFF (R264): the MMA enters the matrix queue, or its command is aborted with cause FOLLOW. -/
def execFollowOnHandoff (t : Fin 144) (q : Fin 2) (s : State) : Host.Outcome State Fault Refusal :=
  match s.handOffReady t q with
  | none => .next s
  | some (c, run, w) =>
    match decodeSyl 5 w 0 with
    | some (.mma ta tb acc oma omb sa sb tok) =>
      if (s.tileAt t).eng.om.get oma == .claimed && (s.tileAt t).eng.om.get omb == .claimed then
        .next ((s.putCmd t q { c with run := some { run with handed := true } }).pushMx t c.slot c.pc
          (.mma ta tb acc oma omb sa sb) tok)
      else .next (s.abortCmd t q c run.chunk 7 0)
    | _ => .next (s.abortCmd t q c run.chunk 7 0)

/-- CPCANCEL on one command (R277): one within a chunk stops at the end of that chunk, whose writes complete; another goes at
once. -/
def State.cancelCmd (t : Fin 144) (q : Fin 2) (s : State) (c : CopyCmd) : State :=
  match c.run with
  | none => s.dropCmd t q c.pos
  | some r => if r.prog.isSome then s.putCmd t q { c with run := some { r with stopping := true } } else s.endCmd t q c

/-- The commands of a queue that a cancel stops or discards: those that entered it before a cycle and are not stopped already
(R277). -/
def State.toCancel (s : State) (t : Fin 144) (q : Fin 2) (before : Nat) : List CopyCmd :=
  (s.cqOf t q).filter fun c => decide (c.entered < before) && !State.cancelled c

/-- CPCANCEL on one queue, for the commands that entered it before a cycle (R277): how many were discarded or stopped. -/
def State.cancelQueue (s : State) (t : Fin 144) (q : Fin 2) (before : Nat) : State × Nat :=
  ((s.toCancel t q before).foldl (cancelCmd t q) s, (s.toCancel t q before).length)

/-- CPCANCEL (R277). -/
def execCpcancel (d : XDst) (mask : BitVec 2) (s : State) : Host.Outcome State Fault Refusal :=
  s.finish do
    let t := s.cur.tile
    let a := if mask.getLsbD 0 then s.cancelQueue t 0 s.now else (s, 0)
    let b := if mask.getLsbD 1 then a.1.cancelQueue t 1 s.now else (a.1, 0)
    b.1.writeX d 2 (BitVec.ofNat 64 (a.2 + b.2))

end Sys2Proof.Machine
end

