-- ==== Sys2Proof/Machine/Select.lean ====
section
/-! DEFINITION. Memory-side selection, and the start and retirement of copy-queue commands (chapter 15: R301 to R314;
R255 to R258). -/

namespace Sys2Proof.Machine

/-! ### Start checks (R303, R304, R314) -/

/-- CNT of a selection's descriptor (R303). -/
def selCnt (desc : List Word) : Nat := (fld (desc.getD 1 0) 16 16).toNat
/-- PRED of a selection's descriptor; bit 0 is DIR for SELK (R303). -/
def selPred (desc : List Word) : Nat := (fld (desc.getD 1 0) 8 3).toNat
/-- IDX0 of a selection's descriptor (R303). -/
def selIdx0 (desc : List Word) : Nat := (desc.getD 5 0).toNat

/-- Is a type floating point? -/
def Ty.isFloat : Ty → Bool
  | .int _ => false
  | _ => true

/-- Step 2 of R314: the descriptor's fields and N. -/
def selShapeBad (k : Bool) (desc : List Word) (lc : Word) : Bool :=
  let w1 := desc.getD 1 0
  let n := (fld lc 0 40).toNat
  let cnt := selCnt desc
  n == 0 || fld lc 40 24 != 0 || (selTy desc).isNone || cnt == 0 || decide ((if k then 256 else 16384) < cnt)
    || (if k then fld w1 9 2 != 0 else selPred desc == 7 && (selTy desc).any Ty.isFloat)
    || fld w1 11 5 != 0 || fld w1 32 32 != 0 || desc.getD 6 0 != 0 || desc.getD 7 0 != 0
    || selBase desc % selWidth desc != 0

namespace State

/-- The start checks of a selection in the three steps of R314: cause and address. -/
def selBad (s : State) (t : Fin 144) (c : CopyCmd) (k : Bool) (desc : List Word) (lc : Word) : Option (Nat × Word) :=
  let own (p : Word) (n : Nat) : Bool := s.reachOk t [1] p (offsetOf p) n && offsetOf p % 64 == 0
  let base := desc.getD 0 0
  if !own c.src 64 then some (2, c.src)
  else if !own c.dst 1 then some (2, c.dst)
  else if !s.reachOk t [0, 3] base (offsetOf base) 1 then some (2, base)
  else if selShapeBad k desc lc then some (3, 0)
  else if !own c.dst (64 + 16 * selCnt desc) then some (2, c.dst)
  else if !s.reachOk t [0, 3] base (offsetOf base) ((fld lc 0 40).toNat * selWidth desc) then some (2, base)
  else none

/-- SELP or SELK at its start (R303, R304, R312, R314). Words of the descriptor that fail parity are used as they stand (DESIGN
CHOICE, log 102). -/
def startSel (s : State) (t : Fin 144) (q : Fin 2) (c : CopyCmd) (k : Bool) : State :=
  let s := s.settleEng t (offsetOf c.src) 64
  let desc := (List.range 8).map fun i => s.load64 (spadBase + t.val * 2 ^ 19 + offsetOf c.src + 8 * i)
  let lc := (s.tileAt t).regs.lc.toList.getD c.shp 0
  match s.selBad t c k desc lc with
  | some (cause, p) => s.abortCmd t q c 0 cause p
  | none =>
    let v := desc.getD 4 0
    let f := State.firstFrame { s with cur := { s.cur with tile := t } } (v.getLsbD 63) (fld v 0 63).toNat
    let sel : Sel :=
      { desc, n := (fld lc 0 40).toNat, frame := f, next := 0, nextAt := s.now, sentAt := none, out := [], merged := 0, list := []
        count := 0, nans := 0, errIdx := none, scanned := 0, late := false }
    s.putCmd t q { c with run := some { s.newRun [] [] false 0 c s.now with sel := some sel } }

end State

/-! ### Predicates and order (R305, R306) -/

/-- Does SELP keep an element (R305)? -/
def selKeeps (t : Ty) (pred : Nat) (a b bits : Nat) : Bool :=
  let v := t.value bits
  let x := t.value a
  let y := t.value b
  match pred with
  | 0 => v.eq x
  | 1 => !v.eq x
  | 2 => v.lt x
  | 3 => v.lt x || v.eq x
  | 4 => x.lt v
  | 5 => x.lt v || v.eq x
  | 6 => (x.lt v || x.eq v) && (v.lt y || v.eq y)
  | _ => bits &&& (a % 2 ^ t.width) != 0

/-- Does element `a` precede element `b` (R306)? Elements are numbers with bits. -/
def selBefore (t : Ty) (smallest : Bool) (a b : Nat × Nat) : Bool :=
  let x := t.value a.2
  let y := t.value b.2
  (if smallest then x.lt y else y.lt x) || (x.eq y && decide (a.1 < b.1))

/-- Insert an element into a list in the order of R306. -/
def selInsert (t : Ty) (smallest : Bool) (e : Nat × Nat) : List (Nat × Nat) → List (Nat × Nat)
  | [] => [e]
  | x :: l => if selBefore t smallest x e then x :: selInsert t smallest e l else e :: x :: l

/-- The first `k` of the union of an ordered list and other elements (R306). -/
def selMerge (t : Ty) (smallest : Bool) (k : Nat) (l new : List (Nat × Nat)) : List (Nat × Nat) :=
  new.foldl (fun l e => (selInsert t smallest e l).take k) l

/-! ### Windows (R307 to R309) -/

/-- The elements [lo, hi) of window `w` (R307). -/
def selRange (v : Sel) (w : Nat) : Nat × Nat :=
  let a := selBase v.desc
  let n := selWidth v.desc
  let cut (i : Nat) : Nat := (max a ((a / 4096 + i) * 4096) - a) / n
  (cut w, min v.n (cut (w + 1)))

/-- Does a command select the k largest or smallest? -/
def isSelk (c : CopyCmd) : Bool := match c.op with | .selk => true | _ => false

/-- The partial list of a window all of whose elements have been read (R307, R309). -/
def selPartial (c : CopyCmd) (v : Sel) (p : Partial) (els : List (Nat × Nat × Bool)) : Partial :=
  let t := (selTy v.desc).getD (.int .n8)
  let good := (els.filter fun e => !e.2.2).map fun e => (e.1, e.2.1)
  let nan (e : Nat × Nat) : Bool := (t.value e.2).isNan
  let yes := if isSelk c then good.filter fun e => !nan e
    else good.filter fun e => selKeeps t (selPred v.desc) (v.desc.getD 2 0).toNat (v.desc.getD 3 0).toNat e.2
  { p with
    els, made := true
    elems := if isSelk c then selMerge t (selPred v.desc % 2 == 1) (selCnt v.desc) [] yes else yes.take (selCnt v.desc)
    qualify := yes.length, nans := (good.filter nan).length
    marked := (els.find? fun e => e.2.2).map (·.1), scanned := els.length }

namespace State

/-- A window goes to the engines that home it (R301, R307): their answer comes after a free time, within which an invalidation
may end (R204). -/
def sendWindow (s : State) (t : Fin 144) (v : Sel) (w : Nat) : State × Partial :=
  let o := selBase v.desc + selWidth v.desc * (selRange v w).1
  let d := s.draw 1 20000
  let none_ (key grade : Nat) : Partial :=
    { window := w, at_ := s.now, due := s.now + d.1, key, grade, els := [], made := false, elems := [], qualify := 0, nans := 0
      marked := none, scanned := 0 }
  match d.2.engineKey t (v.desc.getD 0 0) o false with
  | (s, .error _) => (s, none_ 0 0)
  | (s, .ok (key, grade)) => (s, none_ key grade)

/-- Elements of a window read at their home, where a migration has them (R309, R330): index, bits and mark. -/
def readEls (s : State) (v : Sel) (p : Partial) (l : List Nat) : State × List (Nat × Nat × Bool) :=
  let n := selWidth v.desc
  l.foldl (fun (r : State × List (Nat × Nat × Bool)) i =>
    let key := r.1.forward (p.key + n * (i - (selRange v p.window).1))
    let s := r.1.settleLine key n
    (s, r.2 ++ [(i, s.load key n, s.marked key n (granule key p.grade) || s.gradeClash key p.grade)])) (s, [])

/-- The indices of a window's elements that have not been read. -/
def unread (v : Sel) (p : Partial) : List Nat :=
  let r := selRange v p.window
  ((List.range (r.2 - r.1)).map (· + r.1)).filter fun i => !p.els.any fun e => e.1 == i

/-- A window in one cycle (R309): a free choice of its elements is read, and all that are left when its answer is due. -/
def workWindow (s : State) (c : CopyCmd) (v : Sel) (p : Partial) : State × Partial :=
  let l := unread v p
  if p.made then (s, p)
  else if p.due ≤ s.now then
    let x := s.readEls v p l
    let r := selRange v p.window
    let els := p.els ++ x.2
    (x.1, selPartial c v p ((List.range (r.2 - r.1)).filterMap fun i => els.find? fun e => e.1 == r.1 + i))
  else
    let i := s.draw 0 l.length
    let n := i.2.draw 0 l.length
    let x := n.2.readEls v p ((l.drop i.1).take n.1)
    (x.1, { p with els := p.els ++ x.2 })

/-- The windows of a selection in one cycle. -/
def workWindows (s : State) (c : CopyCmd) (v : Sel) : State × Sel :=
  let r := v.out.foldl (fun (r : State × List Partial) p =>
    let x := r.1.workWindow c v p
    (x.1, r.2 ++ [x.2])) (s, [])
  (r.1, { v with out := r.2 })

/-- An in-flight selection of a queue. -/
def selAt (s : State) (t : Fin 144) (q i : Fin 2) : Option (CopyCmd × CopyRun × Sel) :=
  match (s.inFlight t q)[i.val]? with
  | some c => match c.run with
    | some run => run.sel.map fun v => (c, run, v)
    | none => none
  | none => none

/-- Replace the record of a selection. -/
def putSel (s : State) (t : Fin 144) (q : Fin 2) (c : CopyCmd) (run : CopyRun) (v : Sel) : State :=
  s.putCmd t q { c with run := some { run with sel := some v } }

end State

/-- The selections in progress of a tile's copy engine. -/
def State.selsOf (s : State) (t : Fin 144) : List Sel :=
  (s.cqOf t 0 ++ s.cqOf t 1).filterMap fun c => c.run.bind fun r => r.sel

/-- May the copy engine of a tile dispatch a window now: none has left in this cycle, and fewer than 64 are not merged
(R307)? -/
def State.windowFree (s : State) (t : Fin 144) : Bool :=
  let l := s.selsOf t
  l.all (fun v => v.sentAt != some s.now) && decide ((l.map fun v => v.next - v.merged).sum < 64)

/-- WINDOW_DISPATCH (R307, R313): at most one a cycle, at most 64 not merged, none while a stop is requested. -/
def execWindowDispatch (t : Fin 144) (q : Fin 2) (i : Fin 2) (s : State) : Host.Outcome State Fault Refusal :=
  match s.selAt t q i with
  | none => .next s
  | some (c, run, v) =>
    if v.late ∨ run.susp.isSome ∨ (s.tileAt t).sys.stop ∨ !s.windowFree t ∨ selWindows v ≤ v.next
        ∨ s.now < v.nextAt ∨ !s.observed t c then .next s
    else
      let p := v.desc.getD 0 0
      let o := selBase v.desc + selWidth v.desc * (selRange v v.next).1
      match s.rangeOkay t p o 1 false with
      | (s, some (.page _ lv a)) => .next (s.suspendCmd t q c run v.next lv a)
      | (s, some (.addr a)) => .next (s.abortCmd t q c v.next 2 a)
      | (s, none) =>
        let r := s.sendWindow t v v.next
        .next (r.1.putSel t q c run { v with
          next := v.next + 1, nextAt := s.now + 1, sentAt := some s.now, out := v.out ++ [r.2] })

/-- The merge of one partial list (R308). -/
def selTake (c : CopyCmd) (v : Sel) (p : Partial) : Sel :=
  let t := (selTy v.desc).getD (.int .n8)
  let k := selCnt v.desc
  let list := if isSelk c then selMerge t (selPred v.desc % 2 == 1) k v.list p.elems else (v.list ++ p.elems).take k
  { v with
    merged := v.merged + 1, out := v.out.filter fun x => x.window != p.window, list
    count := if isSelk c then list.length else min (v.count + p.qualify) (2 ^ 64 - 1)
    nans := v.nans + p.nans, errIdx := v.errIdx.or p.marked, scanned := v.scanned + p.scanned }

/-- WINDOW_MERGE (R308): the windows go on, and the next one that has returned is merged, strictly in ascending window number. -/
def execWindowMerge (t : Fin 144) (q : Fin 2) (i : Fin 2) (s : State) : Host.Outcome State Fault Refusal :=
  match s.selAt t q i with
  | none => .next s
  | some (c, run, v) =>
    let x := s.workWindows c v
    let v := match x.2.out.find? fun p => p.window == v.merged && p.made with
      | some p => if v.late ∨ (s.tileAt t).sys.stop then x.2 else selTake c x.2 p
      | none => x.2
    .next (x.1.putSel t q c run v)

/-- SELECTION_DEADLINE (R312): the limit passes before every window is merged, and the unit abandons the rest; that of a
suspended command runs on (R313). -/
def execSelectionDeadline (t : Fin 144) (q : Fin 2) (i : Fin 2) (s : State) : Host.Outcome State Fault Refusal :=
  match s.selAt t q i with
  | none => .next s
  | some (c, run, v) =>
    if !v.late && !(s.tileAt t).sys.stop && decide (v.merged < selWindows v)
        && decide (v.frame.limit ≤ s.clk.wclock) then
      .next (s.putSel t q c run { v with late := true, out := [] })
    else .next s

/-! ### The result (R310, R311) -/

namespace State

/-- The status word of a selection at its retirement (R311, R118). -/
def selStatus (s : State) (c : CopyCmd) (v : Sel) : Word :=
  let left := selWindows v - v.merged
  let code := if left ≠ 0 then 2 else if v.errIdx.isSome then 5
    else if !isSelk c && decide (selCnt v.desc < v.count) then 6 else 0
  statusWord v.frame ⟨code, if left ≠ 0 then min left 65535 else 0, if left ≠ 0 then 0 else s.leftOf v.frame.limit⟩

/-- The header and entries of a selection written at DST (R310). -/
def selResult (s : State) (t : Fin 144) (c : CopyCmd) (v : Sel) : State :=
  let idx (e : Nat) : Nat := (selIdx0 v.desc + e) % 2 ^ 64
  let head : List Nat :=
    [(s.selStatus c v).toNat, v.scanned, v.count, v.nans,
      match v.errIdx with | some e => idx e | none => 2 ^ 64 - 1, 0, 0, 0]
  let bytes := (head ++ v.list.flatMap fun e => [idx e.1, e.2]).flatMap (leBytes 8)
  (s.settleEng t (offsetOf c.dst) bytes.length).storeBytes (spadBase + t.val * 2 ^ 19 + offsetOf c.dst) 4 bytes

end State

/-! ### Start and retirement of the commands of a queue (R255 to R258) -/

/-- COPY_COMMAND_START (R256): counters are consumed, the start checks are made, and the command is in flight. -/
def execCopyCommandStart (t : Fin 144) (q : Fin 2) (s : State) : Host.Outcome State Fault Refusal :=
  match s.copyReady t q with
  | none => .next s
  | some c =>
    let s' := if State.isBinding c.op then s else s.consume t c.tok
    .next (match c.op with
      | .stbind st => s'.startBind t q c st
      | .stdrop st => s'.startDrop t q c st
      | .selp => s'.startSel t q c false
      | .selk => s'.startSel t q c true
      | _ => s'.startCopy t q c)

namespace State

/-- May the command at the head of a queue retire now (R257)? -/
def copyDone (s : State) (t : Fin 144) (q : Fin 2) (c : CopyCmd) (run : CopyRun) : Bool :=
  run.susp.isNone && !run.stopping && match run.sel with
  | some v => v.late || v.merged == selWindows v
  | none => s.bytesDone t q c run && decide (run.total ≤ slowest run) && match c.op with
    | .copym _ => run.handed
    | .rput (some _) => run.flagged
    | _ => true

/-- FLUSH at retirement marks each stream consumer's partial vector (R266, R273). -/
def flushStreams (s : State) (t : Fin 144) (c : CopyCmd) : State :=
  if c.flush then (streamsIn c.cmask).foldl (fun s st =>
    let r := s.streamReg t st
    s.setStreamReg t st { r with flush := r.flush ++ [r.got] }) s
  else s

/-- The decoding flags of a command's streams enter sticky with its own (R222, R257). -/
def takeFlags (s : State) (t : Fin 144) (c : CopyCmd) (run : CopyRun) : State :=
  let l := (streamsIn c.cmask).map fun st => (st, (s.streamReg t st).takeFlags c.pos)
  (l.foldl (fun s e => s.setStreamReg t e.1 e.2.1) s).engineFlags t (l.foldl (fun f e => f ||| e.2.2) run.flags)

end State

/-- COPY_COMMAND_RETIRE (R257): in queue order; a selection writes its result, PROD is incremented, flags enter sticky. -/
def execCopyCommandRetire (t : Fin 144) (q : Fin 2) (s : State) : Host.Outcome State Fault Refusal :=
  match (s.cqOf t q).head? with
  | none => .next s
  | some c => match c.run with
    | none => .next s
    | some run =>
      if s.copyDone t q c run then
        let s := s.dropCmd t q c.pos
        let s := match run.sel with
          | some v => s.selResult t c v
          | none => s
        let s := ((s.flushStreams t c).takeFlags t c run)
        .next (if State.isBinding c.op then s else s.produce t c.tok.prod)
      else .next s

end Sys2Proof.Machine
end

