-- ==== Sys2Proof/Machine/Hubs.lean ====
section
/-! DEFINITION. The sync hubs: barriers, token queues, pushes of command blocks, and the arbitration cycle of a home
(chapters 05, 04 and 17: R105, R117, R120, R334 to R343). -/

namespace Sys2Proof.Machine

namespace State

/-! ### Objects (R335, R336) -/

/-- Device barrier `n`; one never touched is all zero. -/
def barAt (s : State) (n : Nat) : Barrier :=
  match s.hubs.bars.find? fun e => e.1 == n with
  | some e => e.2
  | none => ⟨0, 0, false, 0⟩

/-- Replace a device barrier. -/
def setBar (s : State) (n : Nat) (b : Barrier) : State :=
  { s with hubs := { s.hubs with bars := (n, b) :: s.hubs.bars.filter fun e => e.1 != n } }

/-- Device token queue `n`. -/
def tqAt (s : State) (n : Nat) : TQueue :=
  match s.hubs.tqs.find? fun e => e.1 == n with
  | some e => e.2
  | none => ⟨0, [], false⟩

/-- Replace a device token queue. -/
def setTq (s : State) (n : Nat) (q : TQueue) : State :=
  { s with hubs := { s.hubs with tqs := (n, q) :: s.hubs.tqs.filter fun e => e.1 != n } }

/-! ### Replies (R117, R334) -/

/-- The time of a reply from a home on a die to a tile. -/
def replyTime (s : State) (t : Fin 144) (die : Nat) : Nat × State :=
  let d := s.draw 1 (if t.val / 72 = die then 60 else 140)
  (s.now + d.1, d.2)

/-- A decision of a home leaves for the tile. -/
def answer (s : State) (r : HubReq) (d : Option Decision) (value : Option Word) (abandoned : Bool) : State :=
  let p := s.replyTime r.tile r.die
  let a : HubReply := ⟨r.id, p.1, r.tile, r.group, d, value, abandoned⟩
  { p.2 with hubs := { p.2.hubs with replies := p.2.hubs.replies ++ [a] } }

/-- A wait is decided with a code and a detail; LEFT is measured at the home (R118). -/
def decide_ (s : State) (r : HubReq) (code detail : Nat) (value : Option Word := none) : State :=
  let s := { s with hubs := { s.hubs with waits := s.hubs.waits.filter fun w => w.id != r.id } }
  s.answer r (some ⟨code, detail, if code = 1 then 0 else s.leftOf r.limit⟩) value false

/-- A request becomes a pending wait. -/
def hangOn (s : State) (r : HubReq) : State := { s with hubs := { s.hubs with waits := s.hubs.waits ++ [r] } }

/-! ### Barriers (R338 to R342) -/

/-- Is a pending wait one of a barrier? -/
def onBarrier (n : Nat) (r : HubReq) : Bool :=
  match r.op with
  | .barwt _ | .barsync | .step => r.obj == n
  | _ => false

end State

/-- Has phase `p` completed when PHASE is `phase` (R340)? -/
def phaseDone (phase p : BitVec 32) : Bool :=
  let d := (phase - p).toNat
  decide (1 ≤ d) && decide (d < 2 ^ 31)

/-- The phase that a barrier wait waits for. -/
def HubReq.waitsFor (r : HubReq) : BitVec 32 :=
  match r.op with
  | .barwt p => p
  | _ => r.phase.getD 0

namespace State

/-- The pending waits that a barrier's phase satisfies end OK (R334, R340). -/
def releaseBar (s : State) (n : Nat) : State :=
  let ph := (s.barAt n).phase
  (s.hubs.waits.filter fun r => onBarrier n r && phaseDone ph r.waitsFor).foldl
    (fun s r => s.decide_ r 0 (r.waitsFor.toNat % 2 ^ 16)) s

/-- An arrival at a barrier that is not killed: the phase entered, whether it completed it, and the state (R335). -/
def arriveBar (s : State) (n : Nat) : BitVec 32 × Bool × State :=
  let b := s.barAt n
  if b.arr + 1 = b.count then (b.phase, true, s.setBar n { b with arr := 0, phase := b.phase + 1 })
  else (b.phase, false, s.setBar n { b with arr := b.arr + 1 })

/-- A pending wait's arrival is taken back (R120). -/
def withdrawArrival (s : State) (r : HubReq) : State :=
  match r.phase with
  | some _ => let b := s.barAt r.obj; s.setBar r.obj { b with arr := b.arr - 1 }
  | none => s

/-- Every pending wait of a barrier ends with a code, its arrival dropped (R338, R341). -/
def endBar (s : State) (n code : Nat) : State :=
  (s.hubs.waits.filter (onBarrier n)).foldl (fun s r => (s.withdrawArrival r).decide_ r code 0) s

/-! ### Token queues (R343) -/

/-- One pending wait of a token queue that can be satisfied now: the earliest to arrive. -/
def readyTq (s : State) (n : Nat) : Option HubReq :=
  let q := s.tqAt n
  s.hubs.waits.find? fun r => r.obj == n && match r.op with
    | .qpush _ => decide (q.entries.length < q.depth)
    | .qpop => !q.entries.isEmpty
    | _ => false

/-- A push or pop whose condition holds (R343). -/
def applyTq (s : State) (r : HubReq) : State :=
  let q := s.tqAt r.obj
  match r.op, q.entries with
  | .qpush v, es => (s.setTq r.obj { q with entries := es ++ [v] }).decide_ r 0 (es.length + 1)
  | .qpop, v :: es => (s.setTq r.obj { q with entries := es }).decide_ r 0 es.length (some v)
  | _, _ => s

/-- Pending waits of a token queue released while any can be satisfied (R334). -/
def releaseTq (n : Nat) : Nat → State → State
  | 0, s => s
  | k + 1, s => match s.readyTq n with
    | some r => releaseTq n k (s.applyTq r)
    | none => s

end State

/-! ### Stage queues and private queues (R87, R90, R98, R105) -/

/-- fill(q) (R90). -/
def StageQ.fill (q : StageQ) : Nat := q.queue.length + q.reserved

/-- What is left of a task's reservation in a stage (R90). -/
def Task.left (k : Task) (stg : Nat) : Nat := match k.res.find? fun e => e.1 == stg with | some e => e.2 | none => 0

/-- One unit of a task's reservation used. -/
def Task.use (k : Task) (stg : Nat) : Task :=
  { k with res := k.res.map fun e => if e.1 = stg then (e.1, e.2 - 1) else e }

namespace State

/-- The key of command block `b` of a context's pool (R83, R87). -/
def blockKey (s : State) (c : Fin 64) (b : Nat) : Nat :=
  let p := (s.ctx c).entry.get 6
  vaultBase + rankOf p * 2 ^ 27 + offsetOf p + 64 * b

/-- The eight words of a command block as bytes. -/
def blockBytes (blk : List (Word × Bool)) : List Byte := blk.flatMap fun w => leBytes 8 w.1.toNat

/-- A command block written to the pool at a key: a marked word leaves its granule marked (R205, R436). -/
def putBlock (s : State) (key : Nat) (blk : List (Word × Bool)) : State :=
  (blk.zip (List.range blk.length)).foldl (fun s w => if w.1.2 then s.setMark (key + 8 * w.2) else s)
    (s.storeBytes key 8 (blockBytes blk))

/-- A block appended to a stage queue: the pool block, then the entry (R87, R105). -/
def appendStage (s : State) (slot : Fin 16) (stg : Nat) (blk : List (Word × Bool)) : State :=
  match s.liveAt slot with
  | none => s
  | some l => match l.queues[stg]? with
    | none => s
    | some q => match q.free with
      | [] => s
      | b :: rest =>
        (s.putBlock (s.blockKey l.ctx b) blk).modLive slot fun l =>
          { l with queues := l.queues.set stg { q with queue := q.queue ++ [b], free := rest } }

/-- The condition of an ENQ, and its effect when it holds (R105). -/
def tryEnq (s : State) (r : HubReq) : Option State :=
  match r.op with
  | .enqStage slot stg blk =>
    match s.liveAt slot, (s.tileAt r.tile).sched.task with
    | some l, some k =>
      let q := l.queues[stg]?.getD ⟨0, 0, [], [], 0, 0⟩
      if 0 < k.left stg then
        let s := s.appendStage slot stg blk
        let s := s.modLive slot fun l => { l with queues := l.queues.modify stg fun q => { q with reserved := q.reserved - 1 } }
        some (s.modTile r.tile fun t => { t with sched := { t.sched with task := some (k.use stg) } })
      else if q.fill < q.cap then some (s.appendStage slot stg blk)
      else none
    | _, _ => none
  | .enqOwn tile slot ctx stg blk =>
    if (s.tileAt tile).sched.own.length < 8 then
      some (s.modTile tile fun t => { t with sched := { t.sched with own := t.sched.own ++ [⟨ctx, slot, stg, blk⟩] } })
    else none
  | _ => none

/-- An ENQ is decided OK, or stays pending (R105). -/
def evalEnq (s : State) (r : HubReq) : State :=
  match s.tryEnq r with
  | some s' => s'.decide_ r 0 0
  | none => s

/-! ### The arbitration cycle (R334) -/

/-- BARARV's reply lands as an arriving result (R339). -/
def replyLater (s : State) (r : HubReq) (v : Word) : State :=
  let p := s.replyTime r.tile r.die
  p.2.modTile r.tile fun tl =>
    { tl with regs := { tl.regs with
        pend := { due := p.1, issued := s.now, slot := r.slot, late := true, seq := tl.regs.seq, dst := r.dest, val := .x v
                  mask := BitVec.allOnes 256, byp := true } :: tl.regs.pend
        seq := tl.regs.seq + 1 } }

/-- A BARSYNC or the arrival of a STEP (R340, R342). -/
def syncBar (s : State) (r : HubReq) : State :=
  if (s.barAt r.obj).kill then s.decide_ r 4 0
  else
    let a := s.arriveBar r.obj
    let s := a.2.2.hangOn { r with phase := some a.1 }
    if a.2.1 then s.releaseBar r.obj else s

/-- A pending wait is abandoned for a stop: its arrival is withdrawn, and the tile hears of it (R120, R121). A wait
already decided has its reply on the way. -/
def withdrawWait (s : State) (id : Nat) : State :=
  match s.hubs.waits.find? fun w => w.id == id with
  | none => s
  | some w =>
    let s := s.withdrawArrival w
    let s := { s with hubs := { s.hubs with waits := s.hubs.waits.filter fun x => x.id != id } }
    s.answer w none none true

/-- One request applied at its home, and the waits that it satisfies released (R334 steps 1 and 2). -/
def applyReq (s : State) (r : HubReq) : State :=
  match r.op with
  | .barinit n =>
    let b := s.barAt r.obj
    (s.endBar r.obj 3).setBar r.obj ⟨if n = 0 then b.count else BitVec.ofNat 8 n, 0, false, 0⟩
  | .bararv =>
    if (s.barAt r.obj).kill then s.replyLater r (BitVec.twoPow 64 63)
    else
      let a := s.arriveBar r.obj
      let s := a.2.2.replyLater r (BitVec.ofNat 64 (a.1.toNat + if a.2.1 then 2 ^ 32 else 0))
      if a.2.1 then s.releaseBar r.obj else s
  | .barkill =>
    let s := s.endBar r.obj 4
    s.setBar r.obj { s.barAt r.obj with kill := true }
  | .barwt p =>
    let b := s.barAt r.obj
    if b.kill then s.decide_ r 4 0 else if phaseDone b.phase p then s.decide_ r 0 (p.toNat % 2 ^ 16) else s.hangOn r
  | .barsync | .step => s.syncBar r
  | .qpush _ | .qpop =>
    if (s.tqAt r.obj).kill then s.decide_ r 4 0
    else let s := s.hangOn r; releaseTq r.obj (s.hubs.waits.length + 1) s
  | .enqStage .. | .enqOwn .. => s.hangOn r
  | .withdraw id => s.withdrawWait id

/-- A limit reached with the condition unmet: the arrival is withdrawn, and DETAIL is that of R340 (R120, R334 step 3). -/
def timeoutAt (s : State) (r : HubReq) : State :=
  let s := s.withdrawArrival r
  let b := s.barAt r.obj
  let missing := b.count.toNat - b.arr.toNat
  s.decide_ r 1 (match r.op with
    | .barwt _ | .barsync => missing
    | .step => missing % 2 ^ 15
    | _ => 0)

end State

/-- Which of two requests of a cycle a home applies first: by tile, then by slot, then in the order in which they left
(R334). -/
def HubReq.before (a b : HubReq) : Bool :=
  a.tile.val < b.tile.val
    || (a.tile == b.tile && (decide (a.slot.val < b.slot.val) || (a.slot == b.slot && decide (a.id < b.id))))

/-- Requests in the order of a home. -/
def insertReq (r : HubReq) : List HubReq → List HubReq
  | [] => [r]
  | x :: l => if x.before r then x :: insertReq r l else r :: x :: l

/-- Requests sorted. -/
def sortReqs (l : List HubReq) : List HubReq := l.foldl (fun a r => insertReq r a) []

namespace State

/-- Number of valid contexts whose partition holds a device barrier or token queue (R84). -/
def owners (s : State) (barrier : Bool) (n : Nat) : Nat :=
  (s.ctxs.toList.filter fun c =>
    let p := c.entry.get 4
    let lo := if barrier then (fld p 0 15).toNat else (fld p 16 13).toNat
    let len := if barrier then (fld p 32 16).toNat else (fld p 48 14).toNat
    (c.entry.get 0).getLsbD 0 && decide (lo ≤ n) && decide (n < lo + len)).length

/-- A barrier object with free state. -/
def scrambleBar (s : State) (n : Nat) : State :=
  let c := s.draw 0 255
  let a := c.2.draw 0 255
  let k := a.2.draw 0 1
  let p := k.2.draw 0 (2 ^ 32 - 1)
  p.2.setBar n ⟨BitVec.ofNat 8 c.1, BitVec.ofNat 8 a.1, k.1 == 1, BitVec.ofNat 32 p.1⟩

/-- A token queue of the same depth with free state. -/
def scrambleTq (s : State) (n : Nat) : State :=
  let q := s.tqAt n
  let m := s.draw 0 q.depth
  let es := (List.range m.1).foldl (fun (r : List Word × State) _ =>
    let d := r.2.draw 0 (2 ^ 64 - 1)
    (BitVec.ofNat 64 d.1 :: r.1, d.2)) ([], m.2)
  let k := es.2.draw 0 1
  k.2.setTq n ⟨q.depth, es.1, k.1 == 1⟩

/-- The object that a request acts on, when it lies in the partitions of two valid contexts: its state is free each time it
is used, since R84 calls the behaviour of such an object undefined, and no other object changes (log 49). -/
def scramble (s : State) (r : HubReq) : State :=
  match r.op with
  | .barinit _ | .bararv | .barkill | .barwt _ | .barsync | .step =>
    if 1 < s.owners true r.obj then s.scrambleBar r.obj else s
  | .qpush _ | .qpop => if 1 < s.owners false r.obj then s.scrambleTq r.obj else s
  | _ => s

/-- Is a request the withdrawal of a push that hangs at a home? -/
def pushBack (s : State) (r : HubReq) : Bool :=
  match r.op with
  | .withdraw id => s.hubs.waits.any fun w => w.id == id && match w.op with | .enqStage .. | .enqOwn .. => true | _ => false
  | _ => false

/-- The arbitration cycle of the homes of a die (R334, R93, R105): the requests of the cycle; the pending pushes by tile, then
the withdrawals of those that are still pending, so that a push which has room is appended in its turn (R120); and the
limits. -/
def arbitrate (s : State) (die : Nat) (due : List HubReq) : State :=
  let s := { s with hubs := { s.hubs with reqs := s.hubs.reqs.filter fun r => !(due.any fun x => x.id == r.id) } }
  let back := (sortReqs due).filter s.pushBack
  let s := ((sortReqs due).filter fun r => !back.contains r).foldl (fun s r => (s.scramble r).applyReq r) s
  let s := (sortReqs (s.hubs.waits.filter fun r => r.die == die)).foldl
    (fun s r => if s.hubs.waits.any fun w => w.id == r.id then s.evalEnq r else s) s
  let s := back.foldl applyReq s
  (sortReqs (s.hubs.waits.filter fun r => r.die == die && decide (r.limit ≤ s.clk.wclock))).foldl timeoutAt s

end State

/-- SYNC_HOME_ARBITRATION (R334): one arbitration cycle of a die's homes. -/
def execSyncHomeArbitration (die : Fin 2) (s : State) : Host.Outcome State Fault Refusal :=
  .next (s.arbitrate die.val (s.hubs.reqs.filter fun r => r.die == die.val && decide (r.at_ ≤ s.now)))

end Sys2Proof.Machine
end

