-- ==== Sys2Proof/Machine/Device.lean ====
section
/-! DEFINITION. The device's own accesses to memory, accounting, the end of a task by retirement or kill, and the
completion of launches (chapters 04, 25 and 26: R86, R389, R423 to R432). -/

namespace Sys2Proof.Machine

/-- A counter raised by `n`, saturating at `2 ^ w - 1`. -/
def satAdd (w a n : Nat) : Nat := min (a + n) (2 ^ w - 1)

namespace State

/-! ### The device's own accesses (R386 of chapter 23, R389, R412; U is not asked of them) -/

/-- The key and grade of an address of a context, for an access by the device itself; or cause and level. -/
def devKey (s : State) (c : Fin 64) (va : Nat) (write : Bool) : Except (Nat × Nat) (Nat × Nat) :=
  match s.walk c va with
  | .fault cause lv _ => .error (cause, lv)
  | .leaf e lv _ =>
    if write && !e.getLsbD 1 then .error (2, lv) else .ok (s.forward (leafPa e lv va), (fld e 6 2).toNat)

/-- Bytes written by the device at a global address, line by line; where a translation fails, the cause, the level and
the address. -/
def devWrite (s : State) (c : Fin 64) (va : Nat) (l : List Byte) : State × Option (Nat × Nat × Nat) :=
  (linesOf va l.length).foldl (fun (r : State × Option (Nat × Nat × Nat)) part =>
    match r.2 with
    | some _ => r
    | none =>
      let r := (r.1.readyWalk [] c part.1, r.2)
      match r.1.devKey c part.1 true with
      | .ok (key, grade) =>
        ((r.1.touchVa c part.1).homeWrite key part.2 grade (leNat ((l.drop (part.1 - va)).take part.2)) false, none)
      | .error (cause, lv) => (r.1, some (cause, lv, part.1))) (s, none)

/-- Bytes read by the device at a global address, with whether any is marked; or cause, level and address. -/
def devRead (s : State) (c : Fin 64) (va n : Nat) : State × Except (Nat × Nat × Nat) (List Byte × Bool) :=
  (linesOf va n).foldl (fun (r : State × Except (Nat × Nat × Nat) (List Byte × Bool)) part =>
    match r.2 with
    | .error _ => r
    | .ok (l, bad) =>
      let r := (r.1.readyWalk [] c part.1, r.2)
      match r.1.devKey c part.1 false with
      | .ok (key, grade) =>
        let h := (r.1.touchVa c part.1).homeRead key part.2 grade
        (h.1, .ok (l ++ leBytes part.2 h.2.1, bad || h.2.2))
      | .error (cause, lv) => (r.1, .error (cause, lv, part.1))) (s, .ok ([], false))

/-- An external interrupt is raised at the Bronze complex (R390, R426, R419). -/
def irq (s : State) (n : Nat) : State := { s with dev := { s.dev with irqs := s.dev.irqs ++ [n] } }

/-! ### Accounting (R429) -/

/-- Change the accounting block of a context. -/
def modAcct (s : State) (c : Fin 64) (f : Account → Account) : State :=
  s.modCtx c fun x => { x with account := f x.account }

/-- Change the scheduler's view of a tile. -/
def modSched (s : State) (t : Fin 144) (f : Sched → Sched) : State :=
  s.modTile t fun tl => { tl with sched := f tl.sched }

/-! ### The end of a task (R424, R430) -/

/-- The unused part of a task's reservations returns to its queues (R90). -/
def giveBack (s : State) (k : Task) : State :=
  k.res.foldl (fun s e => s.modLive k.slot fun l =>
    { l with queues := l.queues.modify e.1 fun q => { q with reserved := q.reserved - e.2 } }) s

/-- Replies to the tile's requests that are still awaited will land nowhere; waits leave no trace at their homes (R121). -/
def forgetHub (s : State) (t : Fin 144) : State :=
  let plain (r : HubReq) : Bool := match r.op with | .barinit _ | .bararv | .barkill => true | _ => false
  let s := (s.hubs.waits.filter fun r => r.tile == t).foldl (fun s r => s.withdrawArrival r) s
  { s with hubs := { s.hubs with
    reqs := (s.hubs.reqs.filter fun r => r.tile != t || plain r).map fun r => if r.tile = t then { r with dest := .none } else r
    waits := s.hubs.waits.filter fun r => r.tile != t
    replies := s.hubs.replies.filter fun r => r.tile != t } }

/-- Results that the tile's accesses still deliver will land nowhere. -/
def forgetResults (s : State) (t : Fin 144) : State :=
  { s with net := { s.net with
    accs := s.net.accs.map fun (a : Access) => if a.tile = t then { a with dest := .none } else a } }

/-- What every end of a task does to its tile (R424, R430): no stream, slots Free, stream registers unbound. -/
def endTask (s : State) (t : Fin 144) (k : Task) : State :=
  let s := ((s.giveBack k).forgetHub t).forgetResults t
  s.modTile t fun tl => { tl with
    streams := .replicate 4 none, lockstep := true, savedLoops := []
    eng := { tl.eng with om := .replicate 8 .free, sts := .replicate 8 .reset }
    sys := { tl.sys with stop := false }
    sched := { tl.sched with resident := false, ticking := false, reqAt := none, job := .none } }

/-- Does a command need a token, so that it can never start once its task's counters are discarded (R256, R282, R424)? -/
def needsToken (k : TokF) : Bool := !(consumed k).isEmpty

/-- Retirement of the task on a tile (R424, R427, R429): the tile has no task from this cycle on. Commands that the RETIRE
bundle itself queued run on, but for those that wait for a token, which can never come (DESIGN CHOICE, log 97). -/
def retireTask (s : State) (t : Fin 144) (k : Task) : State :=
  let tl := s.tileAt t
  let sticky := (tl.sys.settle s.now tl.regs.pendF).sticky
  let s := s.modLive k.slot fun l =>
    { l with tasks := satAdd 32 l.tasks 1, tclk := satAdd 64 l.tclk tl.sys.tclock.toNat, sticky := l.sticky ||| sticky }
  let s := s.modAcct tl.sys.ctx fun a => { a with retired := satAdd 32 a.retired 1 }
  (s.endTask t k).modTile t fun tl => { tl with
    eng := { tl.eng with
      cq := tl.eng.cq.map fun q => q.filter fun c => !needsToken c.tok
      mq := tl.eng.mq.filter fun c => !needsToken c.tok }
    sched := { tl.sched with task := none, idleSince := s.now } }

/-- The record of a saved task is abandoned (R430, R432). -/
def dropSaved (s : State) (t : Fin 144) (c : Fin 64) : State :=
  if s.saved.any fun v => v.rank == t && v.tile.sys.ctx == c then
    { s with saved := s.saved.filter fun v => !(v.rank == t && v.tile.sys.ctx == c) }.modAcct c fun a =>
      { a with saved := a.saved - 1 }
  else s

/-- Is the task of a tile one that has not come to it yet, so that the tile's engines are still those of the task before? -/
def coming (j : Job) : Bool := match j with | .bind .. | .restore .. | .restoreStalled .. => true | _ => false

/-- The task clock of a tile's task, as a kill finds it (R110, R427): zero before it is bound, and that of its record before it
is restored. -/
def clockOf (s : State) (t : Fin 144) (k : Task) : Nat :=
  match (s.tileAt t).sched.job with
  | .bind .. => 0
  | .restore .. | .restoreStalled .. => match s.saved.find? fun v => v.rank == t && v.tile.sys.ctx == k.ctx with
    | some v => v.tile.sys.tclock.toNat
    | none => 0
  | _ => (s.tileAt t).sys.tclock.toNat

/-- Both copy queues of a killed task end as CPCANCEL ends them, unstarted matrix commands go, and started ones run to
retirement (R430, R286). Under a context kill, which is over within 200 µs, its accesses reach their homes within 40,000
cycles (R431). -/
def killWork (s : State) (t : Fin 144) : State :=
  let s := (s.cancelQueue t 0 (s.now + 1)).1
  let s := (s.cancelQueue t 1 (s.now + 1)).1
  { s.setMq t ((s.tileAt t).eng.mq.filter fun c => c.run.isSome) with
    net := { s.net with accs := s.net.accs.map fun (a : Access) =>
      if a.tile = t ∧ (s.ctx a.ctx).account.kbusy.isSome then { a with arrive := Nat.min a.arrive (s.now + 40000) } else a } }

/-- A kill of the task on a tile: bound, resident, being saved or being restored (R430). The tile keeps it, as killed, until its
request entries are free. -/
def killTask (s : State) (t : Fin 144) (k : Task) : State :=
  let n := s.clockOf t k
  let s := if coming (s.tileAt t).sched.job then s else s.killWork t
  let s := s.dropSaved t k.ctx
  let s := s.modLive k.slot fun l => { l with kills := satAdd 32 l.kills 1, tclk := satAdd 64 l.tclk n }
  let s := s.modAcct k.ctx fun a => { a with killed := satAdd 32 a.killed 1 }
  (s.endTask t k).modSched t fun y => { y with task := some { k with res := [] }, killed := true }

/-- A saved task is killed: it is not restored, and its record is abandoned (R430, R432). -/
def killSaved (s : State) (v : Saved) : State :=
  match v.tile.sched.task with
  | none => s
  | some k =>
    let s := s.modLive k.slot fun l =>
      { l with kills := satAdd 32 l.kills 1, tclk := satAdd 64 l.tclk v.tile.sys.tclock.toNat }
    let s := s.modAcct k.ctx fun a => { a with killed := satAdd 32 a.killed 1 }
    (s.dropSaved v.rank v.tile.sys.ctx).giveBack k

/-- Are a killed task's request entries free: those of its slot accesses, and of its engines (R203, R430)? -/
def tileFree (s : State) (t : Fin 144) : Bool :=
  s.entriesUsed t == 0 && !s.peersOpen t && (s.tileAt t).eng.cq.toList.all fun q => q.isEmpty

/-- A tile whose killed task has no request entry left is free to select (R92, R430). -/
def freeTile (s : State) (t : Fin 144) : State :=
  if (s.tileAt t).sched.killed && s.tileFree t then
    s.modSched t fun y => { y with task := none, killed := false, idleSince := s.now }
  else s

/-! ### Completion of launches (R425 to R427) -/

/-- Is a task one of the launch in a slot? -/
def ofSlot (n : Fin 16) (k : Option Task) : Bool := match k with | some k => k.slot == n | none => false

/-- Has the launch in a slot no work left (R425)? A killed task no longer counts. -/
def finished (s : State) (n : Fin 16) (l : Live) : Bool :=
  l.queues.all (fun q => q.queue.isEmpty && q.reserved == 0)
    && s.tiles.toList.all (fun tl => (!ofSlot n tl.sched.task || tl.sched.killed) && tl.sched.own.all fun e => e.slot != n)
    && s.saved.all fun v => !ofSlot n v.tile.sched.task

/-- Is every access of the tasks of the launch in a slot performed (R428): those of slots, the peer messages, and the commands
that its tasks have left in engines? -/
def quiet (s : State) (n : Fin 16) : Bool :=
  let mine (o : Option Owner) : Bool := match o with | some o => o.slot == n | none => false
  s.net.accs.all (fun a => a.performed || !mine a.owner)
    && s.ports.toList.all (fun p => p.unanswered.all fun o => !mine o.owner)
    && s.tiles.toList.all fun tl => !ofSlot n tl.sched.tail || (tl.eng.mq.isEmpty && tl.eng.cq.toList.all fun q => q.isEmpty)

/-- The completion record of a launch that ended with a REASON at a wall-clock time (R427). -/
def doneRecord (n : Fin 16) (l : Live) (e : Nat × Nat) : List Byte :=
  [l.lid.toNat + n.val * 2 ^ 32 + e.1 * 2 ^ 36 + l.ctx.val * 2 ^ 40, l.waccept, e.2,
    l.tasks + l.kills * 2 ^ 32, l.tclk, l.overrun, l.sticky.toNat + l.faults * 2 ^ 32, 0].flatMap (leBytes 8)

/-- A launch completes (R426): its wheel positions return, its record is written, STATUS and the interrupt follow. -/
def completeLaunch (s : State) (n : Fin 16) (l : Live) (e : Nat × Nat) : State :=
  let r := if l.done = 0 then (s, none) else s.devWrite l.ctx (fld l.done 0 52).toNat (doneRecord n l e)
  let s := if r.2.isSome then r.1.modAcct l.ctx fun a => { a with dfail := true } else r.1
  let sl := s.slots.get n
  { s with slots := upd s.slots n { sl with status := 2, live := none } }.irq (320 + n.val)

/-- Completion is decided for the launch in a slot (R426 step 2): REASON, 1 under a context kill, and WDONE. -/
def decideLaunch (s : State) (n : Fin 16) : State :=
  match s.liveAt n with
  | some l =>
    if l.ended.isNone && s.finished n l then
      s.modLive n fun l => { l with ended := some (if (s.ctx l.ctx).account.kbusy.isSome then 1 else 0, s.clk.wclock) }
    else s
  | none => s

/-- LAUNCH_COMPLETION for every live launch (R426, R428): it is decided, and follows once every access of the launch has been
performed. -/
def completions (s : State) : State :=
  (List.finRange 16).foldl (fun s n =>
    let s := s.decideLaunch n
    match s.liveAt n with
    | some l => match l.ended with
      | some e => if s.quiet n then s.completeLaunch n l e else s
      | none => s
    | none => s) s

/-- The tasks, queues and sync objects of a context under a kill (R431 steps 1 to 3). -/
def killSweep (s : State) (c : Fin 64) : State :=
    let s := (List.finRange 144).foldl (fun s t =>
      let y := (s.tileAt t).sched
      let s := match y.task with
        | some k => if k.ctx = c ∧ !y.killed then s.killTask t k else s
        | none => s
      s.modSched t fun y => { y with own := y.own.filter fun e => e.ctx != c }) s
    let s := (s.saved.filter fun v => v.tile.sys.ctx == c).foldl killSaved s
    let s := (List.finRange 16).foldl (fun s n => s.modLive n fun l =>
      if l.ctx = c then { l with queues := l.queues.map fun q => { q with queue := [], free := q.free ++ q.queue } } else l) s
    let p := (s.ctx c).entry.get 4
    let bars := (List.range (fld p 32 16).toNat).map (· + (fld p 0 15).toNat)
    let tqs := (List.range (fld p 48 14).toNat).map (· + (fld p 16 13).toNat)
    let s := bars.foldl (fun s n =>
      let s := s.endBar n 4
      s.setBar n { s.barAt n with kill := true }) s
    tqs.foldl (fun s n =>
      let s := (s.hubs.waits.filter fun r => r.obj == n && match r.op with | .qpush _ | .qpop => true | _ => false).foldl
        (fun s r => s.decide_ r 4 0) s
      s.setTq n { s.tqAt n with kill := true }) s

/-- A context kill (R431), after the completions of the cycle (R426): it begins; its launches complete once nothing of them is
left. -/
def killContext (s : State) (c : Fin 64) : State :=
  if (s.ctx c).account.kbusy.isSome then s
  else
    let s := s.completions
    let d := s.draw 1 200000
    (d.2.modAcct c fun a => { a with kbusy := some (s.now + d.1) }).killSweep c

/-- What is posted or bound for a context while its kill lasts is killed too, so that it has no live launch when KBUSY clears
(R431; DESIGN CHOICE, log 98). -/
def sweepKills (s : State) : State :=
  (List.finRange 64).foldl (fun s c =>
    if (s.ctx c).account.kbusy.isSome && (List.finRange 16).any fun n => (s.liveAt n).any fun l => l.ctx == c then s.killSweep c
    else s) s

/-- KBUSY clears once the context has no live launch (R431). -/
def endKills (s : State) : State :=
  (List.finRange 64).foldl (fun s c => match (s.ctx c).account.kbusy with
    | some due =>
      if due ≤ s.now ∧ (List.finRange 16).all fun n => (s.liveAt n).all fun l => l.ctx != c then
        s.modAcct c fun a => { a with kbusy := none }
      else s
    | none => s) s

end State

end Sys2Proof.Machine
end

