-- ==== Sys2Proof/Machine/Sched.lean ====
section
/-! DEFINITION. Placement: launches, stage queues, the selection rule, binding, pre-emption, YIELD, ENQ and RETIRE
(chapters 04, 25 and 26: R84 to R106, R409 to R411, R423). -/

namespace Sys2Proof.Machine

/-! ### Domains and scores (R89, R91) -/

/-- Does a tile lie in the domain of a level around an anchor (R89)? -/
def inDomain (level anchor t : Nat) : Bool :=
  match level with
  | 0 => t == anchor
  | 1 => clusterOf t == clusterOf anchor
  | 2 => domainOf t == domainOf anchor
  | 3 => t / 72 == anchor / 72
  | _ => true

namespace State

/-- Capacity of stage `q` of a launch. -/
def capOf (l : Live) (q : Nat) : Nat := match l.queues[q]? with | some x => x.cap | none => 0

/-- fill of stage `q` of a launch (R90). -/
def fillOf (l : Live) (q : Nat) : Nat := match l.queues[q]? with | some x => x.fill | none => 0

/-- The third condition of R91: every output has room for what a task may push. -/
def roomFor (l : Live) (stg : Nat) : Bool :=
  match l.image.stages[stg]? with
  | some st => st.outs.all fun o => decide (fillOf l o.1 + o.2 ≤ capOf l o.1)
  | none => false

/-- Is a stage eligible on a tile (R91)? TILES is checked by the caller. -/
def canRun (l : Live) (t : Fin 144) (stg : Nat) : Bool :=
  match l.image.stages[stg]?, l.queues[stg]? with
  | some st, some q => inDomain st.level l.anchor t.val && !q.queue.isEmpty && roomFor l stg
  | _, _ => false

/-- The score of a stage (R91). -/
def score (s : State) (l : Live) (stg : Nat) : Int :=
  match l.image.stages[stg]?, l.queues[stg]? with
  | some st, some q =>
    let out := st.outs.foldl (fun m o => max m (256 * fillOf l o.1 / capOf l o.1)) 0
    (256 * q.queue.length / q.cap : Nat) - (out : Int) + (min 255 ((s.clk.wclock - q.last) / 64000) : Nat)
  | _, _ => 0

/-! ### The selection rule (R92) -/

/-- What a tile may take: its saved task, the head of its private queue, or a stage. -/
inductive Pick
  | resume
  | own
  | stage (slot : Fin 16) (stg : Nat)

/-- The winning stage of R91 across the live launches of a context: higher score, lower slot, lower stage. -/
def bestStage (s : State) (t : Fin 144) (c : Fin 64) : Option (Int × Fin 16 × Nat) :=
  (List.finRange 16).foldl (fun best n =>
    match s.liveAt n with
    | none => best
    | some l =>
      if l.ctx ≠ c then best
      else (List.range l.queues.length).foldl (fun best stg =>
        if canRun l t stg then
          let v := s.score l stg
          match best with
          | some (b, _, _) => if b < v then some (v, n, stg) else best
          | none => some (v, n, stg)
        else best) best) none

/-- Steps 3 to 5 of R92: the work available to a context on a tile. -/
def workOf (s : State) (t : Fin 144) (c : Fin 64) : Option Pick :=
  if s.saved.any fun v => v.rank == t && v.tile.sys.ctx == c then some .resume
  else
    let own := match (s.tileAt t).sched.own with
      | e :: _ => e.ctx == c && (match s.liveAt e.slot with | some l => roomFor l e.stage | none => false)
      | [] => false
    if own then some .own
    else (s.bestStage t c).map fun b => .stage b.2.1 b.2.2

/-- V of a context (R83). -/
def ctxValid (s : State) (c : Fin 64) : Bool := ((s.ctx c).entry.get 0).getLsbD 0
/-- CLASS of a context (R83). -/
def classOf (s : State) (c : Fin 64) : Nat := (fld ((s.ctx c).entry.get 0) 1 2).toNat
/-- SLICE of a context in ticks (R83). -/
def sliceOf (s : State) (c : Fin 64) : Nat := (fld ((s.ctx c).entry.get 0) 8 32).toNat * 1000
/-- CLASS and SLICE of a context as a tile's last selection found them, or as they were when the context became valid since; as
they stand, where the tile has not selected yet (R84). -/
def viewOf (s : State) (t : Fin 144) (c : Fin 64) : Nat × Nat :=
  (((s.tileAt t).sched.view[c.val]?).join).getD (s.classOf c, s.sliceOf c)
/-- Has the slice on a tile expired (R92, R409)? Its clock stands still in Hold (R419). -/
def sliceOver (s : State) (y : Sched) : Bool :=
  y.expired || decide (y.sliceStart + y.sliceLen ≤ y.pausedAt.getD s.clk.wclock)

/-- A selection on a tile takes CLASS and SLICE of every context as they stand; a new SLICE counts for the slice that runs
there, unless that has expired (R84, R409). -/
def takeView (s : State) (t : Fin 144) : State :=
  s.modTile t fun tl => { tl with sched := { tl.sched with
    expired := s.sliceOver tl.sched, stopFor := none, passed := false
    sliceLen := match tl.sched.ranCtx with
      | some c => tl.sched.sliceLen + s.sliceOf c - (s.viewOf t c).2
      | none => tl.sched.sliceLen
    view := (List.finRange 64).map fun c => if s.ctxValid c then some (s.classOf c, s.sliceOf c) else none } }
/-- Overrun carried by a context on a tile (R410). -/
def carried (y : Sched) (c : Fin 64) : Nat := match y.carried.find? fun e => e.1 == c with | some e => e.2 | none => 0
/-- Overrun carried by a context on a tile set. -/
def setCarried (y : Sched) (c : Fin 64) (n : Nat) : Sched :=
  let rest := y.carried.filter fun e => e.1 != c
  { y with carried := if n = 0 then rest else (c, n) :: rest }

/-- The contexts with work on a tile that step 1 of R92 keeps. -/
def candidates (s : State) (t : Fin 144) : List (Fin 64) :=
  let cs := (List.finRange 64).filter fun c => s.ctxValid c && s.inTiles c t.val && (s.workOf t c).isSome
  let top := cs.foldl (fun m c => min m (s.classOf c)) 4
  cs.filter fun c => s.classOf c == top

/-- Contexts in increasing order, cyclically, after the one that ran last (R92). -/
def cyclic (y : Sched) (cs : List (Fin 64)) : List (Fin 64) :=
  match y.ranCtx with
  | none => cs
  | some r => (cs.filter fun c => decide (r.val < c.val)) ++ cs.filter fun c => decide (c.val ≤ r.val)

/-- Step 2 of R92 after an expired slice: the next context in turn, passing over those whose carried overrun is a whole
slice; the only one is taken all the same, and the turn counts as passed over (R410). `fuel` bounds the turns. -/
def takeTurn (s : State) : Nat → Sched → List (Fin 64) → Option (Fin 64) × Sched
  | _, y, [] => (none, y)
  | 0, y, c :: _ => (some c, y)
  | k + 1, y, c :: cs =>
    let n := carried y c
    let len := s.sliceOf c
    if 0 < len ∧ len ≤ n then
      let y := setCarried y c (n - len)
      if cs = [] then (some c, { y with passed := true }) else takeTurn s k y (cs ++ [c])
    else (some c, y)

/-- The context that a tile takes, and the scheduler's record of turns (R92 steps 1 and 2). -/
def chooseCtx (s : State) (t : Fin 144) : Option (Fin 64) × Sched :=
  let y := (s.tileAt t).sched
  let cs := s.candidates t
  match y.ranCtx with
  | some r =>
    if cs.contains r && !s.sliceOver y then (some r, y)
    else s.takeTurn (cs.length + (cs.map fun c => carried y c / max 1 (s.sliceOf c)).sum) y (cyclic y cs)
  | none => s.takeTurn (cs.length + (cs.map fun c => carried y c / max 1 (s.sliceOf c)).sum) y cs

/-- May a tile take work now: nothing on it, and the device neither in Hold nor entering it (R419)? -/
def mayTake (s : State) (t : Fin 144) : Bool :=
  let y := (s.tileAt t).sched
  y.task.isNone && (match y.job with | .none => true | _ => false) && s.hold.nominal
    && match s.hold.power with | .running | .leaving => true | _ => false

/-- Cycles within which a binding ends (R99): pop, state, clearing, first bundle. -/
def bindTime (s : State) (t : Fin 144) (home : Nat) (c : Fin 64) : Nat :=
  (if t.val / 72 = home / 72 then 60 else 140) + 40 + (if (s.tileAt t).sched.lastCtx = some c then 0 else 512) + 24

/-- The reservations of a task of a stage (R90), one entry a queue. -/
def reserveList (st : Stage) : List (Nat × Nat) :=
  st.outs.foldl (fun l o => match l.find? fun e => e.1 == o.1 with
    | some _ => l.map fun e => if e.1 = o.1 then (e.1, e.2 + o.2) else e
    | none => l ++ [o]) []

/-- A stage of a launch is bound to a tile with a block: reservations, last(s), and the binding under way (R90, R91,
R97 to R99). -/
def beginBind (s : State) (t : Fin 144) (n : Fin 16) (stg : Nat) (blk : List (Word × Bool)) (home : Nat) : State :=
  match s.liveAt n with
  | none => s
  | some l => match l.image.stages[stg]? with
    | none => s
    | some st =>
      let res := reserveList st
      let s := res.foldl (fun s e => s.modLive n fun l =>
        { l with queues := l.queues.modify e.1 fun q => { q with reserved := q.reserved + e.2 } }) s
      let s := s.modLive n fun l =>
        { l with queues := l.queues.modify stg fun q => { q with last := s.clk.wclock } }
      let d := s.draw 1 (s.bindTime t home l.ctx)
      let k : Task := { ctx := l.ctx, slot := n, stage := stg, lid := l.lid, res, user := !l.image.sys }
      d.2.modSched t fun y => { y with task := some k, job := .bind (d.2.now + d.1) blk }

/-- Does a queue entry of a context belong to the entries of another valid context too (R84)? -/
def entryShared (s : State) (c : Fin 64) (b : Nat) : Bool :=
  let base (c : Fin 64) : Nat := (fld ((s.ctx c).entry.get 5) 0 20).toNat
  (List.finRange 64).any fun d =>
    d != c && s.ctxValid d && decide (base d ≤ base c + b)
      && decide (base c + b < base d + (fld ((s.ctx d).entry.get 5) 20 21).toNat)

/-- The eight words of a pool block, each with whether it is marked (R88, R205). An entry that two valid contexts share may name
any block, since R84 calls its behaviour undefined: the words are free (log 49). -/
def readBlock (s : State) (c : Fin 64) (b : Nat) : List (Word × Bool) :=
  (List.range 8).map fun i =>
    if s.entryShared c b then (BitVec.ofNat 64 (Config.freeNat (s.freeCtr + i)), false)
    else (s.load64 (s.blockKey c b + 8 * i), s.marked (s.blockKey c b + 8 * i) 8 8)

/-- TILE_SELECTION (R92, R93): a tile without work takes the first that its steps yield. -/
def select (s : State) (t : Fin 144) : State :=
  if !s.mayTake t || (s.candidates t).isEmpty then s
  else
    let before := s
    let s := s.takeView t
    let r := s.chooseCtx t
    match r.1 with
    | none => before
    | some c =>
      let s := s.modSched t fun _ => r.2
      match s.workOf t c with
      | some .resume =>
        match s.saved.find? fun v => v.rank == t && v.tile.sys.ctx == c with
        | some v => s.modSched t fun y => { y with task := v.tile.sched.task, job := .restore 0 none }
        | none => s
      | some .own =>
        match (s.tileAt t).sched.own with
        | e :: rest =>
          (s.modSched t fun y => { y with own := rest }).beginBind t e.slot e.stage e.block t.val
        | [] => s
      | some (.stage n stg) =>
        match s.liveAt n with
        | none => s
        | some l => match l.queues[stg]? with
          | some q => match q.queue with
            | b :: rest =>
              let blk := s.readBlock c b
              let s := { s with freeCtr := s.freeCtr + 8 }
              let s := s.modLive n fun l =>
                { l with queues := l.queues.set stg { q with queue := rest, free := q.free ++ [b] } }
              s.beginBind t n stg blk l.anchor
            | [] => s
          | none => s
      | none => s

/-- Tiles in the order in which work is offered to them: those idle longest first, then by rank (R94). -/
def offerOrder (s : State) : List (Fin 144) :=
  (List.finRange 144).foldr (fun t l =>
    let a := (s.tileAt t).sched.idleSince
    l.takeWhile (fun u => decide ((s.tileAt u).sched.idleSince < a)) ++ t ::
      l.dropWhile (fun u => decide ((s.tileAt u).sched.idleSince < a))) []

/-- Did a tile come to be without work in this cycle, by a retirement or the end of a save? -/
def freed (s : State) (t : Fin 144) : Bool := s.mayTake t && (s.tileAt t).sched.idleSince == s.now

/-- Is there anything that a tile could take: a saved task, a queued block or a private entry (R92)? -/
def anyWork (s : State) : Bool :=
  !s.saved.isEmpty || s.slots.toList.any (fun x => x.live.any fun l => l.queues.any fun q => !q.queue.isEmpty)
    || s.tiles.toList.any fun tl => !tl.sched.own.isEmpty

/-- The idle tiles that an offer wakes: those that would find work when they are asked in the order of R94. -/
def woken (s : State) : List (Fin 144) :=
  if !s.anyWork then [] else
  ((s.offerOrder.filter fun t => !s.freed t).foldl (fun (r : State × List (Fin 144)) t =>
    let s' := r.1.select t
    if (s'.tileAt t).sched.task.isSome && (r.1.tileAt t).sched.task.isNone then (s', t :: r.2) else r) (s, [])).2

/-- The tiles that offers wake and those that have just become free select; their requests of one cycle are served in
increasing tile rank (R92 to R94). -/
def selections (s : State) : State :=
  if s.slots.toList.all (fun x => x.live.isNone) && s.saved.isEmpty then s
  else
    let w := s.woken
    ((List.finRange 144).filter fun t => s.freed t || w.contains t).foldl select s

/-! ### Binding (R97) -/

end State

/-- Every key of a range removed. -/
def Memory.clearRange (m : Memory) (a n : Nat) : Memory := m.filter fun c => decide (c.1 < a) || decide (a + n ≤ c.1)

/-- Is a mark one of a tile's scratchpad, operand memory, accumulators, tags or registers (log 3)? -/
def ownMark (t : Fin 144) (m : Nat) : Bool :=
    (decide (spadBase + t.val * 2 ^ 19 ≤ m) && decide (m < spadBase + (t.val + 1) * 2 ^ 19))
      || (decide (omBase + t.val * 2 ^ 17 ≤ m) && decide (m < omBase + (t.val + 1) * 2 ^ 17))
      || (decide (accBase + t.val * 2 ^ 18 ≤ m) && decide (m < accBase + (t.val + 1) * 2 ^ 18))
      || (decide (tagBase + t.val * 2 ^ 17 ≤ m) && decide (m < tagBase + (t.val + 1) * 2 ^ 17))
      || (decide (regBase + t.val * 2 ^ 15 ≤ m) && decide (m < regBase + (t.val + 1) * 2 ^ 15))

namespace State

/-- Does a tile's engine still hold commands of a task that has ended (R424, R430)? A task bound or restored there starts after
them (DESIGN CHOICE, log 97). -/
def lingers (s : State) (t : Fin 144) : Bool :=
  !(s.tileAt t).eng.mq.isEmpty || (s.tileAt t).eng.cq.toList.any fun q => !q.isEmpty

/-- The slice clock of a tile goes on after Hold: the time for which it stood still is not charged (R419, R421). -/
def unpause (s : State) (t : Fin 144) : State :=
  s.modSched t fun y => match y.pausedAt with
    | some p => { y with sliceStart := y.sliceStart + (s.clk.wclock - p), pausedAt := none }
    | none => y

/-- A slice on a tile starts when a task of its context comes to the tile after one of another (R92); it is shorter by the
overrun carried, and that of a context that was passed over starts expired (R410). -/
def startSlice (s : State) (t : Fin 144) (c : Fin 64) : State :=
  let s := s.unpause t
  let y := (s.tileAt t).sched
  if y.ranCtx = some c then s
  else
    let n := carried y c
    let len := (s.viewOf t c).2
    let s := s.modSched t fun y =>
      { (if y.passed then y else setCarried y c (n - len)) with
        ranCtx := some c, sliceStart := s.clk.wclock, sliceLen := if y.passed then len else len - n
        expired := y.passed || (decide (0 < n) && decide (len ≤ n)), passed := false }
    s.modAcct c fun a => { a with slices := satAdd 32 a.slices 1 }

/-- The storage of a tile that the next task of another context finds zero (R97). -/
def clearTile (s : State) (t : Fin 144) : State :=
  let cut (m : Memory) : Memory :=
    ((m.clearRange (spadBase + t.val * 2 ^ 19) (2 ^ 19)).clearRange (omBase + t.val * 2 ^ 17) (2 ^ 17)).clearRange
      (accBase + t.val * 2 ^ 18) (2 ^ 18)
  let s := s.settleEng t 0 (2 ^ 19)
  let s := { s with mem := cut s.mem, marks := s.marks.filter fun m => !ownMark t m }
  s.modTile t fun tl => { tl with
    tags := [], tagPend := [], eng := { tl.eng with acc := .replicate 10 ⟨false, 0, 0⟩ }
    regs := { tl.regs with v := .replicate 384 0, k := .replicate 16 0, pend := [] } }

/-- The wheel register of a launch on a tile (R101, R102). -/
def wheelWord (l : Live) (t : Fin 144) : Word :=
  match l.wheels.find? fun e => e.1 == t.val with
  | some (_, [p]) => BitVec.ofNat 64 (p + 2 ^ 8)
  | some (_, p :: q :: _) => BitVec.ofNat 64 (p + 2 ^ 8 + q * 2 ^ 16 + 2 ^ 24)
  | _ => 0

/-- Marks of x registers go when all of them are written (R436). -/
def clearXMarks (s : State) (t : Fin 144) : State := s.clearMarks (xKey t 0) 64 1

/-- The registers x1 to x8 whose words of the command block are marked hold failing parity (R205; DEDUCED, log 48). -/
def markBlock (s : State) (t : Fin 144) (blk : List (Word × Bool)) : State :=
  (blk.zip (List.range 8)).foldl (fun s w => if w.1.2 then s.setMark (xKey t (w.2 + 1)) else s) s

/-- The state of a tile at the start of a task (R97, R115, R128, R170). -/
def bindState (s : State) (t : Fin 144) (k : Task) (l : Live) (blk : List (Word × Bool)) : State :=
  let same := (s.tileAt t).sched.lastCtx = some k.ctx
  let s := if same then s.modTile t fun tl => { tl with regs := tl.regs.land (s.now + 1000) } else s.clearTile t
  let s := (s.clearXMarks t).markBlock t blk
  let st := (l.image.stages[k.stage]?.getD ⟨0, 0, 0, 1, []⟩)
  let word (i : Nat) : Word := (blk.getD i (0, false)).1
  let part := (s.ctx k.ctx).entry.get 4
  s.modTile t fun tl => { tl with
    regs := { Regs.reset with
      x := Vector.ofFn fun i => if 1 ≤ i.val ∧ i.val ≤ 8 then word (i.val - 1) else 0
      v := tl.regs.v, k := tl.regs.k, seq := tl.regs.seq }
    sys := { tl.sys with
      coord := fld (word 0) 0 48, rank := BitVec.ofNat 8 t.val, stage := BitVec.ofNat 6 k.stage, ctx := k.ctx, tclock := 0, toc := 0
      tocOps := [], mts := [], mtsPlan := [], stop0 := false
      sticky := 0, tenable := 0, syncwin := part &&& 0x3FFFFFFF1FFF7FFF, wheel := wheelWord l t, stop := false
      bfmt := Vector.ofFn fun i => (l.image.bankfmt.getD i.val 0).zeroExtend 64 }
    streams := Vector.ofFn fun g =>
      if g = 0 then some (Stream.new st.entry (BitVec.allOnes 8) (BitVec.twoPow 64 st.gdle) s.now) else none
    lockstep := true, savedLoops := []
    ibuf := if same then tl.ibuf else [], fills := if same then tl.fills else []
    eng := { tl.eng with
      cq := .replicate 2 [], cqPos := .replicate 2 0, mq := [], mqPos := 0, om := .replicate 8 .free
      sts := .replicate 8 .reset }
    tlb := if same then tl.tlb else []
    sched := { tl.sched with
      job := .none, resident := true, ticking := false, lastCtx := some k.ctx, parkSeq := 0, reqAt := none, tail := some k } }

/-- A stop request is sent to a tile (R405); once sent it is not withdrawn. -/
def stopTile (s : State) (t : Fin 144) : State :=
  let tl := s.tileAt t
  if tl.sched.reqAt.isSome ∨ !tl.sched.resident then s
  else
    (s.modSched t fun y => { y with reqAt := some s.clk.wclock }).modTile t fun tl =>
      { tl with sys := { tl.sys with stop := true } }

end State

/-- TASK_BIND (R97, R98): the pop completes, and the tile's task starts at its stage's entry in lockstep. A task bound
while the device enters Hold is stopped at once (R419). -/
def execTaskBind (t : Fin 144) (s : State) : Host.Outcome State Fault Refusal :=
  let y := (s.tileAt t).sched
  match y.job, y.task with
  | .bind due blk, some k =>
    if s.now < due ∨ s.lingers t then .next s
    else match s.liveAt k.slot with
      | none => .next s
      | some l =>
        let s := (s.startSlice t k.ctx).bindState t k l blk
        .next (match s.hold.power with
          | .entering => s.stopTile t
          | _ => s)
  | _, _ => .next s

/-! ### Pre-emption (R95, R409) -/

namespace State

/-- Does another context of the running one's class have work on a tile (R95)? -/
def rival (s : State) (t : Fin 144) (c : Fin 64) : Bool :=
  (List.finRange 64).any fun d => d != c && s.ctxValid d && s.inTiles d t.val && (s.viewOf t d).1 == (s.viewOf t c).1
    && (s.workOf t d).isSome

/-- May the scheduler send a stop request to a tile's task: it is resident, none was sent, and its context's save area did
not fail (R416)? -/
def mayStop (s : State) (t : Fin 144) (k : Task) : Bool :=
  let y := (s.tileAt t).sched
  y.resident && y.reqAt.isNone && !y.killed && !(s.ctx k.ctx).noSave

/-- DRAIN of a task's image (R21). -/
def drainOfTask (s : State) (k : Task) : Nat := match s.liveAt k.slot with | some l => l.image.drain | none => 0

/-- Is a slice stop due on a tile (R95, R409): drain ticks before expiry or later, with a rival? -/
def sliceDue (s : State) (t : Fin 144) : Bool :=
  let y := (s.tileAt t).sched
  match y.task with
  | none => false
  | some k =>
    s.mayStop t k && (y.expired || decide (y.sliceStart + y.sliceLen ≤ s.clk.wclock + s.drainOfTask k)) && s.rival t k.ctx

end State

/-- SLICE_STOP_TIMER (R409). -/
def execSliceStopTimer (t : Fin 144) (s : State) : Host.Outcome State Fault Refusal :=
  .next (if s.sliceDue t then s.stopTile t else s)

namespace State

/-- Tiles that run a task of a lower class than a context and could take a piece of its work, lowest class first, then lowest
rank (R95). -/
def victims (s : State) (c : Fin 64) (can : Fin 144 → Bool) : List (Fin 144) :=
  let cls (t : Fin 144) : Nat := match (s.tileAt t).sched.task with | some k => (s.viewOf t k.ctx).1 | none => 0
  let l := (List.finRange 144).filter fun t => match (s.tileAt t).sched.task with
    | some k => s.mayStop t k && decide ((s.viewOf t c).1 < (s.viewOf t k.ctx).1) && s.inTiles c t.val && can t
    | none => false
  l.foldl (fun m t => m.takeWhile (fun u => decide (cls t ≤ cls u)) ++ t :: m.dropWhile (fun u => decide (cls t ≤ cls u))) []

/-- Tiles on which a stop for the work of a stage is under way. -/
def underWay (s : State) (n : Fin 16) (stg : Nat) : Nat :=
  (s.tiles.toList.filter fun tl => tl.sched.stopFor == some (n, stg)).length

/-- How many tasks of a stage could be bound one after another, by its queue and by the room of its outputs (R90, R91). -/
def bindable (l : Live) (stg : Nat) : Nat :=
  match l.image.stages[stg]?, l.queues[stg]? with
  | some st, some q =>
    ((List.range q.queue.length).takeWhile fun k => st.outs.all fun o =>
      let each := (((reserveList st).find? fun e => e.1 == o.1).map fun e => e.2).getD 0
      decide (fillOf l o.1 + k * each + o.2 ≤ capOf l o.1 + if o.1 = stg then k else 0)).length
  | _, _ => 0

/-- The stops for the work of a stage: one tile for each task that could be bound and for which none is stopping yet (R95). -/
def preemptStage (n : Fin 16) (l : Live) (s : State) (stg : Nat) : State :=
  (List.range (bindable l stg - s.underWay n stg)).foldl (fun s _ =>
    match s.victims l.ctx fun t => canRun l t stg with
    | t :: _ => (s.stopTile t).modSched t fun y => { y with stopFor := some (n, stg) }
    | [] => s) s

/-- The stop requests for work of a higher class (R95): a saved task or a private entry stops its own tile; the work of a stage
stops as many tiles as can take it. -/
def preempt (s : State) (c : Fin 64) : State :=
  let own (t : Fin 144) : Bool := match s.workOf t c with | some .resume | some .own => true | _ => false
  let s := (s.victims c own).foldl stopTile s
  (List.finRange 16).foldl (fun s n => match s.liveAt n with
    | some l => if l.ctx = c then (List.range l.queues.length).foldl (preemptStage n l) s else s
    | none => s) s

/-- The stops that the schedulers send in a cycle for work of a higher class (R95). -/
def preempts (s : State) : State :=
  if !s.anyWork then s
  else (List.finRange 64).foldl (fun s c => if s.ctxValid c then s.preempt c else s) s

end State

/-! ### SCHED_STALL (R96) -/

namespace State

/-- A live launch of a context with queued items, every one of them blocked by its outputs: of several, the one of the lowest
launch slot, whose LID and ANCHOR the one entry then carries, while the condition of R96 is judged over all launches of
the context (DESIGN CHOICE, log 84). -/
def blockedLaunch (s : State) (c : Fin 64) : Option Live :=
  (List.finRange 16).findSome? fun n => match s.liveAt n with
    | some l =>
      if l.ctx = c ∧ l.queues.any (fun q => !q.queue.isEmpty)
          ∧ (List.range l.queues.length).all (fun i =>
            (match l.queues[i]? with | some q => q.queue.isEmpty | none => true) || !roomFor l i) then some l else none
    | none => none

/-- Does a context have a task bound, resident or saved? -/
def hasTask (s : State) (c : Fin 64) : Bool :=
  (s.tiles.toList.any fun tl => match tl.sched.task with | some k => k.ctx == c | none => false)
    || s.saved.any fun v => v.tile.sys.ctx == c

/-- The condition of SCHED_STALL: items queued, all blocked, and no task of the context anywhere (R96). -/
def stuck (s : State) (c : Fin 64) : Option Live :=
  match s.blockedLaunch c with
  | none => none
  | some b =>
    if s.hasTask c then none
    else if (List.finRange 16).any fun n => match s.liveAt n with
        | some l => l.ctx == c && (List.range l.queues.length).any fun i =>
            (match l.queues[i]? with | some q => !q.queue.isEmpty | none => false) && roomFor l i
        | none => false then none
    else some b

end State

/-- SCHED_STALL (R96): after 1,000,000 ticks of the condition one entry is written, and none again until it has ended. -/
def execSchedStall (c : Fin 64) (s : State) : Host.Outcome State Fault Refusal :=
  let x := s.ctx c
  match s.stuck c, x.stallSince with
  | some l, some since =>
    if !x.stallTold ∧ since + 1000000 ≤ s.clk.wclock then
      let e : FaultEntry :=
        { trap := { kind := .schedStall }, rank := l.anchor, group := 0, ctx := c, pc := 0, lid := l.lid
          wclk := s.clk.wclock, token := 0, lslot := none }
      let s := s.modCtx c fun x => { x with stallTold := true }
      .next { s with dev := { s.dev with faultNew := s.dev.faultNew ++ [e] } }
    else .next s
  | _, _ => .next s

/-- The coordinator notes since when a context has been stuck (R96). -/
def State.watchStalls (s : State) : State :=
  (List.finRange 64).foldl (fun s c =>
    let x := s.ctx c
    match s.stuck c, x.stallSince with
    | some _, none => s.modCtx c fun x => { x with stallSince := some s.clk.wclock, stallTold := false }
    | none, some _ => s.modCtx c fun x => { x with stallSince := none, stallTold := false }
    | _, _ => s) s

/-! ### Posting a launch (R85, R86, R101) -/

namespace State

/-- The image that a handle names in a context (R33). -/
def imageOf (s : State) (c : Fin 64) (h : BitVec 32) : Option Image :=
  let e := (s.ctx c).images.get (fld h 0 6).toFin
  if fld h 22 10 = 0 ∧ e.v ∧ e.gen = fld h 6 16 then e.image else none

/-- The tiles in the domain of some stage of an image and in TILES, in increasing rank (R101). -/
def launchTiles (s : State) (c : Fin 64) (im : Image) (anchor : Nat) : List Nat :=
  (List.range 144).filter fun t => s.inTiles c t && im.stages.any fun st => inDomain st.level anchor t

/-- Wheel positions that no live launch holds. -/
def freeWheel (s : State) : List Nat :=
  let used := (List.finRange 16).flatMap fun n => match s.liveAt n with
    | some l => l.wheels.flatMap (·.2)
    | none => []
  (List.range 256).filter fun p => !used.contains p

end State

/-- Positions dealt out to tiles in order, `n` each, lowest first (R101); `none` when they do not suffice. -/
def dealWheel (n : Nat) : List Nat → List Nat → Option (List (Nat × List Nat))
  | [], _ => some []
  | t :: ts, free =>
    if free.length < n then none else (dealWheel n ts (free.drop n)).map fun r => (t, free.take n) :: r

/-- The lowest run of `n` numbers that meets none of the taken runs (base, length), searched with `fuel`. -/
def firstGap (n : Nat) (taken : List (Nat × Nat)) : Nat → Nat → Nat
  | 0, a => a
  | k + 1, a =>
    match taken.find? fun r => decide (a < r.1 + r.2) && decide (r.1 < a + n) with
    | some r => firstGap n taken k (r.1 + r.2)
    | none => a

namespace State

/-- The queue entries that live launches of a context hold. -/
def takenEntries (s : State) (c : Fin 64) : List (Nat × Nat) :=
  (List.finRange 16).flatMap fun n => match s.liveAt n with
    | some l => if l.ctx = c then l.queues.map fun q => (q.base, q.cap) else []
    | none => []

/-- The queues of a launch that starts, each stage on the first free run of the context's entries. -/
def newQueues (s : State) (c : Fin 64) (stages : List Stage) : List StageQ :=
  (stages.foldl (fun (r : List StageQ × List (Nat × Nat)) st =>
    let b := firstGap st.incap r.2 (r.2.length + 1) 0
    (r.1 ++ [⟨b, st.incap, [], (List.range st.incap).map (· + b), 0, s.clk.wclock⟩], (b, st.incap) :: r.2))
    ([], s.takenEntries c)).1

/-- The bytes of the initial blocks (R85, R86), or nothing when some byte is unreadable. -/
def initBytes (s : State) (c : Fin 64) (p : Word) (n : Nat) : State × Option (List Byte) :=
  let o := offsetOf p
  if spaceOf p = 3 then
    if pointerOk 0 3 (rankOf p) o && decide (o + n ≤ spaceSize 3) && s.vaultOk c (rankOf p) o n && o % 64 == 0 then
      let k := spaceKey 0 3 (rankOf p) o
      let s := s.settleLine k n
      if s.marked k n 8 then (s, none) else (s, some (s.mem.bytes k n))
    else (s, none)
  else if spaceOf p = 0 ∧ rankOf p = 0 ∧ o % 64 = 0 ∧ o + n ≤ 2 ^ 52 then
    match s.devRead c o n with
    | (s, .ok (l, false)) => (s, some l)
    | (s, _) => (s, none)
  else (s, none)

/-- The checks of a launch record in the order of R86, and what an accepted one starts with. -/
def checkLaunch (s : State) (w : Vector Word 8) : State × Except Nat (Image × List (Nat × List Nat) × List Byte) :=
  let c : Fin 64 := (fld (w.get 0) 32 6).toFin
  let anchor := (fld (w.get 1) 0 8).toNat
  let n := (fld (w.get 3) 0 32).toNat
  if !s.ctxValid c then (s, .error 16)
  else match s.imageOf c (fld (w.get 0) 0 32) with
    | none => (s, .error 17)
    | some im =>
      if 143 < anchor ∨ im.stages.any fun st => !(List.range 144).any fun t =>
          s.inTiles c t && inDomain st.level anchor t then (s, .error 18)
      else if n = 0 ∨ (match im.stages with | st :: _ => st.incap | [] => 0) < n then (s, .error 19)
      else match (if im.wheelreq = 0 then some []
          else dealWheel im.wheelreq (s.launchTiles c im anchor) s.freeWheel) with
        | none => (s, .error 20)
        | some wheels =>
          match s.initBytes c (w.get 2) (64 * n) with
          | (s, some l) => (s, .ok (im, wheels, l))
          | (s, none) => (s, .error 21)

/-- Blocks of 64 bytes as words, none of them marked. -/
def blocksOf (l : List Byte) : Nat → List (List (Word × Bool))
  | 0 => []
  | k + 1 =>
    ((List.range 8).map fun i => (BitVec.ofNat 64 (leNat ((l.drop (8 * i)).take 8)), false)) :: blocksOf (l.drop 64) k

/-- A record is posted (R86): its first failing code, or a live launch whose stage 0 holds the initial blocks. -/
def post (s : State) (n : Fin 16) : State :=
  let w := (s.slots.get n).words
  match s.checkLaunch w with
  | (s, .error code) => { s with slots := upd s.slots n { s.slots.get n with status := BitVec.ofNat 8 code } }
  | (s, .ok (im, wheels, bytes)) =>
    let c : Fin 64 := (fld (w.get 0) 32 6).toFin
    let qs := s.newQueues c im.stages
    let l : Live :=
      { ctx := c, image := im, lid := fld (w.get 3) 32 32, anchor := (fld (w.get 1) 0 8).toNat, done := w.get 4
        queues := qs, wheels, waccept := s.clk.wclock, tasks := 0, kills := 0, tclk := 0, overrun := 0, sticky := 0
        faults := 0, ended := none }
    let s := { s with slots := upd s.slots n { s.slots.get n with status := 1, live := some l } }
    (blocksOf bytes (fld (w.get 3) 0 32).toNat).foldl (fun s blk => s.appendStage n 0 blk) s

/-- GO written to a launch slot (R86): ignored while RUNNING; during Hold or its entry the post is held (R420). -/
def go (s : State) (n : Fin 16) : State :=
  let sl := s.slots.get n
  if sl.status = 1 then s
  else match s.hold.power, s.hold.nominal with
    | .running, _ | .leaving, true => s.post n
    | _, _ => { s with slots := upd s.slots n { sl with held := true } }

end State

/-- GO (R86). -/
def execGo (n : Fin 16) (s : State) : Host.Outcome State Fault Refusal := .next (s.go n)

/-! ### RETIRE, YIELD and ENQ (R423, R411, R103 to R106) -/

/-- RETIRE (R423, R424): the bundle is held while request entries, of slot accesses or of engines, a copy queue or the matrix
queue still hold work of the task. -/
def execRetire (s : State) : Host.Outcome State Fault Refusal :=
  s.finish <|
    let t := s.cur.tile
    let e := s.tile.eng
    if !s.tile.lockstep then s.illegal
    else if (s.net.accs.any fun a => a.tile == t && decide (a.seq < s.cur.mark)) || decide (0 < s.engineEntries t) then s.stall 4
    else if e.cq.toList.any fun q => q.any fun c => decide (c.entered < s.now) then s.stall 2
    else if e.mq.any fun c => decide (c.entered < s.now) then s.stall 3
    else match s.task with
      | some k => .ok { s.retireTask t k with cur := { s.cur with moved := true } }
      | none => .ok s

/-- YIELD (R411): a stop point; with bit 0 of A set, the tile is given up when other work would be found. -/
def execYield (a : XSrc) (s : State) : Host.Outcome State Fault Refusal :=
  s.finish do
    let x ← s.readX a
    let t := s.cur.tile
    let c := s.ctxOf
    let other := (List.finRange 64).any fun d => d != c && s.ctxValid d && s.inTiles d t.val && (s.workOf t d).isSome
    let stay := !(x.getLsbD 0) || s.tile.sys.stop || !other || (s.ctx c).noSave
    let s := if stay then s else (s.modSched t fun y => { y with expired := true }).stopTile t
    return { s with cur := { s.cur with stopPt := true } }

namespace State

/-- The checks of ENQ in the order of R104: block offset, and target. -/
def enqTarget (s : State) (p v : Word) : Res Unit :=
  let bad : Res Unit := s.raise .enqTarget v
  let stg := (fld v 0 8).toNat
  let tile := (fld v 8 8).toNat
  if spaceOf p ≠ 1 ∨ rankOf p ≠ 0 ∨ offsetOf p % 64 ≠ 0 ∨ 2 ^ 19 < offsetOf p + 64 then s.raise .addrSpace 0 0 p 2
  else if fld v 16 47 ≠ 0 ∨ (!v.getLsbD 63 ∧ tile ≠ 0) then bad
  else match s.live, s.task with
    | some l, some k =>
      if l.image.stages.length ≤ stg then bad
      else if v.getLsbD 63 then
        let lv := match l.image.stages[stg]? with | some st => st.level | none => 0
        if tile < 144 ∧ s.inTiles k.ctx tile ∧ inDomain lv l.anchor tile then .ok () else bad
      else match l.image.stages[k.stage]? with
        | some st => if st.outs.any fun o => o.1 == stg then .ok () else bad
        | none => bad
    | _, _ => bad

end State

/-- ENQ (R103 to R106). The words of the block that fail parity leave as marked data (R205; DEDUCED, log 48). -/
def execEnq (a b : XSrc) (w : WaitF) (s : State) : Host.Outcome State Fault Refusal :=
  s.finish do
    let p ← s.keptX 0 a
    let v ← s.keptX 1 b
    if s.strm.wait.isNone then s.enqTarget p v
    match s.live, s.task with
    | some l, some k =>
      let wt := s.pending (.enq a b w) w [p, v]
      let s := if wt.sent.isNone && wt.dec.isNone && s.performedTo wt.mark then s.settleSpad (offsetOf p) 64 else s
      let blk := (List.range 8).map fun i =>
        (s.load64 (s.spad (offsetOf p) + 8 * i), s.marked (s.spad (offsetOf p) + 8 * i) 8 4)
      let stg := (fld v 0 8).toNat
      let tile : Fin 144 := if h : (fld v 8 8).toNat < 144 then ⟨(fld v 8 8).toNat, h⟩ else 0
      let own := v.getLsbD 63
      let r ← s.waitThere (.enq a b w) w [p, v] (fun wt => s.performedTo wt.mark)
        (if own then .enqOwn tile k.slot k.ctx stg blk else .enqStage k.slot stg blk) 0
        (if own then tile.val / 72 else l.anchor / 72)
      return r.1
    | _, _ => s.raise .enqTarget v

end Sys2Proof.Machine
end

