-- ==== Sys2Proof/Machine/Signature.lean ====
section
/-! DEFINITION. SHAKE128 and SHAKE256 of FIPS 202, and the verification of ML-DSA-65 signatures of FIPS 204, which R28 and R109
name (PRESUMED, log 12: the algorithms are those of the standards). -/

namespace Sys2Proof.Machine

/-! ### Keccak (FIPS 202) -/

/-- The rotation of each lane in step ρ, lane (x, y) at x + 5·y. -/
def keccakTurns : Vector Nat 25 :=
  #v[0, 1, 62, 28, 27, 36, 44, 6, 55, 20, 3, 10, 43, 25, 39, 41, 45, 15, 21, 8, 18, 2, 61, 56, 14]

/-- The round constants of step ι. -/
def keccakRounds : List (BitVec 64) :=
  [0x0000000000000001, 0x0000000000008082, 0x800000000000808A, 0x8000000080008000, 0x000000000000808B, 0x0000000080000001,
    0x8000000080008081, 0x8000000000008009, 0x000000000000008A, 0x0000000000000088, 0x0000000080008009, 0x000000008000000A]
  ++ [0x000000008000808B, 0x800000000000008B, 0x8000000000008089, 0x8000000000008003, 0x8000000000008002, 0x8000000000000080,
    0x000000000000800A, 0x800000008000000A, 0x8000000080008081, 0x8000000000008080, 0x0000000080000001, 0x8000000080008008]

/-- Lane (x, y) of a state. -/
def laneXY (a : Vector (BitVec 64) 25) (x y : Nat) : BitVec 64 := a.toList.getD (x % 5 + 5 * (y % 5)) 0

/-- One round: θ, ρ and π, χ, ι. -/
def keccakRound (a : Vector (BitVec 64) 25) (rc : BitVec 64) : Vector (BitVec 64) 25 :=
  let c := Vector.ofFn fun (x : Fin 5) => (List.range 5).foldl (fun w y => w ^^^ laneXY a x.val y) (0 : BitVec 64)
  let d := Vector.ofFn fun (x : Fin 5) => c.get (x + 4) ^^^ (c.get (x + 1)).rotateLeft 1
  let a := Vector.ofFn fun (i : Fin 25) => (a.get i ^^^ d.get (Fin.ofNat 5 i.val)).rotateLeft (keccakTurns.get i)
  let b := Vector.ofFn fun (i : Fin 25) => laneXY a (i.val % 5 + 3 * (i.val / 5)) (i.val % 5)
  Vector.ofFn fun (i : Fin 25) =>
    let (x, y) := (i.val % 5, i.val / 5)
    b.get i ^^^ (~~~(laneXY b (x + 1) y) &&& laneXY b (x + 2) y) ^^^ (if i = 0 then rc else 0)

/-- Keccak-f[1600]. -/
def keccak (a : Vector (BitVec 64) 25) : Vector (BitVec 64) 25 := keccakRounds.foldl keccakRound a

/-- A block of at most 200 bytes added to a state. -/
def absorb (a : Vector (BitVec 64) 25) (l : List Byte) : Vector (BitVec 64) 25 :=
  let w := BitVec.ofNat 1600 (leNat l)
  keccak (Vector.ofFn fun i => a.get i ^^^ w.extractLsb' (64 * i.val) 64)

/-- The blocks of `rate` bytes of a padded message taken one after another. -/
def absorbAll (rate : Nat) : Nat → List Byte → Vector (BitVec 64) 25 → Vector (BitVec 64) 25
  | 0, _, a => a
  | k + 1, l, a => absorbAll rate k (l.drop rate) (absorb a (l.take rate))

/-- `n` blocks of output. -/
def squeeze (rate : Nat) : Nat → Vector (BitVec 64) 25 → List Byte
  | 0, _ => []
  | n + 1, a => (a.toList.flatMap fun w => leBytes 8 w.toNat).take rate ++ squeeze rate n (keccak a)

/-- An output of `n` bytes of the SHAKE with a rate: the suffix 1111 and the padding 10*1 follow the message. -/
def shake (rate : Nat) (l : List Byte) (n : Nat) : List Byte :=
  let k := l.length / rate + 1
  let pad := List.replicate (rate * k - l.length - 1) (0 : Byte)
  let m := l ++ (0x1F : Byte) :: pad
  let m := m.take (rate * k - 1) ++ [(m.getD (rate * k - 1) 0) ||| 0x80]
  (squeeze rate ((n + rate - 1) / rate) (absorbAll rate k m (.replicate 25 0))).take n

/-- SHAKE256 with 512 output bits (R28, R109). -/
def shake256 (l : List Byte) : List Byte := shake 136 l 64

/-! ### Polynomials over Z_q (FIPS 204) -/

/-- The modulus q. -/
def mlQ : Nat := 8380417

/-- A power modulo q, for exponents below 2^fuel. -/
def powQ (b : Nat) : Nat → Nat → Nat
  | 0, _ => 1
  | k + 1, e => let h := powQ b k (e / 2); h * h % mlQ * (if e % 2 = 1 then b else 1) % mlQ

/-- The eight bits of a number in reverse order. -/
def bitRev8 (m : Nat) : Nat := ((List.range 8).map fun i => m / 2 ^ i % 2 * 2 ^ (7 - i)).sum

/-- The sum, and the difference, of two lists modulo q. -/
def addQ (a b : List Nat) : List Nat := (a.zip b).map fun p => (p.1 + p.2) % mlQ
/-- The difference of two lists modulo q. -/
def subQ (a b : List Nat) : List Nat := (a.zip b).map fun p => (p.1 + mlQ - p.2) % mlQ
/-- The product of two lists element by element modulo q. -/
def mulQ (a b : List Nat) : List Nat := (a.zip b).map fun p => p.1 * p.2 % mlQ

/-- NTT of 2^k coefficients at node `m` of the tree of factors; of a polynomial: `ntt 8 1`. -/
def ntt : Nat → Nat → List Nat → List Nat
  | 0, _, f => f
  | k + 1, m, f =>
    let z := powQ 1753 9 (bitRev8 m)
    let a := f.take (2 ^ k)
    let b := (f.drop (2 ^ k)).map fun x => x * z % mlQ
    ntt k (2 * m) (addQ a b) ++ ntt k (2 * m + 1) (subQ a b)

/-- The inverse of `ntt` but for the factor 2^k. -/
def nttBack : Nat → Nat → List Nat → List Nat
  | 0, _, f => f
  | k + 1, m, f =>
    let z := powQ 1753 10 (512 - bitRev8 m)
    let a := nttBack k (2 * m) (f.take (2 ^ k))
    let b := nttBack k (2 * m + 1) (f.drop (2 ^ k))
    addQ a b ++ (subQ a b).map fun x => x * z % mlQ

/-- NTT of a polynomial. -/
def nttOf (f : List Nat) : List Nat := ntt 8 1 f
/-- The polynomial of an NTT. -/
def polyOf (f : List Nat) : List Nat := (nttBack 8 1 f).map fun x => x * 8347681 % mlQ

/-- `n` numbers of `w` bits each from bytes, lowest bits first. -/
def unpackBits (w n : Nat) (l : List Byte) : List Nat :=
  let v := leNat l
  (List.range n).map fun i => v / 2 ^ (w * i) % 2 ^ w

/-! ### Sampling -/

/-- RejNTTPoly: numbers of 23 bits from three bytes each, those below q. -/
def rejSample : List Byte → List Nat
  | a :: b :: c :: l =>
    let z := a.toNat + 2 ^ 8 * b.toNat + 2 ^ 16 * (c.toNat % 128)
    if z < mlQ then z :: rejSample l else rejSample l
  | _ => []

/-- An element of the matrix A of ExpandA. -/
def expandA (rho : List Byte) (r c : Nat) : List Nat :=
  (rejSample (shake 168 (rho ++ [BitVec.ofNat 8 c, BitVec.ofNat 8 r]) 1680)).take 256

/-- The next byte that is at most `i`, and the bytes after it. -/
def byteUpTo (i : Nat) : List Byte → Nat × List Byte
  | [] => (0, [])
  | b :: l => if b.toNat ≤ i then (b.toNat, l) else byteUpTo i l

/-- SampleInBall: a polynomial with 49 coefficients of ±1. -/
def sampleInBall (c : List Byte) : List Nat :=
  let out := shake 136 c 1088
  let signs := leNat (out.take 8)
  ((List.range 49).foldl (fun (p : List Nat × List Byte) k =>
    let i := 207 + k
    let j := byteUpTo i p.2
    ((p.1.set i (p.1.getD j.1 0)).set j.1 (if signs / 2 ^ k % 2 = 1 then mlQ - 1 else 1), j.2))
    (List.replicate 256 0, out.drop 8)).1

/-! ### Hints -/

/-- HintBitUnpack: the positions of each of the six polynomials, or nothing for a malformed encoding. -/
def hintUnpack (y : List Byte) : Option (List (List Nat)) :=
  let pos := (y.take 55).map (·.toNat)
  let ends := (y.drop 55).map (·.toNat)
  let starts := 0 :: ends
  let parts := (starts.zip ends).map fun e => (pos.drop e.1).take (e.2 - e.1)
  let rises : List Nat → Bool := fun l => (l.zip (l.drop 1)).all fun e => decide (e.1 < e.2)
  if ((starts.zip ends).all fun e => decide (e.1 ≤ e.2) && decide (e.2 ≤ 55)) && parts.all rises
      && (pos.drop (ends.getD 5 0)).all (· == 0) then some parts else none

/-- UseHint: the high bits of a coefficient, of 0 to 15, as a hint corrects them. -/
def useHint (h : Bool) (r : Nat) : Nat :=
  let r0 := r % 523776
  let low : Int := if 261888 < r0 then (r0 : Int) - 523776 else r0
  let (r1, low) : Nat × Int := if (r : Int) - low = 8380416 then (0, low - 1) else (((r : Int) - low).toNat / 523776, low)
  if h then (if 0 < low then (r1 + 1) % 16 else (r1 + 15) % 16) else r1

/-- w1Encode of one polynomial: four bits a coefficient. -/
def packHigh : List Nat → List Byte
  | a :: b :: l => BitVec.ofNat 8 (a + 16 * b) :: packHigh l
  | _ => []

/-! ### Verification -/

/-- ML-DSA.Verify_internal of FIPS 204 with the parameters of ML-DSA-65. -/
def mldsaVerifyRaw (pk m sig : List Byte) : Bool :=
  let rho := pk.take 32
  let t1 := (List.range 6).map fun i => unpackBits 10 256 ((pk.drop (32 + 320 * i)).take 320)
  let ct := sig.take 48
  let z := (List.range 5).map fun i => (unpackBits 20 256 ((sig.drop (48 + 640 * i)).take 640)).map fun x => (2 ^ 19 + mlQ - x) % mlQ
  match hintUnpack (sig.drop 3248) with
  | none => false
  | some h =>
    let mu := shake 136 (shake 136 pk 64 ++ m) 64
    let c := nttOf (sampleInBall ct)
    let zn := z.map nttOf
    let w := ((t1.zip h).zip (List.range 6)).flatMap fun p =>
      let az := ((zn.zip (List.range 5)).map fun e => mulQ (expandA rho p.2 e.2) e.1).foldl addQ (List.replicate 256 0)
      let ct1 := mulQ c (nttOf (p.1.1.map fun x => x * 2 ^ 13 % mlQ))
      packHigh (((polyOf (subQ az ct1)).zip (List.range 256)).map fun e => useHint (p.1.2.contains e.2) e.1)
    z.all (fun f => f.all fun x => decide (x < 2 ^ 19 - 196) || decide (mlQ - (2 ^ 19 - 196) < x)) && shake 136 (mu ++ w) 48 == ct

/-- ML-DSA.Verify with an empty context string: key, message, signature (R109). -/
def mldsaVerify (pk m sig : List Byte) : Bool :=
  pk.length == 1952 && sig.length == 3309 && mldsaVerifyRaw pk ([0, 0] ++ m) sig

/-- HashML-DSA.Verify with SHAKE256 as the pre-hash function and an empty context string (R28): the object identifier of
SHAKE256 and 512 bits of the digest of the message. -/
def hashVerify (pk m sig : List Byte) : Bool :=
  pk.length == 1952 && sig.length == 3309 &&
    mldsaVerifyRaw pk ([1, 0] ++ [0x06, 0x09, 0x60, 0x86, 0x48, 0x01, 0x65, 0x03, 0x04, 0x02, 0x0C] ++ shake256 m) sig

end Sys2Proof.Machine
end

