-- ==== Sys2Proof/Machine/Loader.lean ====
section
/-! DEFINITION. The loader: the checks of an image in their order, its installation and its unloading (chapter 01: R13 to
R34, R407, R433, R434). -/

namespace Sys2Proof.Machine

/-! ### Fields of an image (R14) -/

/-- `n` bytes of an image at an offset, little-endian. -/
def imN (l : List Byte) (off n : Nat) : Nat := leNat ((l.drop off).take n)

/-- The tables that the header locates, as offset and length, without the signature section (R13 to R17, R27). -/
def imTables (l : List Byte) : List (Nat × Nat) :=
  [(imN l 0x10 4, imN l 0x14 4), (imN l 0x18 4, 32 * imN l 0x1C 2),
    (imN l 0x20 4, 8 * (imN l 0x24 2 + imN l 0x26 2)), (imN l 0x2C 4, 8 * imN l 0x30 2)]

/-- Pairwise disjoint ranges. -/
def disjointAll : List (Nat × Nat) → Bool
  | [] => true
  | (a, n) :: l => (l.all fun r => decide (a + n ≤ r.1) || decide (r.1 + r.2 ≤ a)) && disjointAll l

/-- The first nonzero byte outside the header, the tables and the signature section (R13). -/
def paddingFault (l : List Byte) (tables : List (Nat × Nat)) (sig : Nat) : Option Nat :=
  ((l.zip (List.range l.length)).find? fun p =>
    !(p.1 == 0 || decide (p.2 < 256) || (sig != 0 && decide (sig ≤ p.2))
      || tables.any fun r => decide (r.1 ≤ p.2) && decide (p.2 < r.1 + r.2))).map (·.2)

/-- Does the signature section, which stands last, break R13: its start is misaligned, in the header or outside the image, or
a table reaches into it? Its length is a matter of SIGNATURE (R28, R29). -/
def sectionBad (l : List Byte) (tables : List (Nat × Nat)) : Bool :=
  let sig := imN l 0x80 4
  sig != 0 && (sig % 8 != 0 || decide (sig < 256) || decide (l.length ≤ sig)
    || tables.any fun r => r.2 != 0 && decide (sig < r.1 + r.2))

/-- LAYOUT (R13, R14, R29): the offset of the first field of the header that breaks it, or of a padding byte. -/
def layoutFault (l : List Byte) : Option Nat :=
  let len := imN l 0x0C 4
  let ts := imTables l
  let bad (i : Nat) : Bool :=
    let r := ts.getD i (0, 0)
    if r.2 = 0 then r.1 != 0
    else r.1 % 8 != 0 || decide (r.1 < 256) || decide (len < r.1 + r.2)
      || !disjointAll (r :: (ts.take i).filter fun q => q.2 != 0)
  match [(0x0C, len != l.length || len % 8 != 0 || decide (2 ^ 26 < len) || decide (len < 256)),
      (0x08, imN l 0x08 4 / 2 != 0),
      (0x14, decide (imN l 0x14 4 < 8) || decide (2 ^ 24 < imN l 0x14 4) || imN l 0x14 4 % 8 != 0), (0x10, bad 0),
      (0x1C, decide (imN l 0x1C 2 < 1) || decide (64 < imN l 0x1C 2)), (0x18, bad 1), (0x1E, imN l 0x1E 2 != 0),
      (0x24, decide (32768 < imN l 0x24 2)), (0x26, decide (8192 < imN l 0x26 2)), (0x20, bad 2),
      (0x28, decide (imN l 0x28 4 < 1) || decide (1048576 < imN l 0x28 4)),
      (0x30, decide (64 < imN l 0x30 2)), (0x2C, bad 3), (0x32, decide (2 < imN l 0x32 1)), (0x33, imN l 0x33 1 != 0),
      (0x80, sectionBad l ts), (0x88, (((l.drop 0x88).take 120).any (· != 0)))].find? fun e => e.2 with
  | some e => some e.1
  | none => paddingFault l (ts.filter fun r => r.2 != 0) (imN l 0x80 4)

/-! ### Signatures and capabilities (R23 to R28) -/

namespace State

/-- The key slot of an identifier (R28). -/
def keyOf (s : State) (ident : BitVec 64) : Option KeySlot :=
  s.fw.keys.toList.find? fun k => !k.key.isEmpty && k.ident == ident

/-- Does a byte sequence end in a good signature section at `sig` (R28)? Its key when it does. -/
def signedBy (s : State) (l : List Byte) (sig : Nat) : Option KeySlot :=
  if sig = 0 ∨ sig % 8 ≠ 0 ∨ l.length ≠ sig + 3320 ∨ imN l (sig + 3317) 3 ≠ 0 then none
  else match s.keyOf (BitVec.ofNat 64 (imN l sig 8)) with
    | some k => if hashVerify k.key (l.take sig) ((l.drop (sig + 8)).take 3309) then some k else none
    | none => none

end State

/-- The capabilities of the device with their versions (R25). -/
def capList : List (Nat × Nat) :=
  [(1, 0x100), (0x101, 0x100), (0x201, 0x100), (0x202, 0x100), (0x301, 0x100), (0x401, 0x100), (0x501, 0x100)]

/-- Does the device offer a capability at a version or later (R24)? -/
def offers (ident w : Nat) : Bool :=
  capList.any fun c => c.1 == ident && c.2 / 256 == w / 256 && decide (w % 256 ≤ c.2 % 256)

/-- The first unmet requirement, as what is reported for it (R27). -/
def capUnmet (l : List Byte) : Option Nat :=
  (List.range (imN l 0x30 2)).findSome? fun i =>
    let a := imN l 0x2C 4 + 8 * i
    if imN l (a + 6) 2 ≠ 0 then some a
    else if offers (imN l a 4) (imN l (a + 4) 2) then none else some (imN l a 4)

/-! ### The walk of the code (R30, R407) -/

/-- How a bundle counts for the LIMIT check (R30, R407): its forward targets, whether the next bundle follows, and the ends
of the loops that it opens. -/
structure Node where
  off : Nat
  len : Nat
  forward : List Nat
  falls : Bool
  loopEnds : List Nat
  deriving DecidableEq, Repr

/-- The forms after which the next bundle does not follow (R407), by slot and opcode; SC0 and SC1 share the scalar space, and
the walk checks no legality (R30, R75). -/
def endsPath (slot : Fin 8) (op : Nat) : Bool :=
  op == 0xF1 || op == 0xF9 || (decide (slot.val < 2) && [0xE1, 0xE2, 0xE3, 0xE4, 0xE5, 0xE8, 0xE9, 0x35].contains op)

/-- A syllable's part of a node at code offset `pc`. -/
def classify (pc : Nat) (n : Node) (slot : Fin 8) (w : Word) (lits : List Word) : Node :=
  let op := (fld w 56 8).toNat
  let off := (fld w 40 16).toInt
  let target (o : Int) : Nat := (pc + 8 * o).toNat
  let n := if endsPath slot op then { n with falls := false } else n
  if op = 0xF0 ∨ op = 0xF1 ∨ (slot.val < 2 ∧ (op = 0xE0 ∨ op = 0xE2)) then
    (if 0 < off then { n with forward := n.forward ++ [target off] } else n)
  else if op = 0xF2 ∨ op = 0xF3 then (if 0 < off then { n with loopEnds := n.loopEnds ++ [target off] } else n)
  else if slot.val < 2 ∧ op = 0xE5 then
    match lits with
    | e :: _ =>
      { n with forward := n.forward ++ ((List.range 4).filterMap fun g =>
          let o := (fld e (16 * g) 16).toInt
          if 0 < o then some (target o) else none) }
    | [] => n
  else n

/-- The walk from a code offset (R30): the nodes, or the offset of the word that breaks it. -/
def walkCode (code : List Word) : Nat → Nat → Except Nat (List Node)
  | 0, _ => .ok []
  | k + 1, i =>
    match code[i]? with
    | none => .ok []
    | some w =>
      if fld w 62 2 = 2 then
        let n := (fld w 58 4).toNat
        if fld w 56 2 = 0 ∧ n ≤ 4 ∧ (List.range 4).all fun j => decide (j < n) || ringAt w j == 0 then walkCode code k (i + 1)
        else .error (8 * i)
      else match decodeHeader w with
        | none => .error (8 * i)
        | some h =>
          if code.length < i + h.bytes / 8 then .error (8 * i)
          else
            let ws := (code.drop (i + 1)).take (h.news + h.lit.val)
            let items := newItems ((slotsOf h 1).zip ws) (ws.drop h.news)
            let n := items.foldl (fun n it => classify (8 * i) n it.1 it.2.1 it.2.2) ⟨8 * i, h.bytes, [], true, []⟩
            match walkCode code k (i + h.bytes / 8) with
            | .ok l => .ok (n :: l)
            | .error e => .error e

/-- The node at a code offset. -/
def nodeAt (ns : List Node) (off : Nat) : Option Node := ns.find? fun n => n.off == off

/-- Does a node name a static forward target that is no bundle's first word (R30)? -/
def targetBad (ns : List Node) (n : Node) : Bool :=
  n.forward.any (fun t => (nodeAt ns t).isNone) || n.loopEnds.any fun e => match nodeAt ns e with
    | none => true
    | some m => (nodeAt ns (e + m.len)).isNone

/-- CODE (R30): the nodes, or the offset reported. -/
def checkCode (code : List Word) : Except Nat (List Node) :=
  match walkCode code code.length 0 with
  | .error e => .error e
  | .ok ns => match ns.find? (targetBad ns) with
    | some n => .error n.off
    | none => .ok ns

/-- The longest path of bundles from each node, last node first (R407). -/
def pathLengths : List Node → List (Nat × Nat) → List (Nat × Nat)
  | [], acc => acc
  | n :: ns, acc =>
    let acc := pathLengths ns acc
    let len (t : Nat) : Nat := match acc.find? fun e => e.1 == t with | some e => e.2 | none => 0
    let next := match ns with | m :: _ => if n.falls then [m.off] else [] | [] => []
    let after := n.loopEnds.filterMap fun e => (nodeAt ns e).map fun m => e + m.len
    (n.off, 1 + (n.forward ++ next ++ after).foldl (fun m t => max m (len t)) 0) :: acc

/-- LIMIT (R31, R407): the bundle of the first loop whose body has more than LIM bundles, else the first bundle of a path of
more (R29; log 25). -/
def limitFault (ns : List Node) (lim : Nat) : Option Nat :=
  ((ns.find? fun n => n.loopEnds.any fun e =>
      decide (lim < (ns.filter fun m => decide (n.off < m.off) && decide (m.off ≤ e)).length)).map fun n => n.off).or
    (((pathLengths ns []).find? fun e => decide (lim < e.2)).map (·.1))

/-! ### Stages, ports, formats and sync resources (R15 to R22) -/

/-- The stage at an offset of the image (R15). -/
def stageOf (l : List Byte) (a : Nat) : Stage :=
  { entry := imN l a 4, incap := imN l (a + 4) 4, level := imN l (a + 9) 1, gdle := imN l (a + 10) 1
    outs := (List.range (imN l (a + 8) 1)).map fun j => (imN l (a + 12 + j) 1, imN l (a + 16 + 2 * j) 2) }

/-- The stages of an image. -/
def stagesOf (l : List Byte) : List Stage :=
  (List.range (imN l 0x1C 2)).map fun i => stageOf l (imN l 0x18 4 + 32 * i)

/-- STAGE (R15, R16): does the entry at an offset break a rule? -/
def stageBad (l : List Byte) (ns : List Node) (stages : List Stage) (a : Nat) : Bool :=
  let st := stageOf l a
  let n := imN l (a + 8) 1
  (nodeAt ns st.entry).isNone || st.incap == 0 || decide (65536 < st.incap) || decide (4 < n) || decide (4 < st.level)
    || st.gdle == 0 || decide (40 < st.gdle) || imN l (a + 11) 1 != 0 || imN l (a + 24) 8 != 0
    || (st.outs.any fun o => match stages[o.1]? with
        | some q => o.2 == 0 || decide (q.incap < o.2)
        | none => true)
    || (List.range 4).any fun j => decide (n ≤ j) && (imN l (a + 12 + j) 1 != 0xFF || imN l (a + 16 + 2 * j) 2 != 0)

/-- PORTMAP (R19): does a byte break the rule? -/
def portBad (b : BitVec 8) : Bool :=
  let lo := fld b 0 4
  let hi := fld b 4 4
  let bad (f : BitVec 4) : Bool := !f.getLsbD 3 && f != 0
  bad lo || bad hi || (lo != 0 && lo == hi)

/-- SYNC (R17, R18, R29): the offset of the first bad entry; else the field of a claim that is too small, or that the
context's partition cannot hold. -/
def syncFault (l : List Byte) (stages : List Stage) (part qe : Word) : Option Nat :=
  let nb := imN l 0x24 2
  let nq := imN l 0x26 2
  let o := imN l 0x20 4
  let depth (i : Nat) : Nat := imN l (o + 8 * (nb + i)) 4
  let bar (i : Nat) : Bool :=
    let c := imN l (o + 8 * i) 2
    c == 0 || decide (144 < c) || decide (4 < imN l (o + 8 * i + 2) 1) || imN l (o + 8 * i + 3) 5 != 0
  let queue (i : Nat) : Bool := depth i == 0 || decide (65536 < depth i) || imN l (o + 8 * (nb + i) + 4) 4 != 0
  (((List.range nb).map fun i => (o + 8 * i, bar i)) ++ ((List.range nq).map fun i => (o + 8 * (nb + i), queue i))
    ++ [(0x28, decide (imN l 0x28 4 < (stages.map Stage.incap).sum + ((List.range nq).map depth).sum)),
      (0x24, decide ((fld part 32 16).toNat < nb)), (0x26, decide ((fld part 48 14).toNat < nq)),
      (0x28, decide ((fld qe 20 21).toNat < imN l 0x28 4))]).findSome? fun (e : Nat × Bool) => if e.2 then some e.1 else none

/-! ### The checks in order (R29) -/

namespace State

/-- The checks of R29 in order: the first that fails with what it reports, or the image as the loader records it. -/
def checkImage (s : State) (c : Fin 64) (l : List Byte) : Except (Nat × Nat) Image :=
  let sys := imN l 8 1 % 2 == 1
  let sig := imN l 0x80 4
  let part := (s.ctx c).entry.get 4
  let qe := (s.ctx c).entry.get 5
  if imN l 0 4 ≠ 0x4D49524E then .error (1, 0)
  else if imN l 4 2 ≠ 1 then .error (2, 4)
  else if (layoutFault l).isSome then .error (3, (layoutFault l).getD 0)
  else if if sys then (s.signedBy l sig).isNone else sig != 0 then .error (4, 0x80)
  else if sys && (match s.signedBy l sig with
      | some k => decide (imN l 0x84 4 < k.counter.toNat)
      | none => true) then .error (5, 0x84)
  else match capUnmet l with
    | some x => .error (6, x)
    | none =>
      let code := (List.range (imN l 0x14 4 / 8)).map fun i => BitVec.ofNat 64 (imN l (imN l 0x10 4 + 8 * i) 8)
      match checkCode code with
      | .error x => .error (7, x)
      | .ok ns =>
        let stages := stagesOf l
        let portmap := (List.range 8).map fun i => BitVec.ofNat 8 (imN l (0x38 + i) 1)
        let bankfmt := (List.range 16).map fun i => BitVec.ofNat 32 (imN l (0x40 + 4 * i) 4)
        match (List.range stages.length).find? fun i => stageBad l ns stages (imN l 0x18 4 + 32 * i) with
        | some i => .error (8, imN l 0x18 4 + 32 * i)
        | none =>
          match (List.range 8).find? fun i => portBad (portmap.getD i 0) with
          | some i => .error (9, 0x38 + i)
          | none =>
            match (List.range 16).find? fun i => !bankOk ((bankfmt.getD i 0).zeroExtend 64) with
            | some i => .error (10, 0x40 + 4 * i)
            | none =>
              match ((syncFault l stages part qe).map fun x => (11, x)).or
                  ((limitFault ns s.dev.limit.toNat).map fun x => (12, x)) with
              | some e => .error e
              | none => if imN l 0x34 4 = 0 ∨ 16777216 < imN l 0x34 4 then .error (13, 0x34)
              else .ok
                { gen := 0, off := 0, len := imN l 0x14 4, sys, secver := imN l 0x84 4, stages
                  bars := (List.range (imN l 0x24 2)).map fun i =>
                    (imN l (imN l 0x20 4 + 8 * i) 2, imN l (imN l 0x20 4 + 8 * i + 2) 1)
                  tqs := (List.range (imN l 0x26 2)).map fun i => imN l (imN l 0x20 4 + 8 * (imN l 0x24 2 + i)) 4
                  qentries := imN l 0x28 4, wheelreq := imN l 0x32 1, drain := imN l 0x34 4, portmap, bankfmt }

/-! ### Installation (R32 to R34, R434) -/

/-- CBASE of a context and the length of its area in bytes (R33). -/
def areaOf (s : State) (c : Fin 64) : Nat × Nat :=
  let w := (s.ctx c).entry.get 10
  ((fld w 0 52).toNat, (fld w 52 12).toNat * 2 ^ 20)

/-- AREA (R434): some page of the area is not mapped with V, X, U and PIN set and W clear. -/
def areaBad (s : State) (c : Fin 64) : Bool :=
  let a := s.areaOf c
  (List.range ((a.2 + 65535) / 65536)).any fun i => match s.walk c (a.1 + 65536 * i) with
    | .leaf e _ _ => !(e.getLsbD 2 && e.getLsbD 3 && e.getLsbD 9 && !e.getLsbD 1)
    | .fault .. => true

/-- The ranges of the area that installed images, and images whose unload is not complete, hold (R33, R34). -/
def installed (s : State) (c : Fin 64) : List (Nat × Nat) :=
  ((s.ctx c).images.toList.filterMap fun e => if e.v then some (e.off.toNat, e.len.toNat) else none)
    ++ (s.ctx c).unloads.map fun u => (u.off, u.len)

/-- The lowest offset of the area that takes a code of `n` bytes (R33). -/
def roomAt (s : State) (c : Fin 64) (n : Nat) : Option Nat :=
  ((List.range ((s.areaOf c).2 / 65536)).map (· * 65536)).find? fun o =>
    decide (o + n ≤ (s.areaOf c).2)
      && (s.installed c).all fun r => decide (o + n ≤ r.1) || decide (r.1 + r.2 ≤ o)

/-- A report of phimld (R434). -/
def report (s : State) (code value : Nat) : State := { s with dev := { s.dev with loads := s.dev.loads ++ [(code, value)] } }

/-- The code written at its place through the frames of the area (R33). -/
def putCode (s : State) (c : Fin 64) (va : Nat) (l : List Byte) : State :=
  (linesOf va l.length).foldl (fun s part => match s.devKey c part.1 false with
    | .ok (key, grade) => (s.touchVa c part.1).homeWrite key part.2 grade (leNat ((l.drop (part.1 - va)).take part.2)) false
    | .error _ => s) s

/-- The sync objects of an image take their reset values in the context's partition (R32, R335, R336). -/
def bindSync (s : State) (c : Fin 64) (im : Image) : State :=
  let p := (s.ctx c).entry.get 4
  let s := (im.bars.zip (List.range im.bars.length)).foldl
    (fun s b => s.setBar ((fld p 0 15).toNat + b.2) ⟨BitVec.ofNat 8 b.1.1, 0, false, 0⟩) s
  (im.tqs.zip (List.range im.tqs.length)).foldl (fun s q => s.setTq ((fld p 16 13).toNat + q.2) ⟨q.1, [], false⟩) s

/-- Change an entry of a context's image table. -/
def modImage (s : State) (c : Fin 64) (i : Fin 64) (f : ImageSlot → ImageSlot) : State :=
  s.modCtx c fun x => { x with images := upd x.images i (f (x.images.get i)) }

/-- The lines of an unloaded range leave the instruction buffers of the context's tiles (R34, R133). -/
def dropLines (s : State) (c : Fin 64) (off len : Nat) : State :=
  let hit (n : Nat) : Bool := decide (off ≤ n * 256 + 255) && decide (n * 256 < off + len)
  { s with tiles := s.tiles.map fun tl =>
      if tl.sys.ctx = c then
        { tl with ibuf := tl.ibuf.filter fun e => !hit e.1, fills := tl.fills.filter fun e => !hit e.2 }
      else tl }

end State

/-- IMAGE_INSTALL (R29 to R33, R434). -/
def execImageInstall (c : Fin 64) (l : List Byte) (s : State) : Host.Outcome State Fault Refusal :=
  .next <|
  match s.checkImage c l with
  | .error e => s.report e.1 e.2
  | .ok im =>
    if s.areaBad c then s.report 14 0
    else match (List.finRange 64).find? fun i => !((s.ctx c).images.get i).v with
      | none => s.report 15 0
      | some i => match s.roomAt c im.len with
        | none => s.report 16 0
        | some off =>
          let e := (s.ctx c).images.get i
          let im := { im with gen := e.gen, off }
          let s := s.putCode c ((s.areaOf c).1 + off) ((l.drop (imN l 0x10 4)).take im.len)
          let s := s.bindSync c im
          let s := s.modImage c i fun e => { e with
            off := BitVec.ofNat 64 off, len := BitVec.ofNat 64 im.len, v := true, image := some im }
          s.report 0 (i.val + e.gen.toNat * 2 ^ 6)

/-- IMAGE_UNLOAD (R34, R434): 17 HANDLE, 18 INUSE, or V is cleared and GEN advances. -/
def execImageUnload (c : Fin 64) (handle : BitVec 32) (s : State) : Host.Outcome State Fault Refusal :=
  let i : Fin 64 := (fld handle 0 6).toFin
  let e := (s.ctx c).images.get i
  let named := fld handle 22 10 = 0 ∧ e.v ∧ e.gen = fld handle 6 16
  let used := (List.finRange 16).any fun n => match s.liveAt n with
    | some l => l.ctx == c && fld ((s.slots.get n).words.get 0) 0 32 == handle
    | none => false
  .next <|
    if ¬ named then s.report 17 handle.toNat
    else if used then s.report 18 handle.toNat
    else
      let s := s.modImage c i fun e => { e with v := false, gen := e.gen + 1, image := none }
      let s := s.modCtx c fun x => { x with
        unloads := x.unloads ++ [⟨e.off.toNat, e.len.toNat, handle.toNat, s.clk.wclock + 10000⟩] }
      s.dropLines c e.off.toNat e.len.toNat

/-- UNLOAD_COMPLETE (R34): after 10 µs the unload is reported complete. -/
def execUnloadComplete (c : Fin 64) (s : State) : Host.Outcome State Fault Refusal :=
  let done (u : Unload) : Bool := decide (u.due ≤ s.clk.wclock)
  .next <| ((s.ctx c).unloads.filter done).foldl (fun s u => s.report 0 u.handle)
    (s.modCtx c fun x => { x with unloads := x.unloads.filter fun u => !done u })

end Sys2Proof.Machine
end

