-- ==== Sys2Proof/Machine/Traps.lean ====
section
/-! DEFINITION. The fault queue of a context, and the posts that resume parked groups and suspended commands (chapter 23:
R384 to R397). -/

namespace Sys2Proof.Machine

/-! ### Entries (R385, R392) -/

/-- KIND (R385). -/
def TrapKind.code : TrapKind → Nat
  | .illegal => 1
  | .repeatInvalid => 2
  | .fetchFault => 3
  | .loopNest => 4
  | .joinMismatch => 5
  | .trap => 6
  | .breakpoint => 7
  | .portConflict => 8
  | .bypassInvalid => 9
  | .streamData => 10
  | .addrSpace => 11
  | .misaligned => 12
  | .privilege => 13
  | .pageFault => 14
  | .dataError => 15
  | .bankFormat => 16
  | .arithmetic => 17
  | .enqTarget => 18
  | .operandSlot => 19
  | .metadata => 20
  | .syncWindow => 21
  | .wheel => 22
  | .deadlineEscalation => 23
  | .issueDeadline => 24
  | .engine => 32
  | .peer => 33
  | .schedStall => 34
  | .save => 35

/-- Word 0 of an entry (R392). -/
def FaultEntry.word0 (e : FaultEntry) (phase : Bool) : Nat :=
  e.trap.kind.code + e.trap.cause * 2 ^ 8 + e.rank * 2 ^ 16 + e.group * 2 ^ 24 + e.trap.slot.val * 2 ^ 26
    + e.trap.access * 2 ^ 29 + e.ctx.val * 2 ^ 32 + e.trap.level * 2 ^ 38 + if phase then 2 ^ 40 else 0

/-- Words 1 to 7 of an entry (R392). -/
def FaultEntry.rest (e : FaultEntry) : List Nat :=
  [e.pc + e.lid.toNat * 2 ^ 32, e.trap.addr.toNat, e.wclk, e.trap.info0.toNat, e.trap.info1.toNat, e.token.toNat, 0]

namespace State

/-! ### Appending (R389 to R391) -/

/-- FQ of a context (R83, R389). -/
def faultBase (s : State) (c : Fin 64) : Nat := (fld ((s.ctx c).entry.get 7) 0 52).toNat

/-- FQFAIL is set (R391). -/
def failQueue (s : State) (c : Fin 64) : State := s.modCtx c fun x => { x with resume := { x.resume with fqfail := true } }

/-- The control block of a fault queue: LSIZE, PROD and CONS; nothing when it cannot be read, or when what was read is marked
(log 83). -/
def queueBlock (s : State) (c : Fin 64) : State × Option (Nat × Nat × Nat) :=
  match s.devRead c (s.faultBase c) 24 with
  | (s, .ok (l, false)) => (s, some (imN l 0 8 % 32, imN l 8 4, imN l 16 4))
  | (s, _) => (s, none)

/-- Writes of the device one after another; whether all of them were made. -/
def devWrites (s : State) (c : Fin 64) : List (Nat × List Byte) → State × Bool
  | [] => (s, true)
  | (a, l) :: rest =>
    match s.devWrite c a l with
    | (s, none) => devWrites s c rest
    | (s, some _) => (s, false)

/-- FAULT_QUEUE_APPEND (R390, R391): the entry is written and PROD advanced, or the queue fails; `false` when the ring is
full. -/
def appendEntry (s : State) (e : FaultEntry) : State × Bool :=
  let c := e.ctx
  if (s.ctx c).resume.fqfail then (s, true)
  else match s.queueBlock c with
    | (s, none) => (s.failQueue c, true)
    | (s, some (lsize, prod, cons)) =>
      if lsize < 4 ∨ 16 < lsize then (s.failQueue c, true)
      else if (prod + 2 ^ 32 - cons) % 2 ^ 32 = 2 ^ lsize then (s, false)
      else
        let a := s.faultBase c + 64 + 64 * (prod % 2 ^ lsize)
        match s.devWrites c
            [(a + 8, e.rest.flatMap (leBytes 8)), (a, leBytes 8 (e.word0 (prod / 2 ^ lsize % 2 == 1))),
              (s.faultBase c + 8, leBytes 4 (prod + 1))] with
        | (s, false) => (s.failQueue c, true)
        | (s, true) =>
          let s := (List.finRange 16).foldl (fun s n => s.modLive n fun l =>
            if e.lslot = some n ∧ l.ctx = c ∧ l.lid = e.lid ∧ l.waccept ≤ e.wclk ∧ e.trap.kind.code < 32 then { l with faults := satAdd 32 l.faults 1 } else l) s
          (s.irq (256 + c.val), true)

/-- LOST counts a report that is discarded (R390). -/
def loseReport (s : State) (c : Fin 64) : State :=
  match s.devRead c (s.faultBase c + 24) 4 with
  | (s, .ok (l, false)) =>
    match s.devWrite c (s.faultBase c + 24) (leBytes 4 (satAdd 32 (leNat l) 1)) with
    | (s, none) => s
    | (s, some _) => s.failQueue c
  | (s, _) => s.failQueue c

/-- The die that buffers an entry. -/
def dieOf (rank : Nat) : Fin 2 := if rank / 72 = 0 then 0 else 1

/-- The entries that wait, in the order in which they arrived. -/
def setWait (s : State) (l : List FaultEntry) : State := { s with dev := { s.dev with faultWait := l } }

/-- An entry that finds its ring full, or an earlier entry of its context waiting: a trap waits, a report waits in its die's
buffer of 64 or is lost (R390). -/
def waitEntry (s : State) (e : FaultEntry) : State :=
  let l := s.dev.faultWait
  let report := decide (32 ≤ e.trap.kind.code)
  if report && decide (64 ≤ (l.filter fun x => dieOf x.rank == dieOf e.rank && decide (32 ≤ x.trap.kind.code)).length) then
    s.loseReport e.ctx
  else
    let s := s.setWait (l ++ [e])
    if s.dev.pollAt ≤ s.clk.wclock then { s with dev := { s.dev with pollAt := s.clk.wclock + 1000 } } else s

/-- One new entry reaches the device coordinator. -/
def deliver (s : State) (e : FaultEntry) : State :=
  if s.dev.faultWait.any fun x => x.ctx == e.ctx then s.waitEntry e
  else match s.appendEntry e with
    | (s, true) => s
    | (s, false) => s.waitEntry e

/-- The entries detected in a cycle reach the device coordinator: die 0 first, then by rank, then by group (R388, R390). -/
def deliverAll (s : State) : State :=
  let before (a b : FaultEntry) : Bool := a.rank < b.rank || (a.rank == b.rank && a.group ≤ b.group)
  let l := s.dev.faultNew.foldl (fun (l : List FaultEntry) e =>
    l.takeWhile (fun x => before x e) ++ e :: l.dropWhile (fun x => before x e)) []
  l.foldl deliver { s with dev := { s.dev with faultNew := [] } }

/-- The waiting entries of a context are appended in the order of their arrival while its ring has room; `fuel` bounds them
(R390). -/
def drainWait (c : Fin 64) : Nat → State → State
  | 0, s => s
  | k + 1, s =>
    match s.dev.faultWait.find? fun e => e.ctx == c with
    | none => s
    | some e =>
      match s.appendEntry e with
      | (s, false) => s
      | (s, true) => drainWait c k (s.setWait (s.dev.faultWait.eraseP fun x => x.ctx == c))

end State

/-- FAULT_QUEUE_CONS_POLL (R390): CONS is read again and waiting entries are appended while there is room. -/
def execFaultQueueConsPoll (c : Fin 64) (s : State) : Host.Outcome State Fault Refusal :=
  let n := s.dev.faultWait.length
  let s := State.drainWait c n s
  .next { s with dev := { s.dev with pollAt := s.clk.wclock + 1000 } }

/-! ### What a parked bundle holds -/

namespace State

/-- A code word of the task on a tile, as memory holds it; nothing beyond its code or unmapped. -/
def codeOf (s : State) (t : Fin 144) (a : Nat) : Option Word :=
  match (s.tileAt t).sched.task with
  | none => none
  | some k => match s.liveAt k.slot with
    | none => none
    | some l =>
      if l.image.len < a + 8 then none
      else match s.devKey k.ctx (s.codeBase k.ctx + l.image.off + a) false with
        | .ok (key, _) => some (s.load64 key)
        | .error _ => none

/-- The syllables of the bundle at which a group is parked: slot and word, new ones from the code, repeats from the
latches kept at trap entry (R387). -/
def parkedItems (s : State) (t : Fin 144) (pc : Nat) (latches : List (Fin 8 × Latch)) : List (Fin 8 × Word) :=
  match (s.codeOf t pc).bind decodeHeader with
  | none => []
  | some h =>
    let ws := (List.range h.news).map fun i => (s.codeOf t (pc + 8 + 8 * i)).getD 0
    ((slotsOf h 1).zip ws) ++ (List.finRange 8).filterMap fun i =>
      if 2 ≤ h.slotMode i then (latches.find? fun e => e.1 == i).map fun e => (i, e.2.word) else none

/-- The address of the bundle after the one at `pc`, past a loop header that it consumes (R46); 8 bytes on when no header
word can be read. -/
def nextBundle (s : State) (t : Fin 144) (pc : Nat) (latches : List (Fin 8 × Latch)) : Nat :=
  match s.codeOf t pc with
  | none => pc + 8
  | some w =>
    let news := ((List.finRange 8).filter fun i => fld w (42 + 2 * i.val) 2 == 1).length
    let n := pc + 8 * (1 + news + (fld w 28 2).toNat)
    if (s.parkedItems t pc latches).any (fun i => isLoop i.2) && (match s.codeOf t n with
        | some x => fld x 62 2 == 2
        | none => false) then n + 8 else n

/-! ### The record of a saved task (R412 to R414) -/

/-- SAVE of a context (R412). -/
def saveWord (s : State) (c : Fin 64) : Word := (s.ctx c).entry.get 8

/-- The space of a save area (R412). -/
def saveSpace (s : State) (c : Fin 64) : Nat := (fld (s.saveWord c) 60 4).toNat

/-- The offset at which the record of a tile starts in its space (R412). -/
def recordAt (s : State) (c : Fin 64) (t : Fin 144) : Nat :=
  let w := s.saveWord c
  let i := if s.saveSpace c = 3 then t.val % 72 / 12 % 2 * 2 + t.val % 12 % 2 else t.val
  (fld w 12 40).toNat * 2 ^ 12 + i * (fld w 0 12).toNat * 2 ^ 12

/-- Byte `i` of a word. -/
def byteOf (v i : Nat) : Byte := BitVec.ofNat 8 (v / 2 ^ (8 * i))

/-- The PC of a group or of the lockstep stream, all ones for a stream that does not exist (R414); for a
stream that a post sends elsewhere, where it goes (R396). -/
def savedPc (tl : Tile) (i : Nat) : Nat :=
  let pc (g : Nat) : Nat := match tl.streams.toList.getD g none with | some st => ((st.jump.map BitVec.toNat).getD st.pc) | none => 2 ^ 64 - 1
  if i = 4 then (if tl.lockstep then pc 0 else 2 ^ 64 - 1) else if tl.lockstep then 2 ^ 64 - 1 else pc i

/-- Bytes of a record written at an offset of it, what is queued at its lines first (R322); or cause, level and address
(R417). -/
def putRecord (s : State) (c : Fin 64) (t : Fin 144) (o : Nat) (l : List Byte) : State × Option (Nat × Nat × Nat) :=
  if s.saveSpace c = 3 then
    let key := spaceKey 0 3 (clusterOf t.val) (s.recordAt c t + o)
    ((s.settleLine key l.length).storeBytes key 8 l, none)
  else s.devWrite c (s.recordAt c t + o) l

/-- The x registers and PCs in the header of a saved task's record, as a post leaves them (R396, R414); a record that cannot
be reached keeps what it held (log 91). -/
def putHeader (s : State) (c : Fin 64) (t : Fin 144) (tl : Tile) : State :=
  (s.putRecord c t 0x40 ((tl.regs.x.toList.map BitVec.toNat ++ (List.range 5).map (savedPc tl)).flatMap (leBytes 8))).1

/-! ### Resumes (R394 to R396) -/

/-- What a token names: a parked group, or a suspended command of a copy queue. -/
inductive Named
  | group (g : Fin 4) (p : Park)
  | command (q : Fin 2) (c : CopyCmd) (run : CopyRun)

/-- What a token names on the tile in place (R394). -/
def named (s : State) (t : Fin 144) (token : Word) : Option Named :=
  let seq := fld token 32 32
  let g : Fin 4 := (fld token 8 2).toFin
  let suspended (q : Fin 2) : Option Named := (s.cqOf t q).findSome? fun c => match c.run with
    | some r => if r.susp = some seq then some (.command q c r) else none
    | none => none
  match (fld token 10 2).toNat with
  | 0 => match (s.tileAt t).streams.get g with
    | some st => match st.park with
      | some p => if p.seq = seq then some (.group g p) else none
      | none => none
    | none => none
  | 1 => if g = 0 then suspended 0 else none
  | 2 => if g = 0 then suspended 1 else none
  | _ => none

/-- The wait that a parked group held is given up: an arrival is withdrawn, and a reply will find no one (R121). -/
def giveUpWait (s : State) (t : Fin 144) (g : Fin 4) : State :=
  match (s.streamAt t g).wait with
  | none => s
  | some wt => match wt.sent, wt.dec with
    | some id, none =>
      match s.hubs.waits.find? fun w => w.id == id && w.tile == t && w.group == g with
      | some w =>
        let s := s.withdrawArrival w
        { s with hubs := { s.hubs with waits := s.hubs.waits.filter fun x => x.id != id } }
      | none => { s with hubs := { s.hubs with
          reqs := s.hubs.reqs.filter fun r => !(r.id == id && r.tile == t && r.group == g) } }
    | _, _ => s

/-- Put the tile and stream in hand. -/
def at_ (s : State) (t : Fin 144) (g : Fin 4) : State := { s with cur := { s.cur with tile := t, group := g } }

/-- RETRY of a parked group (R395): the bundle is issued again; an escalated wait and a JOIN begin anew, and another wait that
has sent its request, or is decided, goes on. -/
def retryGroup (s : State) (t : Fin 144) (g : Fin 4) (p : Park) : State :=
  let st := s.streamAt t g
  let anew := p.trap.kind == .deadlineEscalation ||
    match st.wait.map Wait.ins with | some (Instr.join ..) => true | _ => false
  s.unpark t g st.pc (if anew then none else st.wait) true

/-- May the parked bundle be skipped: no JOIN, CBWAIT or CBTAKE (R395)? -/
def maySkip (s : State) (t : Fin 144) (g : Fin 4) (p : Park) : Bool :=
  !(s.parkedItems t (s.streamAt t g).pc p.latches).any fun i => [0xF6, 0xF7, 0xF8].contains (fld i.2 56 8).toNat

/-- SKIP (R395, R139): the bundle counts as committed with no effect. -/
def skipGroup (s : State) (t : Fin 144) (g : Fin 4) (p : Park) : State :=
  let s := s.giveUpWait t g
  let st := s.streamAt t g
  let r := backEdge (s.at_ t g).exits st.pc (s.nextBundle t st.pc p.latches) 5 st.loops
  (s.setStream t g (some { st with loops := r.1, again := none })).unpark t g r.2.1 none false

/-- GOTO (R395): the target is checked and the loops left as for JMPR; a failing target parks the group again. The bypass
latches go at once, since no bundle of this cycle is still to commit (R162). -/
def gotoGroup (s : State) (t : Fin 144) (g : Fin 4) (v : Word) : State :=
  let s := s.giveUpWait t g
  let st := s.streamAt t g
  let len := match (s.tileAt t).sched.task.bind fun k => s.liveAt k.slot with | some l => l.image.len | none => 0
  if v.toNat % 8 ≠ 0 ∨ len ≤ v.toNat then
    ((s.setStream t g (some { st with park := none, wait := none, again := none, jump := none })).park t g
      { kind := .fetchFault, access := 1, addr := v, info0 := v }).modTile t fun tl =>
        { tl with regs := { tl.regs with byp := .replicate 8 [], bypDrop := false } }
  else
    (s.setStream t g (some { st with loops := leaveLoops v.toNat st.loops, again := none, jump := none })).unpark t g
      v.toNat none false

/-- GOTO for a saved task: the target is checked at restore (R396). -/
def gotoLater (s : State) (t : Fin 144) (g : Fin 4) (v : Word) : State :=
  let s := s.giveUpWait t g
  s.setStream t g (some { s.streamAt t g with jump := some v, park := none, wait := none, again := none })

/-- STATUS (R395, R124): the escalated wait commits as decided; the latches serve its bundle and are then cleared. -/
def statusGroup (s : State) (t : Fin 144) (g : Fin 4) : State :=
  let st := s.streamAt t g
  s.unpark t g st.pc (st.wait.map fun w => { w with forced := true }) true

/-- SETX (R395): the register is written, then RETRY. -/
def setxGroup (s : State) (t : Fin 144) (g : Fin 4) (p : Park) (reg : Fin 64) (v : Word) : State :=
  ((s.clearMarks (xKey t reg.val) 1 1).modTile t fun tl => { tl with regs := { tl.regs with x := upd tl.regs.x reg v } }).retryGroup
    t g p

/-- A form applied to what a token names on the tile in place; nothing when the form is not accepted (R395). -/
def applyForm (s : State) (t : Fin 144) (form : Nat) (away : Bool) (b : ResumeBlock) : Named → Option State
  | .group g p =>
    match form with
    | 0 => some (s.retryGroup t g p)
    | 1 => if s.maySkip t g p then some (s.skipGroup t g p) else none
    | 2 => if p.trap.kind = .deadlineEscalation then some (s.statusGroup t g) else none
    | 3 => some (if away then s.gotoLater t g b.value else s.gotoGroup t g b.value)
    | 4 => if b.reg = 0 then none else some (s.setxGroup t g p b.reg b.value)
    | 6 => match (s.tileAt t).sched.task with
      | some k => some (s.killTask t k)
      | none => some s
    | _ => none
  | .command q c run =>
    match form with
    | 0 => some (s.putCmd t q { c with run := some { run with susp := none } })
    | 5 => some (s.endCmd t q c)
    | 6 => match (s.tileAt t).sched.task with
      | some k => some (s.killTask t k)
      | none => some s
    | _ => none

/-- RESULT of a context's resume block (R393). -/
def setResult (s : State) (c : Fin 64) (r : BitVec 2) : State :=
  s.modCtx c fun x => { x with resume := { x.resume with result := r } }

/-- A post (R394 to R396): stale, bad form, or applied, to the task on the tile or to a saved one, whose record shows it. -/
def resumeBy (s : State) (c : Fin 64) (b : ResumeBlock) (form : Nat) : State :=
  let rank := (fld b.token 0 8).toNat
  if h : rank < 144 then
    let t : Fin 144 := ⟨rank, h⟩
    let y := (s.tileAt t).sched
    let here := (match y.task with | some k => k.ctx == c && !y.killed | none => false)
      && match y.job with | .restore .. | .restoreStalled .. | .bind .. => false | _ => true
    if fld b.token 12 20 ≠ 0 then s.setResult c 2
    else if here then
      match s.named t b.token with
      | none => s.setResult c 2
      | some n => match s.applyForm t form false b n with
        | none => s.setResult c 3
        | some s => s.setResult c 0
    else match s.saved.find? fun v => v.rank == t && v.tile.sys.ctx == c with
      | none => s.setResult c 2
      | some v =>
        let s' := { s.setTile t v.tile with marks := v.marks }
        match s'.named t b.token with
        | none => s.setResult c 2
        | some n =>
          if form = 6 then ((s.killSaved v).modSched t fun y =>
            if y.task = v.tile.sched.task ∧ y.task.isSome then { y with task := none, job := .none, idleSince := s.now } else y).setResult c 0
          else match s'.applyForm t form true b n with
            | none => s.setResult c 3
            | some (s' : State) =>
              let v' := { v with tile := s'.tileAt t, marks := s'.marks }
              let s' := ({ s'.setTile t (s.tileAt t) with
                marks := s.marks
                saved := s'.saved.map fun (x : Saved) => if x.rank = t ∧ x.tile.sys.ctx = c then v' else x }).setResult c 0
              if form = 1 ∨ form = 3 ∨ form = 4 then s'.putHeader c t v'.tile else s'
  else s.setResult c 2

/-- A post of what a context's resume block holds. -/
def resume (s : State) (c : Fin 64) (form : Nat) : State := s.resumeBy c (s.ctx c).resume form

/-- Where a post stands among those of its cycle: rank, group, WHAT (R396). -/
def postKey (b : ResumeBlock) : Nat :=
  (fld b.token 0 8).toNat * 16 + (fld b.token 8 2).toNat * 4 + (fld b.token 10 2).toNat

/-- The posts of a cycle are applied by rank, then group, then WHAT; those alike as they were made (R396). -/
def applyPosts (s : State) : State :=
  let l := s.dev.posts.foldl (fun (l : List (Fin 64 × ResumeBlock)) p =>
    l.takeWhile (fun x => decide (postKey x.2 ≤ postKey p.2)) ++ p :: l.dropWhile fun x => decide (postKey x.2 ≤ postKey p.2)) []
  l.foldl (fun s p => s.resumeBy p.1 p.2 p.2.form.toNat) { s with dev := { s.dev with posts := [] } }

end State

/-- RETRY (R395). -/
def execRetry (c : Fin 64) (s : State) : Host.Outcome State Fault Refusal := .next (s.resume c 0)

/-- SKIP (R395). -/
def execSkip (c : Fin 64) (s : State) : Host.Outcome State Fault Refusal := .next (s.resume c 1)

/-- STATUS (R395, R124). -/
def execStatus (c : Fin 64) (s : State) : Host.Outcome State Fault Refusal := .next (s.resume c 2)

/-- GOTO (R395). -/
def execGoto (c : Fin 64) (s : State) : Host.Outcome State Fault Refusal := .next (s.resume c 3)

/-- SETX (R395). -/
def execSetx (c : Fin 64) (s : State) : Host.Outcome State Fault Refusal := .next (s.resume c 4)

/-- DROP (R395, R277). -/
def execDrop (c : Fin 64) (s : State) : Host.Outcome State Fault Refusal := .next (s.resume c 5)

/-- KILL (R395, R430). -/
def execKill (c : Fin 64) (s : State) : Host.Outcome State Fault Refusal := .next (s.resume c 6)

/-- BAD_FORM (R395): a reserved form has no effect. -/
def execBadForm (c : Fin 64) (s : State) : Host.Outcome State Fault Refusal := .next (s.resume c 7)

/-- CONTEXT_KILL (R431, R426): no effect while KBUSY is set; launches that are complete already complete first. -/
def execContextKill (c : Fin 64) (s : State) : Host.Outcome State Fault Refusal := .next (s.killContext c)

end Sys2Proof.Machine
end

