-- ==== Sys2Proof/Machine/Save.lean ====
section
/-! DEFINITION. Accepting a stop, saving a task to its context's save area and restoring it (chapter 25: R405 to R418). -/

namespace Sys2Proof.Machine

/-! ### The save area (R412, R416) -/

/-- Pages of a save record (R413). -/
abbrev recordPages : Nat := 0x11C

namespace State

/-- The check of the area (R416): 1 too small, 2 outside its space or window. -/
def areaReason (s : State) (c : Fin 64) (t : Fin 144) : Option Nat :=
  let a := s.recordAt c t
  let n := recordPages * 4096
  if (fld (s.saveWord c) 0 12).toNat < 0x11C then some 1
  else match s.saveSpace c with
    | 0 => if a + n ≤ 2 ^ 52 then none else some 2
    | 3 => if a + n ≤ spaceSize 3 ∧ s.inVault c a n then none else some 2
    | _ => some 2

/-- The pointer of an offset of a tile's record, as a report gives it (R418). -/
def recordPtr (s : State) (c : Fin 64) (t : Fin 144) (o : Nat) : Word :=
  if s.saveSpace c = 3 then BitVec.ofNat 64 (3 * 2 ^ 60 + clusterOf t.val * 2 ^ 52 + s.recordAt c t + o)
  else BitVec.ofNat 64 (s.recordAt c t + o)

/-- A SAVE report (R418): of the context whose task is being saved, restored or killed on the tile. -/
def saveReport (s : State) (t : Fin 144) (cause level access : Nat) (addr : Word) (cursor reason : Nat) : State :=
  let e : FaultEntry :=
    { trap := { kind := .save, cause, level, access, addr, info0 := BitVec.ofNat 64 cursor, info1 := BitVec.ofNat 64 reason }
      rank := t.val, group := 0, pc := 0, lid := ((s.tileAt t).sched.task.map fun k => k.lid).getD 0, wclk := s.clk.wclock
      token := 0, lslot := (s.tileAt t).sched.task.map fun k => k.slot
      ctx := ((s.tileAt t).sched.task.map fun k => k.ctx).getD (s.tileAt t).sys.ctx }
  { s with dev := { s.dev with faultNew := s.dev.faultNew ++ [e] } }

/-! ### The record (R413, R414) -/

/-- The words of the header that software may read (R414). -/
def headerWord (tl : Tile) (t : Fin 144) (i : Nat) : Option Nat :=
  if i = 0 then some (0x42414242 + 2 ^ 32)
  else if i = 2 then
    let lid := match tl.sched.task with | some k => k.lid.toNat | none => 0
    some (t.val + tl.sys.ctx.val * 2 ^ 8 + tl.sys.stage.toNat * 2 ^ 16 + lid * 2 ^ 32)
  else if i = 3 then some tl.sched.acceptAt
  else if i = 4 then some tl.sys.tclock.toNat
  else if 8 ≤ i ∧ i < 72 then some (tl.regs.x.toList.getD (i - 8) 0).toNat
  else if 72 ≤ i ∧ i < 77 then some (savedPc tl (i - 72))
  else none

/-- Byte `o` of a tile's record (R413, R414); what Babbitt keeps elsewhere in it is its own (log 13). -/
def recordByte (s : State) (t : Fin 144) (draw o : Nat) : Byte :=
  let tl := s.tileAt t
  let r (a : Nat) : Byte := s.mem.get a
  if o < 0x2000 then
    match headerWord tl t (o / 8) with
    | some v => byteOf v (o % 8)
    | none => Config.recordByte draw o
  else if o < 0x1A000 then byteOf (tl.regs.v.toList.getD ((o - 0x2000) / 256) 0).toNat ((o - 0x2000) % 256)
  else if o < 0x3A000 then
    let st := tl.eng.sts.toList.getD ((o - 0x1A000) / 0x4000) .reset
    let k := (o - 0x1A000) % 0x4000
    if k < 0x1000 then byteOf (st.queue.getD (k / 256) 0).toNat (k % 256)
    else if k < 0x3000 then (st.input.getD (k - 0x1000) (0, none)).1
    else st.window.getD (k - 0x3000) 0
  else if o < 0x76000 then r (accKey t ((o - 0x3A000) / 0x6000) + (o - 0x3A000) % 0x6000)
  else if o < 0x76000 + 6400 then r (accKey t ((o - 0x76000) / 640) + 24576 + (o - 0x76000) % 640)
  else if o < 0x78000 then Config.recordByte draw o
  else if o < 0x98000 then r (omKey t 0 + (o - 0x78000))
  else if o < 0x9C000 then
    BitVec.ofNat 8 (((List.range 8).map fun b => if tl.tags.contains ((o - 0x98000) * 8 + b) then 2 ^ b else 0).sum)
  else r (spadBase + t.val * 2 ^ 19 + (o - 0x9C000))

/-- The page of the record that is written in turn `i`: ascending from 0x2000, the header last (R414). -/
def pageOf (i : Nat) : Nat := if i < 0x11A then i + 2 else i - 0x11A

/-- Bytes of a record read at an offset of it, with whether any is marked (R205); or cause, level and address. -/
def getRecord (s : State) (c : Fin 64) (t : Fin 144) (o n : Nat) : State × Except (Nat × Nat × Nat) (List Byte × Bool) :=
  if s.saveSpace c = 3 then
    let key := spaceKey 0 3 (clusterOf t.val) (s.recordAt c t + o)
    let s := s.settleLine key n
    (s, .ok (s.mem.bytes key n, s.marked key n 8))
  else s.devRead c (s.recordAt c t + o) n

/-- The pages of a record written from turn `i` on; where a translation fails, the turn, cause, level and address. -/
def putPages (s : State) (c : Fin 64) (t : Fin 144) (draw : Nat) : Nat → Nat → State × Option (Nat × Nat × Nat × Nat)
  | 0, _ => (s, none)
  | k + 1, i =>
    match s.putRecord c t (pageOf i * 4096) ((List.range 4096).map fun b => s.recordByte t draw (pageOf i * 4096 + b)) with
    | (s, none) => putPages s c t draw k (i + 1)
    | (s, some (cause, lv, a)) => (s, some (i, cause, lv, a))

/-! ### Accepting a stop (R408 to R410, R416) -/

/-- Is a command of a copy queue where a stop may be accepted (R408)? -/
def copyAtRest (s : State) (t : Fin 144) (q : Fin 2) (c : CopyCmd) : Bool :=
  match c.run with
  | none => true
  | some r => !State.isBinding c.op && r.prog.isNone && decide (r.ackAt ≤ s.now) && !s.peerWaiting t q c.pos
    && r.accSt.all fun p => decide (r.bufAt + r.buf.length ≤ p.2) || decide (16 ≤ (s.streamReg t p.1).queue.length)

/-- May the tile accept a stop now (R408)? -/
def mayAccept (s : State) (t : Fin 144) : Bool :=
  let tl := s.tileAt t
  tl.sys.stop && tl.sched.resident && !tl.sched.killed && (match tl.sched.job with | .none => true | _ => false)
    && (tl.streams.toList.all fun st => match st with | some st => st.stopped || st.park.isSome | none => true)
    && (tl.streams.toList.all fun st => match st.bind fun st => st.wait with
      | some wt => wt.sent.isNone || wt.dec.isSome
      | none => true)
    && s.entriesUsed t == 0 && !s.peersOpen t && (tl.regs.pend.all fun w => !w.late) && (s.hubs.reqs.all fun r => r.tile != t)
    && (s.cqOf t 0).all (s.copyAtRest t 0) && (s.cqOf t 1).all (s.copyAtRest t 1) && tl.eng.mq.all fun c => c.run.isNone

end State

/-- A command as a stop leaves it (R408, R313): a copy held within a chunk reads that chunk again for the consumers that
lack bytes of it; a selection goes on from the first unmerged window. -/
def CopyCmd.atStop (c : CopyCmd) : CopyCmd :=
  match c.run with
  | none => c
  | some r =>
    let low := State.slowest r
    let r := if low < r.total ∧ !r.accSt.isEmpty then
        { r with chunk := min r.chunk (low / 4096), buf := [], bad := [], bufAt := min r.chunk (low / 4096) * 4096 }
      else r
    { c with run := some { r with sel := r.sel.map fun v => { v with out := [], next := v.merged } } }

namespace State

/-- Whatever fixed-latency results and flags are still to come are in the files (R153, R171). -/
def settleTile (s : State) (t : Fin 144) : State :=
  s.modTile t fun tl => { tl with
    regs := { (tl.regs.settleCb (s.now + 1000)).land (s.now + 1000) with pendF := [] }
    sys := tl.sys.settle (s.now + 1000) tl.regs.pendF
    eng := { tl.eng with cq := tl.eng.cq.map fun q => q.map CopyCmd.atStop } }

/-- The overrun of a stop (R409). -/
def overrunOf (s : State) (t : Fin 144) (k : Task) : Nat :=
  match (s.tileAt t).sched.reqAt with
  | some q => s.clk.wclock - q - s.drainOfTask k
  | none => 0

/-- The overrun of a stop enters the launch's record (R409, R427), and is charged unless Hold interrupts the slice, whose
clock then stands still from here on (R410, R421, R429). -/
def chargeStop (s : State) (t : Fin 144) (k : Task) : State :=
  let n := s.overrunOf t k
  let s := s.modLive k.slot fun l => { l with overrun := satAdd 64 l.overrun n }
  let s := s.modAcct k.ctx fun a => { a with stops := satAdd 32 a.stops 1 }
  match s.hold.power with
  | .entering => s.modSched t fun y => { y with pausedAt := some (y.pausedAt.getD s.clk.wclock) }
  | _ =>
    let s := s.modSched t fun y => setCarried y k.ctx (carried y k.ctx + n)
    s.modAcct k.ctx fun a => { a with overrun := satAdd 64 a.overrun n }

/-- A selection goes on from its first unmerged window: those dispatched and not merged are discarded (R313). -/
def redispatch (c : CopyCmd) : CopyCmd :=
  match c.run with
  | some r => { c with run := some { r with sel := r.sel.map fun v => { v with out := [], next := v.merged } } }
  | none => c

/-- The streams of a tile issue on as if resumed: abandoned waits are re-executed, latches are invalid, and selections
dispatch their unmerged windows again (R416, R122, R313). -/
def runOn (s : State) (t : Fin 144) : State :=
  (s.unpause t).modTile t fun tl => { tl with
    streams := tl.streams.map fun st => st.map fun st => { st with stopped := false }
    sys := { tl.sys with stop := false }, regs := { tl.regs with byp := .replicate 8 [] }
    eng := { tl.eng with cq := tl.eng.cq.map fun q => q.map redispatch }
    sched := { tl.sched with reqAt := none, stopFor := none } }

end State

/-- STOP_ACCEPT (R408): the task is no longer resident, and Babbitt begins its save; a save area that fails its check is
reported instead, and the task runs on (R416). -/
def execStopAccept (t : Fin 144) (s : State) : Host.Outcome State Fault Refusal :=
  match (s.tileAt t).sched.task with
  | none => .next s
  | some k =>
    if !s.mayAccept t then .next s
    else
      let s := s.chargeStop t k
      match s.areaReason k.ctx t with
      | some reason =>
        let s := s.saveReport t 0 0 3 (s.recordPtr k.ctx t 0) (if reason = 1 then 0x11C else 0) reason
        .next ((s.modCtx k.ctx fun x => { x with noSave := true }).runOn t)
      | none =>
        .next ((s.settleTile t).modSched t fun y =>
          { y with resident := false, ticking := false, acceptAt := s.clk.wclock, reqAt := none, job := .save 0 0 none })

namespace State

/-! ### Babbitt (R415, R417) -/

/-- Is a job one that occupies its cluster's Babbitt? -/
def holdsBabbitt (j : Job) : Bool := match j with | .save due .. | .restore due _ => due != 0 | _ => false

/-- Is a job waiting for its cluster's Babbitt? -/
def wantsBabbitt (j : Job) : Bool := match j with | .save due .. | .restore due _ => due == 0 | _ => false

/-- Each cluster whose Babbitt is free begins the save or restore of its lowest waiting tile (R415). -/
def babbitts (s : State) : State :=
  (List.finRange 144).foldl (fun s t =>
    let y := (s.tileAt t).sched
    let busy := (List.finRange 144).any fun u =>
      clusterOf u.val == clusterOf t.val && holdsBabbitt (s.tileAt u).sched.job
    if wantsBabbitt y.job && !busy then
      let c := match y.task with | some k => k.ctx | none => 0
      let d := s.draw 1 (if s.saveSpace c = 3 then 2600 else 9600)
      d.2.modSched t fun y => match y.job with
        | .save _ cur last => { y with job := .save (s.now + d.1) cur last }
        | .restore _ last => { y with job := .restore (s.now + d.1) last }
        | _ => y
    else s) s

/-- The tile is left without a task once its record is written (R92, R415). -/
def leaveSaved (s : State) (t : Fin 144) (k : Task) : State :=
  let tl := s.tileAt t
  let byHold := match s.hold.power with | .entering => true | _ => false
  let s := { s with saved := s.saved ++ [(⟨t, tl, s.marks.filter (ownMark t), byHold⟩ : Saved)] }
  let s := s.modAcct k.ctx fun a => { a with saves := satAdd 32 a.saves 1, saved := a.saved + 1 }
  s.modTile t fun tl => { tl with
    streams := .replicate 4 none, lockstep := true, savedLoops := [], sys := { tl.sys with stop := false }
    eng := { tl.eng with cq := .replicate 2 [], mq := [], om := .replicate 8 .free, sts := .replicate 8 .reset }
    sched := { tl.sched with task := none, job := .none, reqAt := none, idleSince := s.now } }

end State

/-- SAVE_COMPLETE (R415): the record's pages are written in their order, and the tile selects; a page whose translation
fails stalls the save at its cursor (R417). Reductions queued at the scratchpad that it reads apply first (R322). -/
def execSaveComplete (t : Fin 144) (s : State) : Host.Outcome State Fault Refusal :=
  let y := (s.tileAt t).sched
  match y.job, y.task with
  | .save due cur last, some k =>
    if due = 0 ∨ s.now < due then .next s
    else
      let n := s.freeCtr
      let s := { s with freeCtr := n + 1 }.settleEng t 0 (2 ^ 19)
      match s.putPages k.ctx t n (recordPages - cur) cur with
      | (s, none) => .next (s.leaveSaved t k)
      | (s, some (i, cause, lv, a)) =>
        let s := if last = some (cause, a) then s
          else s.saveReport t cause lv 3 (BitVec.ofNat 64 a) (State.pageOf i) 3
        .next (s.modSched t fun y => { y with job := .saveStalled i (some (cause, a)) (s.clk.wclock + 100000) })
  | _, _ => .next s

/-- SAVE_RETRY (R417): a stalled save or restore waits for its cluster's Babbitt again. -/
def execSaveRetry (t : Fin 144) (s : State) : Host.Outcome State Fault Refusal :=
  .next (s.modSched t fun y => match y.job with
    | .saveStalled cur last _ => { y with job := .save 0 cur last }
    | .restoreStalled last _ => { y with job := .restore 0 last }
    | _ => y)

/-! ### Restoring (R413 to R415, R421) -/

namespace State

/-- Every page of a record can be read; or cause, level and address of the first that cannot. -/
def pagesReadable (s : State) (c : Fin 64) (t : Fin 144) : Option (Nat × Nat × Nat × Nat) :=
  if s.saveSpace c = 3 then none
  else (List.range recordPages).findSome? fun p => match s.devKey c (s.recordAt c t + p * 4096) false with
    | .ok _ => none
    | .error (cause, lv) => some (p, cause, lv, s.recordAt c t + p * 4096)

/-- A part of the record copied to a tile's own storage line by line; marked words leave what they are copied to marked, in
granules of `gran` bytes (R205, R436). -/
def pull (s : State) (c : Fin 64) (t : Fin 144) (o n key gran : Nat) : State :=
  let badWord (s : State) (o : Nat) : Bool := match s.getRecord c t o 8 with
    | (_, .ok (_, bad)) => bad
    | (_, .error _) => false
  (List.range (n / 64)).foldl (fun s i =>
    match s.getRecord c t (o + 64 * i) 64 with
    | (s, .ok (l, bad)) =>
      let s := { s with mem := Memory.putBytes s.mem (key + 64 * i) l }
      if bad then
        (List.range 8).foldl (fun s j => if badWord s (o + 64 * i + 8 * j) then s.markAll (key + 64 * i + 8 * j) 8 gran else s) s
      else s
    | (s, .error _) => s) s

/-- Bytes of the record. -/
def peek (s : State) (c : Fin 64) (t : Fin 144) (o n : Nat) : List Byte :=
  match s.getRecord c t o n with
  | (_, .ok (l, _)) => l
  | (_, .error _) => []

/-- Are bytes of the record marked? -/
def peekBad (s : State) (c : Fin 64) (t : Fin 144) (o n : Nat) : Bool :=
  match s.getRecord c t o n with
  | (_, .ok (_, bad)) => bad
  | (_, .error _) => false

/-- An accumulator tile comes back from the record; marked data poison it (R287, R205). -/
def pullAcc (s : State) (c : Fin 64) (t : Fin 144) (n : Fin 10) : State :=
  let bad := s.peekBad c t (0x3A000 + 0x6000 * n.val) 0x6000 || s.peekBad c t (0x76000 + 640 * n.val) 640
  let s := (s.pull c t (0x3A000 + 0x6000 * n.val) 0x6000 (accKey t n.val) 64).pull c t (0x76000 + 640 * n.val) 640
    (accKey t n.val + 24576) 64
  if bad then s.modTile t fun tl => { tl with
    eng := { tl.eng with acc := upd tl.eng.acc n { tl.eng.acc.get n with poison := true } } }
  else s

/-- Marks of the record's words that hold registers, tags and stream queues come back on what they hold (R205, R436). -/
def pullMarks (s : State) (c : Fin 64) (t : Fin 144) : State :=
  let lines (s : State) (o n key len : Nat) : State :=
    (List.range n).foldl (fun s i =>
      if s.peekBad c t (o + 64 * i) 64 then
        (List.range 8).foldl (fun s j =>
          if s.peekBad c t (o + 64 * i + 8 * j) 8 then s.markAll (key + len * (8 * i + j)) len 1 else s) s
      else s) s
  let s := lines s 0x2000 1536 (vKey t 0 0) 1
  let s := lines s 0x98000 256 (tagBase + t.val * 2 ^ 17) 64
  (List.range 8).foldl (fun s n => lines s (0x1A000 + 0x4000 * n) 64 (stKey t n 0 0) 1) s

/-- The parts of a record in global memory that hold registers, streams and tags are read line by line, and each access counts
(R190, R329). -/
def touchRecord (s : State) (c : Fin 64) (t : Fin 144) : State :=
  if s.saveSpace c = 3 then s
  else (linesOf (s.recordAt c t) 0x3A000 ++ linesOf (s.recordAt c t + 0x98000) 0x4000).foldl (fun s p => s.touchVa c p.1) s

/-- The storage that the record holds comes back: scratchpad, operand memory, accumulators and checksums. -/
def pullAll (s : State) (c : Fin 64) (t : Fin 144) : State :=
  let s := s.pull c t 0x9C000 0x80000 (spadBase + t.val * 2 ^ 19) 4
  let s := s.pull c t 0x78000 0x20000 (omKey t 0) 1
  ((List.finRange 10).foldl (fun s n => s.pullAcc c t n) s).pullMarks c t

/-- A stream register with what the record holds of it; marked input cuts it off with cause DATA (R268). -/
def pullStream (s : State) (c : Fin 64) (t : Fin 144) (n : Nat) (r : StreamReg) : StreamReg :=
  let o := 0x1A000 + 0x4000 * n
  let r' := { r with
    queue := (List.range r.queue.length).map fun i => BitVec.ofNat 2048 (leNat (s.peek c t (o + 256 * i) 256))
    input := (s.peek c t (o + 0x1000) r.input.length).zip (r.input.map (·.2))
    window := s.peek c t (o + 0x3000) r.window.length }
  if s.peekBad c t (o + 0x1000) r.input.length || s.peekBad c t (o + 0x3000) r.window.length then r'.cutOff 9 else r'

/-- A selection's limit goes on from its saved frame (R313, R122). -/
def resumeSel (s : State) (t : Fin 144) (c : CopyCmd) : CopyCmd :=
  match c.run with
  | some r => { c with run := some { r with sel := r.sel.map fun v => { v with
      frame := { v.frame with resumed := true
                              limit := State.limitOf { s with cur := { s.cur with tile := t } } v.frame.wall v.frame.t v.frame.stamp v.frame.budget } } } }
  | none => c

/-- The tile holds its saved task again (R413 to R415, R421). -/
def restored (s : State) (t : Fin 144) (k : Task) (v : Saved) : State :=
  let c := k.ctx
  let old := s.tileAt t
  let same := old.sched.lastCtx = some c
  let s := (s.clearTile t).touchRecord c t
  let bits := s.peek c t 0x98000 0x4000
  let tags := (bits.zip (List.range bits.length)).flatMap fun b =>
    (List.range 8).filterMap fun i => if b.1.getLsbD i then some (b.2 * 8 + i) else none
  let vs := (List.range 384).map fun n => BitVec.ofNat 2048 (leNat (s.peek c t (0x2000 + 256 * n) 256))
  let sts := Vector.ofFn fun (i : Fin 8) => s.pullStream c t i.val (v.tile.eng.sts.get i)
  let wheel := match s.liveAt k.slot with | some l => wheelWord l t | none => 0
  let tl : Tile := { v.tile with
    regs := { v.tile.regs with v := Vector.ofFn fun i => vs.getD i.val 0, byp := .replicate 8 [] }
    sys := { v.tile.sys with
      syncwin := (s.ctx c).entry.get 4 &&& 0x3FFFFFFF1FFF7FFF, wheel, ctx := c, dlmax := old.sys.dlmax
      esclim := old.sys.esclim, rank := BitVec.ofNat 8 t.val, stop := false, stop0 := false }
    streams := v.tile.streams.map fun st => st.map fun st => { st with stopped := false, readyAt := s.now }
    tags := tags, tagPend := []
    eng := { v.tile.eng with sts }
    sched := { old.sched with task := some k, tail := some k, job := .none, resident := true, lastCtx := some c, reqAt := none
                              ticking := v.tile.streams.toList.any fun st => match st with
                                | some st => st.park.isSome
                                | none => false
                              parkSeq := v.tile.sched.parkSeq }
    ibuf := if same then old.ibuf else [], fills := if same then old.fills else [], tlb := if same then old.tlb else []
    wheelSent := old.wheelSent, vused := .replicate 8 0 }
  let s := (s.setTile t tl).pullAll c t
  let s := s.modTile t fun tl => { tl with
    eng := { tl.eng with cq := tl.eng.cq.map fun q => q.map fun x => s.resumeSel t x } }
  let s := { s with
    marks := v.marks ++ s.marks
    saved := s.saved.filter fun x => !(x.rank == t && x.tile.sys.ctx == c) }
  let s := (List.finRange 4).foldl (fun s g => match (s.tileAt t).streams.get g with
    | some st => match st.jump with | some a => s.gotoGroup t g a | none => s
    | none => s) s
  s.modAcct c fun a => { a with restores := satAdd 32 a.restores 1, saved := a.saved - 1 }

end State

/-- RESTORE_COMPLETE (R415): the task runs on; a restore whose translation fails stalls and retries (R418). A task restored
while the device enters Hold is stopped again (R420). -/
def execRestoreComplete (t : Fin 144) (s : State) : Host.Outcome State Fault Refusal :=
  let y := (s.tileAt t).sched
  match y.job, y.task with
  | .restore due last, some k =>
    if due = 0 ∨ s.now < due ∨ s.lingers t then .next s
    else match s.saved.find? fun v => v.rank == t && v.tile.sys.ctx == k.ctx with
      | none => .next s
      | some v => match s.pagesReadable k.ctx t with
        | some (p, cause, lv, a) =>
          let s := if last = some (cause, a) then s else s.saveReport t cause lv 2 (BitVec.ofNat 64 a) p 3
          .next (s.modSched t fun y => { y with job := .restoreStalled (some (cause, a)) (s.clk.wclock + 100000) })
        | none =>
          let s := (s.startSlice t k.ctx).restored t k v
          .next (match s.hold.power with
            | .entering => s.stopTile t
            | _ => s)
  | _, _ => .next s

end Sys2Proof.Machine
end

