-- ==== Sys2Proof/Machine/Tier.lean ====
section
/-! DEFINITION. Invalidation of cached translations, the hot-page tracker and the migration engine (chapters 09 and 16:
R204, R328 to R331). -/

namespace Sys2Proof.Machine

/-! ### Invalidation (R204) -/

/-- What an invalidation drops from the caches of leaves and from the walk caches. -/
inductive Scope
  | page (va : Nat)
  | all
  | leaf (at_ : Nat)

/-- Does a cached leaf fall under an invalidation? -/
def Scope.dropsLeaf (x : Scope) (c : Fin 64) (e : TlbEntry) : Bool :=
  match x with
  | .page va => e.serves c va
  | .all => e.ctx == c
  | .leaf a => e.ctx == c && e.at_ == a

/-- Does an entry of a walk cache fall under an invalidation? -/
def Scope.dropsTable (x : Scope) (c : Fin 64) (e : TlbEntry) : Bool :=
  match x with
  | .page va => e.ctx == c && decide (e.va ≤ va) && decide (va < e.va + tableSpan e.level)
  | _ => e.ctx == c

/-- Translations of the bundle in hand that fall under an invalidation must be obtained again. -/
def Scope.dropsXlat (x : Scope) (c : Fin 64) (e : Xlat) : Bool :=
  match e.out with
  | some (.leaf w lv a) => x.dropsLeaf c (tlbOf c e.va w lv a)
  | _ => false

namespace State

/-- A stream with the translations that an invalidation drops to be obtained again. -/
def dropXlat (x : Scope) (c : Fin 64) (st : Stream) : Stream :=
  { st with xlat := st.xlat.map fun e => if x.dropsXlat c e then { e with out := none } else e }

/-- An invalidation starts: every matching entry leaves the caches, those of a tile that now runs another context too, and the
accesses of the context that are still on their way must be performed before it ends (R204). It takes at most 20,000
ticks, so they reach their homes within 20,000 cycles. -/
def startInval (s : State) (c : Fin 64) (x : Scope) (leaf : Option Nat) : State :=
  let d := s.draw 1 20000
  let s := d.2
  let accs := (s.net.accs.filter fun a => a.ctx == c && a.space == 0 && !a.performed).map fun a => a.id
  { s with
    tiles := s.tiles.map fun tl => { tl with
      tlb := tl.tlb.filter fun e => !x.dropsLeaf c e
      streams := if tl.sys.ctx = c then tl.streams.map fun st => st.map (dropXlat x c) else tl.streams }
    net := { s.net with
      accs := s.net.accs.map fun (a : Access) =>
        if accs.contains a.id then { a with arrive := Nat.min a.arrive (s.now + 20000) } else a }
    dev := { s.dev with
      clusterTlb := s.dev.clusterTlb.map fun l => l.filter fun e => !x.dropsLeaf c e
      walkCache := s.dev.walkCache.map fun l => l.filter fun e => !x.dropsTable c e
      invals := s.dev.invals ++ [⟨c, s.now, s.now + d.1, accs, leaf⟩] } }

/-- Is a SCATOM of a context still to be performed whose translation is older than a cycle (R204, R351)? -/
def oldScatom (s : State) (c : Fin 64) (since : Nat) : Bool :=
  (s.tiles.toList.any fun tl => tl.sys.ctx == c && tl.streams.toList.any fun st =>
    match st.bind fun st => st.wait with
    | some wt => decide (wt.since ≤ since) && wt.dec.isNone && (match wt.ins with | .scatom .. => true | _ => false)
        && wt.args.getD 0 0 == 0
    | none => false)

/-- Has a window of a context still to be read whose translation is older than a cycle (R204, R307)? -/
def oldWindow (s : State) (c : Fin 64) (since : Nat) : Bool :=
  (List.finRange 144).any fun t => (s.tileAt t).sys.ctx == c
    && (s.selsOf t).any fun v => v.out.any fun p => !p.made && decide (p.at_ ≤ since)

/-- May an invalidation end now (R204)? Those of one page's migrations end in their order, so that the frame which an earlier one
left forwards no longer than it must (R330). -/
def invalDone (s : State) (i : Inval) : Bool :=
  (i.leaf.isNone || (s.dev.invals.find? fun j => j.leaf == i.leaf) == some i) && decide (i.earliest ≤ s.now)
    && (s.net.accs.all fun a => a.performed || !i.accs.contains a.id) && !s.oldScatom i.ctx i.since && !s.oldWindow i.ctx i.since

end State

/-- INVALIDATE_PAGE (R197, R204): IGO with IKIND 1. -/
def execInvalidatePage (c : Fin 64) (va : Nat) (s : State) : Host.Outcome State Fault Refusal :=
  .next <| if (s.ctx c).tcb.ibusy then s
    else (s.startInval c (.page (va / 2 ^ 16 * 2 ^ 16)) none).modCtx c fun x => { x with tcb := { x.tcb with ibusy := true } }

/-- INVALIDATE_CONTEXT (R197, R204): IGO with IKIND 2. -/
def execInvalidateContext (c : Fin 64) (s : State) : Host.Outcome State Fault Refusal :=
  .next <| if (s.ctx c).tcb.ibusy then s
    else (s.startInval c .all none).modCtx c fun x => { x with tcb := { x.tcb with ibusy := true } }

/-! ### The rings of free frames (R329) -/

namespace State

/-- Change the control block of the hot-page tracker. -/
def modHot (s : State) (f : Hot → Hot) : State := { s with dev := { s.dev with hot := f s.dev.hot } }

/-- The address of entry `i` of a ring: FREEL when `low`, else FREEH. -/
def ringKey (s : State) (low : Bool) (i : Nat) : Nat :=
  let h := s.dev.hot
  (if low then h.freeL else h.freeH).toNat / 4096 * 4096 + 8 * (i % 512)

/-- Does a ring hold a frame? -/
def ringHas (s : State) (low : Bool) : Bool :=
  let h := s.dev.hot
  if low then h.headL != h.tailL else h.headH != h.tailH

/-- A frame taken from a ring. -/
def takeFrame (s : State) (low : Bool) : Nat × State :=
  let h := s.dev.hot
  let a := s.ringKey low (if low then h.tailL else h.tailH).toNat
  let r := if physOk a then s.homeRead a 8 2 else (s, (s.tableWord a).toNat, false)
  (r.2.1 / 2 ^ 16 * 2 ^ 16,
    r.1.modHot fun h => if low then { h with tailL := h.tailL + 1 } else { h with tailH := h.tailH + 1 })

/-- A frame returned to a ring: the consumer index steps back over it (log 3). -/
def returnFrame (s : State) (low : Bool) (frame : Nat) : State :=
  let s := s.modHot fun h => if low then { h with tailL := h.tailL - 1 } else { h with tailH := h.tailH - 1 }
  let h := s.dev.hot
  let a := s.ringKey low (if low then h.tailL else h.tailH).toNat
  if physOk a then s.homeWrite a 8 2 frame false else s

/-! ### Copying a frame (R330) -/

end State

/-- Keys of a range carried over to another place. -/
def carry (a n b : Nat) (l : List Nat) : List Nat :=
  (l.filter fun m => decide (a ≤ m) && decide (m < a + n)).map (fun m => b + (m - a))
    ++ l.filter fun m => !(decide (b ≤ m) && decide (m < b + n))

/-- A leaf with another MIG field (R199). -/
def withMig (e : Word) (m : Nat) : Word := (e &&& ~~~(0x1800 : Word)) ||| BitVec.ofNat 64 (m * 2 ^ 11)

/-- A leaf that maps a new frame of a tier, with MIG 0b00 (R330). -/
def leafTo (e : Word) (frame tier : Nat) : Word :=
  (e &&& ~~~(0x000FFFFFFFFF1900 : Word)) ||| BitVec.ofNat 64 (frame + tier * 2 ^ 8)

/-- An entry of a line carried over to another line. -/
def carryLine (a b : Nat) (l : List (Nat × Nat)) : List (Nat × Nat) :=
  ((l.filter fun e => e.1 == a).map fun e => (b, e.2)) ++ l.filter fun e => e.1 != b

namespace State

/-- One line with its data, marks, metadata and grade copied to a new frame (R330, R436); nowhere when that frame lies outside
the physical ranges (DESIGN CHOICE, log 99). -/
def copyLine (s : State) (a b : Nat) : State :=
  if !physOk b then s else { s with
    mem := Memory.writeN s.mem b 64 (Memory.readN s.mem a 64)
    marks := carry (metaBase + a / 64 * 64) 64 (metaBase + b / 64 * 64) (carry a 64 b s.marks)
    lineMeta := carryLine (a / 64) (b / 64) s.lineMeta
    grades := carryLine (a / 64) (b / 64) s.grades }

/-- Replace migration `i`. -/
def setMigration (s : State) (i : Nat) (m : Migration) : State :=
  { s with dev := { s.dev with migrations := s.dev.migrations.set i m } }

/-- Lines, by number, are read at the old home with their dirty bits cleared, and written to the new frame (R330); queued
reductions apply first (R322). -/
def copyLines (s : State) (i : Nat) (m : Migration) (lines : List Nat) : State :=
  let s := lines.foldl (fun s n => s.settleLine (n * 64) 64) s
  let s := s.setMigration i { (s.dev.migrations[i]?.getD m) with dirty := [] }
  lines.foldl (fun s n => s.copyLine (n * 64) (m.new + (n * 64 - m.old))) s

/-- Migration `i` is abandoned: MIG returns to 0b00 unless software wrote the leaf, and the new frame goes back to its
ring (R329, R330). -/
def abandon (s : State) (i : Nat) (m : Migration) : State :=
  let s := s.settleLine m.leaf 8
  let s := if s.load64 m.leaf = withMig m.leaf0 1 then s.homeWrite m.leaf 8 2 (withMig m.leaf0 0).toNat false else s
  let s := { s with dev := { s.dev with migrations := s.dev.migrations.eraseIdx i } }
  (s.returnFrame (m.tier == 1) m.new).modHot fun h => { h with abandon := min (h.abandon + 1) (2 ^ 32 - 1) }

/-- The switch of migration `i` (R330): the lines still dirty, the leaf, and the invalidation; the old home forwards until
that has ended. -/
def switch (s : State) (i : Nat) (m : Migration) : State :=
  if 32 < m.dirty.length then s.abandon i m
  else
    let s := (s.copyLines i m m.dirty).settleLine m.leaf 8
    if s.load64 m.leaf ≠ withMig m.leaf0 1 then s.abandon i m
    else
      let e := leafTo m.leaf0 m.new m.tier
      let s := s.homeWrite m.leaf 8 2 e.toNat false
      let s := s.setMigration i { m with dirty := [], switching := true }
      let s := s.modHot fun h => { h with done := min (h.done + 1) (2 ^ 32 - 1) }
      s.startInval m.ctx (.leaf m.leaf) (some m.leaf)

/-- The invalidation of a switched migration has ended: forwarding stops and the old frame returns to the ring of its
tier (R330). -/
def endMigration (s : State) (leaf : Nat) : State :=
  match s.dev.migrations.find? fun m => m.switching && m.leaf == leaf with
  | some m =>
    let s := { s with dev := { s.dev with migrations := s.dev.migrations.erase m } }
    s.returnFrame (m.tier == 0) m.old
  | none => s

/-- May migrations start: the device is neither in Hold nor entering it (R419)? -/
def mayMigrate (s : State) : Bool := match s.hold.power with | .running | .leaving => s.hold.nominal | _ => false

/-- The first posted page whose ring holds a frame; promotions wait while EN is clear (R329). -/
def nextPosted (s : State) : Option (Nat × Fin 64 × Bool) :=
  s.dev.hot.posted.find? fun p => if p.2.2 then s.dev.hot.en && s.ringHas false else s.ringHas true

end State

/-- HOT_PAGE_HALVING (R329): every 2^HALF µs of wall clock all counts are halved; the tracker pauses in Hold (R419). -/
def execHotPageHalving (s : State) : Host.Outcome State Fault Refusal :=
  .next <| match s.hold.power with
    | .held => s
    | _ =>
      if s.clk.wclock < s.dev.hot.halfAt then s
      else s.modHot fun h => { h with
        counts := (h.counts.map fun e => (e.1, e.2.1, e.2.2 / 2)).filter fun e => e.2.2 != 0
        halfAt := s.clk.wclock + 2 ^ h.half.toNat * 1000 }

/-- MIGRATION_START (R329, R330): the next posted page whose ring holds a frame is marked copying, and pass 1 copies all of
its lines; an ineligible one is skipped and counted. At most four migrate at once. -/
def execMigrationStart (s : State) : Host.Outcome State Fault Refusal :=
  .next <| if !s.mayMigrate || decide (4 ≤ s.dev.migrations.length) then s
    else match s.nextPosted with
    | none => s
    | some p =>
      let s := s.modHot fun h => { h with posted := h.posted.erase p }
      let s := s.settleLine p.1 8
      let e := s.load64 p.1
      if !(s.candidate p.1 && e.getLsbD 8 == p.2.2) then
        s.modHot fun h => { h with skips := min (h.skips + 1) (2 ^ 32 - 1) }
      else
        let f := s.takeFrame (!p.2.2)
        let s := f.2.homeWrite p.1 8 2 (withMig e 1).toNat false
        let d := s.drawFrom 1
        let m : Migration :=
          { leaf := p.1, ctx := p.2.1, leaf0 := e, old := frameOf e, new := f.1, tier := if p.2.2 then 0 else 1, pass := 1
            dirty := [], switching := false, due := d.2.now + d.1 }
        let s := { d.2 with dev := { d.2.dev with migrations := d.2.dev.migrations ++ [m] } }
        s.copyLines (s.dev.migrations.length - 1) m ((List.range 1024).map (· + m.old / 64))

/-- MIGRATION_SWITCH (R330): after each pass, the next pass over the lines dirtied meanwhile, the switch when none is, or
the end of the attempt after three. -/
def execMigrationSwitch (i : Fin 4) (s : State) : Host.Outcome State Fault Refusal :=
  .next <| match s.dev.migrations[i.val]? with
    | none => s
    | some m =>
      if m.switching ∨ s.now < m.due then s
      else if m.pass = 4 then s.switch i.val m
      else
        let d := s.drawFrom 1
        let s := d.2
        if m.dirty.isEmpty then s.setMigration i.val { m with pass := 4, due := s.now + d.1 }
        else if m.pass = 3 then s.abandon i.val m
        else s.copyLines i.val m m.dirty |>.setMigration i.val
          { m with pass := m.pass + 1, dirty := [], due := s.now + d.1 }

/-- INVALIDATION_COMPLETE (R204): the invalidations of a context whose accesses are done end. IBUSY clears, stalled saves
and restores of the context retry (R417), and a switched migration frees its old frame (R330). -/
def execInvalidationComplete (c : Fin 64) (s : State) : Host.Outcome State Fault Refusal :=
  let ended := s.dev.invals.filter fun i => i.ctx == c && s.invalDone i
  .next <| if ended.isEmpty then s
    else
      let s := { s with dev := { s.dev with invals := s.dev.invals.filter fun i => !ended.contains i } }
      let s := ended.foldl (fun s i => match i.leaf with
        | some a => s.endMigration a
        | none => s.modCtx c fun x => { x with tcb := { x.tcb with ibusy := false } }) s
      { s with tiles := s.tiles.map fun tl => match tl.sched.task with
        | some k =>
          if k.ctx = c then
            { tl with sched := { tl.sched with job := match tl.sched.job with
              | .saveStalled cur last _ => .save 0 cur last
              | .restoreStalled last _ => .restore 0 last
              | j => j } }
          else tl
        | none => tl }

end Sys2Proof.Machine
end

