-- ==== Sys2Proof/Machine/Registers.lean ====
section
/-! DEFINITION. The device registers: what each offset of space 0x5 reads, and what a write to it does (R10, R11, R26, R33,
R83 to R85, R188, R197, R329, R393, R422, R429, R433, R435). -/

namespace Sys2Proof.Machine

/-! ### The capability list (R23 to R26, R422, R433) -/

/-- An entry of the list: its header and its body, padded to the start of the next (R23, R433). -/
def capEntry (ident len next : Nat) (body : List Byte) : List Byte :=
  leBytes 4 ident ++ leBytes 2 0x100 ++ leBytes 2 len ++ leBytes 4 next ++ body
    ++ List.replicate ((8 - len % 8) % 8) 0

/-- The bytes of the capability list (R26, R433). -/
def capBytes : List Byte :=
  capEntry 0x001 24 0x18 (leBytes 2 144 ++ [Config.stepping, 0] ++ leBytes 4 Config.lpcapGiB.val ++ leBytes 2 144
    ++ leBytes 2 0)
  ++ capEntry 0x101 16 0x28 (leBytes 2 64 ++ leBytes 2 64)
  ++ capEntry 0x201 20 0x40 (leBytes 2 256 ++ leBytes 2 16384 ++ leBytes 2 64 ++ leBytes 2 0)
  ++ capEntry 0x202 16 0x50 (leBytes 2 4096 ++ [0x07, 8])
  ++ capEntry 0x301 20 0x68 ([16, 1] ++ leBytes 2 800 ++ leBytes 2 4096 ++ leBytes 2 0)
  ++ capEntry 0x401 20 0x80 (leBytes 2 2000 ++ leBytes 2 3000 ++ leBytes 2 80 ++ leBytes 2 0)
  ++ capEntry 0x501 16 0 ([0xFE, 0x0F] ++ leBytes 2 0)

/-! ### What the registers read -/

/-- The context of a block of 64-byte units. -/
def unit64 (off base : Nat) : Fin 64 := Fin.ofNat 64 ((off - base) / 64)

namespace State

/-- A word of a launch slot (R85). -/
def slotWord (s : State) (off : Nat) : Word :=
  let sl := s.slots.get (Fin.ofNat 16 ((off - 0x10000) / 64))
  match off % 64 / 8 with
  | 6 => sl.status.zeroExtend 64
  | 7 => 0
  | i => sl.words.toList.getD i 0

/-- A word of a translation control block (R197). -/
def tcbWord (s : State) (off : Nat) : Word :=
  let b := (s.ctx (unit64 off 0x30000)).tcb
  BitVec.ofNat 64 <| match off % 64 / 8 with
  | 0 => (if b.rv then 1 else 0) + b.root.toNat * 2 ^ 16
  | 1 => b.ikind.toNat + b.iva.toNat * 2 ^ 16
  | 2 => if b.ibusy then 2 else 0
  | 3 => b.vbase.toNat + b.vlen.toNat * 2 ^ 8
  | _ => 0

/-- A word of the control block of the hot-page tracker (R329). -/
def hotWord (s : State) (off : Nat) : Word :=
  let h := s.dev.hot
  BitVec.ofNat 64 <| match off % 64 / 8 with
  | 0 => (if h.en then 1 else 0) + h.hot.toNat * 2 ^ 16 + h.half.toNat * 2 ^ 32
  | 1 => h.freeH.toNat
  | 2 => h.freeL.toNat
  | 3 => h.headH.toNat + h.headL.toNat * 2 ^ 16
  | 4 => h.tailH.toNat + h.tailL.toNat * 2 ^ 16
  | 5 => h.skips * 2 ^ 32
  | 6 => h.done + h.abandon * 2 ^ 32
  | _ => 0

/-- A word of a resume block (R393). -/
def resumeWord (s : State) (off : Nat) : Word :=
  let b := (s.ctx (unit64 off 0x50000)).resume
  match off % 64 / 8 with
  | 0 => b.token
  | 1 => BitVec.ofNat 64 (b.form.toNat + b.reg.val * 2 ^ 8)
  | 2 => b.value
  | 3 => BitVec.ofNat 64 (b.result.toNat * 2 + if b.fqfail then 8 else 0)
  | _ => 0

/-- A word of an accounting block (R429). -/
def acctWord (s : State) (off : Nat) : Word :=
  let a := (s.ctx (unit64 off 0x60000)).account
  BitVec.ofNat 64 <| match off % 64 / 8 with
  | 0 => (if a.kbusy.isSome then 2 else 0) + if a.dfail then 4 else 0
  | 1 => a.busy
  | 2 => a.slices + a.stops * 2 ^ 32
  | 3 => a.overrun
  | 4 => a.saves + a.restores * 2 ^ 32
  | 5 => a.retired + a.killed * 2 ^ 32
  | 6 => a.saved
  | _ => 0

/-- A word of an image-table entry (R33). -/
def imageWord (s : State) (off : Nat) : Word :=
  let e := (s.ctx (Fin.ofNat 64 ((off - 0x70000) / 1024))).images.get (Fin.ofNat 64 (off % 1024 / 16))
  BitVec.ofNat 64 <|
    if off % 16 / 8 = 0 then e.off.toNat % 2 ^ 32 + e.len.toNat % 2 ^ 32 * 2 ^ 32
    else e.gen.toNat + if e.v then 2 ^ 16 else 0

/-- The 64-bit word at an 8-byte aligned device-register offset; an offset that no block holds reads as zero (R435). -/
def devLoad (s : State) (off : Nat) : Word :=
  if off < 0x90 then BitVec.ofNat 64 (leNat ((capBytes.drop off).take 8))
  else if 0x10000 ≤ off ∧ off < 0x10400 then s.slotWord off
  else if 0x20000 ≤ off ∧ off < 0x22000 then
    (s.ctx (Fin.ofNat 64 ((off - 0x20000) / 128))).entry.get (Fin.ofNat 16 (off % 128 / 8))
  else if 0x30000 ≤ off ∧ off < 0x31000 then s.tcbWord off
  else if 0x40000 ≤ off ∧ off < 0x40038 then s.hotWord off
  else if 0x50000 ≤ off ∧ off < 0x51000 then s.resumeWord off
  else if 0x60000 ≤ off ∧ off < 0x61000 then s.acctWord off
  else if 0x70000 ≤ off ∧ off < 0x80000 then s.imageWord off
  else if off = 0x80000 then s.dev.limit.zeroExtend 64
  else 0

/-! ### Context entries (R83, R84) -/

end State

/-- The fields of a word of a context entry that may be written (R83, R100, R324, R412). -/
def entryMask (i : Nat) : Word :=
  match i with
  | 0 => 0x000000FFFFFFFF07
  | 3 => 0xFFFF
  | 4 => 0x3FFFFFFF1FFF7FFF
  | 5 => 0x000001FFFFFFFFFF
  | 8 => 0xF00FFFFFFFFFFFFF
  | 9 => 0x0FFFFFFFFFFFFFFF
  | 1 | 2 | 6 | 7 | 10 => 0xFFFFFFFFFFFFFFFF
  | _ => 0

/-- The bits of a word replaced under a mask. -/
def masked (m old new : Word) : Word := (old &&& ~~~m) ||| (new &&& m)

namespace State

/-- Has a context a live launch? -/
def hasLive (s : State) (c : Fin 64) : Bool := (List.finRange 16).any fun n => (s.liveAt n).any fun l => l.ctx == c

/-- The counters of an accounting block cleared (R429). -/
def clearCounters (a : Account) : Account :=
  { a with busy := 0, slices := 0, stops := 0, overrun := 0, saves := 0, restores := 0, retired := 0, killed := 0 }

/-- A context becomes valid: its CLASS and SLICE hold from now on, until a tile's selection finds new ones (R84). -/
def showEntry (s : State) (c : Fin 64) : State :=
  { s with tiles := s.tiles.map fun (tl : Tile) => { tl with
      sched := { tl.sched with view := tl.sched.view.set c.val (some (s.classOf c, s.sliceOf c)) } } }

/-- A word of a context entry written (R84, R416, R429): with a live launch only CLASS and SLICE. -/
def entryStore (s : State) (c : Fin 64) (i : Fin 16) (v : Word) : State :=
  let old := (s.ctx c).entry.get i
  if s.hasLive c then
    if i = 0 then s.modCtx c fun x => { x with entry := upd x.entry 0 (masked 0x000000FFFFFFFF06 old v) } else s
  else
    let s := s.modCtx c fun x => { x with entry := upd x.entry i (masked (entryMask i.val) old v) }
    if i = 0 ∧ !old.getLsbD 0 ∧ v.getLsbD 0 then (s.modAcct c clearCounters).showEntry c
    else if i = 8 ∧ (List.finRange 144).all fun t => !s.inTiles c t.val || (s.areaReason c t).isNone then
      s.modCtx c fun x => { x with noSave := false }
    else s

/-! ### Writes to the other blocks -/

/-- A word of a launch slot written (R85, R86). -/
def slotStore (s : State) (off : Nat) (v : Word) : State :=
  let n : Fin 16 := Fin.ofNat 16 ((off - 0x10000) / 64)
  let sl := s.slots.get n
  let put (i : Fin 8) (m : Word) : State :=
    if sl.status = 1 then s
      else { s with slots := upd s.slots n { sl with words := upd sl.words i (masked m 0 v) } }
  match off % 64 / 8 with
  | 0 => put 0 0x0000003FFFFFFFFF
  | 1 => put 1 0xFF
  | 2 => put 2 0xFFFFFFFFFFFFFFFF
  | 3 => put 3 0xFFFFFFFFFFFFFFFF
  | 4 => put 4 0xFFFFFFFFFFFFFFFF
  | 7 => if v.getLsbD 0 then s.go n else s
  | _ => s

/-- Change the translation control block of a context. -/
def modTcb (s : State) (c : Fin 64) (f : Tcb → Tcb) : State := s.modCtx c fun x => { x with tcb := f x.tcb }

/-- A word of a translation control block written (R197). -/
def tcbStore (s : State) (off : Nat) (v : Word) : State :=
  let c := unit64 off 0x30000
  let b := (s.ctx c).tcb
  match off % 64 / 8 with
  | 0 => if s.hasLive c then s else s.modTcb c fun b => { b with rv := v.getLsbD 0, root := fld v 16 36 }
  | 1 => s.modTcb c fun b => { b with ikind := fld v 0 4, iva := fld v 16 36 }
  | 2 =>
    if !v.getLsbD 0 || b.ibusy then s
    else if b.ikind = 1 then
      (s.startInval c (.page (b.iva.toNat * 2 ^ 16)) none).modTcb c fun b => { b with ibusy := true }
    else if b.ikind = 2 then (s.startInval c .all none).modTcb c fun b => { b with ibusy := true }
    else s
  | 3 => if s.hasLive c then s else s.modTcb c fun b => { b with vbase := fld v 0 7, vlen := fld v 8 7 }
  | _ => s

/-- DEMOTE as one 64-bit value (R329). -/
def demote (s : State) (v : Word) : State :=
  s.modHot fun h => { h with posted := h.posted ++ [(v.toNat / 64 * 64, (fld v 0 6).toFin, false)] }

/-- A word of the control block of the hot-page tracker written (R329). DEMOTE straddles two words: its low half is kept
until the high half is written (log 3). -/
def hotStore (s : State) (off : Nat) (v : Word) : State :=
  match off % 64 / 8 with
  | 0 => s.modHot fun h => { h with en := v.getLsbD 0, hot := fld v 16 16, half := fld v 32 5 }
  | 1 => s.modHot fun h => { h with freeH := v }
  | 2 => s.modHot fun h => { h with freeL := v }
  | 3 => s.modHot fun h => { h with headH := fld v 0 10, headL := fld v 16 10 }
  | 4 => s.modHot fun h => { h with demoteLo := fld v 32 32 }
  | 5 => s.demote (fld v 0 32 ++ s.dev.hot.demoteLo)
  | _ => s

/-- Change the resume block of a context. -/
def modResume (s : State) (c : Fin 64) (f : ResumeBlock → ResumeBlock) : State :=
  s.modCtx c fun x => { x with resume := f x.resume }

/-- A word of a resume block written (R393): GO posts what the block holds, and RESULT is pending until the coordinator
applies it (R396; log 91). -/
def resumeStore (s : State) (off : Nat) (v : Word) : State :=
  let c := unit64 off 0x50000
  match off % 64 / 8 with
  | 0 => s.modResume c fun b => { b with token := v }
  | 1 => s.modResume c fun b => { b with form := fld v 0 4, reg := (fld v 8 6).toFin }
  | 2 => s.modResume c fun b => { b with value := v }
  | 3 =>
    let s := if v.getLsbD 3 then s.modResume c fun b => { b with fqfail := false } else s
    if v.getLsbD 0 then
      let s := s.setResult c 1
      { s with dev := { s.dev with posts := s.dev.posts ++ [(c, (s.ctx c).resume)] } }
    else s
  | _ => s

/-- A word of an accounting block written (R429). -/
def acctStore (s : State) (off : Nat) (v : Word) : State :=
  let c := unit64 off 0x60000
  if off % 64 / 8 = 0 then
    let s := if v.getLsbD 2 then s.modAcct c fun a => { a with dfail := false } else s
    if v.getLsbD 0 then s.killContext c else s
  else s

/-- A word of an image-table entry written (R33, R34): clearing V discards the lines of its range. -/
def imageStore (s : State) (off : Nat) (v : Word) : State :=
  let c : Fin 64 := Fin.ofNat 64 ((off - 0x70000) / 1024)
  let i : Fin 64 := Fin.ofNat 64 (off % 1024 / 16)
  let e := (s.ctx c).images.get i
  if off % 16 / 8 = 0 then
    s.modImage c i fun e => { e with
      off := (fld v 0 32).zeroExtend 64, len := (fld v 32 32).zeroExtend 64
      image := e.image.map fun m => { m with off := (fld v 0 32).toNat, len := (fld v 32 32).toNat } }
  else
    let s := s.modImage c i fun e => { e with
      gen := fld v 0 16, v := v.getLsbD 16, image := e.image.map fun m => { m with gen := fld v 0 16 } }
    if e.v && !v.getLsbD 16 then s.dropLines c e.off.toNat e.len.toNat else s

/-- A 64-bit write at a device-register offset (R10, R435): reserved and read-only fields, and offsets that no block holds,
ignore it. -/
def devStore (s : State) (off : Nat) (v : Word) : State :=
  if 0x10000 ≤ off ∧ off < 0x10400 then s.slotStore off v
  else if 0x20000 ≤ off ∧ off < 0x22000 then
    s.entryStore (Fin.ofNat 64 ((off - 0x20000) / 128)) (Fin.ofNat 16 (off % 128 / 8)) v
  else if 0x30000 ≤ off ∧ off < 0x31000 then s.tcbStore off v
  else if off = 0x40024 then s.demote v
  else if 0x40000 ≤ off ∧ off < 0x40038 then s.hotStore off v
  else if 0x50000 ≤ off ∧ off < 0x51000 then s.resumeStore off v
  else if 0x60000 ≤ off ∧ off < 0x61000 then s.acctStore off v
  else if 0x70000 ≤ off ∧ off < 0x80000 then s.imageStore off v
  else if off = 0x80000 then { s with dev := { s.dev with limit := limitValue v } }
  else s

end State

/-- CONTEXT_ENTRY_WRITE (R84, R429). -/
def execContextEntryWrite (c : Fin 64) (i : Fin 16) (v : Word) (s : State) : Host.Outcome State Fault Refusal :=
  .next (s.entryStore c i v)

/-- DEMOTE (R329): a demotion is posted of the leaf at the address that bits [63:6] give, for the context in [5:0]
(log 3). -/
def execDemote (v : Word) (s : State) : Host.Outcome State Fault Refusal := .next (s.demote v)

/-- REGISTER_WRITE (R10): a write by system software at a device-register offset. -/
def execRegisterWrite (off : Nat) (v : Word) (s : State) : Host.Outcome State Fault Refusal := .next (s.devStore off v)

end Sys2Proof.Machine
end

