-- ==== Sys2Proof/Machine/Manage.lean ====
section
/-! DEFINITION. The management port, and Hold: entry, the kill deadline, power-down and exit (chapters 04 and 25: R107 to
R109, R205, R419 to R421); power-on reset (R10, R23, R110). -/

namespace Sys2Proof.Machine

/-! ### Entering Hold (R419) -/

namespace State

/-- Every migration that has not switched is abandoned (R419). -/
def abandonAll (s : State) : State :=
  (s.dev.migrations.filter fun m => !m.switching).foldl (fun s m =>
    match s.dev.migrations.findIdx? fun x => x.leaf == m.leaf && !x.switching with
    | some i => s.abandon i (s.dev.migrations[i]?.getD m)
    | none => s) s

/-- A restore that has not started is given up: its task stays saved (R420). -/
def unrestore (y : Sched) : Sched :=
  match y.job with
  | .restore 0 _ | .restoreStalled .. => { y with job := .none, task := none }
  | _ => y

/-- The trigger of Hold entry (R419, R420): the interrupt, a stop request to every running tile, and the end of
migrations that still copy. -/
def enterHold (s : State) : State :=
  let s := { s with
    hold := { s.hold with power := .entering, trigger := s.clk.wclock, exitAsked := false }
    tiles := s.tiles.map fun (tl : Tile) => { tl with sched := unrestore tl.sched } }
  let s := (s.irq 255).abandonAll
  (List.finRange 144).foldl (fun s t => s.stopTile t) s

/-- May a trigger start an entry now: the device runs, or is leaving Hold (R420)? -/
def mayEnter (s : State) : Bool := match s.hold.power with | .running | .leaving => true | _ => false

/-- Hold exit starts: memories return to nominal within 1,000 µs (R420). -/
def startExit (s : State) : State :=
  let d := s.draw 1 1000000
  { d.2 with hold := { d.2.hold with power := .leaving, exitAsked := false, exitAt := s.clk.wclock + d.1 } }

/-- The page at which a save in hand stands (R418). -/
def cursorOf (j : Job) : Nat := match j with | .save _ cur _ | .saveStalled cur _ _ => pageOf cur | _ => 0

/-- A task that is not saved by the deadline is killed and reported (R419, R418). -/
def holdKill (s : State) (t : Fin 144) : State :=
  let y := (s.tileAt t).sched
  match y.task with
  | some k =>
    if y.killed then s
    else
      let s := s.saveReport t 0 0 3 (s.recordPtr k.ctx t 0) (cursorOf y.job) 4
      s.killTask t k
  | none => s

/-- A peer port goes down: what is unanswered is reported NOLINK and its sequence state goes (R325, R327). -/
def dropPort (s : State) (p : Fin 16) : State :=
  let pt := s.ports.get p
  let s := s.setPort p { Port.reset with out := pt.out, wire := pt.wire }
  pt.unanswered.foldl (fun s o =>
    let s := s.peerReport o.owner o.ctx o.tile o.slot o.pc (peerAccess o.msg.ty o.cmd.isSome) o.index 2
      (BitVec.ofNat 64 (6 * 2 ^ 60 + o.index * 2 ^ 52 + o.msg.addr))
    match o.access with
    | some i => s.dropAcc i
    | none => s) s

/-- Every restore that Hold owes is done, so the device runs (R420). -/
def settleHold (s : State) : State :=
  match s.hold.power with
  | .leaving =>
    if s.hold.nominal && !(s.saved.any fun v => v.byHold) then { s with hold := { s.hold with power := .running } } else s
  | _ => s

/-- Posts held during Hold are checked, slot by slot (R420). -/
def heldPosts (s : State) : State :=
  (List.finRange 16).foldl (fun s n =>
    if (s.slots.get n).held then { s with slots := upd s.slots n { s.slots.get n with held := false } }.post n else s) s

/-- Every tile that held a task at entry is to restore it (R420). -/
def holdRestores (s : State) : State :=
  (s.saved.filter fun v => v.byHold).foldl (fun s v =>
    s.modSched v.rank fun y => { y with task := v.tile.sched.task, job := .restore 0 none }) s

end State

/-- PWRWARN (R419): the input asserts. -/
def execPwrwarn (s : State) : Host.Outcome State Fault Refusal :=
  let s := { s with hold := { s.hold with pin := true } }
  .next (if s.mayEnter then s.enterHold else s)

/-- PWRWARN_DEASSERTED (R420): the input deasserts, which does not end Hold. -/
def execPwrwarnDeasserted (s : State) : Host.Outcome State Fault Refusal :=
  .next { s with hold := { s.hold with pin := false } }

/-- HOLD_KILL_DEADLINE (R419): 1,800 µs after the trigger. -/
def execHoldKillDeadline (s : State) : Host.Outcome State Fault Refusal :=
  .next <| match s.hold.power with
    | .entering =>
      if s.hold.trigger + 1800000 ≤ s.clk.wclock then (List.finRange 144).foldl State.holdKill s else s
    | _ => s

/-- HOLD_POWER_DOWN (R419, R421): 2,000 µs after the trigger tiles and peer ports power down, and what is not retained is
lost; slice clocks stand still, and an exit asked for meanwhile starts. Registers, accumulators, scratchpad and tags of a tile that holds no task keep
their values, and a saved task has its own in its record (DESIGN CHOICE, log 79). -/
def execHoldPowerDown (s : State) : Host.Outcome State Fault Refusal :=
  .next <| match s.hold.power with
    | .entering =>
      if s.clk.wclock < s.hold.trigger + 2000000 then s
      else
        let s := (List.finRange 16).foldl (fun s p => s.dropPort p) s
        let s := { s with
          hold := { s.hold with power := .held, nominal := false }
          tiles := s.tiles.map fun (tl : Tile) => { tl with
            ibuf := [], fills := [], tlb := []
            sched := { tl.sched with pausedAt := some (tl.sched.pausedAt.getD s.clk.wclock) } }
          dev := { s.dev with clusterTlb := .replicate 36 [], walkCache := .replicate 2 [] } }
        if s.hold.exitAsked then s.startExit else s
    | _ => s

/-- HOLD_EXIT_NOMINAL (R420, R421): memories are at nominal again. The slices of tiles that restore no task go on, held posts
are checked, tiles restore and launches bind. -/
def execHoldExitNominal (s : State) : Host.Outcome State Fault Refusal :=
  .next <| match s.hold.power with
  | .leaving =>
    if s.hold.nominal ∨ s.clk.wclock < s.hold.exitAt then s
    else
      let s := { s with hold := { s.hold with nominal := true } }
      let s := ((List.finRange 144).filter fun t => !s.saved.any fun v => v.rank == t && v.byHold).foldl State.unpause s
      s.heldPosts.holdRestores.settleHold
  | _ => s

/-- POWER_ON_RESET (R10, R23, R110): the machine after reset, with the firmware that was installed for it active; keys and
their counters, the free values and what the world has still to send stay. -/
def execPowerOnReset (s : State) : Host.Outcome State Fault Refusal :=
  let images := Vector.ofFn fun (i : Fin 3) => ((s.fw.next.get i).getD (s.fw.installed.get i))
  .next { State.reset with
    freeCtr := s.freeCtr
    inputs := s.inputs.map fun e => (e.1 - s.now, e.2)
    cores := s.cores.map fun a => { a with at_ := a.at_ - s.now }
    fw := { State.reset.fw with installed := images, keys := s.fw.keys, stations := Config.stationsOf (images.get 2) }
    hold := { State.reset.hold with pin := s.hold.pin } }

/-- LINK_FATAL_ERROR (R205): the link is retrained, and telemetry counts it. -/
def execLinkFatalError (_ : Fin 144) (s : State) : Host.Outcome State Fault Refusal :=
  .next { s with dev := { s.dev with linkErrs := satAdd 32 s.dev.linkErrs 1 } }

/-! ### Management messages (R107 to R109) -/

/-- The outcomes of R108. -/
inductive Stat
  | ok | badver | badcmd | badlen | denied | already | notheld | badsig | rollback | busy
  deriving DecidableEq, Repr

/-- STAT (R108). -/
def Stat.code : Stat → Nat
  | .ok => 0
  | .badver => 1
  | .badcmd => 2
  | .badlen => 3
  | .denied => 4
  | .already => 5
  | .notheld => 6
  | .badsig => 7
  | .rollback => 8
  | .busy => 9

/-- The command codes of R109. -/
def mgmtCodes : List Nat := [0x0001, 0x0002, 0x0010, 0x0011, 0x0020, 0x0021, 0x0022, 0x0023, 0x0030, 0x0031]

/-- An answer: its header and body (R108). -/
def mgmtAnswer (m : MgmtMsg) (stat : Stat) (body : List Byte) : List Byte :=
  [1, 0] ++ leBytes 2 m.cmd ++ leBytes 4 m.seq ++ leBytes 2 body.length ++ leBytes 2 stat.code ++ leBytes 4 0 ++ body

/-- Power state as INFO codes it (R109). -/
def Power.code : Power → Nat
  | .running => 0
  | .entering => 1
  | .held => 2
  | .leaving => 3

/-- The frame that carries an answer to the station that asked: a payload shorter than the 46 bytes of IEEE 802.3 is padded
with zeros (R108). -/
def mgmtFrame (m : MgmtMsg) (a : List Byte) : Frame := ⟨some m.station, 0x88B5, a ++ List.replicate (46 - a.length) 0⟩

namespace State

/-- An answer leaves the module; an applied request is remembered as the last of its station (R108). -/
def answerMgmt (s : State) (m : MgmtMsg) (stat : Stat) (body : List Byte) : State :=
  let a := mgmtAnswer m stat body
  let last := if stat = .ok then (m.station, m.cmd, m.seq, a) :: s.fw.last.filter (fun e => e.1 != m.station)
    else s.fw.last
  { s with fw := { s.fw with last, out := s.fw.out ++ [mgmtFrame m a] } }

/-- A request served (R108): a frame that is too short is BADLEN; a repeat is answered again; then the checks in the order of
STAT; then the command. -/
def serve (s : State) (m : MgmtMsg) (code : Nat) (len : Nat → Bool) (changes notInHold : Bool)
    (f : State → State × Stat × List Byte) : State :=
  if m.cmd ≠ code then s
  else if m.body.length < m.len then s.answerMgmt m .badlen []
  else match s.fw.last.find? fun e => e.1 == m.station && e.2.1 == m.cmd && e.2.2.1 == m.seq with
  | some e => { s with fw := { s.fw with out := s.fw.out ++ [mgmtFrame m e.2.2.2] } }
  | none =>
    if m.vmaj ≠ 1 then s.answerMgmt m .badver []
    else if !len m.len then s.answerMgmt m .badlen []
    else if changes && !s.fw.stations.contains m.station then s.answerMgmt m .denied []
    else if notInHold && s.hold.power == .held then s.answerMgmt m .busy []
    else
      let r := f s
      r.1.answerMgmt m r.2.1 r.2.2

/-- A field of a request's body. -/
def bodyN (m : MgmtMsg) (off n : Nat) : Nat := leNat (((m.body.take m.len).drop off).take n)

end State

/-- INFO (R109). -/
def execInfo (m : MgmtMsg) (s : State) : Host.Outcome State Fault Refusal :=
  .next <| s.serve m 0x0001 (· == 0) false false fun s =>
    (s, .ok, leBytes 2 144 ++ [Config.stepping] ++ leBytes 1 s.hold.power.code ++ Config.attestationKey.toList)

/-- The telemetry record (R109). -/
def State.telemetryWords (s : State) : List Nat :=
  ((List.range 16).map fun i => (Config.sensor i s.now).toNat)
    ++ ((s.dev.corrected.toList.zip s.dev.uncorrected.toList).flatMap fun e => [e.1, e.2])
    ++ [s.dev.linkErrs, s.hold.power.code]

/-- TELEMETRY (R109). -/
def execTelemetry (m : MgmtMsg) (s : State) : Host.Outcome State Fault Refusal :=
  .next <| s.serve m 0x0002 (· == 0) false false fun s => (s, .ok, s.telemetryWords.flatMap (leBytes 4))

/-- HOLD_ENTER (R109, R419, R420). -/
def execHoldEnter (m : MgmtMsg) (s : State) : Host.Outcome State Fault Refusal :=
  .next <| s.serve m 0x0010 (· == 0) true false fun s =>
    if s.mayEnter then (s.enterHold, .ok, []) else (s, .already, [])

/-- HOLD_EXIT (R109, R420): during entry it is applied when entry completes. -/
def execHoldExit (m : MgmtMsg) (s : State) : Host.Outcome State Fault Refusal :=
  .next <| s.serve m 0x0011 (· == 0) true false fun s =>
    match s.hold.power with
    | .held => (s.startExit, .ok, [])
    | .entering => ({ s with hold := { s.hold with exitAsked := true } }, .ok, [])
    | _ => (s, .notheld, [])

/-- FW_BEGIN (R109): KIND and LENGTH. -/
def execFwBegin (m : MgmtMsg) (s : State) : Host.Outcome State Fault Refusal :=
  .next <| s.serve m 0x0020 (· == 5) true true fun s =>
    if s.fw.staging.isSome then (s, .busy, [])
    else if 2 < State.bodyN m 0 1 ∨ 2 ^ 26 < State.bodyN m 1 4 then (s, .badlen, [])
    else ({ s with fw := { s.fw with staging := some (State.bodyN m 0 1, List.replicate (State.bodyN m 1 4) none) } },
      .ok, [])

/-- FW_CHUNK (R109): data into the staging buffer. -/
def execFwChunk (m : MgmtMsg) (s : State) : Host.Outcome State Fault Refusal :=
  .next <| s.serve m 0x0021 (fun n => decide (4 ≤ n) && decide (n ≤ 8196)) true true fun s =>
    let off := State.bodyN m 0 4
    let data := (m.body.take m.len).drop 4
    match s.fw.staging with
    | some (kind, buf) =>
      if buf.length < off + data.length then (s, .badlen, [])
      else ({ s with fw := { s.fw with
        staging := some (kind, buf.take off ++ data.map some ++ buf.drop (off + data.length)) } }, .ok, [])
    | none => (s, .badlen, [])

/-- The staged bytes; one that was never written is free (log 6). -/
def State.stagedBytes (s : State) (buf : List (Option Byte)) : List Byte :=
  (buf.zip (List.range buf.length)).map fun e => e.1.getD (BitVec.ofNat 8 (Config.freeNat (s.freeCtr + e.2)))

/-- FW_COMMIT (R109, R23): the staged image is verified as R28 says, and installed for the next reset or discarded. -/
def execFwCommit (m : MgmtMsg) (s : State) : Host.Outcome State Fault Refusal :=
  .next <| s.serve m 0x0022 (· == 0) true true fun s =>
    match s.fw.staging with
    | none => (s, .badsig, [])
    | some (kind, buf) =>
      let l := s.stagedBytes buf
      let s := { s with freeCtr := s.freeCtr + buf.length, fw := { s.fw with staging := none } }
      match s.signedBy l (imN l 0x80 4) with
      | none => (s, .badsig, [])
      | some k =>
        if imN l 0x84 4 < k.counter.toNat then (s, .rollback, [])
        else ({ s with fw := { s.fw with next := upd s.fw.next (Fin.ofNat 3 kind) (some l) } }, .ok, [])

/-- FW_ABORT (R109). -/
def execFwAbort (m : MgmtMsg) (s : State) : Host.Outcome State Fault Refusal :=
  .next <| s.serve m 0x0023 (· == 0) true false fun s => ({ s with fw := { s.fw with staging := none } }, .ok, [])

/-- The attestation report without its signature (R109). The installed images are those in effect: one that FW_COMMIT has
accepted counts from the next reset on (DESIGN CHOICE, log 89: the spec does not say which of the two is reported). -/
def State.reportBytes (s : State) (nonce : List Byte) : List Byte :=
  nonce ++ leBytes 8 s.clk.wclock ++ leBytes 2 144 ++ [Config.stepping] ++ leBytes 5 0
    ++ (s.fw.keys.toList.flatMap fun k => leBytes 4 k.counter.toNat)
    ++ s.fw.installed.toList.flatMap fun l => shake256 l

/-- ATTEST (R109). -/
def execAttest (m : MgmtMsg) (s : State) : Host.Outcome State Fault Refusal :=
  .next <| s.serve m 0x0030 (· == 32) false false fun s =>
    let r := s.reportBytes (m.body.take 32)
    (s, .ok, r ++ (Config.mldsaSign r).toList)

/-- COUNTER (R109): a key's counter under its signature. -/
def execCounter (m : MgmtMsg) (s : State) : Host.Outcome State Fault Refusal :=
  .next <| s.serve m 0x0031 (· == 3321) true true fun s =>
    let ident := BitVec.ofNat 64 (State.bodyN m 0 8)
    let v := BitVec.ofNat 32 (State.bodyN m 8 4)
    match s.keyOf ident with
    | none => (s, .badsig, [])
    | some k =>
      if !mldsaVerify k.key (m.body.take 12 ++ Config.attestationKey.toList) ((m.body.drop 12).take 3309) then
        (s, .badsig, [])
      else if v ≤ k.counter then (s, .rollback, [])
      else ({ s with fw := { s.fw with
        keys := s.fw.keys.map fun x => if !x.key.isEmpty && x.ident == ident then { x with counter := v } else x } },
        .ok, [])

/-- CMD_UNKNOWN (R108): a request whose CMD R109 does not list. -/
def execCmdUnknown (m : MgmtMsg) (s : State) : Host.Outcome State Fault Refusal :=
  .next <| if mgmtCodes.contains m.cmd then s
    else if m.body.length < m.len then s.answerMgmt m .badlen []
    else if m.vmaj ≠ 1 then s.answerMgmt m .badver []
    else s.answerMgmt m .badcmd []

end Sys2Proof.Machine
end

