-- ==== Sys2Proof/Machine/Peer.lean ====
section
/-! DEFINITION. The peer transport: link-up, received messages performed in SEQ order, answers, resends and a link that is
lost (chapter 16: R324 to R327, R349). -/

namespace Sys2Proof.Machine

namespace State

/-- The HELLO of this device, which offers version 1.0 (R326, R327). -/
def helloMsg : PeerMsg :=
  { vmaj := 0, vmin := 0, ty := .hello, op := 0, srank := 0, sid := 0, rctx := 0, seq := 0, cause := 0, addr := 0
    payload := [1, 0] }

/-- A HELLO or an answer leaves on a port. -/
def emit (s : State) (p : Fin 16) (m : PeerMsg) : State :=
  let pt := s.ports.get p
  s.setPort p { pt with out := pt.out ++ [peerFrame m none] }

/-- The link of a port is up and HELLO runs: one is sent at once and the next is due 10 µs later (R327). -/
def startHello (s : State) (p : Fin 16) : State :=
  let pt := s.ports.get p
  (s.setPort p { pt with link := true, up := false, heard := false, helloAt := s.clk.wclock + 10000 }).emit p helloMsg

end State

/-- The highest minor version that a HELLO offers with major version 1 (R327). -/
def offered : List Byte → Option Nat
  | a :: b :: l =>
    let r := offered l
    if a = 1 then some (max b.toNat (r.getD 0)) else r
  | _ => none

/-! ### What a received message does (R325 to R327) -/

namespace State

/-- The tables of a context as the walks of a write's lines find them (R322). -/
def readyParts (s : State) (c : Fin 64) (va n : Nat) : State :=
  (linesOf va n).foldl (fun s part => s.readyWalk [] c part.1) s

/-- The parts of a write by a peer, line by line, with key and grade; `none` when a leaf lacks V, W or PWT (R325). -/
def peerParts (s : State) (c : Fin 64) (va n : Nat) : Option (List (Nat × Nat × Nat × Nat)) :=
  (linesOf va n).foldr (fun part r => match r, s.walk c part.1 with
    | some l, .leaf e lv _ =>
      if e.getLsbD 1 && e.getLsbD 10 then
        some ((part.1, part.2, s.forward (leafPa e lv part.1), (fld e 6 2).toNat) :: l)
      else none
    | _, _ => none) (some [])

/-- The operands of a REDUCE, each with its address (R326). -/
def redWords (n a : Nat) : Nat → List Byte → List (Nat × Nat)
  | 0, _ => []
  | k + 1, l => (a, leNat (l.take n)) :: redWords n (a + n) k (l.drop n)

/-- Reductions arrive at the homes of consecutive words (R321, R322). -/
def peerReduce (s : State) (c : Fin 64) (op : RedOp) (words : List (Nat × Nat)) : Option State :=
  words.foldl (fun r w => r.bind fun s => let s := s.readyWalk [] c w.1; match s.peerParts c w.1 (redBytes op) with
    | some [(_, _, key, grade)] => some ((s.touchVa c w.1).reduceAt key grade op w.2)
    | _ => none) (some s)

/-- A WRITE, REDUCE or FLAG performed for its context, or refused (R325 to R327, R349). -/
def peerPerform (s : State) (m : PeerMsg) : Option State :=
  let s := s.readyParts m.rctx m.addr m.payload.length
  if !s.ctxValid m.rctx then none
  else match m.ty with
  | .write => (s.peerParts m.rctx m.addr m.payload.length).map fun l => l.foldl (fun s part =>
      (s.touchVa m.rctx part.1).homeWrite part.2.2.1 part.2.1 part.2.2.2 (leNat ((m.payload.drop (part.1 - m.addr)).take part.2.1)) false) s
  | .reduce => match if fld m.op 4 4 = (4 : BitVec 4) then RedOp.ofCode (fld m.op 0 4) else none with
    | none => none
    | some op =>
      let n := redBytes op
      if m.addr % n ≠ 0 ∨ m.payload.length % n ≠ 0 ∨ (s.peerParts m.rctx m.addr m.payload.length).isNone then none
      else s.peerReduce m.rctx op (redWords n m.addr (m.payload.length / n) m.payload)
  | .flag => if m.addr % 8 ≠ 0 then none else s.peerReduce m.rctx (.int 0 true) [(m.addr, 1)]
  | _ => none

/-- The answer to a message (R326): ACK, or NAK with cause REJECT. -/
def answerTo (m : PeerMsg) (good : Bool) : PeerMsg :=
  { m with ty := if good then .ack else .nak, op := 0, cause := if good then 0 else 3, payload := [], addr := 0 }

/-- A message whose turn has come is performed and answered, and its SEQ is passed (R327). -/
def takeTurnIn (s : State) (p : Fin 16) (m : PeerMsg) : State :=
  let r := s.peerPerform m
  let s := r.getD s
  let pt := s.ports.get p
  let s := s.setPort p { pt with
    seqIn := putSeq pt.seqIn m.srank m.sid.val (m.seq + 1)
    naked := if r.isSome then pt.naked else (m.srank, m.sid.val, m.seq) :: pt.naked }
  s.emit p (answerTo m r.isSome)

/-- Held messages whose turn has come, one after another. -/
def drainHeld (p : Fin 16) (rank sid : Nat) : Nat → State → State
  | 0, s => s
  | k + 1, s =>
    let pt := s.ports.get p
    match pt.heldIn.find? fun m => m.srank == rank && m.sid.val == sid && m.seq == nextSeq pt.seqIn rank sid with
    | none => s
    | some m => drainHeld p rank sid k ((s.setPort p { pt with heldIn := pt.heldIn.erase m }).takeTurnIn p m)

/-- A WRITE, REDUCE or FLAG received on a port (R327): performed in SEQ order; held while an earlier one is missing; one
performed before is answered again. -/
def receive (s : State) (p : Fin 16) (m : PeerMsg) : State :=
  let pt := s.ports.get p
  if !pt.up then s
  else
    let want := nextSeq pt.seqIn m.srank m.sid.val
    if m.seq = want then drainHeld p m.srank m.sid.val (pt.heldIn.length + 1) (s.takeTurnIn p m)
    else if (m.seq - want).toNat < 2 ^ 31 then
      let mine := pt.heldIn.filter fun x => x.srank == m.srank && x.sid == m.sid
      if 64 ≤ mine.length ∨ mine.any fun x => x.seq == m.seq then s
      else s.setPort p { pt with heldIn := pt.heldIn ++ [m] }
    else s.emit p (answerTo m (!pt.naked.contains (m.srank, m.sid.val, m.seq)))

/-- The unanswered message that an answer names (R326). -/
def answered (pt : Port) (m : PeerMsg) : Option PeerOut :=
  pt.unanswered.find? fun o => o.msg.srank == m.srank && o.msg.sid == m.sid && o.msg.seq == m.seq

/-- An answered message is settled: its access has been performed, and its request entry is free (R325, R327). -/
def settlePeer (s : State) (p : Fin 16) (o : PeerOut) : State :=
  let pt := s.ports.get p
  let s := s.setPort p { pt with unanswered := pt.unanswered.erase o }
  match o.access with
  | some i => s.dropAcc i
  | none => s

/-- The pointer that a message names at its sender. -/
def peerAddr (o : PeerOut) : Word := BitVec.ofNat 64 (6 * 2 ^ 60 + o.index * 2 ^ 52 + o.msg.addr)

/-- Is some message of a port unanswered 100 µs after its first send (R327)? -/
def portSilent (s : State) (p : Fin 16) : Bool :=
  (s.ports.get p).unanswered.any fun o => decide (o.first + 100000 ≤ s.clk.wclock)

end State

/-- HELLO (R327): the highest version that both ends offer, and link-up; without a common major version the port stays
down. A HELLO on a port that is up says that the partner has not heard this end, or took the port down: SEQ state goes, and a
HELLO answers it, at most one every 10 µs (log 60). -/
def execHello (p : Fin 16) (m : PeerMsg) (s : State) : Host.Outcome State Fault Refusal :=
  let pt := s.ports.get p
  .next <| if !pt.link then s
    else
      let s := if pt.up ∧ (pt.seqIn ≠ [] ∨ pt.seqOut ≠ [] ∨ pt.helloAt ≤ s.clk.wclock) then (s.dropPort p).startHello p
        else s
      let pt := s.ports.get p
      match offered m.payload with
      | some _ => s.setPort p { pt with heard := true, up := true, vmaj := 1, vmin := 0 }
      | none => s.setPort p { pt with heard := true, up := false }

/-- HELLO_RESEND (R327): every 10 µs until the partner's HELLO has been received. -/
def execHelloResend (p : Fin 16) (s : State) : Host.Outcome State Fault Refusal :=
  let pt := s.ports.get p
  .next <| if pt.link && !pt.heard && decide (pt.helloAt ≤ s.clk.wclock) then s.startHello p else s

/-- WRITE (R325 to R327). -/
def execWrite (p : Fin 16) (m : PeerMsg) (s : State) : Host.Outcome State Fault Refusal :=
  .next (s.receive p { m with ty := .write })

/-- REDUCE (R325 to R327). -/
def execReduce (p : Fin 16) (m : PeerMsg) (s : State) : Host.Outcome State Fault Refusal :=
  .next (s.receive p { m with ty := .reduce })

/-- FLAG (R327, R349). -/
def execFlag (p : Fin 16) (m : PeerMsg) (s : State) : Host.Outcome State Fault Refusal :=
  .next (s.receive p { m with ty := .flag })

/-- ACK (R325, R327). -/
def execAck (p : Fin 16) (m : PeerMsg) (s : State) : Host.Outcome State Fault Refusal :=
  .next <| match State.answered (s.ports.get p) m with
    | some o => s.settlePeer p o
    | none => s

/-- NAK (R325): the request entry is freed and a PEER entry gives cause REJECT. -/
def execNak (p : Fin 16) (m : PeerMsg) (s : State) : Host.Outcome State Fault Refusal :=
  .next <| match State.answered (s.ports.get p) m with
    | some o => (s.settlePeer p o).peerReport o.owner o.ctx o.tile o.slot o.pc (State.peerAccess o.msg.ty o.cmd.isSome) o.index 3
        (State.peerAddr o)
    | none => s

/-- PEER_RESEND (R327): an unanswered message goes out again every 10 µs. -/
def execPeerResend (p : Fin 16) (s : State) : Host.Outcome State Fault Refusal :=
  let pt := s.ports.get p
  let due (o : PeerOut) : Bool := decide (o.last + 10000 ≤ s.clk.wclock)
  .next <| s.setPort p { pt with
    unanswered := pt.unanswered.map fun o => if due o then { o with last := s.clk.wclock } else o
    out := pt.out ++ (pt.unanswered.filter due).map fun o => peerFrame o.msg (some o.mac) }

/-- NOLINK (R325, R327): 100 µs without an answer take the port down, and HELLO runs again. -/
def execNolink (p : Fin 16) (s : State) : Host.Outcome State Fault Refusal :=
  .next <| if s.portSilent p then (s.dropPort p).startHello p else s

/-- PORT_LINK_UP (R327): the Ethernet link of a port comes up. In Hold the ports have no power (R419). -/
def execPortLinkUp (p : Fin 16) (s : State) : Host.Outcome State Fault Refusal :=
  .next <| if s.hold.power == .held || (s.ports.get p).link then s else s.startHello p

/-- PORT_DOWN (R325, R327): the Ethernet link of a port goes down. -/
def execPortDown (p : Fin 16) (s : State) : Host.Outcome State Fault Refusal := .next (s.dropPort p)

/-- FCS_FAILED_FRAME (R205, R327): the frame is dropped. -/
def execFcsFailedFrame (_ : Fin 16) (s : State) : Host.Outcome State Fault Refusal := .next s

end Sys2Proof.Machine
end

