-- ==== Sys2Proof/Machine/Events.lean ====
section
/-! DEFINITION. The events of a tile's streams, the events of accesses at homes and on the way back, soft errors and
scrubbing (chapters 05, 06, 07, 09, 16 and 17). -/

namespace Sys2Proof.Machine

/-! ### Waits (R116, R118 to R121) -/

namespace State

/-- Code and DETAIL of a wait whose limit passes at the tile (R119, R146, R290, R342, R347, R348). -/
def timedOut (s : State) (t : Fin 144) (g : Fin 4) (wt : Wait) : Nat × Nat :=
  match wt.ins with
  | .join gm _ => (1, (s.at_ t g).joinMissing gm)
  | .fence .. => (2, s.undrained t (wt.args.getD 0 0) wt.mark wt.since)
  | .step .. => (1, 0x8000)
  | .omclaim mask _ => (1, (maskOf ((s.at_ t g).omIn (slotsIn mask) .free false)).toNat)
  | .tkwait tk .. => (1, ((s.tileAt t).regs.tk.get tk).count.toNat)
  | _ => (1, 0)

/-- Replace the pending wait of a stream. -/
def setWt (s : State) (t : Fin 144) (g : Fin 4) (wt : Option Wait) : State :=
  s.setStream t g (some { s.streamAt t g with wait := wt })

end State

/-- WAIT_TIMEOUT (R116, R119): the limit of a wait that no home decides has come, and its condition does not hold. -/
def execWaitTimeout (t : Fin 144) (g : Fin 4) (s : State) : Host.Outcome State Fault Refusal :=
  let st := s.streamAt t g
  .next <| match st.wait, st.park with
    | some wt, none =>
      if wt.dec.isNone && wt.sent.isNone && decide (wt.frame.limit ≤ s.clk.wclock) then
        let d := s.timedOut t g wt
        s.setWt t g (some { wt with dec := some ⟨d.1, d.2, 0⟩ })
      else s
    | _, _ => s

/-- ISSUE_DEADLINE (R125): a stall has outlasted its limit. -/
def execIssueDeadline (t : Fin 144) (g : Fin 4) (s : State) : Host.Outcome State Fault Refusal :=
  let st := s.streamAt t g
  .next <| match st.stallLimit, st.park with
    | some l, none =>
      if st.stallWhy ≠ 0 ∧ l ≤ s.clk.wclock then
        s.park t g { kind := .issueDeadline, slot := st.stallSlot, info0 := BitVec.ofNat 64 st.stallWhy }
      else s
    | _, _ => s

namespace State

/-- The pointer of an access, for a report. -/
def accPtr (a : Access) : Word :=
  let rank := match a.space with
    | 2 => (a.key - spadBase) / 2 ^ 19
    | 3 => (a.key - vaultBase) / 2 ^ 27
    | 6 => a.va / 2 ^ 52
    | _ => 0
  BitVec.ofNat 64 (a.space * 2 ^ 60 + rank * 2 ^ 52 + a.va % 2 ^ 52)

/-- The trap of an arriving result (R386): source 2 when its parity fails at the tile (log 81), else source 3, marked data. -/
def arrivalTrap (a : Access) : Trap :=
  let reg := match a.dest with | .x n => n.val | _ => 0
  { kind := .dataError, slot := a.slot, access := match a.op with | .load _ => 2 | .ldmeta => 6 | _ => 4
    addr := accPtr a, info0 := if a.struck then 2 else 3
    info1 := BitVec.ofNat 64 (if a.struck then a.va % 2 ^ 52 else a.pc % 2 ^ 32 + reg * 2 ^ 32) }

/-- A home's reply for a pending wait, when it has reached the tile (R117). -/
def replyFor (s : State) (t : Fin 144) (id : Nat) : Option HubReply :=
  s.hubs.replies.find? fun r => r.tile == t && r.id == id && decide (r.at_ ≤ s.now)

/-- The access of a sent SCATOM, when its reply has reached the tile (R351). -/
def scatomFor (s : State) (t : Fin 144) (id : Nat) : Option Access :=
  s.net.accs.find? fun a => a.tile == t && a.id == id && (stampOf a).isSome && a.performed && decide (a.replyAt ≤ s.now)

/-- A reply recorded in the pending wait, or the wait abandoned for a stop (R117, R120, R121). -/
def takeReply (s : State) (t : Fin 144) (g : Fin 4) (wt : Wait) (r : HubReply) : State :=
  let s := { s with hubs := { s.hubs with replies := s.hubs.replies.filter fun x => !(x.tile == t && x.id == r.id) } }
  if r.abandoned then
    s.setStream t g (some { (s.streamAt t g).anew with wait := none, again := some wt.frame, stopped := true })
  else s.setWt t g (some { wt with dec := r.dec, value := r.value })

end State

/-- REMOTE_REPLY_ARRIVAL (R117, R131): a home's reply reaches the tile and decides the pending wait; one whose parity fails
at the tile raises DATA_ERROR in that cycle (R386). -/
def execRemoteReplyArrival (t : Fin 144) (g : Fin 4) (s : State) : Host.Outcome State Fault Refusal :=
  .next <| match (s.streamAt t g).wait with
    | none => s
    | some wt => match wt.sent, wt.dec, wt.ins with
      | some id, none, .scatom .. => match s.scatomFor t id with
        | some a =>
          let s := s.dropAcc id
          if a.struck then (s.setWt t g none).park t g { State.arrivalTrap a with slot := wt.slot }
          else s.setWt t g (some { wt with
            dec := some ⟨if a.marked then 5 else 0, 0, s.leftOf wt.frame.limit⟩, value := some a.result })
        | none => s
      | some id, none, _ => match s.replyFor t id with
        | some r => s.takeReply t g wt r
        | none => s
      | _, _, _ => s

/-- WHEEL_POSITION_OPEN (R350, R351): at an open position each tile that owns it lets a waiting SCATOM leave. -/
def execWheelPositionOpen (p : Fin 256) (s : State) : Host.Outcome State Fault Refusal :=
  if s.openStamp.2 ≠ p.val then .next s
  else .next <| (List.finRange 144).foldl (fun s t =>
    if !ownsPosition (s.tileAt t).sys.wheel p.val then s
    else (List.finRange 4).foldl (fun s g =>
      let st := s.streamAt t g
      match st.wait, st.park with
      | some wt, none => match wt.ins, wt.dec, wt.sent with
        | .scatom op w64 d m w, none, none =>
          let s' := { s with cur := { s.cur with
            tile := t, group := g, slot := wt.slot, pc := st.pc, blocked := false, flow := .go } }
          match execScatom op w64 d m w s' with
          | .next s'' => s''
          | _ => s
        | _, _, _ => s
      | _, _ => s) s) s

/-! ### Translations and code lines (R133, R163, R202) -/

namespace State

/-- One translation of a bundle that is due (R163); while the migration engine holds the tile's accesses to the page it
is not obtained (R330). -/
def obtain (s : State) (t : Fin 144) (g : Fin 4) (x : Xlat) : State :=
  let c := (s.tileAt t).sys.ctx
  let r := s.resolve t c x.va
  let put (s : State) : State :=
    let st := s.streamAt t g
    s.setStream t g (some { st with xlat := st.xlat.map fun y => if y = x then { y with out := some r.2 } else y })
  match r.2 with
  | .leaf e lv at_ =>
    if s.heldByMigration t c at_ then s
    else if (leafRefuses e (s.sysOn t) x.write).isSome then put r.1
    else put (r.1.cacheLeaf t (tlbOf c x.va e lv at_))
  | .fault .. => put r.1

end State

/-- TRANSLATION_OBTAINED (R163, R202): what a stream's bundle waits for has been obtained or refused. -/
def execTranslationObtained (t : Fin 144) (g : Fin 4) (s : State) : Host.Outcome State Fault Refusal :=
  .next <| ((s.streamAt t g).xlat.filter fun x => x.out.isNone && decide (x.due ≤ s.now)).foldl
    (fun s x => s.obtain t g x) s

/-- The lines of a buffer with one more, the newest of its set of four (R133; DESIGN CHOICE, log 103). -/
def addLine {α : Type} (l : List (Nat × α)) (e : Nat × α) : List (Nat × α) :=
  let kept := (l.filter fun x => x.1 % 256 == e.1 % 256 && x.1 != e.1).take 3
  e :: l.filter fun x => x.1 % 256 != e.1 % 256 || kept.any fun y => y.1 == x.1

/-- FETCH_LINE_FILL (R132, R133): a requested line of code arrives, or proves unreadable; reductions queued at its lines
apply first (R322). -/
def execFetchLineFill (t : Fin 144) (line : Nat) (s : State) : Host.Outcome State Fault Refusal :=
  let tl := s.tileAt t
  .next <| if !(tl.fills.any fun e => e.2 == line && decide (e.1 ≤ s.now)) then s
    else
      let va := s.codeBase tl.sys.ctx + 256 * line
      let r := s.resolve t tl.sys.ctx va
      let r : State × Option (List Word) := match r.2 with
        | .leaf e lv _ =>
          let pa := leafPa e lv va
          let grade := (fld e 6 2).toNat
          let s := r.1.settleLine pa 256
          (s, if e.getLsbD 2 && !s.marked pa 256 (granule pa grade)
              && !(List.range 4).any fun i => s.gradeClash (pa + 64 * i) grade
            then some ((List.range 32).map fun i => s.load64 (pa + 8 * i)) else none)
        | .fault .. => (r.1, none)
      let e := (line, r.2)
      r.1.modTile t fun tl => { tl with fills := tl.fills.filter fun f => f.2 != line, ibuf := addLine tl.ibuf e }

/-! ### Accesses (R155, R166, R203, R316, R325) -/

namespace State

/-- A space-0x6 access leaves for its peer (R325); one refused on the spot frees its request entry. -/
def sendPeer (s : State) (a : Access) : State :=
  let go (ty : PeerTy) (op : BitVec 8) (l : List Byte) : State :=
    let r := s.peerSend a.owner a.tile a.ctx a.slot a.pc a.sid (a.va / 2 ^ 52) a.key ty op l (some a.id) none
    if r.2 then r.1.putAcc { a with sent := true } else r.1.dropAcc a.id
  match a.op with
  | .red op => go .reduce ((4 : BitVec 4) ++ op.code) (leBytes a.size a.data.toNat)
  | _ => go .write 0 (leBytes a.size a.data.toNat)

/-- A space-0x5 access performed by the device coordinator (R319, R435). -/
def deviceAcc (s : State) (a : Access) : State :=
  match a.op with
  | .store => (s.devStore a.key a.data).donePerform a 0 false
  | _ => s.donePerform a (s.devLoad a.key) false

end State

/-- HOME_ACCESS (R316, R322, R350, R357): an access that has arrived is performed once the order allows it; or a queued
reduction applies. -/
def execHomeAccess (id : Nat) (s : State) : Host.Outcome State Fault Refusal :=
  match s.accOf id with
  | some a =>
    if a.performed || a.sent || decide (s.now < a.arrive) || !s.mayPerform a then .next s
    else if a.space = 5 then .next (s.deviceAcc a)
    else if a.space = 6 then .next (s.sendPeer a)
    else .next (s.performAcc a)
  | none => match s.net.greds.find? fun e => e.id == id with
    | some e => .next (if e.due ≤ s.now then s.applyGred e else s)
    | none => .next s

namespace State


/-- The group that holds a slot of a tile. -/
def holder (s : State) (t : Fin 144) (slot : Fin 8) : Option (Fin 4) :=
  (List.finRange 4).find? fun g => match (s.tileAt t).streams.get g with
    | some st => st.members.getLsbD slot.val
    | none => false

/-- An arriving error parks the group that holds the load's slot (R388); a group parked already gets the entry alone. -/
def arrivalError (s : State) (a : Access) : State :=
  match s.holder a.tile a.slot with
  | none => s
  | some g => match (s.streamAt a.tile g).park with
    | none => s.park a.tile g (arrivalTrap a)
    | some p => s.detect a.tile (if (s.tileAt a.tile).lockstep then 0 else g.val) (s.streamAt a.tile g).pc (arrivalTrap a)
        (tokenOf a.tile.val g.val 0 p.seq)

/-- Does an access bring a result? -/
def bringsResult (a : Access) : Bool := match a.op with | .load _ | .atom .. | .ldmeta => true | _ => false

end State

/-- RESULT_ARRIVAL (R155, R166, R203, R386): a result lands in its register; marked data, or a parity failure at the
tile, park the group. -/
def execResultArrival (id : Nat) (s : State) : Host.Outcome State Fault Refusal :=
  .next <| match s.accOf id with
    | some a =>
      if a.performed && State.bringsResult a && decide (a.replyAt ≤ s.now) then
        let s := s.dropAcc id
        if a.marked || a.struck then s.arrivalError a else s.arrive a.tile a.slot a.dest (.x a.result)
      else s
    | none => s

/-- Does no stream of the tile wait for a SCATOM any more: its task was killed, or a resume gave its bundle up (R395, R430)? -/
def State.unawaited (s : State) (a : Access) : Bool :=
  isScatom a && (s.tileAt a.tile).streams.toList.all fun st => match st.bind fun st => st.wait with
    | some wt => wt.sent != some a.id || (match wt.ins with | .scatom .. => false | _ => true)
    | none => true

/-- WRITE_ACKNOWLEDGEMENT (R203): a home's acknowledgement frees the request entry; so does the reply of a SCATOM for which no
stream waits any more. -/
def execWriteAcknowledgement (id : Nat) (s : State) : Host.Outcome State Fault Refusal :=
  .next <| match s.accOf id with
    | some a =>
      if a.performed && !State.bringsResult a && ((stampOf a).isNone || s.unawaited a) && decide (a.replyAt ≤ s.now) then
        s.dropAcc id
      else s
    | none => s

/-! ### Soft errors and scrubbing (R205, R436) -/

/-- Keys of instruction buffers for soft errors: the line in place `n` of a tile's buffer, 1,024 a tile (log 3). -/
def ibufBase : Nat := 2 ^ 51
/-- Keys of the vector datapaths for soft errors: the result in place `n` of a tile's results in flight, 1,024 a tile
(R206; log 3, log 61). -/
def datapathBase : Nat := 2 ^ 52
/-- Keys of the stream decoders' outputs for soft errors, 8 a tile (R206; log 3, log 61). -/
def decoderBase : Nat := 2 ^ 53
/-- Keys of what copy-path conversion writes for soft errors, 2^19 a tile (R206; log 3, log 61). -/
def convertBase : Nat := 2 ^ 54
/-- Keys of results on their last way into a tile for soft errors: place `n` of its accesses, 4,096 a tile (R386; log 3,
log 81). -/
def arriveBase : Nat := 2 ^ 55

namespace State

/-- The telemetry number of the memory that holds a key: a vault, a stack or LPDDR-6 (R109). -/
def memoryOf (key : Nat) : Fin 49 :=
  Fin.ofNat 49 (if vaultBase ≤ key then (key - vaultBase) / 2 ^ 27 else if 2 ^ 40 ≤ key then 48 else 36 + key / 0x900000000)

/-- An error corrected and counted (R205). -/
def countFixed (s : State) (key : Nat) : State :=
  let i := memoryOf key
  { s with dev := { s.dev with corrected := upd s.dev.corrected i (satAdd 32 (s.dev.corrected.get i) 1) } }

/-- An error found and not corrected: counted, and the granule of a memory marked (R205, R436). -/
def countLost (s : State) (key mark : Nat) : State :=
  let i := memoryOf key
  ({ s with dev := { s.dev with uncorrected := upd s.dev.uncorrected i (satAdd 32 (s.dev.uncorrected.get i) 1) } }).setMark
    mark

/-- A bit of a byte turns over; which one is free. -/
def flipBit (s : State) (key : Nat) : State :=
  let d := s.draw 0 7
  { d.2 with mem := d.2.mem.set key (d.2.mem.get key ^^^ BitVec.twoPow 8 d.1) }

/-- A bit error in the operand memory (R205): an MMA in its array phase may have read the byte before it (R288). -/
def strikeOm (s : State) (key : Nat) : State :=
  let o := key - omBase
  let d := s.flipBit key
  let s := s.raceOm (Fin.ofNat 144 (o / 2 ^ 17)) (Fin.ofNat 8 (o / 2 ^ 14)) key [(d.mem.get key, true)]
  (s.flipBit key).setMark key

/-- The grade under which the line at a key was last written; symbol for one never written. -/
def gradeAt (s : State) (key : Nat) : Nat :=
  match s.grades.find? fun e => e.1 == key / 64 with
  | some e => e.2
  | none => 2

/-- An error in a memory whose code corrects: it is corrected, or, when too many bits are hit, marked; which is free. -/
def codeError (s : State) (key mark : Nat) (data : Bool := true) : State :=
  let d := s.draw 0 1
  if d.1 = 0 then d.2.countFixed key else (if data then d.2.flipBit key else d.2).countLost key mark

end State

/-- A value with a bit turned over. -/
def RVal.flip (n : Nat) : RVal → RVal
  | .x w => .x (w ^^^ BitVec.twoPow 64 (n % 64))
  | .v w => .v (w ^^^ BitVec.twoPow 2048 (n % 2048))
  | .k w => .k (w ^^^ BitVec.twoPow 256 (n % 256))

/-- The decoder's output with a bit turned over: of the finished vector, else of the first finished lane. -/
def StreamReg.flip (r : StreamReg) (n : Nat) : StreamReg :=
  match r.out, r.lanes with
  | some (v, k), _ => { r with out := some (v ^^^ BitVec.twoPow 2048 (n % 2048), k) }
  | none, l :: rest => { r with lanes := (l ^^^ 2 ^ (n % (8 * laneBytes r.desc))) :: rest }
  | none, [] => r

namespace State

/-- Does a scratchpad offset lie in a destination row of the last chunk of a converting copy in flight (R261)? -/
def converting (s : State) (t : Fin 144) (o : Nat) : Bool :=
  (s.cqOf t 0 ++ s.cqOf t 1).any fun c => match c.run with
    | some r => r.conv && decide (0 < r.chunk) &&
      let ws := bankWidth (bankAt r.bfmt (offsetOf c.src))
      let wd := bankWidth (bankAt r.bfmt (offsetOf c.dst))
      (segsOf (shapeN0 r.shape) (4096 * (r.chunk - 1)) (min r.total (4096 * r.chunk))).any fun g =>
        let d := (rowAt r.shape c.dst true g.row).toNat + g.start / ws * wd
        decide (d ≤ o) && decide (o < d + g.len / ws * wd)
    | none => false

/-- The access in place `n` of a tile's accesses is struck: the parity of its result fails at the tile (R386). -/
def strike (s : State) (t : Fin 144) (n : Nat) : State :=
  match (s.net.accs.filter fun a => a.tile == t)[n]? with
  | some a => if a.performed then s.putAcc { a with struck := true } else s
  | none => s

/-- A soft error where data have no check (R206): the consumer gets the changed value unmarked. -/
def unchecked (s : State) (key : Nat) : State :=
  let d := s.draw 0 2047
  if key < decoderBase then
    d.2.modTile (Fin.ofNat 144 ((key - datapathBase) / 1024)) fun tl =>
      { tl with regs := { tl.regs with pend := tl.regs.pend.modify ((key - datapathBase) % 1024) fun w =>
        if (w.slot = 2 ∨ w.slot = 3) ∧ !w.late then { w with val := w.val.flip d.1 } else w } }
  else if key < convertBase then
    let t : Fin 144 := Fin.ofNat 144 ((key - decoderBase) / 8)
    let st : Fin 8 := Fin.ofNat 8 (key - decoderBase)
    d.2.setStreamReg t st ((d.2.streamReg t st).flip d.1)
  else
    let t : Fin 144 := Fin.ofNat 144 ((key - convertBase) / 2 ^ 19)
    let o := (key - convertBase) % 2 ^ 19
    if s.converting t o then s.flipBit (spadBase + t.val * 2 ^ 19 + o) else s

end State

/-- SOFT_ERROR (R205, R206, R436): a bit error arises at a key. A memory with a correcting code corrects or marks it; storage
with parity then fails its check; an accumulator's check finds it later; a line of the instruction buffer is refetched;
a link retries, which changes nothing; data without a check change unmarked. -/
def execSoftError (key : Nat) (s : State) : Host.Outcome State Fault Refusal :=
  .next <|
    if key < vaultBase then
      let g := s.gradeAt key
      let mark := key / granule key g * granule key g
      if g = 0 then (s.flipBit key).countLost key mark else s.codeError key mark
    else if key < vaultBase + 36 * 2 ^ 27 then s.codeError key (key / 8 * 8)
    else if key < spadBase then s
    else if key < spadBase + 144 * 2 ^ 19 then (s.flipBit key).setMark (key / 4 * 4)
    else if key < omBase then s
    else if key < omBase + 144 * 2 ^ 17 then
      s.strikeOm key
    else if key < accBase then s
    else if key < accBase + 144 * 2 ^ 18 then s.flipBit key
    else if key < regBase then s
    else if key < tagBase then s.setMark key
    else if key < ibufBase then
      if key < tagBase + 144 * 2 ^ 17 then
        let t : Fin 144 := Fin.ofNat 144 ((key - tagBase) / 2 ^ 17)
        (s.modTile t fun tl =>
          let n := (key - tagBase) % 2 ^ 17
          { tl with tags := if tl.tags.contains n then tl.tags.erase n else n :: tl.tags }).setMark key
      else if metaBase ≤ key then
        (if s.gradeAt (key - metaBase) = 0 then s.countLost (key - metaBase) key else s.codeError (key - metaBase) key false)
      else s
    else if arriveBase ≤ key then s.strike (Fin.ofNat 144 ((key - arriveBase) / 4096)) ((key - arriveBase) % 4096)
    else if datapathBase ≤ key then s.unchecked key
    else
      let t : Fin 144 := Fin.ofNat 144 ((key - ibufBase) / 1024)
      s.modTile t fun tl => { tl with ibuf := tl.ibuf.eraseIdx ((key - ibufBase) % 1024) }

/-- SCRUBBING_PASS (R205, R436): a full pass over vaults and DRAM ends. What a code can correct has been corrected when it
arose (log 10), and no pass clears a mark. Scrubbing pauses in Hold. -/
def execScrubbingPass (s : State) : Host.Outcome State Fault Refusal :=
  .next <| if s.hold.power == .held then s else { s with dev := { s.dev with scrubAt := s.clk.wclock } }

end Sys2Proof.Machine
end

