-- ==== Sys2Proof/Machine/Dispatch.lean ====
section
/-! DEFINITION. The meaning of every instruction: one arm for each constructor of Instr. -/

namespace Sys2Proof.Machine

/-- One instruction or event. -/
def exec (i : Instr) (s : State) : Host.Outcome State Fault Refusal :=
  match i with
  | .brc cb clr off => Sys2Proof.Machine.execBrc cb clr off s
  | .jmp off => Sys2Proof.Machine.execJmp off s
  | .loop lc off => Sys2Proof.Machine.execLoop lc off s
  | .loopx a test off => Sys2Proof.Machine.execLoopx a test off s
  | .cbset cb => Sys2Proof.Machine.execCbset cb s
  | .cbclr cb => Sys2Proof.Machine.execCbclr cb s
  | .cbwait cb clr w => Sys2Proof.Machine.execCbwait cb clr w s
  | .cbtake cb w => Sys2Proof.Machine.execCbtake cb w s
  | .join gm w => Sys2Proof.Machine.execJoin gm w s
  | .retire => Sys2Proof.Machine.execRetire s
  | .br cc a b off => Sys2Proof.Machine.execBr cc a b off s
  | .jmpr a => Sys2Proof.Machine.execJmpr a s
  | .call link off => Sys2Proof.Machine.execCall link off s
  | .callr link b => Sys2Proof.Machine.execCallr link b s
  | .ret a => Sys2Proof.Machine.execRet a s
  | .fork map entries => Sys2Proof.Machine.execFork map entries s
  | .lcset lc a => Sys2Proof.Machine.execLcset lc a s
  | .lcget d lc => Sys2Proof.Machine.execLcget d lc s
  | .trap code => Sys2Proof.Machine.execTrap code s
  | .brkpt code => Sys2Proof.Machine.execBrkpt code s
  | .add t d a b => Sys2Proof.Machine.execAdd t d a b s
  | .addRI d a imm => Sys2Proof.Machine.execAddRI d a imm s
  | .sub t d a b => Sys2Proof.Machine.execSub t d a b s
  | .subRI d a imm => Sys2Proof.Machine.execSubRI d a imm s
  | .mul t d a b => Sys2Proof.Machine.execMul t d a b s
  | .mulRI d a imm => Sys2Proof.Machine.execMulRI d a imm s
  | .mulh t d a b => Sys2Proof.Machine.execMulh t d a b s
  | .div t d a b => Sys2Proof.Machine.execDiv t d a b s
  | .rem t d a b => Sys2Proof.Machine.execRem t d a b s
  | .and t d a b => Sys2Proof.Machine.execAnd t d a b s
  | .andRI d a imm => Sys2Proof.Machine.execAndRI d a imm s
  | .or t d a b => Sys2Proof.Machine.execOr t d a b s
  | .orRI d a imm => Sys2Proof.Machine.execOrRI d a imm s
  | .xor t d a b => Sys2Proof.Machine.execXor t d a b s
  | .xorRI d a imm => Sys2Proof.Machine.execXorRI d a imm s
  | .andn t d a b => Sys2Proof.Machine.execAndn t d a b s
  | .andnRI d a imm => Sys2Proof.Machine.execAndnRI d a imm s
  | .shl t d a b => Sys2Proof.Machine.execShl t d a b s
  | .shlRI d a imm => Sys2Proof.Machine.execShlRI d a imm s
  | .shr t d a b => Sys2Proof.Machine.execShr t d a b s
  | .shrRI d a imm => Sys2Proof.Machine.execShrRI d a imm s
  | .sar t d a b => Sys2Proof.Machine.execSar t d a b s
  | .sarRI d a imm => Sys2Proof.Machine.execSarRI d a imm s
  | .rol t d a b => Sys2Proof.Machine.execRol t d a b s
  | .rolRI d a imm => Sys2Proof.Machine.execRolRI d a imm s
  | .min t d a b => Sys2Proof.Machine.execMin t d a b s
  | .minRI d a imm => Sys2Proof.Machine.execMinRI d a imm s
  | .max t d a b => Sys2Proof.Machine.execMax t d a b s
  | .maxRI d a imm => Sys2Proof.Machine.execMaxRI d a imm s
  | .abs t d a => Sys2Proof.Machine.execAbs t d a s
  | .clz t d a => Sys2Proof.Machine.execClz t d a s
  | .ctz t d a => Sys2Proof.Machine.execCtz t d a s
  | .popc t d a => Sys2Proof.Machine.execPopc t d a s
  | .sext t d a => Sys2Proof.Machine.execSext t d a s
  | .zext t d a => Sys2Proof.Machine.execZext t d a s
  | .cmp t d a b => Sys2Proof.Machine.execCmp t d a b s
  | .cmpRI d a imm => Sys2Proof.Machine.execCmpRI d a imm s
  | .sel d a b c => Sys2Proof.Machine.execSel d a b c s
  | .mov d a => Sys2Proof.Machine.execMov d a s
  | .moviI64 d imm => Sys2Proof.Machine.execMoviI64 d imm s
  | .moviN64 d imm => Sys2Proof.Machine.execMoviN64 d imm s
  | .movk d a hi v => Sys2Proof.Machine.execMovk d a hi v s
  | .lea d a imm => Sys2Proof.Machine.execLea d a imm s
  | .pmake d a b c => Sys2Proof.Machine.execPmake d a b c s
  | .pspace d a => Sys2Proof.Machine.execPspace d a s
  | .prank d a => Sys2Proof.Machine.execPrank d a s
  | .padd d a b => Sys2Proof.Machine.execPadd d a b s
  | .paddRI d a imm => Sys2Proof.Machine.execPaddRI d a imm s
  | .fadd d a b => Sys2Proof.Machine.execFadd d a b s
  | .fsub d a b => Sys2Proof.Machine.execFsub d a b s
  | .fmul d a b => Sys2Proof.Machine.execFmul d a b s
  | .ffma d a b c => Sys2Proof.Machine.execFfma d a b c s
  | .fmin d a b => Sys2Proof.Machine.execFmin d a b s
  | .fmax d a b => Sys2Proof.Machine.execFmax d a b s
  | .fdiv d a b => Sys2Proof.Machine.execFdiv d a b s
  | .fsqrt d a => Sys2Proof.Machine.execFsqrt d a s
  | .fcvt dst src rtz d a => Sys2Proof.Machine.execFcvt dst src rtz d a s
  | .fcmp d a b => Sys2Proof.Machine.execFcmp d a b s
  | .mfs d r => Sys2Proof.Machine.execMfs d r s
  | .mts r a => Sys2Proof.Machine.execMts r a s
  | .dlmk wall d a => Sys2Proof.Machine.execDlmk wall d a s
  | .clkrd d => Sys2Proof.Machine.execClkrd d s
  | .tfence => Sys2Proof.Machine.execTfence s
  | .yield a => Sys2Proof.Machine.execYield a s
  | .enq a b w => Sys2Proof.Machine.execEnq a b w s
  | .step a b w => Sys2Proof.Machine.execStep a b w s
  | .barinit a b => Sys2Proof.Machine.execBarinit a b s
  | .bararv d a => Sys2Proof.Machine.execBararv d a s
  | .barwt a b w => Sys2Proof.Machine.execBarwt a b w s
  | .barsync a w => Sys2Proof.Machine.execBarsync a w s
  | .barkill a => Sys2Proof.Machine.execBarkill a s
  | .qpush a b w => Sys2Proof.Machine.execQpush a b w s
  | .qpop d a w => Sys2Proof.Machine.execQpop d a w s
  | .tkwait tk c b w => Sys2Proof.Machine.execTkwait tk c b w s
  | .tkrd d tk => Sys2Proof.Machine.execTkrd d tk s
  | .fence a w => Sys2Proof.Machine.execFence a w s
  | .vadd t d a b m => Sys2Proof.Machine.execVadd t d a b m s
  | .vaddVI t d a imm m => Sys2Proof.Machine.execVaddVI t d a imm m s
  | .vsub t d a b m => Sys2Proof.Machine.execVsub t d a b m s
  | .vsubVI t d a imm m => Sys2Proof.Machine.execVsubVI t d a imm m s
  | .vmul t d a b m => Sys2Proof.Machine.execVmul t d a b m s
  | .vmulVI t d a imm m => Sys2Proof.Machine.execVmulVI t d a imm m s
  | .vfma t d a b c m => Sys2Proof.Machine.execVfma t d a b c m s
  | .vmin t d a b m => Sys2Proof.Machine.execVmin t d a b m s
  | .vminVI t d a imm m => Sys2Proof.Machine.execVminVI t d a imm m s
  | .vmax t d a b m => Sys2Proof.Machine.execVmax t d a b m s
  | .vmaxVI t d a imm m => Sys2Proof.Machine.execVmaxVI t d a imm m s
  | .vabs t d a m => Sys2Proof.Machine.execVabs t d a m s
  | .vneg t d a m => Sys2Proof.Machine.execVneg t d a m s
  | .vrcp t d a m => Sys2Proof.Machine.execVrcp t d a m s
  | .vrsq t d a m => Sys2Proof.Machine.execVrsq t d a m s
  | .vexp2 t d a m => Sys2Proof.Machine.execVexp2 t d a m s
  | .vlog2 t d a m => Sys2Proof.Machine.execVlog2 t d a m s
  | .vcmp p t d a b m => Sys2Proof.Machine.execVcmp p t d a b m s
  | .vsel t d a b c m => Sys2Proof.Machine.execVsel t d a b c m s
  | .viadd t d a b m => Sys2Proof.Machine.execViadd t d a b m s
  | .viaddVI t d a imm m => Sys2Proof.Machine.execViaddVI t d a imm m s
  | .visub t d a b m => Sys2Proof.Machine.execVisub t d a b m s
  | .visubVI t d a imm m => Sys2Proof.Machine.execVisubVI t d a imm m s
  | .vimul t d a b m => Sys2Proof.Machine.execVimul t d a b m s
  | .vimulVI t d a imm m => Sys2Proof.Machine.execVimulVI t d a imm m s
  | .vand t d a b m => Sys2Proof.Machine.execVand t d a b m s
  | .vandVI t d a imm m => Sys2Proof.Machine.execVandVI t d a imm m s
  | .vor t d a b m => Sys2Proof.Machine.execVor t d a b m s
  | .vorVI t d a imm m => Sys2Proof.Machine.execVorVI t d a imm m s
  | .vxor t d a b m => Sys2Proof.Machine.execVxor t d a b m s
  | .vxorVI t d a imm m => Sys2Proof.Machine.execVxorVI t d a imm m s
  | .vshl t d a b m => Sys2Proof.Machine.execVshl t d a b m s
  | .vshlVI t d a imm m => Sys2Proof.Machine.execVshlVI t d a imm m s
  | .vshr t d a b m => Sys2Proof.Machine.execVshr t d a b m s
  | .vshrVI t d a imm m => Sys2Proof.Machine.execVshrVI t d a imm m s
  | .vsar t d a b m => Sys2Proof.Machine.execVsar t d a b m s
  | .vsarVI t d a imm m => Sys2Proof.Machine.execVsarVI t d a imm m s
  | .vcvt dst src rtz part d a m => Sys2Proof.Machine.execVcvt dst src rtz part d a m s
  | .vqnt dst bf d a x => Sys2Proof.Machine.execVqnt dst bf d a x s
  | .vdqnt bf src part d a b m => Sys2Proof.Machine.execVdqnt bf src part d a b m s
  | .vrsum t d a m => Sys2Proof.Machine.execVrsum t d a m s
  | .vrmax t d a m => Sys2Proof.Machine.execVrmax t d a m s
  | .vrmin t d a m => Sys2Proof.Machine.execVrmin t d a m s
  | .vperm t d a b m => Sys2Proof.Machine.execVperm t d a b m s
  | .vbcast t d a m => Sys2Proof.Machine.execVbcast t d a m s
  | .vslide t d a b c m => Sys2Proof.Machine.execVslide t d a b c m s
  | .vzip t part d a b m => Sys2Proof.Machine.execVzip t part d a b m s
  | .vunzip t part d a b m => Sys2Proof.Machine.execVunzip t part d a b m s
  | .vmov t d a m => Sys2Proof.Machine.execVmov t d a m s
  | .vmovVI t d imm m => Sys2Proof.Machine.execVmovVI t d imm m s
  | .vins t d a b m => Sys2Proof.Machine.execVins t d a b m s
  | .vext t d a b => Sys2Proof.Machine.execVext t d a b s
  | .vrng t d a b m => Sys2Proof.Machine.execVrng t d a b m s
  | .kand d a b => Sys2Proof.Machine.execKand d a b s
  | .kor d a b => Sys2Proof.Machine.execKor d a b s
  | .kxor d a b => Sys2Proof.Machine.execKxor d a b s
  | .knot d a => Sys2Proof.Machine.execKnot d a s
  | .kpop t d a => Sys2Proof.Machine.execKpop t d a s
  | .kmov d a => Sys2Proof.Machine.execKmov d a s
  | .vld d m o => Sys2Proof.Machine.execVld d m o s
  | .vldd d m o => Sys2Proof.Machine.execVldd d m o s
  | .vst v m o => Sys2Proof.Machine.execVst v m o s
  | .vste v m o => Sys2Proof.Machine.execVste v m o s
  | .vlds t d a b sid m => Sys2Proof.Machine.execVlds t d a b sid m s
  | .vsts t v a b sid m => Sys2Proof.Machine.execVsts t v a b sid m s
  | .vgth t d a b sid m => Sys2Proof.Machine.execVgth t d a b sid m s
  | .vsct t v a b sid m => Sys2Proof.Machine.execVsct t v a b sid m s
  | .xld t d m o => Sys2Proof.Machine.execXld t d m o s
  | .xst w v m o => Sys2Proof.Machine.execXst w v m o s
  | .ldf d m scope w => Sys2Proof.Machine.execLdf d m scope w s
  | .ste v m scope w => Sys2Proof.Machine.execSte v m scope w s
  | .few d m scope w => Sys2Proof.Machine.execFew d m scope w s
  | .feq op d m => Sys2Proof.Machine.execFeq op d m s
  | .latom op w64 d m o => Sys2Proof.Machine.execLatom op w64 d m o s
  | .omclaim mask w => Sys2Proof.Machine.execOmclaim mask w s
  | .omrel mask tok => Sys2Proof.Machine.execOmrel mask tok s
  | .omld om c tok => Sys2Proof.Machine.execOmld om c tok s
  | .mma ta tb acc oma omb sa sb tok => Sys2Proof.Machine.execMma ta tb acc oma omb sa sb tok s
  | .mzero acc tok => Sys2Proof.Machine.execMzero acc tok s
  | .macld acc c tok => Sys2Proof.Machine.execMacld acc c tok s
  | .mdrain acc nochk c tok => Sys2Proof.Machine.execMdrain acc nochk c tok s
  | .mstat d acc nochk => Sys2Proof.Machine.execMstat d acc nochk s
  | .copy src dst shp cmask oms tok sid zero flush => Sys2Proof.Machine.execCopy src dst shp cmask oms tok sid zero flush s
  | .copym src dst shp cmask oms tok sid zero flush follow => Sys2Proof.Machine.execCopym src dst shp cmask oms tok sid zero flush follow s
  | .stbind st a => Sys2Proof.Machine.execStbind st a s
  | .stdrop st => Sys2Proof.Machine.execStdrop st s
  | .ststat d st => Sys2Proof.Machine.execStstat d st s
  | .cpcancel d mask => Sys2Proof.Machine.execCpcancel d mask s
  | .selp src dst lc tok sid => Sys2Proof.Machine.execSelp src dst lc tok sid s
  | .selk src dst lc tok sid => Sys2Proof.Machine.execSelk src dst lc tok sid s
  | .rput src dst shp flg tok sid => Sys2Proof.Machine.execRput src dst shp flg tok sid s
  | .gld t d m o => Sys2Proof.Machine.execGld t d m o s
  | .gst w v m o => Sys2Proof.Machine.execGst w v m o s
  | .pref base off => Sys2Proof.Machine.execPref base off s
  | .ldmeta d a sid => Sys2Proof.Machine.execLdmeta d a sid s
  | .stmeta a b sid => Sys2Proof.Machine.execStmeta a b sid s
  | .gatom op w64 d m o => Sys2Proof.Machine.execGatom op w64 d m o s
  | .gred op v m o => Sys2Proof.Machine.execGred op v m o s
  | .scatom op w64 d m w => Sys2Proof.Machine.execScatom op w64 d m w s
  | .conditionBitVisible t => Sys2Proof.Machine.execConditionBitVisible t s
  | .waitTimeout t g => Sys2Proof.Machine.execWaitTimeout t g s
  | .issueDeadline t g => Sys2Proof.Machine.execIssueDeadline t g s
  | .remoteReplyArrival t g => Sys2Proof.Machine.execRemoteReplyArrival t g s
  | .syncHomeArbitration die => Sys2Proof.Machine.execSyncHomeArbitration die s
  | .homeAccess id => Sys2Proof.Machine.execHomeAccess id s
  | .resultArrival id => Sys2Proof.Machine.execResultArrival id s
  | .translationObtained t g => Sys2Proof.Machine.execTranslationObtained t g s
  | .wheelPositionOpen p => Sys2Proof.Machine.execWheelPositionOpen p s
  | .fetchLineFill t line => Sys2Proof.Machine.execFetchLineFill t line s
  | .copyCommandStart t q => Sys2Proof.Machine.execCopyCommandStart t q s
  | .copyChunk t q imm => Sys2Proof.Machine.execCopyChunk t q imm s
  | .copyCommandRetire t q => Sys2Proof.Machine.execCopyCommandRetire t q s
  | .followOnHandoff t q => Sys2Proof.Machine.execFollowOnHandoff t q s
  | .fbcBlock t st => Sys2Proof.Machine.execFbcBlock t st s
  | .watchdog t st => Sys2Proof.Machine.execWatchdog t st s
  | .windowDispatch t q imm => Sys2Proof.Machine.execWindowDispatch t q imm s
  | .windowMerge t q imm => Sys2Proof.Machine.execWindowMerge t q imm s
  | .selectionDeadline t q imm => Sys2Proof.Machine.execSelectionDeadline t q imm s
  | .matrixCommandStart t => Sys2Proof.Machine.execMatrixCommandStart t s
  | .matrixCommandRetire t => Sys2Proof.Machine.execMatrixCommandRetire t s
  | .matrixSettle t g => Sys2Proof.Machine.execMatrixSettle t g s
  | .imageInstall ctx image => Sys2Proof.Machine.execImageInstall ctx image s
  | .unloadComplete ctx => Sys2Proof.Machine.execUnloadComplete ctx s
  | .taskBind t => Sys2Proof.Machine.execTaskBind t s
  | .schedStall ctx => Sys2Proof.Machine.execSchedStall ctx s
  | .sliceStopTimer t => Sys2Proof.Machine.execSliceStopTimer t s
  | .stopAccept t => Sys2Proof.Machine.execStopAccept t s
  | .saveComplete t => Sys2Proof.Machine.execSaveComplete t s
  | .saveRetry t => Sys2Proof.Machine.execSaveRetry t s
  | .restoreComplete t => Sys2Proof.Machine.execRestoreComplete t s
  | .invalidationComplete ctx => Sys2Proof.Machine.execInvalidationComplete ctx s
  | .faultQueueConsPoll ctx => Sys2Proof.Machine.execFaultQueueConsPoll ctx s
  | .hotPageHalving => Sys2Proof.Machine.execHotPageHalving s
  | .migrationStart => Sys2Proof.Machine.execMigrationStart s
  | .migrationSwitch imm => Sys2Proof.Machine.execMigrationSwitch imm s
  | .pwrwarn => Sys2Proof.Machine.execPwrwarn s
  | .holdKillDeadline => Sys2Proof.Machine.execHoldKillDeadline s
  | .holdPowerDown => Sys2Proof.Machine.execHoldPowerDown s
  | .holdExitNominal => Sys2Proof.Machine.execHoldExitNominal s
  | .powerOnReset => Sys2Proof.Machine.execPowerOnReset s
  | .helloResend port => Sys2Proof.Machine.execHelloResend port s
  | .peerResend port => Sys2Proof.Machine.execPeerResend port s
  | .nolink port => Sys2Proof.Machine.execNolink port s
  | .writeAcknowledgement id => Sys2Proof.Machine.execWriteAcknowledgement id s
  | .scrubbingPass => Sys2Proof.Machine.execScrubbingPass s
  | .pwrwarnDeasserted => Sys2Proof.Machine.execPwrwarnDeasserted s
  | .imageUnload ctx handle => Sys2Proof.Machine.execImageUnload ctx handle s
  | .go slot => Sys2Proof.Machine.execGo slot s
  | .contextEntryWrite ctx word v => Sys2Proof.Machine.execContextEntryWrite ctx word v s
  | .invalidatePage ctx va => Sys2Proof.Machine.execInvalidatePage ctx va s
  | .invalidateContext ctx => Sys2Proof.Machine.execInvalidateContext ctx s
  | .retry ctx => Sys2Proof.Machine.execRetry ctx s
  | .skip ctx => Sys2Proof.Machine.execSkip ctx s
  | .status ctx => Sys2Proof.Machine.execStatus ctx s
  | .goto ctx => Sys2Proof.Machine.execGoto ctx s
  | .setx ctx => Sys2Proof.Machine.execSetx ctx s
  | .drop ctx => Sys2Proof.Machine.execDrop ctx s
  | .kill ctx => Sys2Proof.Machine.execKill ctx s
  | .contextKill ctx => Sys2Proof.Machine.execContextKill ctx s
  | .demote v => Sys2Proof.Machine.execDemote v s
  | .registerWrite off v => Sys2Proof.Machine.execRegisterWrite off v s
  | .info m => Sys2Proof.Machine.execInfo m s
  | .telemetry m => Sys2Proof.Machine.execTelemetry m s
  | .holdEnter m => Sys2Proof.Machine.execHoldEnter m s
  | .holdExit m => Sys2Proof.Machine.execHoldExit m s
  | .fwBegin m => Sys2Proof.Machine.execFwBegin m s
  | .fwChunk m => Sys2Proof.Machine.execFwChunk m s
  | .fwCommit m => Sys2Proof.Machine.execFwCommit m s
  | .fwAbort m => Sys2Proof.Machine.execFwAbort m s
  | .attest m => Sys2Proof.Machine.execAttest m s
  | .counter m => Sys2Proof.Machine.execCounter m s
  | .linkFatalError t => Sys2Proof.Machine.execLinkFatalError t s
  | .hello port m => Sys2Proof.Machine.execHello port m s
  | .write port m => Sys2Proof.Machine.execWrite port m s
  | .reduce port m => Sys2Proof.Machine.execReduce port m s
  | .flag port m => Sys2Proof.Machine.execFlag port m s
  | .ack port m => Sys2Proof.Machine.execAck port m s
  | .nak port m => Sys2Proof.Machine.execNak port m s
  | .softError addr => Sys2Proof.Machine.execSoftError addr s
  | .portLinkUp port => Sys2Proof.Machine.execPortLinkUp port s
  | .portDown port => Sys2Proof.Machine.execPortDown port s
  | .fcsFailedFrame port => Sys2Proof.Machine.execFcsFailedFrame port s
  | .cmdUnknown m => Sys2Proof.Machine.execCmdUnknown m s
  | .badForm ctx => Sys2Proof.Machine.execBadForm ctx s

end Sys2Proof.Machine
end

