-- ==== Sys2Proof/Machine/Bundle.lean ====
section
/-! DEFINITION. A stream's turn in a cycle: its bundle is fetched, issued, held or committed as a whole (chapters 06 and 07:
R116, R121, R125, R128 to R131, R134, R139, R146, R156, R157, R163, R164). -/

namespace Sys2Proof.Machine

/-- What one syllable did: it goes on, traps, holds the bundle, or ends the run. -/
inductive Ran
  | go (s : State)
  | trap (t : Trap)
  | hold (why : Nat) (s : State)
  | halt (o : Host.Outcome State Fault Refusal)

/-- What the syllables of a bundle did: the state with the effects of those that go on, the traps, and those that hold
the bundle. -/
structure Tally where
  s : State
  traps : List Trap
  holds : List (Item × Nat)
  halt : Option (Host.Outcome State Fault Refusal)

/-- Goes on with a next state; a fault or a refusal stays. -/
def thenDo (o : Host.Outcome State Fault Refusal) (f : State → Host.Outcome State Fault Refusal) :
    Host.Outcome State Fault Refusal :=
  match o with
  | .next s => f s
  | o => o

/-- Turns taken one after another. -/
def inOrder {α : Type} (f : α → State → Host.Outcome State Fault Refusal) : List α → State →
    Host.Outcome State Fault Refusal
  | [], s => .next s
  | x :: l, s => thenDo (f x s) (inOrder f l)

/-! ### The vector registers that a syllable reads (R157) -/

/-- The v source fields of an instruction; VQNT's names a group of registers (R235), which the bundle's reads list. -/
def vSources : Instr → List VSrc
  | .vadd _ _ a b _ | .vsub _ _ a b _ | .vmul _ _ a b _ | .vmin _ _ a b _ | .vmax _ _ a b _ => [a, b]
  | .vaddVI _ _ a _ _ | .vsubVI _ _ a _ _ | .vmulVI _ _ a _ _ | .vminVI _ _ a _ _ | .vmaxVI _ _ a _ _ => [a]
  | .vfma _ _ a b c _ => [a, b, c]
  | .vabs _ _ a _ | .vneg _ _ a _ | .vrcp _ _ a _ | .vrsq _ _ a _ | .vexp2 _ _ a _ | .vlog2 _ _ a _ => [a]
  | .vcmp _ _ _ a b _ | .vsel _ _ a b _ _ => [a, b]
  | .viadd _ _ a b _ | .visub _ _ a b _ | .vimul _ _ a b _ | .vand _ _ a b _ | .vor _ _ a b _ | .vxor _ _ a b _ => [a, b]
  | .vshl _ _ a b _ | .vshr _ _ a b _ | .vsar _ _ a b _ => [a, b]
  | .viaddVI _ _ a _ _ | .visubVI _ _ a _ _ | .vimulVI _ _ a _ _ | .vandVI _ _ a _ _ | .vorVI _ _ a _ _ => [a]
  | .vxorVI _ _ a _ _ | .vshlVI _ _ a _ _ | .vshrVI _ _ a _ _ | .vsarVI _ _ a _ _ => [a]
  | .vcvt _ _ _ _ _ a _ | .vdqnt _ _ _ _ a _ _ => [a]
  | .vrsum _ _ a _ | .vrmax _ _ a _ | .vrmin _ _ a _ => [a]
  | .vperm _ _ a b _ | .vslide _ _ a b _ _ | .vzip _ _ _ a b _ | .vunzip _ _ _ a b _ => [a, b]
  | .vmov _ _ (.inl a) _ => [a]
  | .vext _ _ a _ => [a]
  | .vst v _ _ | .vste v _ _ => [v]
  | .vsts _ v _ _ _ _ => [v]
  | .vgth _ _ _ b _ _ => [b]
  | .vsct _ v _ b _ _ => [v, b]
  | _ => []

/-- The counts of bank reads with one more for each register that still finds a port; and the registers collected. -/
def takePorts : List (Fin 384) → Vector Nat 8 → List (Fin 384) → Vector Nat 8 × List (Fin 384) × Bool
  | [], used, got => (used, got, true)
  | n :: l, used, got =>
    let b : Fin 8 := Fin.ofNat 8 (n.val / 48)
    if used.get b < 3 then takePorts l (upd used b (used.get b + 1)) (n :: got)
    else
      let r := takePorts l used got
      (r.1, r.2.1, false)

namespace State

/-- The v registers that a bundle reads, each once (R157, R227, R235). -/
def vReads (s : State) (items : List Item) : List (Fin 384) :=
  (items.flatMap fun it => match it.ins with
    | .ok (.vqnt _ bf _ a _) => match s.vqntGroup a (if bf then 2 else 4) with
      | .ok l => l
      | .error _ => []
    | .ok i => (vSources i).flatMap s.vNames
    | .error _ => []).eraseDups

/-- The bundle in hand collects the reads that it lacks (R157): the state with the ports taken, and whether it has all. -/
def collect (s : State) (items : List Item) : State × Bool :=
  let r := takePorts ((s.vReads items).filter fun n => !s.strm.got.contains n) s.tile.vused s.strm.got
  let s := s.modTile s.cur.tile fun tl => { tl with vused := r.1 }
  (s.modStrm fun st => { st with got := r.2.1, refused := !r.2.2 }, r.2.2)

/-! ### Issuing syllables (R164) -/

/-- A stream in hand at the start of its turn; with `only` set, its wait is decided and nothing commits (R131). -/
def inHand (s : State) (t : Fin 144) (g : Fin 4) (only : Bool) : State :=
  { s with cur := { Cursor.reset with tile := t, group := g, mark := 8 * s.now, blocked := only } }

/-- A bundle in hand. -/
def withBundle (s : State) (b : Bundle) : State :=
  { s with cur := { s.cur with pc := s.strm.pc, len := b.len, gap := b.gap, rings := b.rings } }

/-- A syllable in hand. -/
def withItem (s : State) (it : Item) : State :=
  { s with cur := { s.cur with slot := it.slot, word := it.word, flow := .go } }

/-- One syllable runs. -/
def runItem (s : State) (it : Item) : Ran :=
  match it.ins with
  | .error t => .trap t
  | .ok i => match exec i (s.withItem it) with
    | .next s' => match s'.cur.flow with
      | .go => .go s'
      | .trapped t => .trap t
      | .stalled why => .hold why s'
    | o => .halt o

/-- The syllables of a bundle run one after another; one that traps or holds leaves no effect. -/
def runAll (s : State) (items : List Item) : Tally :=
  items.foldl (fun r it => match r.s.runItem it with
    | .go s => { r with s := s }
    | .trap t => { r with traps := r.traps ++ [t] }
    | .hold why _ => { r with holds := r.holds ++ [(it, why)] }
    | .halt o => { r with halt := some o }) ⟨s, [], [], none⟩

end State

/-- Is a syllable TFENCE (R223)? -/
def isTfence (it : Item) : Bool := match it.ins with | .ok .tfence => true | _ => false

/-- Is a syllable a control transfer? Its effect on the loop stack, the PC and the stream comes after every other syllable
(R164). -/
def isTurn (it : Item) : Bool := isTransfer it.slot it.word

/-- The syllables of a bundle in the order in which they run: by slot, then TFENCE, which sees every MTS of the bundle
(R223), then the control transfer (R164). -/
def runOrder (items : List Item) : List Item :=
  (items.filter fun it => !isTfence it && !isTurn it) ++ items.filter isTfence ++ items.filter isTurn

/-- The trap of the lowest slot (R60). -/
def lowestTrap : List Trap → Option Trap
  | [] => none
  | t :: l => match lowestTrap l with
    | some u => if u.slot.val < t.slot.val then some u else some t
    | none => some t

/-- Is a syllable held for rows of the scratchpad alone (R243)? -/
def forRows (h : Item × Nat) : Bool := h.2 == 9

/-- The reason of a held bundle, with its slot: the first that is a stall of R125, else 0. -/
def holdReason (l : List (Item × Nat)) : Nat × Fin 8 :=
  match l.find? fun h => h.2 != 0 && !forRows h with
  | some h => (h.2, h.1.slot)
  | none => (0, 0)

namespace State

/-- The repeat latches of the slots that a bundle issues (R41). The latches that a STATUS resume lent its bundle go, but for
those of the slots it issues (R387). -/
def setLatches (s : State) (items : List Item) : State :=
  let lent := (s.strm.wait.map fun w => w.forced).getD false
  s.modRegs fun r => { r with
    latch := items.foldl (fun v it => upd v it.slot (some ⟨it.word, it.lits⟩))
      (if lent then r.clearLatches s.strm.members else r).latch }

/-- What held syllables keep from cycle to cycle: translations, rows, fills, settling. -/
def keepHolds (s : State) (l : List (Item × Nat)) : State :=
  l.foldl (fun s h => match s.runItem h.1 with
    | .hold _ s' => s'
    | _ => s) s

/-- The cycles of the bank ports that the bundle in hand still needs for reads it has not collected (R157). -/
def readsLeft (s : State) (items : List Item) : Nat :=
  let left := (s.vReads items).filter fun n => !s.strm.got.contains n
  left.foldl (fun m n => max m (((left.filter fun x => x.val / 48 == n.val / 48).length + 2) / 3)) 0

/-- The cycles for which a syllable that is not held for rows keeps its bundle, where they are known: the rest of its
translations, or of a TFENCE. -/
def lagOf (s : State) (h : Item × Nat) : Option Nat :=
  let l := s.strm.xlat.filter fun x => x.out.isNone && x.slot == h.1.slot
  if isTfence h.1 then s.strm.holdTo.map fun d => d - s.now
  else if h.2 = 0 ∧ l ≠ [] then some (l.foldl (fun m x => max m (x.due - s.now)) 0)
  else none

/-- Turns put at the head of the agenda. -/
def push (s : State) (l : List Turn) : State := { s with agenda := l ++ s.agenda }

/-- The limit of an issue stall (R125): from gdl, with a budget of at least 1,024 ticks, which dlmax still caps: the rule
does not say which of the two comes first (DESIGN CHOICE, log 76). -/
def stallFrom (s : State) : Nat :=
  let v := s.deadline .gdl
  (s.firstFrame v.1 (if v.1 then v.2 else max 1024 v.2)).limit

/-- The bundle in hand has issued: its task is resident from this cycle at the latest (R110), and DLMK and CLKRD read the clocks
of this cycle (R126, R127). -/
def issued (s : State) : State :=
  (s.modTile s.cur.tile fun tl => { tl with sched := { tl.sched with ticking := tl.sched.resident } }).modStrm fun st =>
    { st with clocks := some (s.issueClocks) }

/-- The stream in hand is held (R125): for a reason of R385 it has a limit, fresh for each such stall, and is a stop
point. -/
def heldAt (s : State) (why : Nat) (slot : Fin 8) : State :=
  if why = 0 then s.modStrm fun st => { st with stallWhy := 0, stallLimit := none, refused := false }
  else
    let l := if s.strm.stallWhy = why then s.strm.stallLimit.getD s.stallFrom else s.stallFrom
    if l ≤ s.clk.wclock then
      (s.modStrm fun st => { st with stallWhy := why, stallSlot := slot, stallLimit := some l }).push
        [.event (.issueDeadline s.cur.tile s.cur.group)]
    else if s.tile.sys.stop then
      (s.undoRows s.cur.tile s.strm.rowGot).modStrm fun st => { st.anew with stopped := true }
    else s.modStrm fun st => { st with stallWhy := why, stallSlot := slot, stallLimit := some l, refused := false }

/-- A bundle stays held. What its syllables keep is kept; one that is held for rows alone, or for a time that is known,
takes the rows of this cycle, and while nothing else holds it it collects bank reads (R157, R243). One that a stall of R125
holds has not issued, unless it waits, which its first cycle began. -/
def heldBundle (s : State) (items : List Item) (l : List (Item × Nat)) : State :=
  let rest := l.filter fun h => !forRows h
  let s := s.keepHolds rest
  let r := holdReason l
  let s := if r.1 = 0 ∨ s.strm.wait.isSome then s.issued else s.modStrm fun st => { st with holdTo := none }
  let s := s.heldAt r.1 r.2
  if !l.any forRows then s
  else
    let s := if rest.isEmpty then (s.collect items).1 else s
    match rest.mapM s.lagOf with
    | none => s
    | some lags =>
      let lag := lags.foldl max (if rest.isEmpty then s.readsLeft items else 0)
      ({ s with cur := { s.cur with lag } }).keepHolds (l.filter forRows)

/-! ### Commit (R134, R139, R140, R164) -/

/-- The stream in hand goes on after its bundle: `s0` is the state in which the bundle read its sources. After a FORK or a
JOIN the streams that now hold its slots go on; a YIELD beside it makes its bundle a stop point for them too (R406, R411). -/
def advance (s s0 : State) : State :=
  if s.cur.moved then
    if s.cur.stopPt && s.tile.sys.stop then s.modTile s.cur.tile fun tl => { tl with
      streams := tl.streams.map fun st => st.map fun st =>
        if st.members &&& s0.strm.members = 0 then st else { st with stopped := true } }
    else s
  else
    let st := s.strm
    let c := s.cur
    let r := match c.target with
      | some a => (st.loops, a, false)
      | none => backEdge s0.exits c.pc (c.pc + c.len) 5 st.loops
    s.modStrm fun st => { st.anew with
      loops := r.1, pc := r.2.1
      readyAt := s.now + 1 + (if c.penalty then max c.gap 2 else c.gap)
      stopped := s.tile.sys.stop && (c.stopPt || r.2.2) }

/-- A bundle commits: condition-bit sets wait for its writes (R142), and its stream goes on. -/
def commit (s s0 : State) (used : Vector Nat 8) : State :=
  ((s.settleSets s0.strm.members).modTile s.cur.tile fun tl => { tl with
    vused := used, sched := { tl.sched with ticking := tl.sched.resident } }).advance s0

/-- Is a trap the DATA_ERROR of source 4, which a bundle raises in the cycle of its tile's verification (R289, R386)? -/
def isSettled (t : Trap) : Bool := t.kind == .dataError && t.info0 == 4

/-- Is a trap found only in the commit cycle, so that it does not end a hold: PORT_CONFLICT, BYPASS_INVALID, DATA_ERROR
but that of a verification? -/
def atCommit (t : Trap) : Bool :=
  t.kind == .portConflict || t.kind == .bypassInvalid || (t.kind == .dataError && !isSettled t)

/-- Is a syllable's trap one that its issue finds whatever its operands hold (R60, R131, R138, R150, R186)? Every other
trap of a bundle that waits is one of its commit cycle, in which its syllables read their sources. -/
def atIssue (it : Item) (t : Trap) : Bool :=
  match t.kind, it.ins with
  | _, .error _ => true
  | .dataError, _ => isSettled t
  | .illegal, _ | .repeatInvalid, _ | .loopNest, _ | .trap, _ | .breakpoint, _ => true
  | .privilege, .ok (.mts ..) => true
  | .fetchFault, .ok (.jmp ..) | .fetchFault, .ok (.call ..) | .fetchFault, .ok (.loop ..)
  | .fetchFault, .ok (.loopx ..) | .fetchFault, .ok (.fork ..) => true
  | _, _ => false

/-- The traps that the issue of syllables finds whatever their operands hold. -/
def issueTraps (items : List Item) (traps : List Trap) : List Trap :=
  traps.filter fun t => items.any fun it => it.slot == t.slot && atIssue it t

/-- The fetches that the syllables of a bundle make beside its own (R133, R138). -/
def touchAll (s : State) (items : List Item) : State :=
  items.foldl (fun s it => match it.ins with
    | .ok i => s.touches i
    | .error _ => s) s

/-- A bundle that holds no waiting syllable. Its operands are those of its commit cycle, so that a bundle which still
lacks bank reads traps only for what its issue finds (R153, R156, R157, R163). -/
def plainTurn (s : State) (items : List Item) : Host.Outcome State Fault Refusal :=
  let r := (s.setLatches items).runAll (runOrder items)
  match r.halt with
  | some o => o
  | none =>
    if r.holds ≠ [] then
      match lowestTrap (r.traps.filter fun t => !atCommit t) with
      | some t => .next (s.enterTrap t)
      | none => .next (s.heldBundle items r.holds)
    else match (s.heldAt 0 0).collect items with
      | (s', false) => match lowestTrap (issueTraps items r.traps) with
        | some t => .next (s.enterTrap t)
        | none => .next s'.issued
      | (s', true) => match lowestTrap r.traps with
        | some t => .next (s.enterTrap t)
        | none => .next (r.s.commit s s'.tile.vused)

/-! ### Waiting bundles (R116, R121, R131, R146) -/

/-- The syllable of a bundle that waits. -/
def waiter (items : List Item) : Option Item := items.find? fun it => isWaiting it.slot it.word

/-- Must a waiting bundle not begin its wait: traps and holds that its other syllables meet at issue (R60, R125, R146)? A
JOIN arrives only when its bundle has passed every check and obtained all that it needs; another wait begins unless its
issue finds a trap or an engine's queue is full. -/
def beforeWait (s : State) (w : Item) (others : List Item) : List Trap × List (Item × Nat) :=
  let r := s.runAll (runOrder others)
  match w.ins with
  | .ok (.join ..) =>
    (r.traps.filter fun t => !atCommit t, r.holds.filter fun h => !forRows h)
  | _ =>
    (issueTraps others r.traps,
      r.holds.filter fun h => h.2 == 2 || h.2 == 3)

/-- The wait of the stream in hand is abandoned for a stop (R121): its frame is kept. -/
def abandonWait (s : State) (wt : Wait) : State :=
  s.modStrm fun st => { st.anew with wait := none, again := some wt.frame, stopped := true }

/-- The request of a wait at its home is withdrawn for a stop, once (R121). -/
def askWithdrawal (s : State) (wt : Wait) (id : Nat) : State :=
  let s := { s with cur := { s.cur with slot := wt.slot } }
  if wt.withdrawn then s
  else match (s.hubs.reqs ++ s.hubs.waits).find? fun r => r.id == id && r.tile == s.cur.tile with
    | some r => (s.ask (.withdraw id) r.obj r.die wt.frame.limit .none).2.keepWait { wt with withdrawn := true }
    | none => s

/-- A stop request reaches the parked groups of a tile that keep a wait pending: it is abandoned, or its withdrawal leaves
(R121, R387). A JOIN that parked on a mismatch has no arrival left. -/
def stopParked (s : State) (t : Fin 144) : State :=
  if !(s.tileAt t).sys.stop then s
  else (List.finRange 4).foldl (fun s g =>
    let st := s.streamAt t g
    match st.park, st.wait with
    | some p, some wt =>
      if wt.dec.isSome ∨ p.trap.kind = .joinMismatch then s
      else match wt.sent with
        | none => s.setStream t g (some { st with wait := none, again := some wt.frame })
        | some id => match wt.ins with
          | .scatom .. => s
          | _ => (s.inHand t g false).askWithdrawal wt id
    | _, _ => s) s

/-- A wait that stays undecided: it is no stall (R125); its limit, and a stop request (R116, R121). A limit that has come is
decided at once when several streams take their turns together, else by the turns that follow. -/
def undecided (s : State) : Host.Outcome State Fault Refusal :=
  let s := if s.strm.stallLimit.isNone then s else s.heldAt 0 0
  match s.strm.wait with
  | none => .next (s.heldAt 0 0)
  | some wt =>
    let t := s.cur.tile
    let g := s.cur.group
    match wt.dec, wt.sent, wt.ins with
    | some _, _, _ => .next s
    | none, _, .join .. => .next s
    | none, none, _ =>
      if wt.frame.limit ≤ s.clk.wclock then
        if s.cur.blocked then execWaitTimeout t g s else .next (s.push [.event (.waitTimeout t g), .stream t g])
      else if s.tile.sys.stop then .next (s.abandonWait wt)
      else .next s
    | none, some _, .scatom .. => .next s
    | none, some id, _ => .next (if s.tile.sys.stop then s.askWithdrawal wt id else s)

/-- The wait in hand keeps its decision and its effect while its bundle cannot commit yet (R131). -/
def decidedOnly (s : State) (w : Item) : State :=
  match ({ s with cur := { s.cur with blocked := true } }).runItem w with
  | .hold _ s' => s'
  | _ => s

/-- A waiting bundle whose wait is decided: it commits, or waits for what its other syllables lack. -/
def decidedTurn (s : State) (items : List Item) (w : Item) : Host.Outcome State Fault Refusal :=
  let r := (s.setLatches items).runAll (runOrder items)
  match r.halt with
  | some o => o
  | none =>
    if r.holds ≠ [] then
      match lowestTrap (r.traps.filter fun t => !atCommit t) with
      | some t => .next (s.enterTrap t)
      | none => .next ((s.decidedOnly w).countWait.heldBundle items (r.holds.filter fun h => h.1.slot != w.slot))
    else match (s.heldAt 0 0).collect items with
      | (_, false) => match lowestTrap ((issueTraps items r.traps) ++ r.traps.filter fun t => t.kind == .deadlineEscalation) with
        | some t => .next (s.enterTrap t)
        | none => .next (((s.decidedOnly w).countWait.issued.heldAt 0 0).collect items).1
      | (s', true) => match lowestTrap r.traps with
        | some t => .next (s.enterTrap t)
        | none => .next (r.s.commit s s'.tile.vused)

/-- The traps of the TFENCEs of a bundle whose wait is not decided (R223). -/
def fenceTraps (s : State) (items : List Item) : List Trap := (s.runAll (items.filter isTfence)).traps

/-- A TFENCE beside a wait that is not decided is held to its cycle d from its issue on (R223). -/
def keepFence (s : State) (items : List Item) : State :=
  if items.any isTfence then s.modStrm fun st => { st with holdTo := some (st.holdTo.getD s.landedBy) } else s

/-- A bundle that holds a waiting syllable. -/
def waitingTurn (s : State) (items : List Item) (w : Item) : Host.Outcome State Fault Refusal :=
  let pre := if s.strm.wait.isNone then s.beforeWait w (items.filter fun it => it.slot != w.slot) else ([], [])
  let go (traps : List Trap) (f : Unit → Host.Outcome State Fault Refusal) : Host.Outcome State Fault Refusal :=
    match lowestTrap traps with
    | some t => .next (s.enterTrap t)
    | none =>
      if pre.2 ≠ [] then
        let h := holdReason pre.2
        let s := s.keepHolds pre.2
        .next ((if h.1 = 0 then s.issued else s.modStrm fun st => { st with holdTo := none }).heldAt h.1 h.2)
      else f ()
  match s.runItem w with
  | .halt o => o
  | .trap t => go (t :: pre.1) fun _ => .next s
  | .hold _ s' => go (pre.1 ++ s.fenceTraps items) fun _ => (s'.keepFence items).issued.undecided
  | .go _ => go pre.1 fun _ => (s.touchAll items).decidedTurn items w

/-! ### A stream's turn -/

/-- The lines that a fetch of `n` bytes takes from the instruction buffer (R133). -/
def useLines (s : State) (pc n : Nat) : State :=
  (List.range ((pc + n - 1) / 256 + 1 - pc / 256)).foldl (fun s i => s.useLine (s.codeLine pc + i)) s

/-- Unreadable lines leave the instruction buffer, so that a resume fetches them again (R132). -/
def dropUnreadable (s : State) : State :=
  s.modTile s.cur.tile fun tl => { tl with ibuf := tl.ibuf.filter fun e => e.2.isSome }

/-- Does a tile run a task (R110)? -/
def runs (s : State) (t : Fin 144) : Bool :=
  let y := (s.tileAt t).sched
  y.resident && !y.killed && (match y.job with | .none => true | _ => false)

/-- May stream `g` of a tile take its turn now? A pending JOIN is decided for the whole tile (R146). -/
def mayTurn (s : State) (t : Fin 144) (g : Fin 4) : Bool :=
  s.runs t && match (s.tileAt t).streams.get g with
    | some st => st.park.isNone && !st.stopped && decide (st.readyAt ≤ s.now) && (pendingJoin st).isNone
    | none => false

/-- A line is missing (R125, R133). -/
def missed (s : State) (line : Nat) : State := (s.requestLine line).heldAt 1 0

/-- The bytes that the fetch of a bundle reads: its own, and the word after a LOOP or LOOPX bundle, which may be a loop header
(R46). -/
def fetchBytes (s : State) (b : Bundle) : Nat :=
  b.len + if (b.items.any fun i => isLoop i.word) && decide (s.strm.pc + b.len + 8 ≤ s.codeLen) then 8 else 0

/-- A bundle's fetch is complete: its lines are used, and its words stay in hand until it commits, parks or is given up (R133). -/
def begun (s : State) (b : Bundle) : State :=
  if s.strm.words ≠ [] then s
  else
    let pc := s.strm.pc
    let n := s.fetchBytes b
    let ws := (List.range (n / 8)).filterMap fun i => (s.codeWord (pc + 8 * i)).join.map fun w => (pc + 8 * i, w)
    (s.useLines pc n).modStrm fun st => { st with words := ws }

/-- The bundle at the PC of the stream in hand is issued. -/
def issue (s : State) : Host.Outcome State Fault Refusal :=
  match fetch s s.strm.pc with
  | .fault t n => .next ((if n = 0 then s else s.useLines s.strm.pc n).dropUnreadable.enterTrap t)
  | .miss line => .next (s.missed line)
  | .bundle b =>
    let s := (s.begun b).withBundle b
    match waiter b.items with
    | none => (s.touchAll b.items).plainTurn b.items
    | some w => s.waitingTurn b.items w

/-- The turn of stream `g` of a tile (R129). -/
def streamTurn (s : State) (t : Fin 144) (g : Fin 4) (only : Bool) : Host.Outcome State Fault Refusal :=
  if s.mayTurn t g then (s.inHand t g only).issue else .next s

/-! ### Several group streams in one cycle (R116, R123, R131, R144, R146, R157, R165) -/

/-- The slot of the syllable that waits in the bundle of a stream; nothing where no syllable does. -/
def waitSlot (s : State) (t : Fin 144) (g : Fin 4) : Option (Fin 8) :=
  match fetch (s.inHand t g false) (s.streamAt t g).pc with
  | .bundle b => (waiter b.items).map fun w => w.slot
  | _ => none

/-- Groups in the order of a key. -/
def inSlotOrder (key : Fin 4 → Nat) (l : List (Fin 4)) : List (Fin 4) :=
  l.foldl (fun l g => l.takeWhile (fun h => decide (key h ≤ key g)) ++ g :: l.dropWhile fun h => decide (key h ≤ key g)) []

/-- The trap on which a group is parked. -/
def parkedOn (s : State) (t : Fin 144) (g : Fin 4) : Option Trap := (s.streamAt t g).park.map fun p => p.trap

/-- Does the turn of a stream that may take one now end in a trap? -/
def wouldTrap (s : State) (t : Fin 144) (g : Fin 4) : Option Trap :=
  if s.mayTurn t g then
    match s.streamTurn t g false with
    | .next s' => s'.parkedOn t g
    | _ => none
  else none

/-- The wait of a stream is decided: it escalates, or its bundle is one of those that trap in this cycle, or its effect on toc
is counted, known to the waits of higher slots (R123, R124). What a wait decided OK in this cycle has taken is given back
when its bundle traps (R164); `s0` is the state before its decision. -/
def planWait (s s0 : State) (t : Fin 144) (bad : List (Fin 4)) (g : Fin 4) : State :=
  match (s.streamAt t g).wait with
  | none => s
  | some wt => match wt.dec with
    | none => s
    | some d =>
      let h := s.inHand t g false
      if h.escalates wt d then h.enterTrap (h.escalation wt d)
      else match (if bad.contains g then s.wouldTrap t g else none) with
        | some tr => ((if d.code = 1 ∨ d.code = 2 then s else s0).inHand t g false).enterTrap tr
        | none => h.countWait

/-- Does the bundle of a stream hold a JOIN? -/
def holdsJoin (s : State) (t : Fin 144) (g : Fin 4) : Bool :=
  match fetch (s.inHand t g false) (s.streamAt t g).pc with
  | .bundle b => b.items.any fun it => match it.ins with | .ok (.join ..) => true | _ => false
  | _ => false

/-- A JOIN bundle is issued, and its arrival becomes pending (R146). -/
def joinArrives (t : Fin 144) (g : Fin 4) (s : State) : Host.Outcome State Fault Refusal :=
  if s.holdsJoin t g && ((s.streamAt t g).wait.bind fun w => w.dec).isNone then s.streamTurn t g true else .next s

/-- A wait decided at the tile is evaluated, in the order of the waiting slots (R116, R144). -/
def evaluateWait (t : Fin 144) (bad : List (Fin 4)) (g : Fin 4) (s : State) : Host.Outcome State Fault Refusal :=
  if (s.waitSlot t g).isNone ∨ !s.mayTurn t g then .next s
  else if ((s.streamAt t g).wait.bind fun w => w.dec).isSome then .next (s.planWait s t bad g)
  else if s.holdsJoin t g then .next s
  else thenDo (s.streamTurn t g true) fun s' => .next (s'.planWait s t bad g)

/-- GM of a JOIN that has been decided OK and has not merged yet (R146). -/
def mergingJoin (st : Stream) : Option (BitVec 4) :=
  match st.wait, st.park with
  | some wt, none => match wt.ins, wt.dec with
    | .join gm _, some d => if d.code = 0 then some gm else none
    | _, _ => none
  | _, _ => none

/-- Is a group one of those that a GM names and whose JOIN with that GM has been decided OK? -/
def merging (s : State) (t : Fin 144) (gm : BitVec 4) (g : Fin 4) : Bool :=
  match (s.tileAt t).streams.get g with
  | some st => mergingJoin st == some gm
  | none => false

/-- The groups of a GM. -/
def partsOf (gm : BitVec 4) : List (Fin 4) := (List.finRange 4).filter fun g => gm.getLsbD g.val

/-- The decision of a JOIN recorded or undone. -/
def setDec (s : State) (t : Fin 144) (g : Fin 4) (dec : Option Decision) : State :=
  s.setStream t g (some { s.streamAt t g with wait := (s.streamAt t g).wait.map fun w => { w with dec } })

/-- A merge that a parked group has left is not decided: the others are pending again (R146). -/
def undoMerge (t : Fin 144) (s : State) (g : Fin 4) : State :=
  match ((s.tileAt t).streams.get g).bind mergingJoin with
  | some gm =>
    if (partsOf gm).all (s.merging t gm) then s
    else
      let st := s.streamAt t g
      (s.setStream t g (some { st with wait := st.wait.map fun w => { w with dec := none, told := false } })).modTile t
        fun tl => { tl with sys := { tl.sys with
          tocOps := tl.sys.tocOps.filter fun e => e.done || !st.members.getLsbD e.slot.val } }
  | none => s

/-- The JOIN of group `g` decided OK. -/
def joined (t : Fin 144) (s : State) (g : Fin 4) : State :=
  s.setDec t g (some ⟨0, 0, s.leftOf (((s.streamAt t g).wait.map fun w => w.frame.limit).getD 0)⟩)

/-- The merge of a GM is decided when every group it names is pending; a group whose bundle would trap parks instead, and
the others stay pending (R146); `bad` names the groups whose bundles trap in this cycle. -/
def decideMerge (t : Fin 144) (bad : List (Fin 4)) (s : State) (gm : BitVec 4) : State :=
  if (s.inHand t 0 false).joinMissing gm ≠ 0 then s
  else
    let s' := (partsOf gm).foldl (joined t) s
    let bad := ((partsOf gm).filter bad.contains).filterMap fun g => (s'.wouldTrap t g).map fun tr => (g, tr)
    if bad = [] then s' else bad.foldl (fun s b => (s.inHand t b.1 false).enterTrap b.2) s

/-- A JOIN still pending after the merges of the cycle: its limit, and a stop request. Of JOINs with one GM that reach their
limits in one cycle each is decided after those of lower-numbered groups, so that its DETAIL no longer counts them as
pending; the spec does not say (DESIGN CHOICE, log 77). -/
def joinRest (t : Fin 144) (g : Fin 4) (s : State) : Host.Outcome State Fault Refusal :=
  match (s.tileAt t).streams.get g with
  | none => .next s
  | some st => match pendingJoin st, st.wait with
    | some _, some wt =>
      if wt.frame.limit ≤ s.clk.wclock then execWaitTimeout t g s
      else if (s.tileAt t).sys.stop then .next ((s.inHand t g false).abandonWait wt)
      else .next s
    | _, _ => .next s

/-- A stream collects its bank reads, when nothing else holds its bundle (R157). -/
def collectTurn (t : Fin 144) (s : State) (g : Fin 4) : State :=
  if !s.mayTurn t g then s
  else match fetch (s.inHand t g false) (s.streamAt t g).pc with
  | .bundle b =>
    let s1 := ((s.inHand t g false).begun b).withBundle b
    if (waiter b.items).isSome && ((s.streamAt t g).wait.bind fun w => w.dec).isNone then s
    else if ((s1.setLatches b.items).runAll (runOrder b.items)).holds.any fun h => !forRows h then s
    else (s1.collect b.items).1
  | _ => s

/-- A stream's bundle commits or stays held. One that waits commits once its wait is decided; the bundles of a merge in
`skip` commit nothing, since not all of them can in this cycle (R131, R146). -/
def commitTurn (t : Fin 144) (skip : List (BitVec 4)) (g : Fin 4) (s : State) : Host.Outcome State Fault Refusal :=
  if (s.waitSlot t g).isSome && ((s.streamAt t g).wait.bind fun w => w.dec).isNone then .next s
  else match ((s.tileAt t).streams.get g).bind mergingJoin with
    | some gm =>
      if skip.contains gm then
        thenDo (s.streamTurn t g false) fun s' =>
          .next (if s'.merging t gm g || (s'.parkedOn t g).isSome then s' else s)
      else s.streamTurn t g false
    | none => s.streamTurn t g false

/-- The merges that were decided and that these commits do not complete (R146). -/
def unfinished (s : State) (t : Fin 144) (o : Host.Outcome State Fault Refusal) : List (BitVec 4) :=
  match o with
  | .next s' => ((List.finRange 4).filterMap fun g => ((s.tileAt t).streams.get g).bind mergingJoin).eraseDups.filter fun gm =>
      (partsOf gm).any fun g => s'.merging t gm g || (s'.streamAt t g).joined.isSome || (s'.parkedOn t g).isSome
  | _ => []

/-- The MTS that a run of the commits leaves, for the TFENCEs of the cycle (R223). -/
def planMts (s : State) (t : Fin 144) (o : Host.Outcome State Fault Refusal) : State :=
  match o with
  | .next s' => s.modTile t fun tl => { tl with sys := { tl.sys with mtsPlan := (s'.tileAt t).sys.mts } }
  | _ => s

/-- The commits of a cycle, by lowest member slot (R165). What they do is tried first, to learn which merges they complete
and which MTS they make. -/
def commitAll (t : Fin 144) (s : State) : Host.Outcome State Fault Refusal :=
  let order := inSlotOrder (fun g => (s.streamAt t g).lowSlot.val) ((List.finRange 4).filter fun g => s.mayTurn t g)
  let o1 := inOrder (commitTurn t []) order s
  let skip1 := s.unfinished t o1
  let o2 := inOrder (commitTurn t skip1) order (s.planMts t o1)
  let skip2 := (skip1 ++ s.unfinished t o2).eraseDups
  inOrder (commitTurn t skip2) order (s.planMts t o2)

/-- The groups whose waits are decided and whose bundles, with the bank reads that this cycle gives them, end in a trap. -/
def trapping (s : State) (t : Fin 144) : List (Fin 4) :=
  (List.finRange 4).filter fun g =>
    ((s.streamAt t g).wait.bind fun w => w.dec).isSome && (s.wouldTrap t g).isSome

/-- The waits of a tile in a cycle, up to its commits: merges and the JOINs that time out are decided (R146); the other waits
that the tile decides are, by their slots (R144, R123); and bank ports go first to the streams refused any in the last
cycle, then by lowest member slot (R157). A bundle whose wait is decided and which then traps in this very cycle, its
reads collected, has taken nothing (R164), so that the waits are decided anew with its trap in its place (R123, R131). -/
def settleWaits (t : Fin 144) : Nat → List (Fin 4) → State → Host.Outcome State Fault Refusal
  | 0, _, s => .next s
  | k + 1, bad, s =>
    let gs := List.finRange 4
    let bySlot (s : State) : List (Fin 4) :=
      inSlotOrder (fun g => ((s.waitSlot t g).map fun i => i.val).getD 8) (gs.filter fun g => s.mayTurn t g)
    let gms := (gs.filterMap fun g => (((s.tileAt t).streams.get g).bind pendingJoin).map fun j => j.1).eraseDups
    thenDo (inOrder (joinRest t) gs (gms.foldl (decideMerge t bad) s)) fun s1 =>
      thenDo (inOrder (evaluateWait t bad) (bySlot s1) s1) fun s2 =>
        let key (g : Fin 4) : Nat := (if (s2.streamAt t g).refused then 0 else 8) + (s2.streamAt t g).lowSlot.val
        let s3 := (inSlotOrder key gs).foldl (collectTurn t) s2
        match (s3.trapping t).filter fun g => !bad.contains g with
        | [] => .next s3
        | new => settleWaits t k (bad ++ new) s

/-- A cycle of a tile with several group streams: JOINs arrive, waits are decided, and the bundles that can commit do, by lowest
member slot (R146, R131, R165). -/
def groupsOnce (s : State) (t : Fin 144) : Host.Outcome State Fault Refusal :=
  let gs := List.finRange 4
  let bySlot (s : State) : List (Fin 4) :=
    inSlotOrder (fun g => ((s.waitSlot t g).map fun i => i.val).getD 8) (gs.filter fun g => s.mayTurn t g)
  thenDo (inOrder (joinArrives t) (bySlot s) (gs.foldl (undoMerge t) s)) fun s =>
    thenDo (settleWaits t 5 [] s) (commitAll t)

/-- Does the bundle of a stream hold a TFENCE? -/
def holdsFence (s : State) (t : Fin 144) (g : Fin 4) : Bool :=
  match fetch (s.inHand t g false) (s.streamAt t g).pc with
  | .bundle b => b.items.any isTfence
  | _ => false

/-- The cycle of the groups. Where one holds a TFENCE it is tried first, to learn which MTS the groups commit in it, which
that TFENCE sees whatever the order (R223). -/
def groupsTurn (s : State) (t : Fin 144) : Host.Outcome State Fault Refusal :=
  if (List.finRange 4).any fun g => s.mayTurn t g && s.holdsFence t g then
    let s1 := s.planMts t (s.groupsOnce t)
    (s1.planMts t (s1.groupsOnce t)).groupsOnce t
  else s.groupsOnce t

end State

end Sys2Proof.Machine
end

