-- ==== Sys2Proof/Machine/Cycle.lean ====
section
/-! DEFINITION. A core cycle: its clocks, its phases and their turns in order (log 5), the end of a tile's cycle, the inputs
from outside (log 8), and the coordinators' part. -/

namespace Sys2Proof.Machine

/-- Does an instruction of the table come from outside the device (log 8)? -/
def fromOutside : Instr → Bool
  | .imageInstall .. | .imageUnload .. | .go _ | .contextEntryWrite .. | .invalidatePage .. | .invalidateContext _
  | .contextKill _ | .demote _
  | .registerWrite .. | .info _ | .telemetry _ | .holdEnter _ | .holdExit _ | .fwBegin _ | .fwChunk _ | .fwCommit _
  | .fwAbort _ | .attest _ | .counter _ | .cmdUnknown _ | .pwrwarn | .pwrwarnDeasserted | .powerOnReset
  | .linkFatalError _ | .hello .. | .write .. | .reduce .. | .flag .. | .ack .. | .nak .. | .softError _ | .portLinkUp _
  | .portDown _ | .fcsFailedFrame _ => true
  | _ => false

namespace State

/-! ### The clocks (R7, R110, R350, R429; log 4) -/

/-- A tick of the task clock of a resident task, charged to its context (R110, R429). -/
def tickTile (s : State) (t : Fin 144) : State :=
  let tl := s.tileAt t
  if tl.sched.ticking then
    (s.modTile t fun tl => { tl with sys := { tl.sys with tclock := tl.sys.tclock + 1 } }).modAcct tl.sys.ctx fun a =>
      { a with busy := satAdd 64 a.busy 1 }
  else s

/-- A tick of the reference clock; the task clocks stand still in Hold (R110). -/
def tickAll (s : State) : State :=
  let s := { s with clk := { s.clk with wclock := (s.clk.wclock + 1) % 2 ^ 64 } }
  match s.hold.power with
  | .held => s
  | _ => (List.finRange 144).foldl tickTile s

/-- A new cycle begins: 20 ticks fall in 21 cycles (R7), and the wheel counter advances while the tiles have power
(R350). Its phases follow. -/
def newCycle (s : State) : State :=
  let due := decide (21 ≤ s.clk.tick + 20)
  let s := { s with clk := { s.clk with
    now := s.clk.now + 1, tick := if due then s.clk.tick - 1 else s.clk.tick + 20
    wheel := if s.hold.power == Power.held then s.clk.wheel else s.clk.wheel + 1 } }
  let s := if due then s.tickAll else s
  { s with agenda := (List.range 13).map Turn.phase }

/-! ### Turns of the phases -/

/-- Has a tile something to do: a task on it, writes to land, flags or system registers to settle, tags to set, or commands that
a task left in its engines? -/
def awake (s : State) (t : Fin 144) : Bool :=
  let tl := s.tileAt t
  tl.sched.task.isSome || !tl.tagPend.isEmpty || !tl.regs.pend.isEmpty || !tl.regs.pendF.isEmpty || !tl.sys.mts.isEmpty
    || s.lingers t

/-- Do a tile's engines work: for a task that runs there, or on the commands that a task has left at its end (R424, R430)? -/
def engineOn (s : State) (t : Fin 144) : Bool := s.runs t || (s.tileAt t).streams.toList.all fun st => st.isNone

/-- The tiles that have something to do. -/
def active (s : State) : List (Fin 144) := (List.finRange 144).filter s.awake

/-- The streams of a tile. -/
def groups (s : State) (t : Fin 144) : List (Fin 4) := (List.finRange 4).filter fun g => ((s.tileAt t).streams.get g).isSome

/-- Phase 0: replies that have arrived (R117, R155, R203). -/
def replyTurns (s : State) : List Turn :=
  (s.net.accs.filter fun a => a.performed && decide (a.replyAt ≤ s.now) && ((stampOf a).isNone || s.unawaited a)).map (fun a =>
    .event (if bringsResult a then .resultArrival a.id else .writeAcknowledgement a.id))
  ++ s.active.flatMap fun t => ((s.groups t).filter fun g => ((s.streamAt t g).wait.bind fun w => w.sent).isSome).map fun g =>
    .event (.remoteReplyArrival t g)

/-- Phase 1: the hubs' arbitration cycles (R334). -/
def hubTurns (s : State) : List Turn :=
  let busy := !s.hubs.reqs.isEmpty || !s.hubs.waits.isEmpty
  if busy then [.event (.syncHomeArbitration 0), .event (.syncHomeArbitration 1)] else []

/-- Phase 2: results land, and condition bits become visible (R153, R144); then SCATOMs leave at the open position of the
wheel, with the operands of this cycle (R350, R351). -/
def landTurns (s : State) : List Turn :=
  (s.active.flatMap fun t => [.land t, .event (.conditionBitVisible t)])
    ++ if s.hold.power == Power.held then [] else [.event (.wheelPositionOpen (Fin.ofNat 256 s.openStamp.2))]

/-- The events of a tile's engines in a cycle, retirements first (R256, R257, R282, R283, R345). -/
def engineTurns (s : State) (t : Fin 144) : List Turn :=
  if !s.engineOn t then [] else
  let e := (s.tileAt t).eng
  let many (n : Nat) (i : Instr) : List Turn := List.replicate n (.event i)
  let waiting (q : Fin 2) : Nat := ((s.cqOf t q).filter fun c => c.run.isNone).length
  many (s.inFlight t 0).length (.copyCommandRetire t 0) ++ many (s.inFlight t 1).length (.copyCommandRetire t 1)
    ++ many (e.mq.filter fun c => c.run.isSome).length (.matrixCommandRetire t)
    ++ many (waiting 0) (.copyCommandStart t 0) ++ many (waiting 1) (.copyCommandStart t 1)
    ++ many (min 1 (e.mq.filter fun c => c.run.isNone).length) (.matrixCommandStart t)

/-- Phase 4: follow-ons handed over, tiles settled, translations obtained, and lines of code filled (R264, R289, R163,
R133). -/
def readyTurns (s : State) (t : Fin 144) : List Turn :=
  ((List.finRange 2).filter fun q => (s.handOffReady t q).isSome).map (fun q => .event (.followOnHandoff t q))
    ++ ((s.groups t).filter fun g => (s.streamAt t g).settle.isSome).map (fun g => .event (.matrixSettle t g))
    ++ ((s.groups t).filter fun g => !(s.streamAt t g).xlat.isEmpty).map (fun g => .event (.translationObtained t g))
    ++ ((s.tileAt t).fills.filter fun f => decide (f.1 ≤ s.now)).map fun f => .event (.fetchLineFill t f.2)

/-- Phase 5: the turn of the one stream of a tile, or of its several streams together (R129). -/
def streamTurns (s : State) (t : Fin 144) : List Turn :=
  if !s.runs t then []
  else match s.groups t with
    | [] => []
    | [g] => if s.mayTurn t g then [.stream t g] else []
    | _ => [.groups t]

/-- Does an access come before another at a home: oldest first, then the lower source rank, then the order in which they left
(R243, R316)? -/
def arrivesFirst (a b : Access) : Bool :=
  decide (a.arrive < b.arrive) || (a.arrive == b.arrive && (decide (a.tile.val < b.tile.val)
    || (a.tile == b.tile && decide (a.id < b.id))))

/-- Accesses in their order at the homes. -/
def inArrival (l : List Access) : List Access :=
  l.foldl (fun l a => l.takeWhile (fun b => arrivesFirst b a) ++ a :: l.dropWhile fun b => arrivesFirst b a) []

/-- Phase 6: accesses and queued reductions at their homes, in the order in which they arrive (R243, R316, R322). -/
def homeTurns (s : State) : List Turn :=
  (inArrival (s.net.accs.filter fun a => !a.performed && !a.sent && decide (a.arrive ≤ s.now))).map
      (fun a => .event (.homeAccess a.id))
    ++ (s.net.greds.filter fun e => decide (e.due ≤ s.now)).map fun e => .event (.homeAccess e.id)

/-- Phase 7: the work of a tile's copy engine, and its decoders (R259, R307, R308, R266). -/
def copyTurns (s : State) (t : Fin 144) : List Turn :=
  if !s.engineOn t then []
  else
    let one (q i : Fin 2) : List Turn := match (s.inFlight t q)[i.val]? with
      | none => []
      | some c => match c.run.bind fun r => r.sel with
        | some _ => [.event (.windowMerge t q i), .event (.selectionDeadline t q i), .event (.windowDispatch t q i)]
        | none => [.event (.copyChunk t q i)]
    one 0 0 ++ one 0 1 ++ one 1 0 ++ one 1 1 ++ [.decode t]

/-- The decoders of a tile in a cycle: what they take and give, then their blocks and watchdogs (R266, R271, R272). -/
def decodeTurn (s : State) (t : Fin 144) : State :=
  let s := s.streamCycle t
  s.push ((List.finRange 8).flatMap fun st =>
    let r := s.streamReg t st
    (if r.blockDue then [.event (.fbcBlock t st)] else []) ++ if r.watch.isSome then [.event (.watchdog t st)] else [])

/-! ### The end of a tile's cycle (R162, R171, R186, R250) -/

/-- The end of a tile's cycle: MTS, flags, toc, tags, and bypass latches that go. -/
def closeTile (s : State) (t : Fin 144) : State :=
  let l := sortMts (s.tileAt t).sys.mts
  let s := s.modTile t fun tl => { tl with
    sys := tl.sys.settle s.now tl.regs.pendF
    streams := Vector.ofFn fun g => (tl.streams.get g).map fun st => { st with gdl := gdlAfter tl.sys.mts g st.gdl }
    regs := { tl.regs with
      pendF := tl.regs.pendF.filter fun p => !decide (p.1 ≤ s.now)
      byp := if tl.regs.bypDrop then .replicate 8 [] else tl.regs.byp
      bypDrop := false }
    tags := applyTags tl.tags tl.tagPend, tagPend := [] }
  l.foldl (fun s m => match m.reg with
    | .limit => { s with dev := { s.dev with limit := limitValue m.val } }
    | _ => s) s

/-! ### Inputs (log 8) -/

/-- An access of a Bronze core performed at its home (R2, R353). Its line's grade is the one it was last written under, and
the caches of the Bronze complex, which a directory keeps coherent with the homes, hold nothing that this would not give
(log 8). -/
def coreAccess (s : State) (a : CoreAcc) : State :=
  let part (s : State) (va : Nat) : Nat × Nat := (s.forward va, s.gradeAt (s.forward va))
  match a.op with
  | .read n =>
    let r := (linesOf a.pa n).foldl (fun (r : State × List Byte × Bool) p =>
      let k := part r.1 p.1
      let h := r.1.homeRead k.1 p.2 k.2
      (h.1, r.2.1 ++ leBytes p.2 h.2.1, r.2.2 || h.2.2)) (s, [], false)
    { r.1 with coreReads := r.1.coreReads ++ [(a.core, r.2)] }
  | .write l => (linesOf a.pa l.length).foldl (fun s p =>
      let k := part s p.1
      s.homeWrite k.1 p.2 k.2 (leNat ((l.drop (p.1 - a.pa)).take p.2)) false) s
  | .atom op w64 x y =>
    let k := part s a.pa
    let r := s.atomAt k.1 k.2 op w64 x y
    { r.1 with coreReads := r.1.coreReads ++ [(a.core, leBytes ((atomTy w64).width / 8) r.2.1, r.2.2)] }

/-- A frame at a port (R326): its message does what its type says; one of another EtherType, or that holds no message, does
nothing. -/
def takePeer (p : Fin 16) (s : State) (f : Frame) : State :=
  match if f.etherType = peerEtherType then peerOfBytes f.bytes else none with
  | none => s
  | some m =>
    match match m.ty with
      | .hello => execHello p m s
      | .write => execWrite p m s
      | .reduce => execReduce p m s
      | .flag => execFlag p m s
      | .ack => execAck p m s
      | .nak => execNak p m s with
    | .next s' => s'
    | _ => s

/-- The frames that have reached a port are taken from the wire in order. -/
def takeFrames (s : State) (p : Fin 16) : State :=
  let pt := s.ports.get p
  if pt.wire.isEmpty then s
  else (pt.wire.filter fun e => decide (e.1 ≤ s.now)).foldl (fun s e => takePeer p s e.2)
    (s.setPort p { pt with wire := pt.wire.filter fun e => !decide (e.1 ≤ s.now) })

/-- Phase 9: the inputs whose time has come, in order, after the frames at the ports and what Bronze cores do. -/
def takeInputs (s : State) : State :=
  let s := if s.cores.isEmpty then s
    else (s.cores.filter fun a => decide (a.at_ ≤ s.now)).foldl coreAccess
      { s with cores := s.cores.filter fun a => !decide (a.at_ ≤ s.now) }
  let s := ({ s with inputs := s.inputs.filter fun (e : Nat × Instr) => !decide (e.1 ≤ s.now) }).push
    ((s.inputs.filter fun (e : Nat × Instr) => decide (e.1 ≤ s.now) && fromOutside e.2).map fun (e : Nat × Instr) => Turn.event e.2)
  (List.finRange 16).foldl takeFrames s

/-! ### The coordinators (chapters 04, 25 and 26) -/

/-- The save and restore events of a tile that are due (R408, R415, R417). -/
def saveTurns (s : State) (t : Fin 144) : List Turn :=
  match (s.tileAt t).sched.job with
  | .none => if s.mayAccept t then [.event (.stopAccept t)] else []
  | .bind .. => []
  | .save due _ _ => if due ≠ 0 ∧ due ≤ s.now then [.event (.saveComplete t)] else []
  | .restore due _ => if due ≠ 0 ∧ due ≤ s.now then [.event (.restoreComplete t)] else []
  | .saveStalled _ _ r | .restoreStalled _ r => if r ≤ s.clk.wclock then [.event (.saveRetry t)] else []

/-- Phase 10: what has ended: tiles that are free, launches, context kills, saves and restores (R92, R426, R431). -/
def endings (s : State) : State :=
  let s := (s.active.foldl freeTile (s.active.foldl stopParked s)).sweepKills.completions.endKills.babbitts
  s.push (s.active.flatMap s.saveTurns)

/-- The bindings that end, the launches and slices that the schedulers watch (R97, R96, R409). -/
def schedTurns (s : State) : List Turn :=
  (s.active.filter fun t => match (s.tileAt t).sched.job with | .bind due _ => decide (due ≤ s.now) | _ => false).map
      (fun t => .event (.taskBind t))
    ++ (s.active.filter s.sliceDue).map (fun t => .event (.sliceStopTimer t))
    ++ ((List.finRange 64).filter fun c => (s.ctx c).stallSince.isSome).map fun c => .event (.schedStall c)

/-- Phase 11: selections, pre-emption and the schedulers' timers (R92 to R96). -/
def schedule_ (s : State) : State :=
  let s := s.selections.preempts.watchStalls
  s.push s.schedTurns

/-- Contexts for which a condition holds, each with an event. -/
def perCtx (f : Fin 64 → Bool) (i : Fin 64 → Instr) : List Turn := ((List.finRange 64).filter f).map fun c => .event (i c)

/-- The timers of Hold (R419, R420). -/
def holdTurns (s : State) : List Turn :=
  match s.hold.power with
  | .entering =>
    (if s.hold.trigger + 1800000 ≤ s.clk.wclock ∧ (List.finRange 144).any (fun t =>
        (s.tileAt t).sched.task.isSome && !(s.tileAt t).sched.killed) then [.event .holdKillDeadline] else [])
      ++ if s.hold.trigger + 2000000 ≤ s.clk.wclock then [.event .holdPowerDown] else []
  | .leaving => if !s.hold.nominal ∧ s.hold.exitAt ≤ s.clk.wclock then [.event .holdExitNominal] else []
  | _ => []

/-- The timers of the peer ports (R327). -/
def portTurns (s : State) : List Turn :=
  (List.finRange 16).flatMap fun p =>
    let pt := s.ports.get p
    (if pt.link && !pt.heard && decide (pt.helloAt ≤ s.clk.wclock) then [.event (.helloResend p)] else [])
      ++ (if s.portSilent p then [.event (.nolink p)] else [])
      ++ if pt.unanswered.any fun o => decide (o.last + 10000 ≤ s.clk.wclock) then [.event (.peerResend p)] else []

/-- The events of the device's own engines and timers that are due. -/
def deviceTurns (s : State) : List Turn :=
  perCtx (fun c => (s.ctx c).unloads.any fun u => decide (u.due ≤ s.clk.wclock)) .unloadComplete
    ++ perCtx (fun c => s.dev.invals.any fun i => i.ctx == c && s.invalDone i) .invalidationComplete
    ++ (if s.dev.hot.halfAt ≤ s.clk.wclock then [.event .hotPageHalving] else [])
    ++ ((List.finRange 4).filter fun i => match s.dev.migrations[i.val]? with
        | some m => !m.switching && decide (m.due ≤ s.now)
        | none => false).map (fun i => .event (.migrationSwitch i))
    ++ (if s.dev.hot.posted.isEmpty then [] else [.event .migrationStart])
    ++ (if s.dev.pollAt ≤ s.clk.wclock then
        perCtx (fun c => s.dev.faultWait.any fun e => e.ctx == c) .faultQueueConsPoll else [])
    ++ (if s.dev.scrubAt + 43200000000000 ≤ s.clk.wclock then [.event .scrubbingPass] else [])
    ++ s.holdTurns ++ s.portTurns

/-- Phase 12: posts are applied (R396), faults reach the device coordinator, and its timers and those of the device follow
(R390). -/
def coordinate (s : State) : State :=
  let s := s.applyPosts.deliverAll.settleHold
  s.push s.deviceTurns

/-- A phase of a cycle lists its turns. -/
def runPhase (s : State) : Nat → State
  | 0 => s.push s.replyTurns
  | 1 => s.push s.hubTurns
  | 2 => s.push s.landTurns
  | 3 => s.push (s.active.flatMap s.engineTurns)
  | 4 => s.push (s.active.flatMap s.readyTurns)
  | 5 => s.push (s.active.flatMap s.streamTurns)
  | 6 => s.push s.homeTurns
  | 7 => s.push (s.active.flatMap s.copyTurns)
  | 8 => s.push (s.active.map .close)
  | 9 => s.takeInputs
  | 10 => s.endings
  | 11 => s.schedule_
  | 12 => s.coordinate
  | _ => s

/-- One turn. -/
def takeTurnOf (s : State) : Turn → Host.Outcome State Fault Refusal
  | .event i => exec i s
  | .land t => .next (s.landTile t)
  | .stream t g => s.streamTurn t g false
  | .groups t => s.groupsTurn t
  | .decode t => .next (s.decodeTurn t)
  | .close t => .next (s.closeTile t)
  | .phase n => .next (s.runPhase n)

/-- The next turn of the cycle, or the next cycle. -/
def nextTurn (s : State) : Host.Outcome State Fault Refusal :=
  match s.agenda with
  | [] => .next s.newCycle
  | u :: l => { s with agenda := l }.takeTurnOf u

end State

end Sys2Proof.Machine
end

