-- ==== Sys2Proof/Machine/Step.lean ====
section
/-! DEFINITION. The step of the machine, and how a program's instruction is placed before it (log 5, log 7). -/

namespace Sys2Proof.Machine

/-- One step: the next turn of the cycle in hand; with none left, the next cycle begins (log 5). -/
def step (s : State) : Host.Outcome State Fault Refusal := s.nextTurn

namespace State

/-- The stage of a placed program (log 7). -/
def placedStage : Stage := ⟨0, 1, 0, 20, []⟩

/-- The image of a placed program: 256 bytes of code of a system image, with ports of every bank for VE0 and VE1, or VE0
and LS (log 7). -/
def placedImage : Image :=
  { gen := 0, off := 0, len := 256, sys := true, secver := 0, stages := [placedStage], bars := [(1, 0)], tqs := [1], qentries := 1
    wheelreq := 0, drain := 0, portmap := [0xBA, 0xBA, 0xBA, 0xBA, 0xCA, 0xCA, 0xCA, 0xCA], bankfmt := List.replicate 16 0 }

/-- The launch of a placed program (log 7). -/
def placedLive : Live :=
  { ctx := 0, image := placedImage, lid := 0, anchor := 0, done := 0, queues := [⟨0, 1, [], [0], 0, 0⟩], wheels := []
    waccept := 0, tasks := 0, kills := 0, tclk := 0, overrun := 0, sticky := 0, faults := 0, ended := none }

/-- Where the code of a placed program stands in HBM4 (log 7). -/
abbrev placedAt : Nat := 0x100000

/-- Is the placed bundle one of a group (R35)? -/
def placedGroup (w : Nat) : Bool := match decodeHeader (BitVec.ofNat 64 w) with | some h => h.group | none => false

/-- The machine with one bundle at the PC of a task's first stream on tile 0, whose turn is next (log 7). The bundle's bits
are `w`, those from `nbits` on being zero. -/
def withFetchWord (s : State) (nbits w : Nat) : State :=
  let v := w % 2 ^ nbits
  let sl := s.slots.get 0
  let k : Task := { ctx := 0, slot := 0, stage := 0, lid := 0, res := [], user := false }
  let s := { s with
    mem := Memory.writeN s.mem placedAt 256 v
    slots := upd s.slots 0 { sl with status := 1, live := some placedLive }
    agenda := [.stream 0 0] }
  s.modTile 0 fun tl => { tl with
    streams := Vector.ofFn fun g =>
      if g = 0 then some (Stream.new 0 (BitVec.allOnes 8) (BitVec.twoPow 64 20) s.now) else none
    lockstep := !placedGroup v
    ibuf := [(0, some ((List.range 32).map fun i => BitVec.ofNat 64 (v / 2 ^ (64 * i))))]
    sys := { tl.sys with ctx := 0 }
    sched := { tl.sched with task := some k, tail := some k, resident := true, job := .none, killed := false } }

end State

end Sys2Proof.Machine
end

