-- ==== Sys2Proof/Safety.lean ====
section
/-! DEFINITION. What a safe run is: a state from which no step stops the machine, and the invariant of memory. -/

namespace Sys2Proof

/-- A step answers a next state. -/
def Steps (s t : Machine.State) : Prop := Machine.step s = .next t

/-- A step neither faults nor is refused. -/
def SafeStep (s : Machine.State) : Prop := ∃ t, Steps s t

/-- The invariant of storage: the memory keeps its canonical form (log 1, log 3). -/
def MemOk (s : Machine.State) : Prop := Machine.Memory.wf s.mem = true

end Sys2Proof
end

