-- ==== Sys2Proof/Certificates/Slice0/Obligations.lean ====
section
/-! DEFINITION. The statements for the provers. Each docstring names the rule of spec/ that its statement formalises, or
says that it is the model's own choice and names the log entry. -/

namespace Sys2Proof.Claims

open Sys2Proof Sys2Proof.Machine

/-! ### Words for the statements: results delivered, and the rules' own formulas -/

/-- The low bits of a word at the width of an integer type (R169 bits). -/
def low (t : ITy) (x : Word) : BitVec t.width := x.setWidth t.width

/-- Bits at the width of a type, extended to 64 by its signedness (R169 ext). -/
def wide (t : ITy) (v : BitVec t.width) : Word := if t.signed then v.signExtend 64 else v.setWidth 64

/-- A word and its flags delivered to an x-file destination after `lat` cycles: the write is scheduled for the file and
the bypass latches, and the flags enter sticky when it becomes readable (R154, R160, R171). -/
def gives (s : State) (w : WDst) (lat : Nat) (r : Word × Flags) : State :=
  (s.schedule w (.x r.1) (BitVec.allOnes 256) lat true).flag lat r.2

/-- ADD (R172): the sum modulo 2^w, IOV when the exact sum lies outside the type. -/
def addIs (t : ITy) (x y : Word) : Word × Flags :=
  (wide t (low t x + low t y),
    flagIf (if t.signed then (low t x).saddOverflow (low t y) else (low t x).uaddOverflow (low t y)) fIOV)

/-- SUB (R172). -/
def subIs (t : ITy) (x y : Word) : Word × Flags :=
  (wide t (low t x - low t y),
    flagIf (if t.signed then (low t x).ssubOverflow (low t y) else (low t x).usubOverflow (low t y)) fIOV)

/-- MUL (R172). -/
def mulIs (t : ITy) (x y : Word) : Word × Flags :=
  (wide t (low t x * low t y),
    flagIf (if t.signed then (low t x).smulOverflow (low t y) else (low t x).umulOverflow (low t y)) fIOV)

/-- MULH (R172): the high half of the double-width product, without a flag. -/
def mulhIs (t : ITy) (x y : Word) : Word × Flags :=
  let e (v : BitVec t.width) : BitVec (2 * t.width) :=
    if t.signed then v.signExtend (2 * t.width) else v.setWidth (2 * t.width)
  (wide t ((e (low t x) * e (low t y)).extractLsb' t.width t.width), 0)

/-- DIV (R172): toward zero; all ones and IDZ for a zero divisor; IOV for the one quotient that does not fit. -/
def divIs (t : ITy) (x y : Word) : Word × Flags :=
  if low t y = 0 then (wide t (BitVec.allOnes t.width), fIDZ)
  else if t.signed then
    (wide t ((low t x).sdiv (low t y)),
      flagIf (low t x == BitVec.intMin t.width && low t y == BitVec.allOnes t.width) fIOV)
  else (wide t (low t x / low t y), 0)

/-- REM (R172): the dividend and IDZ for a zero divisor. -/
def remIs (t : ITy) (x y : Word) : Word × Flags :=
  if low t y = 0 then (wide t (low t x), fIDZ)
  else (wide t (if t.signed then (low t x).srem (low t y) else low t x % low t y), 0)

/-- The shift amount of R173: the whole second operand modulo the width. -/
def amount (t : ITy) (y : Word) : Nat := y.toNat % t.width

/-- Is the first operand below the second, in the order of the type (R174, R175)? -/
def below (t : ITy) (x y : Word) : Bool := if t.signed then (low t x).slt (low t y) else (low t x).ult (low t y)

/-- The bit of a number. -/
def bitOf (n i : Nat) : Bool := n.testBit i

/-- Forms of one shape: two x sources and an x destination, or one source and an immediate. -/
def TwoSources (mk : ITy → XDst → XSrc → XSrc → Instr) (lat : Nat) (f : ITy → Word → Word → Word × Flags) : Prop :=
  ∀ (s : State) (t : ITy) (d : XDst) (a b : XSrc) (x y : Word) (w : WDst),
    s.readX a = .ok x → s.readX b = .ok y → s.destX d = .ok w →
      exec (mk t d a b) s = .next (gives s w lat (f t x y))

/-- The immediate forms of TYPE `t` whose operand is extended by the signedness of `t` (R51, R57, R168). -/
def WithImmediate (mk : XDst → XSrc → RImm → Instr) (t : ITy) (lat : Nat) (f : ITy → Word → Word → Word × Flags) : Prop :=
  ∀ (s : State) (d : XDst) (a : XSrc) (i : RImm) (x : Word) (w : WDst),
    s.readX a = .ok x → s.destX d = .ok w →
      exec (mk d a i) s = .next (gives s w lat (f t x (i.value t.signed)))

/-- Forms of one x source and an x destination. -/
def OneSource (mk : XDst → XSrc → Instr) (lat : Nat) (f : Word → Word × Flags) : Prop :=
  ∀ (s : State) (d : XDst) (a : XSrc) (x : Word) (w : WDst),
    s.readX a = .ok x → s.destX d = .ok w → exec (mk d a) s = .next (gives s w lat (f x))

/-- A bitwise operation at the width of the type (R173). -/
def bitwiseIs (f : {w : Nat} → BitVec w → BitVec w → BitVec w) (t : ITy) (x y : Word) : Word × Flags :=
  (wide t (f (low t x) (low t y)), 0)

/-- SHL, SHR, SAR and ROL (R173). -/
def shlIs (t : ITy) (x y : Word) : Word × Flags := (wide t (low t x <<< amount t y), 0)
def shrIs (t : ITy) (x y : Word) : Word × Flags := (wide t (low t x >>> amount t y), 0)
def sarIs (t : ITy) (x y : Word) : Word × Flags := (wide t ((low t x).sshiftRight (amount t y)), 0)
def rolIs (t : ITy) (x y : Word) : Word × Flags := (wide t ((low t x).rotateLeft (amount t y)), 0)

/-- MIN and MAX (R174). -/
def minIs (t : ITy) (x y : Word) : Word × Flags := (wide t (if below t y x then low t y else low t x), 0)
def maxIs (t : ITy) (x y : Word) : Word × Flags := (wide t (if below t x y then low t y else low t x), 0)

/-- CMP (R175): −1, 0 or 1 as a 64-bit value. -/
def cmpIs (t : ITy) (x y : Word) : Word × Flags :=
  (if below t x y then BitVec.allOnes 64 else if low t x = low t y then 0 else 1, 0)

/-- ABS (R174): the least value stays and raises IOV. -/
def absIs (t : ITy) (x : Word) : Word × Flags :=
  (wide t (if (low t x).msb then -(low t x) else low t x), flagIf (low t x == BitVec.intMin t.width) fIOV)

end Sys2Proof.Claims

open Sys2Proof Sys2Proof.Machine Sys2Proof.Claims

/-! ### Scalar integer (chapter 08) -/

/-- R172: the results and flags of ADD, SUB, MUL and MULH, after 1, 1, 3 and 3 cycles, in both operand shapes. -/
def Sys2Proof.Claims.SumsAndProducts : Prop :=
  TwoSources .add 1 addIs ∧ TwoSources .sub 1 subIs ∧ TwoSources .mul 3 mulIs ∧ TwoSources .mulh 3 mulhIs
    ∧ WithImmediate .addRI .i64 1 addIs ∧ WithImmediate .subRI .i64 1 subIs ∧ WithImmediate .mulRI .i64 3 mulIs

/-- R172: the quotients, remainders and flags of DIV and REM after 20 cycles. -/
def Sys2Proof.Claims.QuotientsAndRemainders : Prop := TwoSources .div 20 divIs ∧ TwoSources .rem 20 remIs

/-- R173: bitwise logic and shifts, in both operand shapes; the immediate forms are n64. -/
def Sys2Proof.Claims.LogicAndShifts : Prop :=
  TwoSources .and 1 (bitwiseIs fun x y => x &&& y) ∧ TwoSources .or 1 (bitwiseIs fun x y => x ||| y)
    ∧ TwoSources .xor 1 (bitwiseIs fun x y => x ^^^ y) ∧ TwoSources .andn 1 (bitwiseIs fun x y => x &&& ~~~y)
    ∧ TwoSources .shl 1 shlIs ∧ TwoSources .shr 1 shrIs ∧ TwoSources .sar 1 sarIs ∧ TwoSources .rol 1 rolIs
    ∧ WithImmediate .andRI .n64 1 (bitwiseIs fun x y => x &&& y) ∧ WithImmediate .orRI .n64 1 (bitwiseIs fun x y => x ||| y)
    ∧ WithImmediate .xorRI .n64 1 (bitwiseIs fun x y => x ^^^ y)
    ∧ WithImmediate .andnRI .n64 1 (bitwiseIs fun x y => x &&& ~~~y)
    ∧ WithImmediate .shlRI .n64 1 shlIs ∧ WithImmediate .shrRI .n64 1 shrIs ∧ WithImmediate .sarRI .n64 1 sarIs
    ∧ WithImmediate .rolRI .n64 1 rolIs

/-- R174, R175: MIN, MAX, CMP and ABS. ABS has i types only. -/
def Sys2Proof.Claims.OrderedResults : Prop :=
  TwoSources .min 1 minIs ∧ TwoSources .max 1 maxIs ∧ TwoSources .cmp 1 cmpIs
    ∧ WithImmediate .minRI .i64 1 minIs ∧ WithImmediate .maxRI .i64 1 maxIs ∧ WithImmediate .cmpRI .i64 1 cmpIs
    ∧ ∀ t : ITy, t.signed = true → OneSource (.abs t) 1 (absIs t)

/-- R174: CLZ, CTZ and POPC count bits below the width, SEXT and ZEXT extend the low bits. A count is said by the bits of
the operand: above a leading one, below a lowest one, and as the number of ones. -/
def Sys2Proof.Claims.BitCounts : Prop :=
  (∀ t : ITy, OneSource (.sext t) 1 fun x => (wide t (low t x), 0)) ∧ (∀ t : ITy, OneSource (.zext t) 1 fun x => (wide t (low t x), 0))
    ∧ ∀ (s : State) (t : ITy) (d : XDst) (a : XSrc) (x : Word) (w : WDst), s.readX a = .ok x → s.destX d = .ok w →
      (∃ n, exec (.clz t d a) s = .next (gives s w 1 (BitVec.ofNat 64 n, 0)) ∧ n ≤ t.width
        ∧ (∀ i, t.width - n ≤ i → i < t.width → x.getLsbD i = false) ∧ (n < t.width → x.getLsbD (t.width - 1 - n) = true))
      ∧ (∃ n, exec (.ctz t d a) s = .next (gives s w 1 (BitVec.ofNat 64 n, 0)) ∧ n ≤ t.width
        ∧ (∀ i, i < n → x.getLsbD i = false) ∧ (n < t.width → x.getLsbD n = true))
      ∧ exec (.popc t d a) s = .next (gives s w 1
          (BitVec.ofNat 64 ((List.range t.width).filter fun i => x.getLsbD i).length, 0))

/-- R175, R176: SEL, MOV, MOVI and MOVK. -/
def Sys2Proof.Claims.Moves : Prop :=
  OneSource .mov 1 (fun x => (x, 0))
    ∧ (∀ v : BitVec 32, OneSource (fun d a => .movk d a true v) 1 fun x => (v ++ x.extractLsb' 0 32, 0))
    ∧ (∀ v : BitVec 32, OneSource (fun d a => .movk d a false v) 1 fun x => (x.extractLsb' 32 32 ++ v, 0))
    ∧ (∀ (s : State) (d : XDst) (a b c : XSrc) (x y z : Word) (w : WDst),
        s.readX a = .ok x → s.readX b = .ok y → s.readX c = .ok z → s.destX d = .ok w →
          exec (.sel d a b c) s = .next (gives s w 1 (if z = 0 then y else x, 0)))
    ∧ ∀ (s : State) (d : XDst) (i : RImm) (w : WDst), s.destX d = .ok w →
        exec (.moviI64 d i) s = .next (gives s w 1 (i.value true, 0))
          ∧ exec (.moviN64 d i) s = .next (gives s w 1 (i.value false, 0))

/-- R177 to R179: LEA adds to the offset modulo 2^52 without a check; PSPACE and PRANK read fields; PMAKE and PADD give a
pointer where its fields fit and check_pointer holds, and trap ADDR_SPACE otherwise. -/
def Sys2Proof.Claims.Pointers : Prop :=
  (∀ (s : State) (d : XDst) (a : XSrc) (i : RImm) (p : Word) (w : WDst), s.readX a = .ok p → s.destX d = .ok w →
      exec (.lea d a i) s = .next (gives s w 1 (p.extractLsb' 52 12 ++ (p.extractLsb' 0 52 + (i.value true).extractLsb' 0 52), 0)))
    ∧ OneSource .pspace 1 (fun p => ((p.extractLsb' 60 4).setWidth 64, 0))
    ∧ OneSource .prank 1 (fun p => ((p.extractLsb' 52 8).setWidth 64, 0))
    ∧ (∀ (s : State) (d : XDst) (a b c : XSrc) (x y z : Word) (w : WDst),
        s.readX a = .ok x → s.readX b = .ok y → s.readX c = .ok z → s.destX d = .ok w →
          let p : Word := x.extractLsb' 0 4 ++ y.extractLsb' 0 8 ++ z.extractLsb' 0 52
          exec (.pmake d a b c) s =
            if x.toNat < 16 ∧ y.toNat < 256 ∧ z.toNat < 2 ^ 52
                ∧ pointerOk (s.peerLen s.ctxOf) x.toNat y.toNat z.toNat then
              .next (gives s w 1 (p, 0))
            else .next (s.enterTrap { kind := .addrSpace, slot := s.cur.slot, addr := p }))
    ∧ ∀ (s : State) (d : XDst) (a : XSrc) (p : Word) (w : WDst), s.readX a = .ok p → s.destX d = .ok w →
        let sum (n : Word) : Word := p.extractLsb' 52 12 ++ (p.extractLsb' 0 52 + n.extractLsb' 0 52)
        let fits (n : Word) : Prop := 0 ≤ (offsetOf p : Int) + n.toInt ∧ (offsetOf p : Int) + n.toInt < 2 ^ 52
          ∧ pointerOk (s.peerLen s.ctxOf) (spaceOf p) (rankOf p) ((offsetOf p : Int) + n.toInt).toNat = true
        let bad (n : Word) : Trap := { kind := .addrSpace, slot := s.cur.slot, addr := sum n }
        (∀ i : RImm, (fits (i.value true) → exec (.paddRI d a i) s = .next (gives s w 1 (sum (i.value true), 0)))
            ∧ (¬ fits (i.value true) → exec (.paddRI d a i) s = .next (s.enterTrap (bad (i.value true)))))
          ∧ ∀ (b : XSrc) (n : Word), s.readX b = .ok n →
            (fits n → exec (.padd d a b) s = .next (gives s w 1 (sum n, 0)))
              ∧ (¬ fits n → exec (.padd d a b) s = .next (s.enterTrap (bad n)))

namespace Sys2Proof.Claims

/-! ### Words for floating point, registers and frames -/

/-- Is an f32 pattern a NaN (R207): exponent all ones, fraction not zero? -/
def isNan32 (x : Word) : Prop := x.extractLsb' 23 8 = 0xFF ∧ x.extractLsb' 0 23 ≠ 0

/-- The exact value of the f32 pattern in the low half of an x register (R180). -/
def f32Of (x : Word) : Val := f32v (x.toNat % 2 ^ 32)

/-- One rounding of an exact result to f32, nearest even, with the flags of the operation (R180, R212). -/
def rounded (r : Val × Flags) : Word × Flags := (BitVec.ofNat 64 (round32 r.1).1, (round32 r.1).2 ||| r.2)

/-- Forms of two f32 sources. -/
def TwoFloats (mk : XDst → XSrc → XSrc → Instr) (lat : Nat) (f : Word → Word → Word × Flags) : Prop :=
  ∀ (s : State) (d : XDst) (a b : XSrc) (x y : Word) (w : WDst),
    s.readX a = .ok x → s.readX b = .ok y → s.destX d = .ok w → exec (mk d a b) s = .next (gives s w lat (f x y))

/-- FMIN or FMAX (R182): the other operand of a lone NaN, the canonical NaN of two, else the operand that the order puts
first or last, −0 below +0. -/
def pickIs (hi : Bool) (x y : Word) : Word × Flags :=
  let u : Word := (x.extractLsb' 0 32).setWidth 64
  let v : Word := (y.extractLsb' 0 32).setWidth 64
  let xNan := (f32Of x).isNan
  let yNan := (f32Of y).isNan
  (if xNan && yNan then 0x7FC00000
    else if xNan then v
    else if yNan then u
    else if (f32Of x).lt (f32Of y) || ((f32Of x).eq (f32Of y) && (f32Of x).isNeg && !(f32Of y).isNeg) then (if hi then v else u)
    else (if hi then u else v), 0)

/-- What a step leaves alone when it only schedules results: every byte of memory and its marks, every other tile, the
clocks, contexts, launches, hubs, accesses, device state, ports and saved tasks; and of the tile in hand the registers as
they stand, condition bits, counters, latches, system registers, tags, engines and streams. Results stand among the
scheduled writes, each for one of the destinations named, and flags among those to enter sticky later. -/
def OnlySchedules (s s' : State) (ds : List WDst) : Prop :=
  (∀ a, Memory.get s'.mem a = Memory.get s.mem a) ∧ s'.marks = s.marks ∧ s'.clk = s.clk ∧ s'.cur = s.cur
    ∧ s'.ctxs = s.ctxs ∧ s'.slots = s.slots ∧ s'.hubs = s.hubs ∧ s'.net = s.net ∧ s'.dev = s.dev ∧ s'.fw = s.fw
    ∧ s'.hold = s.hold ∧ s'.ports = s.ports ∧ s'.saved = s.saved ∧ s'.lineMeta = s.lineMeta ∧ s'.grades = s.grades
    ∧ s'.agenda = s.agenda ∧ s'.inputs = s.inputs ∧ s'.cores = s.cores ∧ s'.coreReads = s.coreReads ∧ s'.freeCtr = s.freeCtr
    ∧ (∀ u, u ≠ s.cur.tile → s'.tileAt u = s.tileAt u)
    ∧ s'.tile.sys = s.tile.sys ∧ s'.tile.streams = s.tile.streams ∧ s'.tile.tags = s.tile.tags
    ∧ s'.tile.eng = s.tile.eng ∧ s'.tile.sched = s.tile.sched
    ∧ s'.tile.regs.x = s.tile.regs.x ∧ s'.tile.regs.v = s.tile.regs.v ∧ s'.tile.regs.k = s.tile.regs.k
    ∧ s'.tile.regs.lc = s.tile.regs.lc ∧ s'.tile.regs.cb = s.tile.regs.cb ∧ s'.tile.regs.tk = s.tile.regs.tk
    ∧ s'.tile.regs.cbPend = s.tile.regs.cbPend ∧ s'.tile.regs.byp = s.tile.regs.byp
    ∧ s'.tile.regs.latch = s.tile.regs.latch
    ∧ (∃ fl, s'.tile.regs.pendF = fl ++ s.tile.regs.pendF ∧ ∀ p ∈ fl, s.now < p.1)
    ∧ ∃ new, s'.tile.regs.pend = new ++ s.tile.regs.pend
        ∧ ∀ w ∈ new, w.dst ∈ ds ∧ w.slot = s.cur.slot ∧ s.now < w.due

/-- The scalar forms whose whole effect is their results (chapters 05, 06, 08, 13): the destination field of each. -/
def scalarDest : Instr → Option XDst
  | .add _ d _ _ | .sub _ d _ _ | .mul _ d _ _ | .mulh _ d _ _ | .div _ d _ _ | .rem _ d _ _ => some d
  | .and _ d _ _ | .or _ d _ _ | .xor _ d _ _ | .andn _ d _ _ | .shl _ d _ _ | .shr _ d _ _ | .sar _ d _ _ => some d
  | .rol _ d _ _ | .min _ d _ _ | .max _ d _ _ | .cmp _ d _ _ => some d
  | .addRI d _ _ | .subRI d _ _ | .mulRI d _ _ | .andRI d _ _ | .orRI d _ _ | .xorRI d _ _ | .andnRI d _ _ => some d
  | .shlRI d _ _ | .shrRI d _ _ | .sarRI d _ _ | .rolRI d _ _ | .minRI d _ _ | .maxRI d _ _ | .cmpRI d _ _ => some d
  | .abs _ d _ | .clz _ d _ | .ctz _ d _ | .popc _ d _ | .sext _ d _ | .zext _ d _ => some d
  | .sel d _ _ _ | .mov d _ | .moviI64 d _ | .moviN64 d _ | .movk d _ _ _ | .lea d _ _ => some d
  | .pmake d _ _ _ | .pspace d _ | .prank d _ | .padd d _ _ | .paddRI d _ _ => some d
  | .fadd d _ _ | .fsub d _ _ | .fmul d _ _ | .ffma d _ _ _ | .fmin d _ _ | .fmax d _ _ | .fdiv d _ _ => some d
  | .fsqrt d _ | .fcvt _ _ _ d _ | .fcmp d _ _ | .mfs d _ | .dlmk _ d _ | .tkrd d _ | .lcget d _ | .ststat d _ => some d
  | .clkrd d => some (.reg d)
  | _ => none

/-- The vector forms and loads whose whole effect is their results (chapters 11, 12): the destination field of each. -/
def vectorDest : Instr → Option VDst
  | .vadd _ d _ _ _ | .vsub _ d _ _ _ | .vmul _ d _ _ _ | .vmin _ d _ _ _ | .vmax _ d _ _ _ => some d
  | .vaddVI _ d _ _ _ | .vsubVI _ d _ _ _ | .vmulVI _ d _ _ _ | .vminVI _ d _ _ _ | .vmaxVI _ d _ _ _ => some d
  | .vfma _ d _ _ _ _ | .vabs _ d _ _ | .vneg _ d _ _ | .vrcp _ d _ _ | .vrsq _ d _ _ => some d
  | .vexp2 _ d _ _ | .vlog2 _ d _ _ | .vsel _ d _ _ _ _ => some d
  | .viadd _ d _ _ _ | .visub _ d _ _ _ | .vimul _ d _ _ _ | .vand _ d _ _ _ | .vor _ d _ _ _ | .vxor _ d _ _ _ => some d
  | .vshl _ d _ _ _ | .vshr _ d _ _ _ | .vsar _ d _ _ _ => some d
  | .viaddVI _ d _ _ _ | .visubVI _ d _ _ _ | .vimulVI _ d _ _ _ | .vandVI _ d _ _ _ | .vorVI _ d _ _ _ => some d
  | .vxorVI _ d _ _ _ | .vshlVI _ d _ _ _ | .vshrVI _ d _ _ _ | .vsarVI _ d _ _ _ | .vmovVI _ d _ _ => some d
  | .vcvt _ _ _ _ d _ _ | .vqnt _ _ d _ _ | .vdqnt _ _ _ d _ _ _ => some d
  | .vrsum _ d _ _ | .vrmax _ d _ _ | .vrmin _ d _ _ => some d
  | .vperm _ d _ _ _ | .vbcast _ d _ _ | .vslide _ d _ _ _ _ | .vzip _ _ d _ _ _ | .vunzip _ _ d _ _ _ => some d
  | .vmov _ d (.inl _) _ | .vins _ d _ _ _ | .vrng _ d _ _ _ => some d
  | .vld d _ _ | .vldd d _ _ | .vlds _ d _ _ _ _ | .vgth _ d _ _ _ _ => some d
  | _ => none

/-- The forms whose whole effect is a mask result (chapter 11). -/
def maskDest : Instr → Option KDst
  | .vcmp _ _ d _ _ _ | .kand d _ _ | .kor d _ _ | .kxor d _ _ | .knot d _ | .kmov d _ => some d
  | _ => none

/-- The other forms whose whole effect is an x result: KPOP, VEXT and XLD (chapters 11, 12). -/
def otherDest : Instr → Option XDst
  | .kpop _ d _ | .vext _ d _ _ | .xld _ d _ _ => some d
  | _ => none

/-- The loads among these forms, before which the reductions queued at the lines they read apply (R322). -/
def isLoad : Instr → Bool
  | .vld .. | .vldd .. | .vlds .. | .vgth .. | .xld .. => true
  | _ => false

/-- No reduction is queued at a line of the own scratchpad (R322). -/
def NoneQueued (s : State) : Prop :=
  ∀ e ∈ s.net.greds, e.line < s.spad 0 / 64 ∨ s.spad 0 / 64 + 2 ^ 13 ≤ e.line

/-- Is a form's whole effect its results? -/
def OnlyResults (i : Instr) : Prop :=
  scalarDest i ≠ none ∨ vectorDest i ≠ none ∨ maskDest i ≠ none ∨ otherDest i ≠ none

/-- The registers that such a form may write: its destination, for CLKRD also the one after it (R127), and for VQNT also
the register of its scales (R235). -/
def resultDests (s : State) (i : Instr) : List WDst :=
  let one (r : Option (Res WDst)) : List WDst := match r with
    | some (.ok w) => [w]
    | _ => []
  one ((scalarDest i).map s.destX) ++ one ((vectorDest i).map s.destV) ++ one ((maskDest i).map s.destK)
    ++ one ((otherDest i).map s.destX)
    ++ match i with
      | .clkrd d => [.x (d + 1)]
      | .vqnt _ _ _ _ x => [.x x]
      | _ => []

/-- The value that MFS reads of each system register (R185, R187); stop as the cycle found it. -/
def sysIs (s : State) : SysReg → Word
  | .coord => s.tile.sys.coord.setWidth 64
  | .rank => s.tile.sys.rank.setWidth 64
  | .stage => s.tile.sys.stage.setWidth 64
  | .ctx => BitVec.ofNat 64 s.tile.sys.ctx.val
  | .tclock => s.tile.sys.tclock
  | .wclock => BitVec.ofNat 64 s.clk.wclock
  | .gdl => s.strm.gdl
  | .dlmax => s.tile.sys.dlmax.setWidth 64
  | .esclim => s.tile.sys.esclim.setWidth 64
  | .toc => s.tile.sys.toc.setWidth 64
  | .sticky => s.tile.sys.sticky.setWidth 64
  | .tenable => s.tile.sys.tenable.setWidth 64
  | .syncwin => s.tile.sys.syncwin
  | .wheel => s.tile.sys.wheel
  | .limit => s.dev.limit.setWidth 64
  | .stop => if s.tile.sys.stop0 then 1 else 0
  | .bfmt n => s.tile.sys.bfmt.get n

/-- What a register holds after MTS of a value (R115, R186 to R188, R215): read-only registers keep theirs. -/
def writtenIs (s : State) (r : SysReg) (v : Word) : Word :=
  match r with
  | .gdl | .bfmt _ => v
  | .dlmax => if v = 0 then 1 else if 2 ^ 40 < v.toNat then 2 ^ 40 else v
  | .esclim | .toc => v &&& 0xFFFF
  | .sticky | .tenable => v &&& 0xFF
  | .syncwin => v &&& 0x3FFFFFFF1FFF7FFF
  | .wheel => v &&& 0x0000000001FF01FF
  | .limit => if v &&& 0xFFFFFFFF = 0 then 1 else v &&& 0xFFFFFFFF
  | .coord | .rank | .stage | .ctx | .tclock | .wclock | .stop => sysIs s r

/-- The registers of access SYS (R187). -/
def isSysOnly (r : SysReg) : Bool := [SysReg.dlmax, .esclim, .toc, .syncwin, .wheel, .limit].contains r

/-- sticky as the end of this cycle will leave it, when no MTS of it is pending (R171). -/
def stickySoon (s : State) : BitVec 8 :=
  (s.tile.regs.pendF.filter fun p => decide (p.1 ≤ s.now)).foldl (fun acc p => acc ||| p.2) s.tile.sys.sticky

end Sys2Proof.Claims

/-! ### Scalar floating point (chapter 08) -/

/-- R180, R181: FADD, FSUB, FMUL and FDIV round the exact result once; FFMA rounds a × b + c once; FSQRT. -/
def Sys2Proof.Claims.FloatResults : Prop :=
  TwoFloats .fadd 4 (fun x y => rounded ((f32Of x).add (f32Of y)))
    ∧ TwoFloats .fsub 4 (fun x y => rounded ((f32Of x).add (f32Of y).neg))
    ∧ TwoFloats .fmul 4 (fun x y => rounded ((f32Of x).mul (f32Of y)))
    ∧ TwoFloats .fdiv 16 (fun x y => rounded ((f32Of x).div (f32Of y)))
    ∧ (∀ (s : State) (d : XDst) (a b c : XSrc) (x y z : Word) (w : WDst),
        s.readX a = .ok x → s.readX b = .ok y → s.readX c = .ok z → s.destX d = .ok w →
          let p := (f32Of x).mul (f32Of y)
          let r := p.1.add (f32Of z)
          exec (.ffma d a b c) s = .next (gives s w 4 (rounded (r.1, r.2 ||| p.2))))
    ∧ OneSource .fsqrt 16 (fun x => match f32Of x with
        | .nan => (0x7FC00000, 0)
        | .inf neg => if neg then (0x7FC00000, fINV) else (0x7F800000, 0)
        | .fin neg n _ e =>
          if n = 0 then (if neg then 0x80000000 else 0, 0)
          else if neg then (0x7FC00000, fINV) else rounded (sqrtVal n e, 0))

/-- R182: FMIN and FMAX deliver minimumNumber and maximumNumber after 4 cycles, without a flag. -/
def Obligations.FloatMinimumAndMaximum : Prop :=
  TwoFloats .fmin 4 (pickIs false) ∧ TwoFloats .fmax 4 (pickIs true)

/-- R183: FCMP delivers −1, 0, 1 or 2 for less, equal, greater and unordered after 4 cycles, without a flag. -/
def Obligations.FloatComparison : Prop :=
  TwoFloats .fcmp 4 (fun x y => (match (f32Of x).cmp (f32Of y) with
      | none => 2
      | some .lt => BitVec.allOnes 64
      | some .eq => 0
      | some .gt => 1, 0))

/-- R184, R212: FCVT rounds the value of its source to its destination type after 4 cycles. -/
def Sys2Proof.Claims.FloatConversion : Prop :=
  ∀ (dst src : Ty) (rtz : Bool), (Instr.fcvt dst src rtz (.reg 0) (.reg 0)).wellFormed = true →
    OneSource (.fcvt dst src rtz) 4 fun x =>
      let r := roundTo dst fINV (if rtz then .rtz else .rne) (src.value x.toNat)
      (match dst with | .int t => wide t (BitVec.ofNat t.width r.1) | _ => BitVec.ofNat 64 r.1, r.2)

/-- R180, R183: a NaN operand of any payload and sign gives FADD, FSUB, FMUL and FDIV the canonical NaN without a flag,
and FCMP the value 2. -/
def Sys2Proof.Claims.NanOperands : Prop :=
  ∀ (s : State) (d : XDst) (a b : XSrc) (x y : Word) (w : WDst),
    s.readX a = .ok x → s.readX b = .ok y → s.destX d = .ok w → isNan32 x ∨ isNan32 y →
      exec (.fadd d a b) s = .next (gives s w 4 (0x7FC00000, 0))
        ∧ exec (.fsub d a b) s = .next (gives s w 4 (0x7FC00000, 0))
        ∧ exec (.fmul d a b) s = .next (gives s w 4 (0x7FC00000, 0))
        ∧ exec (.fdiv d a b) s = .next (gives s w 16 (0x7FC00000, 0))
        ∧ exec (.fcmp d a b) s = .next (gives s w 4 (2, 0))

/-! ### System registers and clocks (chapters 04, 05, 08) -/

/-- R346: TKRD delivers, after 2 cycles, COUNT in bits [15:0] and SAT in bit 16, as the counter stood at the start of the
cycle. -/
def Obligations.TokenCounterRead : Prop :=
  ∀ (s : State) (d : XDst) (tk : Fin 16) (w : WDst), s.destX d = .ok w →
    let c := s.tile.regs.tk0.get tk
    exec (.tkrd d tk) s = .next (gives s w 2 (BitVec.ofNat 64 (c.count.toNat + if c.sat then 65536 else 0), 0))

/-- R185, R187: MFS gives the register's value after 2 cycles. R148, R276: LCGET and STSTAT give a loop register
and the state of a stream register. R126, R127: DLMK and CLKRD, with the clocks of the cycle in which the bundle issued. -/
def Sys2Proof.Claims.RegisterReads : Prop :=
  (∀ (s : State) (d : XDst) (w : WDst), s.destX d = .ok w →
      let issued := s.strm.clocks.getD (s.tile.sys.tclock, s.clk.wclock)
      (∀ r, exec (.mfs d r) s = .next (gives s w 2 (sysIs s r, 0)))
      ∧ (∀ lc, exec (.lcget d lc) s = .next (gives s w 1 (s.tile.regs.lc.get lc, 0)))
      ∧ (∀ st, exec (.ststat d st) s = .next (gives s w 2 (stStat (s.tile.eng.sts.get st), 0)))
      ∧ ∀ (a : XSrc) (x : Word), s.readX a = .ok x →
          exec (.dlmk false d a) s = .next (gives s w 2 (if x.msb then 0x7FFFFFFFFFFFFFFF else x, 0))
            ∧ exec (.dlmk true d a) s = .next (gives s w 2
                (0x8000000000000000 + BitVec.ofNat 64
                  (max 0 (min ((issued.2 : Int) + x.toInt) (2 ^ 63 - 1))).toNat, 0)))
    ∧ ∀ (s : State) (d : Fin 64),
        let issued := s.strm.clocks.getD (s.tile.sys.tclock, s.clk.wclock)
        exec (.clkrd d) s = .next
          (gives (gives s (.x d) 2 (issued.1, 0)) (.x (d + 1)) 2 (BitVec.ofNat 64 issued.2, 0))

/-- R115, R186 to R188, R215: a system task's MTS is done at the end of its cycle; the register then reads as the rules
say, reserved bits as zero, dlmax clipped, a limit of zero stored as one, a read-only register unchanged. A user task may
write the registers of access U. -/
def Sys2Proof.Claims.MtsTakesEffect : Prop :=
  ∀ (s : State) (r : SysReg) (a : XSrc) (v : Word),
    s.readX a = .ok v → (s.isSys = true ∨ isSysOnly r = false) → (∀ n, r = .bfmt n → bankOk v = true) →
    s.tile.sys.mts = [] → s.tile.sys.tocOps = [] → s.tile.regs.pendF = [] →
    (s.tile.streams.get s.cur.group).isSome = true →
      ∃ s', exec (.mts r a) s = .next s' ∧ sysIs s' r = sysIs s r
        ∧ sysIs (s'.closeTile s.cur.tile) r = writtenIs s r v

/-- R186, R187, R385: MTS of a register of access SYS in a user task raises PRIVILEGE with the register's number, before its
source is read; R215: a reserved bank format raises BANK_FORMAT with the bank and the value. Neither writes. -/
def Sys2Proof.Claims.MtsRefused : Prop :=
  ∀ (s : State) (r : SysReg) (a : XSrc),
    (s.isSys = false → isSysOnly r = true →
      exec (.mts r a) s = .next (s.enterTrap { kind := .privilege, slot := s.cur.slot, info0 := r.index.setWidth 64 }))
    ∧ ∀ (v : Word) (n : Fin 16), s.readX a = .ok v → r = .bfmt n → bankOk v = false →
      exec (.mts r a) s = .next
        (s.enterTrap { kind := .bankFormat, slot := s.cur.slot, info0 := BitVec.ofNat 64 n.val, info1 := v })

/-- R223: in the first cycle by which every fixed-latency result committed before its issue has landed, TFENCE goes on when sticky
and tenable have no bit in common, and traps ARITHMETIC with the common bits when they have; before that it holds its bundle.
One that another syllable holds longer is tested in that cycle and no more, which is the model's choice (log 95). -/
def Sys2Proof.Claims.TfenceOutcome : Prop :=
  ∀ s : State,
    let earlier (w : PendW) : Prop := w ∈ s.tile.regs.pend ∧ w.late = false ∧ w.issued < s.now
    (s.tile.sys.mts = [] → s.tile.sys.mtsPlan = [] →
      (s.strm.holdTo = some s.now ∨ (s.strm.holdTo = none ∧ ∀ w, earlier w → w.due ≤ s.now)) →
      (stickySoon s &&& s.tile.sys.tenable = 0 → exec .tfence s = .next s)
      ∧ (stickySoon s &&& s.tile.sys.tenable ≠ 0 → exec .tfence s = .next (s.enterTrap
          { kind := .arithmetic, slot := s.cur.slot, info0 := (stickySoon s &&& s.tile.sys.tenable).setWidth 64 })))
    ∧ (s.strm.holdTo = none → (∃ w, earlier w ∧ s.now < w.due) →
        ∃ s', exec .tfence s = .next s' ∧ s'.cur.flow = .stalled 0 ∧ ∃ d, s'.strm.holdTo = some d ∧ s.now < d
          ∧ (∀ w, earlier w → w.due ≤ d) ∧ ∃ w, earlier w ∧ w.due = d)
    ∧ ∀ d, s.strm.holdTo = some d →
        (s.now < d → ∃ s', exec .tfence s = .next s' ∧ s'.cur.flow = .stalled 0 ∧ s'.strm.holdTo = some d)
        ∧ (d < s.now → exec .tfence s = .next s)

/-! ### Frames of the scalar forms -/

/-- R153, R154, R171: the scalar, vector, mask and load forms whose whole effect is their results: where one goes on, every
register, flag and byte of memory stays as it is but for the results scheduled, each for a destination of the form. Where
reductions are queued at the scratchpad, a load lets them apply (R322), and the bytes of no queued word stay. -/
def Obligations.ResultFrame : Prop :=
  ∀ (s s' : State) (i : Instr), OnlyResults i → exec i s = .next s' → s.cur.flow = .go → s'.cur.flow = .go →
    (isLoad i = true → NoneQueued s → OnlySchedules s s' (resultDests s i))
    ∧ (isLoad i = false → OnlySchedules s s' (resultDests s i))
    ∧ (MemOk s → ∀ a, (∀ e ∈ s.net.greds, ∀ w ∈ e.words, a < w.1 ∨ w.1 + 8 ≤ a) → Memory.get s'.mem a = Memory.get s.mem a)

/-! ### Operands and results of registers (chapter 07) -/

/-- R47, R54, R152, R153, R161: what a source field reads, where no word read fails its parity. x0 reads zero and k0 all
ones; a ring base reads the register of the innermost loop's iteration; a bypass field reads a valid latch of a member. -/
def Sys2Proof.Claims.SourceFields : Prop :=
  ∀ s : State, s.marks = [] →
    (∀ n, s.readX (.reg n) = .ok (if n = 0 then 0 else s.tile.regs.x.get n))
    ∧ (∀ n, s.readV (.reg n) = .ok (s.tile.regs.v.get n))
    ∧ (∀ n, s.readK (.reg n) = .ok (if n = 0 then BitVec.allOnes 256 else s.tile.regs.k.get n))
    ∧ (∀ (l : Loop) (ls : List Loop) (n m : Fin 64) (r : Ring), s.strm.loops = l :: ls →
        (l.rings.find? fun r => r.vec == false && r.base == n.val) = some r → m.val = n.val + l.n % r.len →
          s.readX (.rot n) = .ok (if m = 0 then 0 else s.tile.regs.x.get m))
    ∧ (∀ (l : Loop) (ls : List Loop) (n m : Fin 384) (r : Ring), s.strm.loops = l :: ls →
        (l.rings.find? fun r => r.vec == true && r.base == n.val) = some r → m.val = n.val + l.n % r.len →
          s.readV (.rot n) = .ok (s.tile.regs.v.get m))
    ∧ (∀ (sl : Fin 8) (d : Fin 3) (v : Word), s.member sl = true →
        (s.tile.regs.byp.get sl)[d.val]? = some (.x v) → s.readX (.byp sl d) = .ok v)
    ∧ (∀ (sl : Fin 8) (d : Fin 3) (v : VWord), s.member sl = true →
        (s.tile.regs.byp.get sl)[d.val]? = some (.v v) → s.readV (.byp sl d) = .ok v)
    ∧ ∀ (sl : Fin 8) (d : Fin 3) (v : KWord), s.member sl = true →
        (s.tile.regs.byp.get sl)[d.val]? = some (.k v) → s.readK (.byp sl d) = .ok v

/-- R47, R161, R205, R385, R386: the sources that trap: a ring base outside every loop or of no ring (ILLEGAL), a latch
that is no member's, empty or of another file (BYPASS_INVALID with the slot and depth), a register whose parity fails
(DATA_ERROR, source 1, file and number). -/
def Sys2Proof.Claims.SourceTraps : Prop :=
  ∀ s : State,
    (∀ n : Fin 64, s.strm.loops = [] → s.readX (.rot n) = .error (.trap
        { kind := .illegal, slot := s.cur.slot, info0 := s.cur.word, info1 := 1 }))
    ∧ (∀ (n : Fin 64) (l : Loop) (ls : List Loop), s.strm.loops = l :: ls →
        (l.rings.find? fun r => r.vec == false && r.base == n.val) = none → s.readX (.rot n) = .error (.trap
          { kind := .illegal, slot := s.cur.slot, info0 := s.cur.word, info1 := 1 }))
    ∧ (∀ (sl : Fin 8) (d : Fin 3), s.member sl = false ∨ (∀ v, (s.tile.regs.byp.get sl)[d.val]? ≠ some (.x v)) →
        s.readX (.byp sl d) = .error (.trap
          { kind := .bypassInvalid, slot := s.cur.slot, info0 := BitVec.ofNat 64 (sl.val + 256 * d.val) }))
    ∧ ∀ n : Fin 64, n ≠ 0 → xKey s.cur.tile n.val ∈ s.marks → s.readX (.reg n) = .error (.trap
        { kind := .dataError, slot := s.cur.slot, info0 := 1, info1 := BitVec.ofNat 64 (n.val * 65536) })

/-- R152: no landing write changes what x0 or k0 reads, and R158: among the writes to one x register that land together
the one of the highest slot remains, of one slot the later committed, an arriving result counting as committed when it
arrives. -/
def Sys2Proof.Claims.LandingWrites : Prop :=
  (∀ (r : Regs) (w : PendW), w.dst = .x 0 ∨ w.dst = .k 0 → r.put w = r)
    ∧ ∀ (r : Regs) (now : Nat) (n : Fin 64) (w : PendW) (v : Word), n ≠ 0 → w ∈ r.pend → w.due ≤ now → w.dst = .x n →
      w.val = .x v →
      (∀ u ∈ r.pend, u.due ≤ now → u.dst = .x n → u ≠ w →
        u.slot.val < w.slot.val
          ∨ (u.slot = w.slot ∧ ((u.late = false ∧ w.late = true) ∨ (u.late = w.late ∧ u.seq < w.seq)))) →
        (r.land now).x.get n = v

/-- R153, R154: a result is not readable before its latency has passed, and is from that cycle on: the landing of an earlier
cycle leaves the register as it would be without it, and the landing of that cycle writes it where nothing else is due. -/
def Sys2Proof.Claims.ResultLatency : Prop :=
  ∀ (s : State) (n : Fin 64) (lat c : Nat) (v : Word), n ≠ 0 →
    (c < s.now + lat →
      ((gives s (.x n) lat (v, 0)).tile.regs.land c).x.get n = (s.tile.regs.land c).x.get n)
    ∧ ((∀ w ∈ s.tile.regs.pend, w.dst ≠ .x n) → s.now + lat ≤ c →
      ((gives s (.x n) lat (v, 0)).tile.regs.land c).x.get n = v)

namespace Sys2Proof.Claims

/-! ### Words for vectors and masks -/

/-- A vector result under a mask register, for lanes of `w` bytes: zero in the bytes that the form does not write, the
active lanes' bytes written, the flags after the same time (R154, R171, R225, R226). -/
def vgives (s : State) (d : WDst) (lat w : Nat) (k : KWord) (r : VWord × Flags) : State :=
  (s.schedule d (.v (r.1 &&& maskBytes (activeMask k w))) (activeMask k w) lat true).flag lat r.2

/-- A vector result that writes the bytes of a byte mask. -/
def mgives (s : State) (d : WDst) (lat : Nat) (mask : KWord) (r : VWord × Flags) : State :=
  (s.schedule d (.v (r.1 &&& maskBytes mask)) mask lat true).flag lat r.2

/-- A mask result. -/
def kgives (s : State) (d : WDst) (lat : Nat) (v mask : KWord) : State := s.schedule d (.k v) mask lat true

/-- The write port of a destination is free (R156). -/
def PortFree (s : State) (d : WDst) (lat : Nat) : Prop := ∀ n, d = .v n → s.portClash n lat = false

/-- Forms of two v sources, lane by lane. -/
def TwoVectors (mk : VDst → VSrc → VSrc → Fin 16 → Instr) (w lat : Nat) (f : Nat → Nat → Nat × Flags) : Prop :=
  ∀ (s : State) (d : VDst) (a b : VSrc) (m : Fin 16) (x y : VWord) (k : KWord) (o : WDst),
    s.readV a = .ok x → s.readV b = .ok y → s.takeK m = .ok k → s.destV d = .ok o → PortFree s o lat →
      exec (mk d a b m) s = .next (vgives s o lat w k (laneResults w k fun j => f (lane x w j) (lane y w j)))

/-- VI forms: the immediate of R57 in place of the second source, its conversion's flags those of the issue. -/
def VectorImmediate (mk : VDst → VSrc → BitVec 16 → Fin 16 → Instr) (t : Ty) (lat : Nat) (f : Nat → Nat → Nat × Flags) :
    Prop :=
  ∀ (s : State) (d : VDst) (a : VSrc) (i : BitVec 16) (m : Fin 16) (x : VWord) (k : KWord) (o : WDst),
    s.readV a = .ok x → s.takeK m = .ok k → s.destV d = .ok o → PortFree s o lat →
      exec (mk d a i m) s = .next ((vgives s o lat (t.width / 8) k
        (laneResults (t.width / 8) k fun j => f (lane x (t.width / 8) j) (viImm t i).1)).flag lat (viImm t i).2)

/-- Forms of one v source, lane by lane. -/
def OneVector (mk : VDst → VSrc → Fin 16 → Instr) (w lat : Nat) (f : Nat → Nat × Flags) : Prop :=
  ∀ (s : State) (d : VDst) (a : VSrc) (m : Fin 16) (x : VWord) (k : KWord) (o : WDst),
    s.readV a = .ok x → s.takeK m = .ok k → s.destV d = .ok o → PortFree s o lat →
      exec (mk d a m) s = .next (vgives s o lat w k (laneResults w k fun j => f (lane x w j)))

/-- One rounding of an exact lane result to an IEEE type, with the flags of the operation (R229). -/
def laneRound (t : FTy) (r : Val × Flags) : Nat × Flags := ((t.fmt.round .rne r.1).1, (t.fmt.round .rne r.1).2 ||| r.2)

/-- The exact value of a lane of an IEEE type. -/
def laneVal (t : FTy) (x : Nat) : Val := t.fmt.value x

/-- minimumNumber and maximumNumber of lanes (R182, R229). -/
def lanePick (t : FTy) (hi : Bool) (x y : Nat) : Nat × Flags :=
  let u := laneVal t x
  let v := laneVal t y
  (if u.isNan && v.isNan then t.fmt.nanCode
    else if u.isNan then y
    else if v.isNan then x
    else if u.lt v || (u.eq v && u.isNeg && !v.isNeg) then (if hi then y else x)
    else (if hi then x else y), 0)

/-- A lane of an integer type as bits. -/
def laneBits (t : ITy) (x : Nat) : BitVec t.width := BitVec.ofNat t.width x

/-- The lane operations of R233. -/
def laneAdd (t : ITy) (x y : Nat) : Nat × Flags :=
  let a := laneBits t x
  let b := laneBits t y
  ((a + b).toNat, flagIf (if t.signed then a.saddOverflow b else a.uaddOverflow b) fIOV)
def laneSub (t : ITy) (x y : Nat) : Nat × Flags :=
  let a := laneBits t x
  let b := laneBits t y
  ((a - b).toNat, flagIf (if t.signed then a.ssubOverflow b else a.usubOverflow b) fIOV)
def laneMul (t : ITy) (x y : Nat) : Nat × Flags :=
  let a := laneBits t x
  let b := laneBits t y
  ((a * b).toNat, flagIf (if t.signed then a.smulOverflow b else a.umulOverflow b) fIOV)
def laneShl (t : ITy) (x y : Nat) : Nat × Flags := ((laneBits t x <<< (y % t.width)).toNat, 0)
def laneShr (t : ITy) (x y : Nat) : Nat × Flags := ((laneBits t x >>> (y % t.width)).toNat, 0)
def laneSar (t : ITy) (x y : Nat) : Nat × Flags := (((laneBits t x).sshiftRight (y % t.width)).toNat, 0)

/-- A lane operation on numbers below 2^w. -/
def InWidth (w : Nat) (f g : Nat → Nat → Nat × Flags) : Prop := ∀ x y, x < 2 ^ w → y < 2 ^ w → f x y = g x y

/-- ILLEGAL at the syllable in hand (R60, R385). -/
def illegalHere (s : State) : Trap := { kind := .illegal, slot := s.cur.slot, info0 := s.cur.word, info1 := 1 }

/-- The infinity of a sign. -/
def infCode (t : FTy) (neg : Bool) : Nat := t.fmt.code neg (t.fmt.infCode.getD 0)

/-- Lane `j` of the two registers, one after the other (R238). -/
def ofBoth (x y : VWord) (w j : Nat) : Nat := if j < 256 / w then lane x w j else lane y w (j - 256 / w)

/-- The bits of a mask register that govern lanes of `w` bytes: a lane's every bit (R231). -/
def laneBytes (w : Nat) (on : Nat → Bool) : KWord := laneMask w on

end Sys2Proof.Claims

/-! ### Vectors (chapter 11) -/

/-- R225: an active lane of a result is its operation on that lane, an inactive one zero, and the flags are those of the
active lanes; the lanes of 1, 2, 4 or 8 bytes, and the written bytes are those of the active lanes. -/
def Sys2Proof.Claims.LaneByLane : Prop :=
  ∀ (w : Nat) (k : KWord) (f : Nat → Nat × Flags), w ∈ [1, 2, 4, 8] →
    (∀ j, j < 256 / w → active k w j = true → lane (laneResults w k f).1 w j = (f j).1 % 2 ^ (8 * w))
    ∧ (∀ j, j < 256 / w → active k w j = false → lane (laneResults w k f).1 w j = 0)
    ∧ (∀ i, (laneResults w k f).2.getLsbD i = true ↔ ∃ j, j < 256 / w ∧ active k w j = true ∧ (f j).2.getLsbD i = true)
    ∧ ∀ b, b < 256 → (activeMask k w).getLsbD b = active k w (b / w)

/-- R228, R229: VADD, VSUB, VMUL, VMIN, VMAX and VFMA on f32, f16 and bf16, in both operand shapes, after 4 cycles. -/
def Sys2Proof.Claims.VectorFloatResults : Prop :=
  ∀ t : FTy,
    let w := t.width / 8
    let add (x y : Nat) := laneRound t ((laneVal t x).add (laneVal t y))
    let sub (x y : Nat) := laneRound t ((laneVal t x).add (laneVal t y).neg)
    let mul (x y : Nat) := laneRound t ((laneVal t x).mul (laneVal t y))
    TwoVectors (.vadd t) w 4 add ∧ TwoVectors (.vsub t) w 4 sub ∧ TwoVectors (.vmul t) w 4 mul
      ∧ TwoVectors (.vmin t) w 4 (lanePick t false) ∧ TwoVectors (.vmax t) w 4 (lanePick t true)
      ∧ VectorImmediate (.vaddVI t) (.flt t) 4 add ∧ VectorImmediate (.vsubVI t) (.flt t) 4 sub
      ∧ VectorImmediate (.vmulVI t) (.flt t) 4 mul ∧ VectorImmediate (.vminVI t) (.flt t) 4 (lanePick t false)
      ∧ VectorImmediate (.vmaxVI t) (.flt t) 4 (lanePick t true)
      ∧ ∀ (s : State) (d : VDst) (a b c : VSrc) (m : Fin 16) (x y z : VWord) (k : KWord) (o : WDst),
          s.readV a = .ok x → s.readV b = .ok y → s.readV c = .ok z → s.takeK m = .ok k → s.destV d = .ok o →
          PortFree s o 4 → exec (.vfma t d a b c m) s = .next (vgives s o 4 w k (laneResults w k fun j =>
            let p := (laneVal t (lane x w j)).mul (laneVal t (lane y w j))
            let r := p.1.add (laneVal t (lane z w j))
            laneRound t (r.1, r.2 ||| p.2)))

/-- R229, R230: VABS, VNEG, VRCP, VRSQ, VEXP2 and VLOG2 are done lane by lane after 4 cycles; VABS and VNEG change the sign
bit alone, and VRCP rounds 1 ÷ a. -/
def Sys2Proof.Claims.VectorUnaryResults : Prop :=
  ∀ t : FTy,
    let w := t.width / 8
    let top := 2 ^ (t.width - 1)
    OneVector (.vabs t) w 4 (fun x => (if (laneVal t x).isNan then t.fmt.nanCode else x % top, 0))
      ∧ OneVector (.vneg t) w 4
          (fun x => (if (laneVal t x).isNan then t.fmt.nanCode else if top ≤ x then x - top else x + top, 0))
      ∧ OneVector (.vrcp t) w 4 (fun x => laneRound t ((Val.ofInt 1).div (laneVal t x)))
      ∧ OneVector (.vrsq t) w 4 t.rsq ∧ OneVector (.vexp2 t) w 4 t.exp2 ∧ OneVector (.vlog2 t) w 4 t.log2

/-- R230: the special cases of VRCP, VRSQ, VEXP2 and VLOG2: zeros, infinities, finite negative operands, NaNs. -/
def Sys2Proof.Claims.VectorSpecialCases : Prop :=
  ∀ (t : FTy) (x : Nat),
    (laneVal t x = .nan →
      t.rcp x = (t.fmt.nanCode, 0) ∧ t.rsq x = (t.fmt.nanCode, 0) ∧ t.exp2 x = (t.fmt.nanCode, 0)
        ∧ t.log2 x = (t.fmt.nanCode, 0))
    ∧ (∀ neg, laneVal t x = .inf neg →
      t.rcp x = (t.fmt.code neg 0, 0)
        ∧ t.rsq x = (if neg then (t.fmt.nanCode, fINV) else (0, 0))
        ∧ t.exp2 x = (if neg then 0 else infCode t false, 0)
        ∧ t.log2 x = (if neg then (t.fmt.nanCode, fINV) else (infCode t false, 0)))
    ∧ (∀ neg d e, laneVal t x = .fin neg 0 d e →
      t.rcp x = (infCode t neg, fDZ) ∧ t.rsq x = (infCode t neg, fDZ)
        ∧ t.exp2 x = ((t.fmt.round .rne (Val.ofInt 1)).1, 0) ∧ t.log2 x = (infCode t true, fDZ))
    ∧ ∀ n d e, laneVal t x = .fin true (n + 1) d e →
      t.rsq x = (t.fmt.nanCode, fINV) ∧ t.log2 x = (t.fmt.nanCode, fINV)

/-- R233: the integer vector forms compute each lane modulo its width, IOV when the exact result does not fit. -/
def Sys2Proof.Claims.IntegerLanes : Prop :=
  ∀ t : ITy,
    InWidth t.width (viaddL t) (laneAdd t) ∧ InWidth t.width (visubL t) (laneSub t)
      ∧ InWidth t.width (vimulL t) (laneMul t) ∧ InWidth t.width (vshlL t) (laneShl t)
      ∧ InWidth t.width (vshrL t) (laneShr t) ∧ InWidth t.width (vsarL t) (laneSar t)

/-- R228, R233: the integer vector forms are done lane by lane, after 4 cycles for sums and products and 2 for logic and
shifts, in both operand shapes. -/
def Sys2Proof.Claims.VectorIntegerResults : Prop :=
  ∀ t : ITy,
    let w := t.width / 8
    TwoVectors (.viadd t) w 4 (viaddL t) ∧ TwoVectors (.visub t) w 4 (visubL t) ∧ TwoVectors (.vimul t) w 4 (vimulL t)
      ∧ TwoVectors (.vand t) w 2 (fun x y => (x &&& y, 0)) ∧ TwoVectors (.vor t) w 2 (fun x y => (x ||| y, 0))
      ∧ TwoVectors (.vxor t) w 2 (fun x y => (x ^^^ y, 0))
      ∧ TwoVectors (.vshl t) w 2 (vshlL t) ∧ TwoVectors (.vshr t) w 2 (vshrL t) ∧ TwoVectors (.vsar t) w 2 (vsarL t)
      ∧ VectorImmediate (.viaddVI t) (.int t) 4 (viaddL t) ∧ VectorImmediate (.visubVI t) (.int t) 4 (visubL t)
      ∧ VectorImmediate (.vimulVI t) (.int t) 4 (vimulL t)
      ∧ VectorImmediate (.vandVI t) (.int t) 2 (fun x y => (x &&& y, 0))
      ∧ VectorImmediate (.vorVI t) (.int t) 2 (fun x y => (x ||| y, 0))
      ∧ VectorImmediate (.vxorVI t) (.int t) 2 (fun x y => (x ^^^ y, 0))
      ∧ VectorImmediate (.vshlVI t) (.int t) 2 (vshlL t) ∧ VectorImmediate (.vshrVI t) (.int t) 2 (vshrL t)
      ∧ VectorImmediate (.vsarVI t) (.int t) 2 (vsarL t)

/-- R232: VSEL delivers, after 4 cycles and without a flag, a's lane where the lane's bit of k[C] is set and b's where it is
clear, for every type code, bits unchanged. -/
def Obligations.VectorSelection : Prop :=
  ∀ (s : State) (t : Ty) (d : VDst) (a b : VSrc) (c : KSrc) (m : Fin 16) (x y : VWord) (z k : KWord) (o : WDst),
    s.readV a = .ok x → s.readV b = .ok y → s.readK c = .ok z → s.takeK m = .ok k → s.destV d = .ok o → PortFree s o 4 →
      let w := t.width / 8
      exec (.vsel t d a b c m) s = .next (vgives s o 4 w k
        (laneResults w k fun j => (if z.getLsbD (w * j) then lane x w j else lane y w j, 0)))

/-- R231, R241: VCMP writes the whole of each active lane's bits; KAND, KOR, KXOR, KNOT and KMOV act on all 256 bits after 1 cycle, KPOP counts the governing bits. -/
def Obligations.MaskResults : Prop :=
  (∀ (s : State) (p : Fin 8) (t : Ty) (d : KDst) (a b : VSrc) (m : Fin 16) (x y : VWord) (k : KWord) (o : WDst),
      s.readV a = .ok x → s.readV b = .ok y → s.takeK m = .ok k → s.destK d = .ok o →
        let w := t.width / 8
        exec (.vcmp p t d a b m) s = .next (kgives s o 4
          (laneBytes w fun j => active k w j && vcmpHolds p t (lane x w j) (lane y w j)) (activeMask k w)))
    ∧ ∀ (s : State) (d : KDst) (a : KSrc) (x : KWord) (o : WDst), s.readK a = .ok x → s.destK d = .ok o →
      exec (.knot d a) s = .next (kgives s o 1 (~~~x) (BitVec.allOnes 256))
        ∧ exec (.kmov d a) s = .next (kgives s o 1 x (BitVec.allOnes 256))
        ∧ (∀ (b : KSrc) (y : KWord), s.readK b = .ok y →
            exec (.kand d a b) s = .next (kgives s o 1 (x &&& y) (BitVec.allOnes 256))
              ∧ exec (.kor d a b) s = .next (kgives s o 1 (x ||| y) (BitVec.allOnes 256))
              ∧ exec (.kxor d a b) s = .next (kgives s o 1 (x ^^^ y) (BitVec.allOnes 256)))
        ∧ ∀ (t : Ty) (e : XDst) (u : WDst), s.destX e = .ok u →
            exec (.kpop t e a) s = .next (gives s u 1
              (BitVec.ofNat 64 ((List.range (256 / (t.width / 8))).filter fun j => x.getLsbD (t.width / 8 * j)).length, 0))

/-- R234 to R236: VCVT converts the lanes that its part names, VQNT quantises 256 elements of a group of registers, whose
first must be a multiple of the group's size, with a scale byte for each 32 of them, VDQNT scales a quarter or a half of
the bytes up again. -/
def Sys2Proof.Claims.VectorConversions : Prop :=
  (∀ (s : State) (dst src : Ty) (rtz : Bool) (part : Fin 4) (d : VDst) (a : VSrc) (m : Fin 16) (x : VWord) (k : KWord)
      (o : WDst), (Instr.vcvt dst src rtz part d a m).wellFormed = true →
      s.readV a = .ok x → s.takeK m = .ok k → s.destV d = .ok o → PortFree s o 3 →
        let ws := src.width / 8
        let wd := dst.width / 8
        let n := 256 / max ws wd
        let from_ (j : Nat) : Nat := if wd < ws then j - part.val * n else if ws < wd then part.val * n + j else j
        let named (j : Nat) : Bool := !decide (wd < ws) || (decide (part.val * n ≤ j) && decide (j < part.val * n + n))
        let on := laneBytes wd fun j => active k wd j && named j
        exec (.vcvt dst src rtz part d a m) s = .next (mgives s o 3 on
          (laneResults wd on fun j => convert dst src rtz (lane x ws (from_ j)))))
    ∧ (∀ (s : State) (dst : Ty) (bf : Bool) (d : VDst) (a : VSrc) (n : Fin 384) (x : Fin 64) (o : WDst), s.marks = [] →
      s.destV d = .ok o → PortFree s o 8 → (a = .reg n ∨ ∃ r, a = .rot r ∧ s.rotate true r.val = .ok n.val) →
        let src : FTy := if bf then .bf16 else .f32
        let g := src.width / 8
        (n.val % g ≠ 0 → exec (.vqnt dst bf d a x) s = .next (s.enterTrap (illegalHere s)))
        ∧ (n.val % g = 0 →
          let reg (i : Nat) : VWord := s.tile.regs.v.get (Fin.ofNat 384 (n.val + i))
          let elem (e : Nat) : Val := laneVal src (lane (reg (e / (256 / g))) g (e % (256 / g)))
          let scale (b : Nat) : Nat := scaleSearch dst ((List.range 32).map fun i => elem (32 * b + i))
          let codes := (List.range 256).map fun e => vqntCode dst (scale (e / 32)) (elem e)
          exec (.vqnt dst bf d a x) s = .next (gives
            ((s.schedule o (.v (ofLanes 1 (codes.map fun c => c.1))) (BitVec.allOnes 256) 8 true).flag 8
              (codes.foldl (fun f c => f ||| c.2) 0))
            (.x x) 8 (BitVec.ofNat 64 (packLanes 1 ((List.range 8).map scale)), 0))))
    ∧ ∀ (s : State) (bf : Bool) (src : Ty) (part : Fin 4) (d : VDst) (a : VSrc) (b : XSrc) (m : Fin 16) (x : VWord)
      (c : Word) (k : KWord) (o : WDst), s.readV a = .ok x → s.readX b = .ok c → s.takeK m = .ok k → s.destV d = .ok o →
      PortFree s o 4 →
        let dst : Ty := .flt (if bf then .bf16 else .f32)
        let w := dst.width / 8
        exec (.vdqnt bf src part d a b m) s = .next (vgives s o 4 w k (laneResults w k fun j =>
          let e := part.val * (256 / w) + j
          roundTo dst fINV .rne ((src.value (lane x 1 e)).mul (e5m3 (c.extractLsb' (8 * (e / 32)) 8).toNat)).1))

/-- R221, R237: a reduction combines the lanes in adjacent pairs, level by level; an inactive lane counts as −0, as the
type's other bound, or as a NaN; the result fills the register whatever the mask. -/
def Sys2Proof.Claims.Reductions : Prop :=
  ∀ (s : State) (d : VDst) (a : VSrc) (m : Fin 16) (x : VWord) (k : KWord) (o : WDst),
    s.readV a = .ok x → s.takeK m = .ok k → s.destV d = .ok o → PortFree s o 6 →
      (∀ t : ITy,
        let w := t.width / 8
        let lanes (out : Int) := (List.range (256 / w)).map fun j => if active k w j then t.val (lane x w j) else out
        let fill (v : Int) : VWord × Flags := (ofLanes 8 (List.replicate 32 (v % 2 ^ 64).toNat), 0)
        exec (.vrsum (.int t) d a m) s = .next (mgives s o 6 (BitVec.allOnes 256) (fill ((lanes 0).foldl (· + ·) 0)))
          ∧ exec (.vrmax (.int t) d a m) s =
              .next (mgives s o 6 (BitVec.allOnes 256) (fill ((lanes t.lo).foldl max t.lo)))
          ∧ exec (.vrmin (.int t) d a m) s =
              .next (mgives s o 6 (BitVec.allOnes 256) (fill ((lanes t.hi).foldl min t.hi))))
      ∧ ∀ t : FTy,
        let w := t.width / 8
        let wide_ (n : Nat) : Nat := if t = .f32 then n else (FTy.f32.fmt.round .rne (laneVal t n)).1
        let lanes (out : Nat) := (List.range (256 / w)).map fun j => if active k w j then wide_ (lane x w j) else out
        let fill (r : Nat × Flags) : VWord × Flags := (ofLanes 4 (List.replicate 64 r.1), r.2)
        let sum (p q : Nat × Flags) : Nat × Flags :=
          let r := laneRound .f32 ((laneVal .f32 p.1).add (laneVal .f32 q.1))
          (r.1, p.2 ||| q.2 ||| r.2)
        exec (.vrsum (.flt t) d a m) s = .next (mgives s o 6 (BitVec.allOnes 256)
            (fill (reduceLanes (0, 0) sum ((lanes 0x80000000).map fun n => (n, 0)))))
          ∧ exec (.vrmax (.flt t) d a m) s = .next (mgives s o 6 (BitVec.allOnes 256)
              (fill (reduceLanes 0 (fun p q => (lanePick .f32 true p q).1) (lanes 0x7FC00000), 0)))
          ∧ exec (.vrmin (.flt t) d a m) s = .next (mgives s o 6 (BitVec.allOnes 256)
              (fill (reduceLanes 0 (fun p q => (lanePick .f32 false p q).1) (lanes 0x7FC00000), 0)))

/-- R238, R239: VPERM, VBCAST, VSLIDE, VZIP and VUNZIP place lanes after 3 cycles; VINS writes one active lane, VEXT reads
one, and VMOV moves a register, an immediate or the head of a stream queue after 2. -/
def Sys2Proof.Claims.VectorPermutes : Prop :=
  ∀ (s : State) (t : Ty) (d : VDst) (m : Fin 16) (k : KWord) (o : WDst), s.takeK m = .ok k → s.destV d = .ok o →
    let w := t.width / 8
    (PortFree s o 3 →
      (∀ (a : XSrc) (x : Word), s.readX a = .ok x → exec (.vbcast t d a m) s = .next
        (vgives s o 3 w k (laneResults w k fun _ => (x.toNat % 2 ^ t.width, 0))))
      ∧ ∀ (a b : VSrc) (x y : VWord), s.readV a = .ok x → s.readV b = .ok y →
        exec (.vperm t d a b m) s = .next
            (vgives s o 3 w k (laneResults w k fun j => (lane x w (lane y w j % (256 / w)), 0)))
          ∧ (∀ part, exec (.vzip t part d a b m) s = .next (vgives s o 3 w k (laneResults w k fun j =>
              (if j % 2 = 0 then lane x w ((if part then 128 / w else 0) + j / 2)
                else lane y w ((if part then 128 / w else 0) + j / 2), 0))))
          ∧ (∀ part : Bool, exec (.vunzip t part d a b m) s = .next
              (vgives s o 3 w k (laneResults w k fun j => (ofBoth x y w (2 * j + if part then 1 else 0), 0))))
          ∧ ∀ (c : XSrc) (n : Word), s.readX c = .ok n → exec (.vslide t d a b c m) s = .next
              (vgives s o 3 w k (laneResults w k fun j => (ofBoth x y w (j + min n.toNat (256 / w)), 0))))
    ∧ (PortFree s o 2 →
      (∀ (a : VSrc) (x : VWord), s.readV a = .ok x →
          exec (.vmov t d (.inl a) m) s = .next (vgives s o 2 w k (x, 0)))
      ∧ (∀ i : BitVec 16, exec (.vmovVI t d i m) s = .next
          (vgives s o 2 w k ((laneResults w k fun _ => ((viImm t i).1, 0)).1, (viImm t i).2)))
      ∧ ∀ (a b : XSrc) (x n : Word), s.readX a = .ok x → s.readX b = .ok n → exec (.vins t d a b m) s = .next
          (mgives s o 2 (laneBytes w fun j => j == n.toNat % (256 / w) && active k w j)
            (ofLanes w ((List.range (256 / w)).map fun _ => x.toNat % 2 ^ t.width), 0)))
    ∧ (∀ (e : XDst) (a : VSrc) (b : XSrc) (x : VWord) (n : Word) (u : WDst), s.readV a = .ok x → s.readX b = .ok n →
        s.destX e = .ok u → exec (.vext t e a b) s = .next
          (gives s u 2 (convertedWord t (lane x w (n.toNat % (256 / w))), 0)))

/-- R165, R239, R267: VMOV from a stream register takes the head of its queue; an empty queue of a bound stream holds
the bundle as an issue stall, and one that is unbound or cut off raises STREAM_DATA with what STSTAT gives. -/
def Sys2Proof.Claims.StreamReads : Prop :=
  ∀ (s : State) (t : Ty) (d : VDst) (n : Fin 8) (m : Fin 16) (k : KWord) (o : WDst), s.marks = [] →
    s.takeK m = .ok k → s.destV d = .ok o → PortFree s o 2 →
      let r := s.tile.eng.sts.get n
      (∀ v rest, r.queue = v :: rest →
        exec (.vmov t d (.inr n) m) s = .next
          (vgives (s.modEng fun e => { e with sts := upd e.sts n { r with queue := rest } }) o 2 (t.width / 8) k (v, 0)))
      ∧ (r.queue = [] → r.bound ≠ none → r.cut = false →
        exec (.vmov t d (.inr n) m) s = .next { s with cur := { s.cur with flow := .stalled 5 } })
      ∧ (r.queue = [] → r.bound = none ∨ r.cut = true →
        exec (.vmov t d (.inr n) m) s = .next (s.enterTrap
          { kind := .streamData, slot := s.cur.slot, info0 := BitVec.ofNat 64 n.val, info1 := stStat r }))

/-- R213, R240: VRNG gives each lane the device generator's number of the key and the counter plus the lane number: all 64
bits, the upper 32, or the upper 24 as a fraction. -/
def Sys2Proof.Claims.VectorRandom : Prop :=
  ∀ (s : State) (d : VDst) (a b : XSrc) (m : Fin 16) (key ctr : Word) (k : KWord) (o : WDst),
    s.readX a = .ok key → s.readX b = .ok ctr → s.takeK m = .ok k → s.destV d = .ok o → PortFree s o 5 →
      exec (.vrng (.int .n64) d a b m) s = .next
          (vgives s o 5 8 k (laneResults 8 k fun j => ((gen key (ctr + BitVec.ofNat 64 j)).toNat, 0)))
        ∧ exec (.vrng (.int .n32) d a b m) s = .next
          (vgives s o 5 4 k (laneResults 4 k fun j => ((gen key (ctr + BitVec.ofNat 64 j) >>> 32).toNat, 0)))
        ∧ exec (.vrng (.flt .f32) d a b m) s = .next (vgives s o 5 4 k (laneResults 4 k fun j =>
            ((round32 (Val.dyadic (gen key (ctr + BitVec.ofNat 64 j) >>> 40).toNat (-24))).1, 0)))

namespace Sys2Proof.Claims

/-! ### Words for the LS slot -/

/-- The address of a MEM form in the own scratchpad, with the conditions of R191 and R245 that let it be accessed. -/
def OwnAddr (s : State) (m : MemF) (size scale a : Nat) : Prop :=
  ∃ p, s.readX m.base = .ok p ∧ spaceOf p = 1 ∧ rankOf p = 0
    ∧ (a : Int) = (offsetOf p : Int) + m.off.toInt * (scale : Int) ∧ a + size ≤ 2 ^ 19 ∧ a % scale = 0

/-- `n` bytes of the own scratchpad, little-endian (R8, R193). -/
def spadNum (s : State) (a n : Nat) : Nat := Memory.readN s.mem (s.spad a) n

/-- No word of `n` bytes at an offset fails its parity (R205). -/
def Sound (s : State) (a n : Nat) : Prop := s.marked (s.spad a) n 4 = false

/-- The lanes of a strided or gathered access: every active lane's address lies in the own scratchpad, aligned (R247). -/
def LanesAt (p : Word) (w : Nat) (k : KWord) (e : Nat → Int) (at_ : Nat → Nat) : Prop :=
  spaceOf p = 1 ∧ rankOf p = 0
    ∧ ∀ j, j < 256 / w → active k w j = true → (at_ j : Int) = e j ∧ at_ j + w ≤ 2 ^ 19 ∧ at_ j % w = 0

/-- The port cycles of rows, each counted once (R243). -/
def portRows (rows : List Nat) : Nat := portCycles (rows.foldr insertRow [])

/-- The port cycles of the active lanes' rows. -/
def laneRows (w : Nat) (k : KWord) (at_ : Nat → Nat) : Nat :=
  portRows (((List.range (256 / w)).filter fun j => active k w j).flatMap fun j => rowsOf (at_ j) w)

/-- Byte `b` of the own scratchpad as an access of several rows has it: from the row taken in an earlier port cycle, else as
it stands (R243, R244). -/
def heldByte (s : State) (b : Nat) : Nat :=
  match s.strm.rowGot.find? fun x => x.row == b / 256 with
  | some x => x.bytes / 256 ^ (b % 256) % 256
  | none => (Memory.get s.mem (s.spad b)).toNat

/-- `n` such bytes, little-endian. -/
def heldNum (s : State) (a n : Nat) : Nat := ((List.range n).map fun i => heldByte s (a + i) * 256 ^ i).sum

/-- No word of such bytes fails its parity, as it was taken or as it stands (R205). -/
def HeldSound (s : State) (a n : Nat) : Prop :=
  ∀ b, a ≤ b → b < a + n → match s.strm.rowGot.find? fun x => x.row == b / 256 with
    | some x => x.bad.testBit (b % 256 / 4) = false
    | none => s.marked (s.spad b) 1 4 = false

/-- The state in which the reductions queued at the lanes' lines have applied (R322). -/
def lanesSettled (s : State) (w : Nat) (k : KWord) (at_ : Nat → Nat) : State :=
  ((List.range (256 / w)).filter fun j => active k w j).foldl (fun s j => s.settleSpad (at_ j) w) s

/-- A byte of the own scratchpad at a key, in a row that a store wrote in an earlier port cycle and commits over with `last` as
what its lanes or parts put at an offset now: a byte that holds what the store left there becomes that, or, where it puts none
there, what stood there before; one that another access has written since stays. A byte of no such row stays (R153, R243; log
19). -/
def takenByte (s : State) (last : Nat → Option Nat) (b : Nat) : Byte :=
  let o := b - s.spad 0
  match s.strm.rowGot.find? fun x => decide (s.spad 0 ≤ b) && x.row == o / 256 with
  | some x => match x.put with
    | some q =>
      if (Memory.get s.mem b).toNat = q / 256 ^ (o % 256) % 256 then
        BitVec.ofNat 8 ((last o).getD (x.bytes / 256 ^ (o % 256) % 256))
      else Memory.get s.mem b
    | none => Memory.get s.mem b
  | none => Memory.get s.mem b

/-- What the lanes of a store put at an offset: the highest active lane's byte (R247). -/
def lastLane (w : Nat) (k : KWord) (at_ : Nat → Nat) (x : VWord) (o : Nat) : Option Nat :=
  (((List.range (256 / w)).filter fun j => active k w j && decide (at_ j ≤ o) && decide (o < at_ j + w)).getLast?).map
    fun j => lane x w j / 256 ^ (o - at_ j) % 256

/-- The trap of an LS access at offset `a` of a pointer, if it meets one (R191, R245, R385, R392): a space other than the own
scratchpad, a rank, a negative offset or an end beyond it, then a misaligned address. -/
def addrTrap (s : State) (p : Word) (a : Int) (size scale access : Nat) : Option Trap :=
  let addr : Word := p.extractLsb' 52 12 ++ BitVec.ofInt 52 a
  if spaceOf p ≠ 1 ∨ rankOf p ≠ 0 ∨ a < 0 ∨ 2 ^ 19 < a + size then some { kind := .addrSpace, slot := s.cur.slot, addr, access }
  else if a % scale ≠ 0 then some { kind := .misaligned, slot := s.cur.slot, addr, access, info0 := BitVec.ofNat 64 scale }
  else none

/-- A form makes these checks on its address, and is held by R357 where they pass and the order of its stream keeps it back. -/
def Checked (s : State) (i : Instr) (p : Word) (a : Int) (size scale access : Nat) (inOrder : Bool) : Prop :=
  (∀ tr, addrTrap s p a size scale access = some tr → exec i s = .next (s.enterTrap tr))
    ∧ (addrTrap s p a size scale access = none → inOrder = false →
        exec i s = .next { s with cur := { s.cur with flow := .stalled 0 } })

/-- The first active lane whose address fails its checks raises their trap (R247). -/
def LanesChecked (s : State) (i : Instr) (p : Word) (w access : Nat) (k : KWord) (e : Nat → Int) : Prop :=
  ∀ j tr, j < 256 / w → active k w j = true → addrTrap s p (e j) w w access = some tr →
    (∀ j', j' < j → active k w j' = true → addrTrap s p (e j') w w access = none) → exec i s = .next (s.enterTrap tr)

/-- What a store leaves alone: everything but memory and its marks. -/
def OnlyMemory (s s' : State) : Prop :=
  s'.clk = s.clk ∧ s'.cur = s.cur ∧ s'.tiles = s.tiles ∧ s'.ctxs = s.ctxs ∧ s'.slots = s.slots ∧ s'.hubs = s.hubs
    ∧ s'.net = s.net ∧ s'.dev = s.dev ∧ s'.fw = s.fw ∧ s'.hold = s.hold ∧ s'.ports = s.ports ∧ s'.saved = s.saved
    ∧ s'.lineMeta = s.lineMeta ∧ s'.grades = s.grades ∧ s'.agenda = s.agenda ∧ s'.inputs = s.inputs ∧ s'.cores = s.cores
    ∧ s'.coreReads = s.coreReads ∧ s'.freeCtr = s.freeCtr

/-- The byte at a key after `n` bytes of a number were stored at another. -/
def byteAfter (s : State) (a n v b : Nat) : Byte :=
  if a ≤ b ∧ b < a + n then BitVec.ofNat 8 (v / 256 ^ (b - a)) else Memory.get s.mem b

/-- The result of an atomic at its width (R253): the new value, none for a compare that fails. -/
def atomIs (op : AtomOp) (t : ITy) (old x y : BitVec t.width) : Option (BitVec t.width) :=
  match op with
  | .add => some (old + x)
  | .and => some (old &&& x)
  | .or => some (old ||| x)
  | .xor => some (old ^^^ x)
  | .min => some (if x.slt old then x else old)
  | .max => some (if old.slt x then x else old)
  | .swap => some x
  | .cas => if old = x then some y else none

/-- The tag changes that FEQ makes (R252): pairs of a word and whether it becomes full. -/
def feqIs (op : FeqOp) (x : Word) (a : Nat) : List (Nat × Bool) :=
  (List.range 64).filterMap fun i => match op with
    | .q => none
    | .clr => some (a / 256 * 64 + i, false)
    | .set => some (a / 256 * 64 + i, true)
    | .wr => some (a / 256 * 64 + i, x.getLsbD i)

end Sys2Proof.Claims

/-! ### Loads and stores (chapter 12) -/

/-- R243 to R247, R322: XLD, VLD, VLDS and VGTH read the own scratchpad at the address their fields form, where R357 lets
them and no parity fails, once the reductions queued there have applied, and deliver the bytes after 4 or 6 cycles; an
inactive lane is not read, and the rows beyond the first of a bank have been taken in the port cycles before. -/
def Sys2Proof.Claims.LoadResults : Prop :=
  (∀ (s : State) (m : MemF) (o : OrdF) (a : Nat), s.lsInOrder m.sid o.acq o.rel = true →
      (∀ (t : ITy) (d : XDst) (w : WDst), let s1 := s.settleSpad a (t.width / 8)
        OwnAddr s m (t.width / 8) (t.width / 8) a → Sound s1 a (t.width / 8) → s.destX d = .ok w → exec (.xld t d m o) s =
          .next (gives s1 w 4 (wide t (BitVec.ofNat t.width (spadNum s1 a (t.width / 8))), 0)))
      ∧ ∀ (d : VDst) (w : WDst), let s1 := s.settleSpad a 256
        OwnAddr s m 256 256 a → Sound s1 a 256 → s.destV d = .ok w → PortFree s w 6 →
        exec (.vld d m o) s = .next (mgives s1 w 6 (BitVec.allOnes 256) (BitVec.ofNat 2048 (spadNum s1 a 256), 0)))
    ∧ ∀ (s : State) (t : Ty) (d : VDst) (a : XSrc) (sid m : Fin 16) (p : Word) (k : KWord) (w : WDst) (at_ : Nat → Nat),
      let n := t.width / 8
      let s1 := lanesSettled s n k at_
      s.readX a = .ok p → s.takeK m = .ok k → s.destV d = .ok w → PortFree s w 6 → s.lsInOrder sid false false = true →
      laneRows n k at_ ≤ s.strm.rows + 1 → (∀ j, j < 256 / n → active k n j = true → HeldSound s1 (at_ j) n) →
        let read : VWord × Flags :=
          (ofLanes n ((List.range (256 / n)).map fun j => if active k n j then heldNum s1 (at_ j) n else 0), 0)
        (∀ (b : XSrc) (st : Word), s.readX b = .ok st →
          LanesAt p n k (fun j => (offsetOf p : Int) + (j : Int) * st.toInt) at_ →
            exec (.vlds t d a b sid m) s = .next (vgives s1 w 6 n k read))
        ∧ ∀ (b : VSrc) (ix : VWord), s.readV b = .ok ix →
          LanesAt p n k (fun j => (offsetOf p : Int) + (n : Int) * (lane ix n j : Int)) at_ →
            exec (.vgth t d a b sid m) s = .next (vgives s1 w 6 n k read)

/-- R243, R244, R248: VLDD decodes 64 elements of its bank's format to f32 lanes after 7 cycles, with a scale byte for each
32 of them in a scaled bank; VSTE encodes 64 f32 lanes by the source and the format of its commit cycle, writing the elements
and in a scaled bank the two scales that it chose; a row that it wrote in a port cycle before becomes what those make of it (log
19); its flags enter after 4 cycles. -/
def Sys2Proof.Claims.BankResults : Prop :=
  ∀ (s : State) (m : MemF) (o : OrdF) (a : Nat) (t : Ty), s.lsInOrder m.sid o.acq o.rel = true →
    let i := a / 2 ^ 15
    let b := s.tile.sys.bfmt.get (Fin.ofNat 16 i)
    let n := t.width / 8
    let scaleBase := i * 2 ^ 15 + 0x7C00 + a % 2 ^ 15 / 32
    bankTy b = some t → OwnAddr s m (64 * n) 32 a → a % 2 ^ 15 + 64 * n ≤ 2 ^ 15 →
    (bankScaled b = true → a % 2 ^ 15 + 64 * n ≤ 0x7C00) →
    portRows (bankRows a n (bankScaled b)) ≤ s.strm.rows + 1 →
      (∀ (d : VDst) (w : WDst), let s1 := (s.settleSpad a (64 * n)).settleSpad scaleBase 2
        HeldSound s1 a (64 * n) → (bankScaled b = true → HeldSound s1 scaleBase 2) → s.destV d = .ok w → PortFree s w 7 →
          let r (j : Nat) : Nat × Flags := roundTo (.flt .f32) fINV .rne
            (decodeBank t (bankScaled b) (if bankScaled b then heldNum s1 (scaleBase + j / 32) 1 else 0)
              (heldNum s1 (a + n * j) n))
          exec (.vldd d m o) s = .next (mgives s1 w 7 (BitVec.allOnes 256)
            (ofLanes 4 ((List.range 64).map fun j => (r j).1), (List.range 64).foldl (fun f j => f ||| (r j).2) 0)))
      ∧ ∀ (v : VSrc) (x : VWord), s.readV v = .ok x →
          let val (j : Nat) : Val := f32v (lane x 4 j)
          let scale (h : Nat) : Nat := scaleSearch t ((List.range 32).map fun j => val (32 * h + j))
          let code (j : Nat) : Nat × Flags :=
            encodeBank b t i (a % 2 ^ 15 + n * j) (if bankScaled b then some (scale (j / 32)) else none) (val j)
          let parts : List (Nat × Nat × Nat) := ((List.range 64).map fun j => (a + n * j, n, (code j).1))
            ++ if bankScaled b then [(scaleBase, 1, scale 0), (scaleBase + 1, 1, scale 1)] else []
          let now := parts.filter fun e => s.strm.rowGot.all fun x => x.row != e.1 / 256
          let s0 := s.strm.rowGot.foldl (State.fixRow s.cur.tile parts) s
          let s1 := now.foldl (fun (s : State) e => (s.settleSpad e.1 e.2.1).writeSpad e.1 e.2.1 e.2.2) s0
          let s2 := s1.clearCovered 4 (now.map fun e => (s.spad e.1, e.2.1))
          exec (.vste v m o) s = .next
            ((s2.flag 4 ((List.range 64).foldl (fun f j => f ||| (code j).2) 0)).schedule .none (.x 0) 0 4 false)

/-- R243 to R247, R322: XST and VST write their bytes at the address their fields form, once the reductions queued there
have applied, and no other byte; VSTS and VSCT write each active lane's bytes at its address, the higher lane's remaining,
and no byte outside them; a row that they wrote in a port cycle before becomes what the lanes of the commit cycle make of it (log
19). Nothing but memory and its marks changes. -/
def Obligations.StoreResults : Prop :=
  (∀ (s : State) (m : MemF) (o : OrdF) (a : Nat), MemOk s → s.lsInOrder m.sid o.acq o.rel = true →
      (∀ (w : Fin 4) (v : XSrc) (x : Word), OwnAddr s m (2 ^ w.val) (2 ^ w.val) a → s.readX v = .ok x →
        ∃ s', exec (.xst w v m o) s = .next s' ∧ OnlyMemory (s.settleSpad a (2 ^ w.val)) s'
          ∧ ∀ b, Memory.get s'.mem b = byteAfter (s.settleSpad a (2 ^ w.val)) (s.spad a) (2 ^ w.val) x.toNat b)
      ∧ ∀ (v : VSrc) (x : VWord), OwnAddr s m 256 256 a → s.readV v = .ok x →
        ∃ s', exec (.vst v m o) s = .next s' ∧ OnlyMemory (s.settleSpad a 256) s'
          ∧ ∀ b, Memory.get s'.mem b = byteAfter (s.settleSpad a 256) (s.spad a) 256 x.toNat b)
    ∧ ∀ (s : State) (t : Ty) (v : VSrc) (a : XSrc) (sid m : Fin 16) (p : Word) (x : VWord) (k : KWord) (at_ : Nat → Nat),
      let n := t.width / 8
      s.readX a = .ok p → s.readV v = .ok x → s.takeK m = .ok k → MemOk s → s.lsInOrder sid false false = true →
      laneRows n k at_ ≤ s.strm.rows + 1 → (s.strm.rowGot.map fun r => r.row).Nodup →
        let now (j : Nat) : Prop := j < 256 / n ∧ active k n j = true ∧ ∀ r ∈ s.strm.rowGot, r.row ≠ at_ j / 256
        let stored (s' : State) : Prop := OnlyMemory s s'
          ∧ (∀ b, (∀ j, now j → b < s.spad (at_ j) ∨ s.spad (at_ j) + n ≤ b) →
              Memory.get s'.mem b = takenByte s (lastLane n k at_ x) b)
          ∧ ∀ j i, now j → i < n →
              (∀ j', j < j' → now j' → at_ j + i < at_ j' ∨ at_ j' + n ≤ at_ j + i) →
              Memory.get s'.mem (s.spad (at_ j) + i) = BitVec.ofNat 8 (lane x n j / 256 ^ i)
        let quiet : Prop := ∀ e ∈ s.net.greds, ∀ j, now j → e.line ≠ s.spad (at_ j) / 64
        (∀ (b : XSrc) (st : Word), s.readX b = .ok st →
          LanesAt p n k (fun j => (offsetOf p : Int) + (j : Int) * st.toInt) at_ →
            ∃ s', exec (.vsts t v a b sid m) s = .next s' ∧ (quiet → stored s'))
        ∧ ∀ (b : VSrc) (ix : VWord), s.readV b = .ok ix →
          LanesAt p n k (fun j => (offsetOf p : Int) + (n : Int) * (lane ix n j : Int)) at_ →
            ∃ s', exec (.vsct t v a b sid m) s = .next s' ∧ (quiet → stored s')

/-- R191, R243 to R245, R248, R253: the order of the checks of an LS access of every form: a space other than the own
scratchpad, a rank, a negative offset or an end beyond it raises ADDR_SPACE, a misaligned address in it MISALIGNED with the
scale, both with the address and the access code; VLDD and VSTE of a bank without a format, or beyond the elements of its bank,
raise BANK_FORMAT with the bank; then an access that R357 keeps back holds its bundle; and one that takes several rows of a bank
holds it for the port cycles of the others. -/
def Sys2Proof.Claims.AccessChecks : Prop :=
  (∀ (s : State) (t : Ty) (d : VDst) (v : VSrc) (x : VWord) (a b : XSrc) (sid m : Fin 16) (p st : Word) (k : KWord)
      (at_ : Nat → Nat),
    let n := t.width / 8
    s.readX a = .ok p → s.readX b = .ok st → s.readV v = .ok x → s.takeK m = .ok k → s.lsInOrder sid false false = true →
    LanesAt p n k (fun j => (offsetOf p : Int) + (j : Int) * st.toInt) at_ → s.strm.rows + 1 < laneRows n k at_ →
      (∃ s', exec (.vlds t d a b sid m) s = .next s' ∧ s'.cur.flow = .stalled 9)
        ∧ ∃ s', exec (.vsts t v a b sid m) s = .next s' ∧ s'.cur.flow = .stalled 9)
  ∧ (∀ (s : State) (m : MemF) (o : OrdF) (p : Word), s.readX m.base = .ok p →
      let at_ (scale : Nat) : Int := (offsetOf p : Int) + m.off.toInt * (scale : Int)
      let ordered := s.lsInOrder m.sid o.acq o.rel
      (∀ (t : ITy) d, Checked s (.xld t d m o) p (at_ (t.width / 8)) (t.width / 8) (t.width / 8) 2 ordered)
      ∧ (∀ (w : Fin 4) v x, s.readX v = .ok x →
          Checked s (.xst w v m o) p (at_ (2 ^ w.val)) (2 ^ w.val) (2 ^ w.val) 3 ordered)
      ∧ (∀ d, Checked s (.vld d m o) p (at_ 256) 256 256 2 ordered)
      ∧ (∀ v x, s.readV v = .ok x → Checked s (.vst v m o) p (at_ 256) 256 256 3 ordered)
      ∧ (∀ op d, (op = .wr → ∃ x, s.dataX d = .ok x) →
          Checked s (.feq op d m) p (at_ 4) 4 4 (if op = .q then 2 else 3) (s.lsInOrder m.sid false false))
      ∧ (∀ op w64 (d : Fin 64) x, s.takeX d = .ok x → (op = .cas → ∃ y, s.takeX (d + 1) = .ok y) →
          let n := if w64 then 8 else 4
          Checked s (.latom op w64 d m o) p (at_ n) n n 4 ordered)
      ∧ (s.strm.wait = none → ∀ tr sc w,
          (addrTrap s p (at_ 4) 4 4 2 = some tr → ∀ d x, s.destX d = .ok x →
            exec (.ldf d m sc w) s = .next (s.enterTrap tr) ∧ exec (.few d m sc w) s = .next (s.enterTrap tr))
          ∧ (addrTrap s p (at_ 4) 4 4 3 = some tr → ∀ v, exec (.ste v m sc w) s = .next (s.enterTrap tr)))
      ∧ ∀ (d : VDst) (v : VSrc) (x : VWord), s.readV v = .ok x →
        let i := (at_ 32 / 2 ^ 15).toNat % 16
        let b := s.tile.sys.bfmt.get (Fin.ofNat 16 i)
        let size : Nat := match bankTy b with | some t => 64 * (t.width / 8) | none => 64
        let fits := bankTy b ≠ none ∧ at_ 32 % 2 ^ 15 + size ≤ 2 ^ 15 ∧ (bankScaled b = true → at_ 32 % 2 ^ 15 + size ≤ 0x7C00)
        let bad (access : Nat) : Trap :=
          { kind := .bankFormat, slot := s.cur.slot, info0 := BitVec.ofNat 64 i, access
            addr := p.extractLsb' 52 12 ++ BitVec.ofInt 52 (at_ 32) }
        (fits → Checked s (.vldd d m o) p (at_ 32) size 32 2 ordered ∧ Checked s (.vste v m o) p (at_ 32) size 32 3 ordered)
        ∧ (¬ fits →
          (∀ tr, addrTrap s p (at_ 32) size 32 2 = some tr → exec (.vldd d m o) s = .next (s.enterTrap tr))
          ∧ (∀ tr, addrTrap s p (at_ 32) size 32 3 = some tr → exec (.vste v m o) s = .next (s.enterTrap tr))
          ∧ (addrTrap s p (at_ 32) size 32 2 = none → exec (.vldd d m o) s = .next (s.enterTrap (bad 2))
            ∧ exec (.vste v m o) s = .next (s.enterTrap (bad 3)))))
  ∧ ∀ (s : State) (t : Ty) (d : VDst) (v : VSrc) (x : VWord) (a : XSrc) (sid m : Fin 16) (p : Word) (k : KWord),
    let n := t.width / 8
    s.readX a = .ok p → s.readV v = .ok x → s.takeK m = .ok k →
      (∀ b st, s.readX b = .ok st →
        let e (j : Nat) : Int := (offsetOf p : Int) + (j : Int) * st.toInt
        LanesChecked s (.vlds t d a b sid m) p n 2 k e ∧ LanesChecked s (.vsts t v a b sid m) p n 3 k e)
      ∧ ∀ b ix, s.readV b = .ok ix →
        let e (j : Nat) : Int := (offsetOf p : Int) + (n : Int) * (lane ix n j : Int)
        LanesChecked s (.vgth t d a b sid m) p n 2 k e ∧ LanesChecked s (.vsct t v a b sid m) p n 3 k e

/-- R252, R253: FEQ answers the 64 tags of its row as they stand and changes them as its operation says, seen from the
next cycle; LATOM reads, writes what its operation says and delivers the old value, a compare that fails writing nothing. -/
def Obligations.TagRowsAndAtomics : Prop :=
  (∀ (s : State) (op : FeqOp) (d : XDst) (m : MemF) (a : Nat) (x : Word) (w : WDst), s.marks = [] →
      OwnAddr s m 4 4 a → s.lsInOrder m.sid false false = true → s.destX d = .ok w → s.dataX d = .ok x →
        ∃ v : Word, (∀ i, i < 64 → v.getLsbD i = s.tile.tags.contains (a / 256 * 64 + i))
          ∧ exec (.feq op d m) s = .next
            (gives (s.modTile s.cur.tile fun t => { t with tagPend := t.tagPend ++ feqIs op x a }) w 4 (v, 0)))
    ∧ ∀ (s : State) (op : AtomOp) (w64 : Bool) (d : Fin 64) (m : MemF) (o : OrdF) (a : Nat) (x y : Word),
      let t := atomTy w64
      let n := t.width / 8
      let s0 := s.settleSpad a n
      OwnAddr s m n n a → s.lsInOrder m.sid o.acq o.rel = true → Sound s0 a n → s.takeX d = .ok x →
      (op = .cas → s.takeX (d + 1) = .ok y) →
        let old : BitVec t.width := BitVec.ofNat t.width (spadNum s0 a n)
        let s1 := match atomIs op t old (low t x) (low t y) with
          | some v => s0.writeSpad a n v.toNat
          | none => s0
        exec (.latom op w64 d m o) s = .next (gives s1 (.x d) 4 (old.signExtend 64, 0))

namespace Sys2Proof.Claims

/-! ### Words for control flow, waits and commands -/

/-- A code address that check_target passes (R132). -/
def GoodTarget (s : State) (t : Int) : Prop := 0 ≤ t ∧ t % 8 = 0 ∧ t < (s.codeLen : Int)

/-- FETCH_FAULT at a target (R132, R385), whose address the entry gives too (R392; that it does is read from R392's row of
ADDR, log 100). -/
def badTarget (s : State) (t : Int) : Trap :=
  { kind := .fetchFault, slot := s.cur.slot, access := 1, info0 := BitVec.ofInt 64 t, addr := BitVec.ofInt 64 t }

/-- The bundle goes on at a target after a transfer's delay; a stop point when the rule makes it one (R134, R406). -/
def goesTo (s : State) (t : Nat) (stop : Bool) : State :=
  { s with cur := { s.cur with target := some t, penalty := true, stopPt := s.cur.stopPt || stop } }

/-- A transfer that leaves the loops whose bodies do not hold its target, innermost first (R136, R141). -/
def jumpsTo (s : State) (t : Nat) (stop : Bool) : State :=
  goesTo (s.modStrm fun st => { st with loops := st.loops.dropWhile fun l => !(decide (l.start ≤ t) && decide (t ≤ l.stop)) }) t stop

/-- The conditions of BR (R136). -/
def brIs (c : BrCond) (x y : Word) : Bool :=
  match c with
  | .eq => decide (x = y)
  | .ne => decide (x ≠ y)
  | .lt => decide (x.toInt < y.toInt)
  | .ge => decide (y.toInt ≤ x.toInt)
  | .ltu => decide (x.toNat < y.toNat)
  | .geu => decide (y.toNat ≤ x.toNat)

/-- What every state of the tile and device keeps when only the cursor and the stream in hand change. -/
def OnlyStream (s s' : State) : Prop :=
  s'.mem = s.mem ∧ s'.marks = s.marks ∧ s'.clk = s.clk ∧ s'.ctxs = s.ctxs ∧ s'.slots = s.slots ∧ s'.hubs = s.hubs
    ∧ s'.net = s.net ∧ s'.dev = s.dev ∧ (∀ u, u ≠ s.cur.tile → s'.tileAt u = s.tileAt u)
    ∧ s'.tile.regs = s.tile.regs ∧ s'.tile.sys = s.tile.sys ∧ s'.tile.eng = s.tile.eng ∧ s'.tile.tags = s.tile.tags
    ∧ s'.tile.sched = s.tile.sched ∧ ∀ g, g ≠ s.cur.group → s'.tile.streams.get g = s.tile.streams.get g

/-- The status word of a wait (R118): LEFT, DETAIL, RESUMED, CLAMP and CODE. -/
def statusIs (f : WaitFrame) (d : Decision) : Word :=
  BitVec.ofNat 32 d.left ++ BitVec.ofNat 16 d.detail ++ (0 : BitVec 6) ++ BitVec.ofBool f.resumed ++ BitVec.ofBool f.clamp
    ++ BitVec.ofNat 8 d.code

/-- A condition bit as the slot in hand reads it (R144): as the cycle's visible changes left it, but for the clears of
CBTAKEs in lower slots alone. -/
def bitIs (s : State) (cb : Fin 32) : Bool :=
  s.tile.regs.cb.getLsbD cb.val || s.tile.regs.took.any fun e => e.2 == cb && decide (s.cur.slot.val ≤ e.1.val)

/-- toc as the waits decided in earlier cycles, and in this one by slots below a wait's, left it (R123): in the order of the
decisions, OK clears it and TIMEOUT or PARTIAL adds one up to its top. -/
def tocIs (s : State) (slot : Fin 8) : BitVec 16 := tocNow s.tile.sys s.now slot

/-- A decided wait escalates (R124): a TIMEOUT or PARTIAL when toc has reached a limit that is set; one whose effect on toc was
counted in the cycle of its decision has passed the test (log 94), and one that STATUS resumes is not tested again. -/
def Escalates (s : State) (wt : Wait) (d : Decision) : Prop :=
  (d.code = 1 ∨ d.code = 2) ∧ s.tile.sys.esclim ≠ 0 ∧ s.tile.sys.esclim ≤ tocIs s wt.slot ∧ wt.forced = false
    ∧ wt.told = false

/-- A decided wait of a slot is over: its effect on toc is noted, or, where it was counted already, enters with its bundle (log
94), the stream no longer waits, and its status word is delivered after 6 cycles to the file alone (R117, R118, R123, R160). -/
def waitOver (s : State) (w : WaitF) (f : WaitFrame) (d : Decision) (slot : Fin 8) (told : Bool) : State :=
  let s := s.modSys fun y => { y with
    tocOps := if told then y.tocOps.map fun e => if e.slot = slot then { e with done := true } else e
      else y.tocOps ++ if d.code = 0 then [⟨s.now, slot, true, true⟩]
        else if d.code = 1 ∨ d.code = 2 then [⟨s.now, slot, false, true⟩] else [] }
  let s := s.modStrm fun st => { st with wait := none, again := none }
  s.schedule (.x w.stx) (.x (statusIs f d)) (BitVec.allOnes 256) 6 false

/-- The stream in hand has a wait that is decided, its bundle can commit, and it does not escalate. -/
def Decided (s : State) (wt : Wait) (d : Decision) : Prop :=
  s.strm.wait = some wt ∧ wt.dec = some d ∧ s.cur.blocked = false ∧ ¬ Escalates s wt d ∧ d.code < 256
    ∧ d.left < 2 ^ 32 ∧ d.detail < 2 ^ 16

/-- The stream in hand waits for nothing, and its bundle can commit. -/
def Fresh (s : State) : Prop := s.strm.wait = none ∧ s.cur.blocked = false

/-- The decision of a condition that holds now: its code, detail, and the ticks left (R116, R118). -/
def nowIs (s : State) (w : WaitF) (code detail : Nat) : Decision := ⟨code, detail, s.leftOf (s.frame w.dle).limit⟩

/-- A wait decided as it is met, in the slot in hand. -/
def overNow (s : State) (w : WaitF) (f : WaitFrame) (d : Decision) : State := waitOver s w f d s.cur.slot false

/-- The bundle in hand is held by a fresh wait whose condition does not hold: the wait is pending with its frame, nothing else
changes (R116, R125). -/
def WaitsOn (s : State) (i : Instr) (w : WaitF) : Prop :=
  ∃ s' wt, exec i s = .next s' ∧ s'.cur.flow = .stalled 0 ∧ s'.strm.wait = some wt ∧ wt.ins = i ∧ wt.dec = none
    ∧ wt.sent = none ∧ wt.frame = s.frame w.dle ∧ wt.slot = s.cur.slot ∧ OnlyStream s s'

/-- The waiting forms of a status destination, as a decided wait finds them (R116). -/
def WaitForm (s : State) (w : WaitF) (wt : Wait) (i : Instr) : Prop :=
  (∃ cb clr, i = .cbwait cb clr w) ∨ (∃ cb, i = .cbtake cb w) ∨ (∃ tk c b, i = .tkwait tk c b w)
    ∨ (∃ mask, i = .omclaim mask w) ∨ (∃ v m sc, i = .ste v m sc w)
    ∨ ((wt.args.getD 0 0).extractLsb' 18 46 = 0 ∧ ∃ a, i = .fence a w)
    ∨ (∃ a b, i = .barwt a b w) ∨ (∃ a, i = .barsync a w)
    ∨ ((wt.args.getD 1 0).extractLsb' 18 46 = 0 ∧ ∃ a b, i = .step a b w) ∨ (∃ a b, i = .qpush a b w)
    ∨ (s.live ≠ none ∧ s.task ≠ none ∧ ∃ a b, i = .enq a b w)
    ∨ (∃ d o m sc, s.destX d = .ok o ∧ (i = .ldf d m sc w ∨ i = .few d m sc w))
    ∨ (∃ d o a, s.destX d = .ok o ∧ i = .qpop d a w) ∨ (∃ op w64 d m, i = .scatom op w64 d m w)
    ∨ (s.tile.lockstep = false ∧ ∃ gm, i = .join gm w)

/-- A value delivered with a wait's OK (R154). -/
def withValue (s : State) (d : WDst) (v : Word) : State := s.schedule d (.x v) (BitVec.allOnes 256) 6 true

/-- A command enters the copy queue of the slot in hand (R255). -/
def queuesCopy (s : State) (op : CopyOp) (src dst : Word) (shp : Nat) (cmask : BitVec 10) (oms : Fin 8) (tok : TokF)
    (sid : Fin 16) (zero flush : Bool) : State :=
  let q : Fin 2 := if s.cur.slot.val = 7 then 1 else 0
  s.modEng fun e => { e with
    cq := upd e.cq q (e.cq.get q ++ [{ op, slot := s.cur.slot, pc := s.cur.pc, pos := e.cqPos.get q, entered := s.now
                                       mark := 8 * s.now + s.cur.slot.val, sid, tok, src, dst, shp, cmask, oms, zero, flush
                                       run := none }])
    cqPos := upd e.cqPos q (e.cqPos.get q + 1) }

/-- The copy queue of the slot in hand has room (R255). -/
def CopyRoom (s : State) : Prop := (s.tile.eng.cq.get (if s.cur.slot.val = 7 then 1 else 0)).length < 32

/-- A command enters the matrix queue (R281). -/
def queuesMatrix (s : State) (op : MxOp) (tok : TokF) : State :=
  s.modEng fun e => { e with
    mq := e.mq ++ [⟨op, s.cur.slot, s.cur.pc, e.mqPos, s.now, tok, none⟩], mqPos := e.mqPos + 1 }

/-- A 64-byte aligned pointer into the own scratchpad with room for `n` bytes. -/
def OwnPtr (p : Word) (n : Nat) : Prop :=
  spaceOf p = 1 ∧ rankOf p = 0 ∧ offsetOf p % 64 = 0 ∧ offsetOf p + n ≤ 2 ^ 19

/-- Every operand slot of a mask is in a state (R279). -/
def SlotsAre (s : State) (mask : BitVec 8) (st : OmSt) : Prop :=
  ∀ i : Fin 8, mask.getLsbD i.val = true → s.tile.eng.om.get i = st

/-- The operand slots of a mask take a state. -/
def slotsBecome (s : State) (mask : BitVec 8) (st : OmSt) : State :=
  s.modEng fun e => { e with om := Vector.ofFn fun i => if mask.getLsbD i.val then st else e.om.get i }

end Sys2Proof.Claims

/-! ### Control flow and condition bits (chapter 06) -/

/-- R132, R136, R137, R141: a taken BRC, JMP, BR or JMPR goes to its target and leaves the loops around it; one not taken
changes nothing; CALL, CALLR and RET keep the loop stack, and a call links the next bundle; a bad target raises
FETCH_FAULT. -/
def Obligations.Transfers : Prop :=
  ∀ (s : State) (off : BitVec 16),
    let t : Int := (s.cur.pc : Int) + 8 * off.toInt
    let back := decide (off.toInt ≤ 0)
    let next : Word := BitVec.ofNat 64 (s.cur.pc + s.cur.len)
    let linked (s : State) (l : Fin 64) : State := s.schedule (.x l) (.x next) (BitVec.allOnes 256) 1 true
    (GoodTarget s t →
      exec (.jmp off) s = .next (jumpsTo s t.toNat back)
        ∧ (∀ cb clr, exec (.brc cb clr off) s =
            .next (if bitIs s cb = clr then s else jumpsTo s t.toNat back))
        ∧ (∀ c a b x y, s.readX a = .ok x → s.readX b = .ok y →
            exec (.br c a b off) s = .next (if brIs c x y then jumpsTo s t.toNat back else s))
        ∧ ∀ l, exec (.call l off) s = .next (linked (goesTo s t.toNat back) l))
    ∧ (¬ GoodTarget s t →
      exec (.jmp off) s = .next (s.enterTrap (badTarget s t))
        ∧ (∀ cb clr, bitIs s cb ≠ clr → exec (.brc cb clr off) s = .next (s.enterTrap (badTarget s t)))
        ∧ (∀ c a b x y, s.readX a = .ok x → s.readX b = .ok y → brIs c x y = true →
            exec (.br c a b off) s = .next (s.enterTrap (badTarget s t)))
        ∧ ∀ l, exec (.call l off) s = .next (s.enterTrap (badTarget s t)))
    ∧ ∀ (a : XSrc) (x : Word), s.readX a = .ok x →
      (GoodTarget s x.toNat →
        exec (.jmpr a) s = .next (jumpsTo s x.toNat true) ∧ exec (.ret a) s = .next (goesTo s x.toNat true)
          ∧ ∀ l, exec (.callr l a) s = .next (linked (goesTo s x.toNat true) l))
      ∧ (¬ GoodTarget s x.toNat →
        exec (.jmpr a) s = .next (s.enterTrap (badTarget s x.toNat))
          ∧ exec (.ret a) s = .next (s.enterTrap (badTarget s x.toNat))
          ∧ ∀ l, exec (.callr l a) s = .next (s.enterTrap (badTarget s x.toNat)))

/-- R138, R148: LOOP and LOOPX with a count open a loop over the body up to their end bundle, LOOP without an exit test;
with a count of zero they go past the end bundle, whose header is fetched for its length; an end before the body raises ILLEGAL,
a bad one FETCH_FAULT, and a fifth loop LOOP_NEST. LCSET moves a value to a loop register. -/
def Sys2Proof.Claims.LoopsOpened : Prop :=
  ∀ (s : State) (off : BitVec 16),
    let t : Int := (s.cur.pc : Int) + 8 * off.toInt
    let start := s.cur.pc + s.cur.len + if s.cur.rings = none then 0 else 8
    let opens (cnt : Word) (test : ExitTest) : State :=
      let s := s.modStrm fun st => { st with
        loops := ⟨start, t.toNat, cnt.toNat, 0, s.cur.rings.getD [], test⟩ :: st.loops }
      { s with cur := { s.cur with target := some start, penalty := false } }
    let bothTrap (tr : Trap) : Prop := (∀ lc, exec (.loop lc off) s = .next (s.enterTrap tr))
      ∧ ∀ a test x, s.readX a = .ok x → exec (.loopx a test off) s = .next (s.enterTrap tr)
    let skips (n : Nat) (s : State) : State := { s with cur := { s.cur with target := some (t.toNat + n), penalty := true } }
    ((start : Int) ≤ t → GoodTarget s t →
      (s.strm.loops.length ≠ 4 →
        (∀ lc, s.tile.regs.lc.get lc ≠ 0 → exec (.loop lc off) s = .next (opens (s.tile.regs.lc.get lc) .never))
        ∧ (∀ a test x, s.readX a = .ok x → x ≠ 0 → exec (.loopx a test off) s = .next (opens x test))
        ∧ ∀ w h, s.codeWord t.toNat = some (some w) → decodeHeader w = some h →
          (∀ lc, s.tile.regs.lc.get lc = 0 → exec (.loop lc off) s = .next (skips h.bytes s))
          ∧ ∀ a test, s.readX a = .ok 0 → exec (.loopx a test off) s = .next (skips h.bytes s))
      ∧ (s.strm.loops.length = 4 → bothTrap { kind := .loopNest, slot := s.cur.slot }))
    ∧ ((start : Int) ≤ t → ¬ GoodTarget s t → bothTrap (badTarget s t))
    ∧ (t < (start : Int) → bothTrap (illegalHere s))
    ∧ ∀ (lc : Fin 32) (a : XSrc) (x : Word), s.readX a = .ok x →
      exec (.lcset lc a) s = .next (s.schedule (.lc lc) (.x x) (BitVec.allOnes 256) 1 false)

/-- R139: at its end bundle a loop of n iterations without an exit test goes back to its start n − 1 times, counting the
iterations, and then is left for the bundle after it. -/
def Sys2Proof.Claims.BackEdges : Prop :=
  ∀ (exits : ExitTest → Bool) (pc next k : Nat) (e : Loop) (ls : List Loop),
    exits .never = false → e.exit = .never → e.stop = pc → (∀ l ∈ ls, l.stop ≠ pc) → k + 1 ≤ e.remaining →
      let turn (l : List Loop) : List Loop := (backEdge exits pc next 5 l).1
      Nat.repeat turn k (e :: ls) = { e with remaining := e.remaining - k, n := e.n + k } :: ls
        ∧ (k + 1 < e.remaining → (backEdge exits pc next 5 (Nat.repeat turn k (e :: ls))).2 = (e.start, true))
        ∧ (k + 1 = e.remaining → backEdge exits pc next 5 (Nat.repeat turn k (e :: ls)) = (ls, next, false))

/-- R142, R144: CBSET and CBCLR put a change of their bit in flight, visible in a later cycle and, for a set, not before
every fixed-latency write of the stream's members; CONDITION_BIT_VISIBLE applies the changes whose cycle has come, and a
bit whose last change by issue and slot is a given value then has it. Registers and memory stay. -/
def Obligations.ConditionBits : Prop :=
  (∀ (s : State) (cb : Fin 32),
      (∃ (s' : State) (c : CbChange), exec (.cbset cb) s = .next s' ∧ s'.tile.regs.cbPend = s.tile.regs.cbPend ++ [c]
        ∧ c.cb = cb ∧ c.val = true ∧ c.issued = s.now ∧ c.slot = s.cur.slot ∧ s.now < c.vis
        ∧ (∀ w ∈ s.tile.regs.pend, w.late = false → s.member w.slot = true → w.dst ≠ .none → w.dst ≠ .x 0 → w.dst ≠ .k 0 →
            w.due ≤ c.vis)
        ∧ s'.mem = s.mem ∧ s'.tile.regs.x = s.tile.regs.x ∧ s'.tile.regs.cb = s.tile.regs.cb)
      ∧ ∃ (s' : State) (c : CbChange), exec (.cbclr cb) s = .next s' ∧ s'.tile.regs.cbPend = s.tile.regs.cbPend ++ [c]
        ∧ c.cb = cb ∧ c.val = false ∧ c.issued = s.now ∧ c.slot = s.cur.slot ∧ s.now < c.vis
        ∧ s'.mem = s.mem ∧ s'.tile.regs.x = s.tile.regs.x ∧ s'.tile.regs.cb = s.tile.regs.cb)
    ∧ ∀ (s : State) (t : Fin 144), ∃ s', exec (.conditionBitVisible t) s = .next s'
      ∧ (s'.tileAt t).regs.cbPend = ((s.tileAt t).regs.cbPend.filter fun c => !decide (c.vis ≤ s.now))
      ∧ (∀ cb : Fin 32, (∀ c ∈ (s.tileAt t).regs.cbPend, c.vis ≤ s.now → c.cb ≠ cb) →
          (s'.tileAt t).regs.cb.getLsbD cb.val = (s.tileAt t).regs.cb.getLsbD cb.val)
      ∧ (∀ c ∈ (s.tileAt t).regs.cbPend, c.vis ≤ s.now →
          (∀ u ∈ (s.tileAt t).regs.cbPend, u.vis ≤ s.now → u.cb = c.cb → u ≠ c →
            u.issued < c.issued ∨ (u.issued = c.issued ∧ u.slot.val < c.slot.val)) →
          (s'.tileAt t).regs.cb.getLsbD c.cb.val = c.val)
      ∧ s'.mem = s.mem ∧ (s'.tileAt t).regs.x = (s.tileAt t).regs.x ∧ ∀ u, u ≠ t → s'.tileAt u = s.tileAt u

/-- R145, R186: FORK in lockstep gives each group its members and entry point and the gdl that its bundle leaves, an MTS of
the bundle included, and ends lockstep, the loop stack kept for the JOIN; in a group it is ILLEGAL, and an entry for a group
without members too; the first group in number whose target is bad raises FETCH_FAULT. -/
def Sys2Proof.Claims.ForkedStreams : Prop :=
  ∀ (s : State) (map : BitVec 16) (entries : Word),
    let members (g : Fin 4) (i : Fin 8) : Bool := map.extractLsb' (2 * i.val) 2 == BitVec.ofFin g
    let target (g : Fin 4) : Int := (s.cur.pc : Int) + 8 * (entries.extractLsb' (16 * g.val) 16).toInt
    let some_ (g : Fin 4) : Prop := ∃ i, members g i = true
    (s.tile.lockstep = true → (∀ g, some_ g → GoodTarget s (target g)) →
      (∀ g, ¬ some_ g → entries.extractLsb' (16 * g.val) 16 = 0) →
        ∃ s', exec (.fork map entries) s = .next s' ∧ s'.tile.lockstep = false ∧ s'.tile.savedLoops = s.strm.loops
          ∧ s'.mem = s.mem ∧ s'.tile.regs.x = s.tile.regs.x ∧ s'.cur.moved = true
          ∧ ∀ g, (¬ some_ g → s'.tile.streams.get g = none)
            ∧ (some_ g → ∃ st, s'.tile.streams.get g = some st ∧ (st.pc : Int) = target g
                ∧ ((∀ m ∈ s.tile.sys.mts, m.reg ≠ .gdl) → st.gdl = s.strm.gdl)
                ∧ (∀ m, s.tile.sys.mts = [m] → m.reg = .gdl → m.group = s.cur.group → st.gdl = m.val)
                ∧ st.loops = [] ∧ st.park = none ∧ st.wait = none ∧ ∀ i : Fin 8, st.members.getLsbD i.val = members g i))
    ∧ (s.tile.lockstep = true → (∀ g, some_ g → GoodTarget s (target g)) →
        (∃ g, ¬ some_ g ∧ entries.extractLsb' (16 * g.val) 16 ≠ 0) → exec (.fork map entries) s = .next (s.enterTrap
          { kind := .illegal, slot := s.cur.slot, info0 := entries, info1 := 2 }))
    ∧ (∀ g, s.tile.lockstep = true → some_ g → ¬ GoodTarget s (target g) →
        (∀ h, h.val < g.val → some_ h → GoodTarget s (target h)) →
          exec (.fork map entries) s = .next (s.enterTrap (badTarget s (target g))))
    ∧ (s.tile.lockstep = false → exec (.fork map entries) s = .next (s.enterTrap (illegalHere s)))

/-- R146: a JOIN decided OK ends its group's wait and, while another group of its mask has not committed its own, notes where
its group stands; the last of them to commit merges: the lowest group of the mask takes the members of all and goes on
behind its own JOIN with its own gdl, the others cease, and with all eight slots the tile is in lockstep again with the loop
stack that the FORK kept; else the other groups stay as they are. -/
def Sys2Proof.Claims.JoinMerges : Prop :=
  ∀ (s : State) (gm : BitVec 4) (w : WaitF) (wt : Wait) (d : Decision), Decided s wt d → s.tile.lockstep = false → d.code = 0 →
    (s.tile.streams.get s.cur.group).isSome = true → gm.getLsbD s.cur.group.val = true →
      let low : Fin 4 := ((List.finRange 4).find? fun g => gm.getLsbD g.val).getD 0
      let all := ((List.finRange 4).filter fun g => gm.getLsbD g.val).foldl
        (fun m g => m ||| (s.streamAt s.cur.tile g).members) (0 : BitVec 8)
      let others (p : Stream → Prop) : Prop := ∀ h, h ≠ s.cur.group → gm.getLsbD h.val = true → p (s.streamAt s.cur.tile h)
      let from_ (pc : Nat) : Prop := if s.cur.group = low then pc = s.cur.pc + s.cur.len
        else ∃ gap, (s.streamAt s.cur.tile low).joined = some (pc, gap)
      (¬ others (fun st => st.joined.isSome = true) → exec (.join gm w) s = .next
          { (waitOver s w wt.frame d wt.slot wt.told).modStrm (fun st => { st with joined := some (s.cur.pc + s.cur.len, s.cur.gap) }) with
            cur := { s.cur with moved := true } })
      ∧ (others (fun st => st.joined.isSome = true) →
          ∃ s' st, exec (.join gm w) s = .next s' ∧ s'.mem = s.mem ∧ s'.cur.moved = true ∧ st.members = all ∧ st.wait = none
            ∧ from_ st.pc ∧ st.gdl = (s.streamAt s.cur.tile low).gdl
            ∧ (all = BitVec.allOnes 8 → s'.tile.lockstep = true ∧ s'.tile.streams.get 0 = some st
                ∧ st.loops = s.tile.savedLoops ∧ (gm = 15 → ∀ g, g ≠ 0 → s'.tile.streams.get g = none))
            ∧ (all ≠ BitVec.allOnes 8 → s'.tile.lockstep = false ∧ s'.tile.streams.get low = some st
                ∧ st.loops = (s.streamAt s.cur.tile low).loops
                ∧ (∀ g, g ≠ low → gm.getLsbD g.val = true → s'.tile.streams.get g = none)
                ∧ ∀ g, gm.getLsbD g.val = false → s'.tile.streams.get g = s.tile.streams.get g))

/-- R150, R384, R387, R394: TRAP and BRKPT park the group with their code; and every exact trap leaves the pc, the registers,
memory and the pending wait as they were, what a wait of its bundle had counted in toc undone (log 94) and rows that a store had
written in earlier port cycles as they were before (log 19); it keeps the trap, a fresh SEQ and the repeat latches with the
parked group, and hands the die's coordinator an entry with the rank, group, pc, launch and token. -/
def Obligations.TrapEntry : Prop :=
  (∀ (s : State) (code : BitVec 16),
      exec (.trap code) s = .next (s.enterTrap { kind := .trap, slot := s.cur.slot, info0 := code.setWidth 64 })
        ∧ exec (.brkpt code) s = .next (s.enterTrap { kind := .breakpoint, slot := s.cur.slot, info0 := code.setWidth 64 }))
    ∧ ∀ (s : State) (tr : Trap),
      let s' := s.enterTrap tr
      let seq := s.tile.sched.parkSeq + 1
      (s.strm.rowGot = [] → s'.mem = s.mem ∧ s'.marks = s.marks)
        ∧ (MemOk s → (s.strm.rowGot.map fun r => r.row).Nodup → ∀ b, Memory.get s'.mem b = takenByte s (fun _ => none) b)
        ∧ s'.clk = s.clk ∧ s'.ctxs = s.ctxs ∧ s'.slots = s.slots ∧ s'.net = s.net ∧ s'.hubs = s.hubs
        ∧ (∀ u, u ≠ s.cur.tile → s'.tileAt u = s.tileAt u)
        ∧ s'.tile.regs.x = s.tile.regs.x ∧ s'.tile.regs.v = s.tile.regs.v ∧ s'.tile.regs.k = s.tile.regs.k
        ∧ s'.tile.regs.lc = s.tile.regs.lc ∧ s'.tile.regs.cb = s.tile.regs.cb ∧ s'.tile.regs.pend = s.tile.regs.pend
        ∧ s'.tile.regs.bypDrop = true ∧ s'.tile.eng = s.tile.eng
        ∧ s'.tile.sys = { s.tile.sys with tocOps := s.tile.sys.tocOps.filter fun e => e.done || !s.member e.slot }
        ∧ (∀ g, g ≠ s.cur.group → s'.tile.streams.get g = s.tile.streams.get g)
        ∧ s'.strm.pc = s.strm.pc ∧ s'.strm.loops = s.strm.loops ∧ s'.strm.gdl = s.strm.gdl
        ∧ s'.strm.wait = s.strm.wait.map (fun w => { w with told := false })
        ∧ (∃ p, s'.strm.park = some p ∧ p.trap = tr ∧ p.seq = seq
            ∧ ∀ i l, (i, l) ∈ p.latches ↔ s.member i = true ∧ s.tile.regs.latch.get i = some l)
        ∧ (∀ i : Fin 8, s'.tile.regs.latch.get i = if s.member i then none else s.tile.regs.latch.get i)
        ∧ ∃ e, s'.dev.faultNew = s.dev.faultNew ++ [e] ∧ e.trap = tr ∧ e.rank = s.cur.tile.val
            ∧ e.group = (if s.tile.lockstep then 0 else s.cur.group.val) ∧ e.pc = s.strm.pc
            ∧ e.ctx = s.tile.sys.ctx ∧ e.lid = (s.tile.sched.tail.map fun k => k.lid).getD 0 ∧ e.token = tokenOf s.cur.tile.val s.cur.group.val 0 seq

/-! ### Waits (chapter 05) -/

/-- R116 to R119, R123, R131: a decided wait whose bundle can commit writes its status word and goes on, for every waiting
form: CBWAIT, CBTAKE, TKWAIT, FENCE, OMCLAIM, STE, BARWT, BARSYNC, STEP, QPUSH and ENQ; LDF, FEW, QPOP and SCATOM also
deliver the value that came with the decision. -/
def Sys2Proof.Claims.DecidedWaits : Prop :=
  ∀ (s : State) (w : WaitF) (wt : Wait) (d : Decision), Decided s wt d →
    let ended := waitOver s w wt.frame d wt.slot wt.told
    (∀ cb clr, exec (.cbwait cb clr w) s = .next ended) ∧ (∀ cb, exec (.cbtake cb w) s = .next ended)
      ∧ (∀ tk c b, exec (.tkwait tk c b w) s = .next ended) ∧ (∀ mask, exec (.omclaim mask w) s = .next ended)
      ∧ (∀ v m sc, exec (.ste v m sc w) s = .next ended)
      ∧ ((wt.args.getD 0 0).extractLsb' 18 46 = 0 → ∀ a, exec (.fence a w) s = .next ended)
      ∧ (∀ a b, exec (.barwt a b w) s = .next ended) ∧ (∀ a, exec (.barsync a w) s = .next ended)
      ∧ ((wt.args.getD 1 0).extractLsb' 18 46 = 0 → ∀ a b, exec (.step a b w) s = .next ended)
      ∧ (∀ a b, exec (.qpush a b w) s = .next ended)
      ∧ (s.live ≠ none → s.task ≠ none → ∀ a b, exec (.enq a b w) s = .next ended)
      ∧ ∀ (x : XDst) (o : WDst), s.destX x = .ok o →
        let gets : State := match d.code, wt.value with | 0, some v => withValue ended o v | _, _ => ended
        (∀ m sc, exec (.ldf x m sc w) s = .next gets) ∧ (∀ m sc, exec (.few x m sc w) s = .next gets)
          ∧ (∀ a, exec (.qpop x a w) s = .next gets)
          ∧ ∀ op w64 (n : Fin 64) m, exec (.scatom op w64 n m w) s = .next
              (match wt.value with | some v => withValue ended (.x n) v | none => ended)

/-- R124: a decided TIMEOUT or PARTIAL with toc at its limit raises DEADLINE_ESCALATION with the status word, LEFT zero, and
toc, for every waiting form; nothing is written. -/
def Sys2Proof.Claims.Escalation : Prop :=
  ∀ (s : State) (w : WaitF) (wt : Wait) (d : Decision) (i : Instr), s.strm.wait = some wt → wt.dec = some d →
    s.cur.blocked = false → Escalates s wt d → d.detail < 2 ^ 16 → WaitForm s w wt i →
      exec i s = .next (s.enterTrap
        { kind := .deadlineEscalation, slot := wt.slot, info0 := statusIs wt.frame { d with left := 0 }
          info1 := (tocIs s wt.slot).setWidth 64 })

/-- R116, R143, R146, R250, R251, R290, R347, R348: a wait whose condition holds at its issue is decided at once, OK, with its
own effect: CBTAKE clears its bit, TKWAIT with TAKE takes the count, OMCLAIM claims its slots, LDF empties the tag and STE fills
it with its word, and LDF and FEW deliver the word. One whose condition does not hold holds its bundle, a JOIN that arrives
always: the merge decides it. -/
def Sys2Proof.Claims.ReadyWaits : Prop :=
  ∀ (s : State) (w : WaitF), Fresh s → s.marks = [] →
    let ok := nowIs s w 0 0
    let f := s.frame w.dle
    (∀ cb clr, (bitIs s cb ≠ clr → exec (.cbwait cb clr w) s = .next (overNow s w f ok))
        ∧ (bitIs s cb = clr → WaitsOn s (.cbwait cb clr w) w))
      ∧ (∀ cb : Fin 32, (bitIs s cb = true → exec (.cbtake cb w) s = .next (overNow
            (s.modRegs fun r => { r with cb := r.cb &&& ~~~(BitVec.twoPow 32 cb.val), took := (s.cur.slot, cb) :: r.took })
            w f ok))
          ∧ (bitIs s cb = false → WaitsOn s (.cbtake cb w) w))
      ∧ (∀ tk b n, s.readX b = .ok n →
          let k := s.tile.regs.tk.get tk
          let met := nowIs s w (if k.sat then 6 else 0) k.count.toNat
          (∀ take,
            (n.toNat ≤ k.count.toNat → exec (.tkwait tk (.ge take) b w) s = .next (overNow
              (s.modRegs fun r => { r with
                tk := upd r.tk tk (if take then { k with count := k.count - BitVec.ofNat 16 n.toNat } else k) })
              w f met))
            ∧ (k.count.toNat < n.toNat → WaitsOn s (.tkwait tk (.ge take) b w) w))
          ∧ (k.count.toNat < n.toNat → exec (.tkwait tk .lt b w) s = .next (overNow s w f met))
          ∧ (n.toNat ≤ k.count.toNat → WaitsOn s (.tkwait tk .lt b w) w))
      ∧ (∀ a mask, s.readX a = .ok mask → mask.extractLsb' 18 46 = 0 →
          let empty := ∀ sid : Fin 16, mask.getLsbD sid.val = true → s.drained s.cur.tile mask s.cur.mark s.now sid = true
          (empty → exec (.fence a w) s = .next (overNow s w f ok)) ∧ (¬ empty → WaitsOn s (.fence a w) w))
      ∧ (∀ mask, mask ≠ 0 →
          (SlotsAre s mask .free → exec (.omclaim mask w) s = .next (overNow (slotsBecome s mask .claimed) w f ok))
          ∧ (¬ SlotsAre s mask .free → (∀ i : Fin 8, mask.getLsbD i.val = true → s.tile.eng.om.get i ≠ .claimed) →
              WaitsOn s (.omclaim mask w) w))
      ∧ (∀ gm : BitVec 4, s.tile.lockstep = false → gm.getLsbD s.cur.group.val = true → gm ≠ BitVec.twoPow 4 s.cur.group.val →
          (∀ h : Fin 4, gm.getLsbD h.val = true → (s.tile.streams.get h).isSome = true) →
          (∀ h u, h ≠ s.cur.group → s.tile.streams.get h = some u → pendingJoin u = none) → WaitsOn s (.join gm w) w)
      ∧ ∀ (m : MemF) (sc : BitVec 2) (a : Nat), OwnAddr s m 4 4 a →
        let tagBecomes (s : State) (full : Bool) : State :=
          s.modTile s.cur.tile fun t => { t with tagPend := t.tagPend ++ [(a / 4, full)] }
        let s1 := s.settleSpad a 4
        let full := s.tile.tags.contains (a / 4)
        (∀ d o, s.destX d = .ok o →
          let v : Word := BitVec.ofNat 64 (spadNum s1 a 4)
          (full = true → s.lsInOrder m.sid true false = true → s1.marks = [] →
            exec (.ldf d m sc w) s = .next (withValue (overNow (tagBecomes s1 false) w f ok) o v)
              ∧ exec (.few d m sc w) s = .next (withValue (overNow s1 w f ok) o v))
          ∧ (full = false ∨ s.lsInOrder m.sid true false = false →
            WaitsOn s (.ldf d m sc w) w ∧ WaitsOn s (.few d m sc w) w))
        ∧ ∀ v,
          (∀ x, s.readX v = .ok x → full = false → s.lsInOrder m.sid false true = true → s1.marks = [] →
            exec (.ste v m sc w) s = .next (overNow (tagBecomes (s1.writeSpad a 4 x.toNat) true) w f ok))
          ∧ (full = true ∨ s.lsInOrder m.sid false true = false → WaitsOn s (.ste v m sc w) w)

namespace Sys2Proof.Claims

/-! ### Words for requests, commands and accesses -/

/-- A sync-window pointer that names object `i` of its kind (R333): offset, number of the image's objects of the kind, and
the partition of syncwin. -/
def NamesBarrier (s : State) (p : Word) (n : Nat) : Prop :=
  ∃ l i, s.live = some l ∧ spaceOf p = 4 ∧ rankOf p = 0 ∧ offsetOf p = 64 * i
    ∧ i < l.image.bars.length ∧ i < (s.tile.sys.syncwin.extractLsb' 32 16).toNat
    ∧ n = (s.tile.sys.syncwin.extractLsb' 0 15).toNat + i

/-- A pointer that names a token queue (R333): queues start at offset 0x200000. -/
def NamesQueue (s : State) (p : Word) (n : Nat) : Prop :=
  ∃ l i, s.live = some l ∧ spaceOf p = 4 ∧ rankOf p = 0 ∧ offsetOf p = 0x200000 + 64 * i ∧ offsetOf p ≤ 0x27FFC0
    ∧ i < l.image.tqs.length ∧ i < (s.tile.sys.syncwin.extractLsb' 48 14).toNat
    ∧ n = (s.tile.sys.syncwin.extractLsb' 16 13).toNat + i

/-- A form with a sync pointer raises SYNC_WINDOW where the pointer names no object of its kind, and ADDR_SPACE where it is
none of the sync window (R333). -/
def PointerChecked (s : State) (i : Instr) (p : Word) (names : Prop) : Prop :=
  (spaceOf p = 4 → rankOf p = 0 → ¬ names →
      exec i s = .next (s.enterTrap { kind := .syncWindow, slot := s.cur.slot, info0 := p }))
    ∧ (spaceOf p ≠ 4 ∨ rankOf p ≠ 0 → exec i s = .next (s.enterTrap { kind := .addrSpace, slot := s.cur.slot, addr := p }))

/-- A request of the slot in hand is on its way to a home, after every earlier one of the tile to that home (R334). -/
def Requests (s s' : State) (op : HubOp) (obj die limit : Nat) (dest : WDst) : Prop :=
  ∃ r, s'.hubs.reqs = s.hubs.reqs ++ [r] ∧ r.op = op ∧ r.obj = obj ∧ r.die = die ∧ r.limit = limit ∧ r.dest = dest
    ∧ r.id = s.hubs.nextId ∧ r.tile = s.cur.tile ∧ r.group = s.cur.group ∧ r.slot = s.cur.slot ∧ s.now < r.at_
    ∧ (∀ q ∈ s.hubs.reqs, q.tile = s.cur.tile → q.die = die → q.at_ ≤ r.at_)
    ∧ s'.hubs.nextId = s.hubs.nextId + 1 ∧ s'.hubs.bars = s.hubs.bars ∧ s'.hubs.tqs = s.hubs.tqs
    ∧ s'.mem = s.mem ∧ s'.tile.regs = s.tile.regs ∧ s'.tile.sys = s.tile.sys ∧ ∀ u, u ≠ s.cur.tile → s'.tileAt u = s.tileAt u

/-- The stream in hand waits for the answer to its request; its bundle is held (R117). -/
def AwaitsReply (s s' : State) : Prop :=
  s'.cur.flow = .stalled 0 ∧ ∃ wt, s'.strm.wait = some wt ∧ wt.sent = some s.hubs.nextId ∧ wt.dec = none

/-- No queued command writes the tile that MDRAIN or MSTAT waits for, and the outcome of its verification stands, or there was
nothing to wait for under NOCHK; it finds nothing (R289). -/
def Settled (s : State) (acc : Fin 10) (nochk : Bool) (r : Nat × Nat) : Prop :=
  (∀ c ∈ s.tile.eng.mq, c.op.acc ≠ some acc)
    ∧ ((∃ v, s.strm.settle = some v ∧ v.found = some r) ∨ (s.strm.settle = none ∧ nochk = true ∧ r = (255, 255))) ∧ (nochk = true ∨ (r = (255, 255) ∧ (s.tile.eng.acc.get acc).poison = false))

/-- Where an aligned access of `n` bytes goes, of a form that admits some spaces: global memory through a leaf that permits it,
a remote scratchpad, a vault that the context reaches and that holds no command block there, the device registers for a
system task, or a peer device (R87, R191, R196, R197, R201, R325). -/
def Reaches (s : State) (spaces : List Nat) (p : Word) (o : Int) (n : Nat) (write : Bool) (space key kind grade : Nat) : Prop :=
  0 ≤ o ∧ o % (n : Int) = 0 ∧ spaceOf p = space ∧ space ∈ spaces ∧
    ((space = 0 ∧ rankOf p = 0 ∧ o + n ≤ 2 ^ 52 ∧ ∃ e lv at_, s.lookup o.toNat = some (.leaf e lv at_)
        ∧ (e.getLsbD 3 = true ∨ s.isSys = true) ∧ (write = true → e.getLsbD 1 = true)
        ∧ key = frameOf e + o.toNat % leafSpan lv ∧ kind = (e.extractLsb' 4 2).toNat ∧ grade = (e.extractLsb' 6 2).toNat)
      ∨ (space = 2 ∧ rankOf p < 144 ∧ s.inTiles s.ctxOf (rankOf p) = true ∧ o + n ≤ 2 ^ 19
        ∧ key = spadBase + rankOf p * 2 ^ 19 + o.toNat ∧ kind = 1 ∧ grade = 2)
      ∨ (space = 3 ∧ rankOf p < 36 ∧ s.inVault s.ctxOf o.toNat n = true ∧ s.inPool (rankOf p) o.toNat n = false
        ∧ o + n ≤ 108 * 2 ^ 20 ∧ key = vaultBase + rankOf p * 2 ^ 27 + o.toNat ∧ kind = 1 ∧ grade = 2)
      ∨ (space = 5 ∧ rankOf p = 0 ∧ s.isSys = true ∧ o + n ≤ 2 ^ 24 ∧ key = o.toNat ∧ kind = 0 ∧ grade = 2)
      ∨ (space = 6 ∧ rankOf p < s.peerLen s.ctxOf ∧ o + n ≤ 2 ^ 52 ∧ key = o.toNat ∧ kind = 0 ∧ grade = 2))

/-- The offset that a MEM form makes of its base (R52, R245). -/
def formed (p : Word) (m : MemF) (scale : Nat) : Int := (offsetOf p : Int) + m.off.toInt * (scale : Int)

/-- An access of the slot in hand leaves for its home (R163, R203, R355): its place in program order, what it does there, the
peer that it names, and when it may arrive; registers and memory stay, and no reply is due before the unloaded time of
R317. -/
def Leaves (s s' : State) (p : Word) (space key n kind grade : Nat) (r : State.AccReq) : Prop :=
  ∃ a, s'.net.accs = s.net.accs ++ [a] ∧ a.id = s.net.nextId ∧ a.op = r.op ∧ a.sid = r.sid ∧ a.data = r.data
    ∧ (r.op = .store ∨ a.data2 = r.data2) ∧ a.dest = r.dest ∧ a.acq = r.acq ∧ a.rel = r.rel ∧ a.space = space ∧ a.key = key
    ∧ (space = 6 → a.va = key + rankOf p * 2 ^ 52) ∧ a.size = n ∧ a.kind = kind ∧ a.grade = grade ∧ a.tile = s.cur.tile ∧ a.slot = s.cur.slot
    ∧ a.seq = 8 * s.now + s.cur.slot.val ∧ a.performed = false ∧ s.now < a.arrive
    ∧ a.replyAt = s.now + unloaded s.cur.tile.val space key
    ∧ s'.mem = s.mem ∧ s'.tiles = s.tiles ∧ s'.hubs = s.hubs ∧ s'.ctxs = s.ctxs ∧ s'.cur = s.cur

/-- A request entry is free (R203): of the 4,096, the tile's engines hold none while no command of their queues is started and no
peer has still to answer one, and never more than 3,840. -/
def EntryFree (s : State) : Prop :=
  let slots := (s.net.accs.filter fun a => a.tile == s.cur.tile).length
  slots < 256 ∨ (slots < 4096 ∧ (∀ q, ∀ c ∈ s.tile.eng.cq.get q, c.run = none)
    ∧ ∀ p, ∀ o ∈ (s.ports.get p).unanswered, o.tile = s.cur.tile → o.cmd = none)

/-- The bytes of a reduction's operand (R82). -/
def redSize : RedOp → Nat
  | .int _ w64 => if w64 then 8 else 4
  | _ => 4

end Sys2Proof.Claims

/-! ### Requests to the sync homes (chapter 17) -/

/-- R333, R334, R338 to R343: BARINIT, BARARV and BARKILL send a request to the home of the barrier that their pointer
names, BARARV with the register that its reply will reach, and the bundle goes on. A count above 144 raises SYNC_WINDOW; and in
every form with a sync pointer, at its first issue where it waits, a pointer that names no object of its kind raises SYNC_WINDOW
and one outside the sync window ADDR_SPACE. -/
def Sys2Proof.Claims.BarrierRequests : Prop :=
  ∀ (s : State) (a : XSrc) (p : Word), s.readX a = .ok p →
    (∀ n, NamesBarrier s p n →
      (∀ d o, s.destX d = .ok o →
        ∃ s', exec (.bararv d a) s = .next s' ∧ Requests s s' .bararv n (n / 16384) 0 o ∧ s'.cur = s.cur)
      ∧ (∃ s', exec (.barkill a) s = .next s' ∧ Requests s s' .barkill n (n / 16384) 0 .none ∧ s'.cur = s.cur)
      ∧ ∀ b c, s.readX b = .ok c →
        (c.toNat ≤ 144 →
          ∃ s', exec (.barinit a b) s = .next s' ∧ Requests s s' (.barinit c.toNat) n (n / 16384) 0 .none ∧ s'.cur = s.cur)
        ∧ (144 < c.toNat → exec (.barinit a b) s = .next (s.enterTrap { kind := .syncWindow, slot := s.cur.slot, info0 := c })))
    ∧ (∀ i, (∃ d o, s.destX d = .ok o ∧ i = .bararv d a) ∨ i = .barkill a ∨ (∃ b, i = .barinit a b)
          ∨ (s.strm.wait = none ∧ ((∃ b w, i = .barwt a b w) ∨ (∃ w, i = .barsync a w)
            ∨ ∃ b w mask, s.readX b = .ok mask ∧ mask.extractLsb' 18 46 = 0 ∧ i = .step a b w)) →
        PointerChecked s i p (∃ n, NamesBarrier s p n))
    ∧ ∀ i, s.strm.wait = none → (∃ b w, i = .qpush a b w) ∨ (∃ d o w, s.destX d = .ok o ∧ i = .qpop d a w) →
        PointerChecked s i p (∃ n, NamesQueue s p n)

/-- R103 to R105, R117, R340, R342, R343: the first issue of BARWT, BARSYNC and QPOP sends their request at once, that of STEP
when the streams of its mask have drained and those of QPUSH and ENQ when every earlier access of the tile is performed, before
which their bundle is held; with the wait's limit; the wait then awaits the reply and its bundle is held. ENQ sends its block to
a stage queue of its launch, which its stage declares, or to the private queue of a tile of the stage's domain, the marks of
words that fail parity with it (log 48); a block elsewhere than in the own scratchpad raises ADDR_SPACE, and another target
ENQ_TARGET with the target. -/
def Sys2Proof.Claims.WaitRequests : Prop :=
  ∀ (s : State) (w : WaitF) (a : XSrc) (p : Word) (n : Nat), Fresh s → s.readX a = .ok p → n < 2 ^ 64 →
    let limit := (s.frame w.dle).limit
    let waits (i : Instr) (op : HubOp) (die : Nat) : Prop :=
      ∃ s', exec i s = .next s' ∧ Requests s s' op n die limit .none ∧ AwaitsReply s s'
    (NamesBarrier s p n →
      waits (.barsync a w) .barsync (n / 16384)
        ∧ (∀ b v, s.readX b = .ok v → waits (.barwt a b w) (.barwt (v.extractLsb' 0 32)) (n / 16384))
        ∧ ∀ b mask, s.readX b = .ok mask → mask.extractLsb' 18 46 = 0 →
          let empty := ∀ sid : Fin 16, mask.getLsbD sid.val = true → s.drained s.cur.tile mask s.cur.mark s.now sid = true
          (empty → waits (.step a b w) .step (n / 16384)) ∧ (¬ empty → WaitsOn s (.step a b w) w))
    ∧ (NamesQueue s p n →
      (∀ d o, s.destX d = .ok o → waits (.qpop d a w) .qpop (n / 4096))
        ∧ ∀ b v, s.readX b = .ok v →
          (s.performedTo s.cur.mark = true → waits (.qpush a b w) (.qpush v) (n / 4096))
          ∧ (s.performedTo s.cur.mark = false → WaitsOn s (.qpush a b w) w))
    ∧ ∀ (b : XSrc) (v : Word), s.readX b = .ok v →
      (¬ OwnPtr p 64 →
        exec (.enq a b w) s = .next (s.enterTrap { kind := .addrSpace, slot := s.cur.slot, addr := p, access := 2 }))
      ∧ ∀ (l : Live) (k : Task), s.live = some l → s.task = some k → OwnPtr p 64 → s.net.greds = [] →
        let stg := (v.extractLsb' 0 8).toNat
        let tile := (v.extractLsb' 8 8).toNat
        let at_ (i : Nat) := s.spad (offsetOf p) + 8 * i
        let blk := (List.range 8).map fun i => (s.load64 (at_ i), s.marked (at_ i) 8 4)
        let sends (op : HubOp) (die : Nat) : Prop :=
          (s.performedTo s.cur.mark = true →
            ∃ s', exec (.enq a b w) s = .next s' ∧ Requests s s' op 0 die limit .none ∧ AwaitsReply s s')
          ∧ (s.performedTo s.cur.mark = false → WaitsOn s (.enq a b w) w)
        let bad : Prop :=
          exec (.enq a b w) s = .next (s.enterTrap { kind := .enqTarget, slot := s.cur.slot, info0 := v })
        (v.extractLsb' 8 56 = 0 → ∀ st, l.image.stages[k.stage]? = some st → stg < l.image.stages.length →
          ((∃ o ∈ st.outs, o.1 = stg) → sends (.enqStage k.slot stg blk) (l.anchor / 72))
            ∧ ((∀ o ∈ st.outs, o.1 ≠ stg) → bad))
        ∧ (v.extractLsb' 16 48 = 0x800000000000 → ∀ st, l.image.stages[stg]? = some st → ∀ t : Fin 144, t.val = tile →
          (s.inTiles k.ctx tile = true → inDomain st.level l.anchor tile = true →
            sends (.enqOwn t k.slot k.ctx stg blk) (tile / 72))
          ∧ (s.inTiles k.ctx tile = false ∨ inDomain st.level l.anchor tile = false → bad))
        ∧ (v.extractLsb' 16 47 ≠ 0 ∨ l.image.stages.length ≤ stg → bad)

/-! ### Commands (chapters 13 to 15) -/

/-- R255, R258, R264, R273, R274, R306, R349: COPY, COPYM, SELP, SELK, RPUT, STBIND and STDROP take an entry of their slot's
queue with the SRC and DST values of their commit cycle; a full queue holds the bundle of any of them as an issue stall. -/
def Sys2Proof.Claims.CopyCommands : Prop :=
  ∀ (s : State),
    let enters (i : Instr) (queued : State) : Prop := (CopyRoom s → exec i s = .next queued)
      ∧ (¬ CopyRoom s → exec i s = .next { s with cur := { s.cur with flow := .stalled 2 } })
    let none_ : TokF := ⟨15, 15, 15, 15⟩
    (∀ (src dst : Fin 64) (x y : Word), s.takeX src = .ok x → s.takeX dst = .ok y →
      (∀ shp cm oms tok sid z f, enters (.copy src dst shp cm oms tok sid z f)
          (queuesCopy s .copy x y shp.val cm oms tok sid z f))
      ∧ (∀ shp cm oms tok sid z f v, enters (.copym src dst shp cm oms tok sid z f v)
          (queuesCopy s (.copym v) x y shp.val cm oms tok sid z f))
      ∧ (∀ lc tok sid, enters (.selp src dst lc tok sid) (queuesCopy s .selp x y lc.val 1 0 tok sid false false))
      ∧ (∀ lc tok sid, enters (.selk src dst lc tok sid) (queuesCopy s .selk x y lc.val 1 0 tok sid false false))
      ∧ (∀ shp tok sid, enters (.rput src dst shp none tok sid)
          (queuesCopy s (.rput none) x y shp.val 1 0 tok sid false false))
      ∧ ∀ shp n v tok sid, s.takeX n = .ok v → enters (.rput src dst shp (some n) tok sid)
          (queuesCopy s (.rput (some v)) x y shp.val 1 0 tok sid false false))
    ∧ ∀ st, enters (.stdrop st) (queuesCopy s (.stdrop st) 0 0 0 0 0 none_ 0 false false)
      ∧ ∀ a p, s.readX a = .ok p → OwnPtr p 64 →
          enters (.stbind st a) (queuesCopy s (.stbind st) p 0 0 0 0 none_ 0 false false)

/-- R277: CPCANCEL discards the commands of earlier cycles in the queues that it names, and stops those that are started: one
that is suspended or between chunks leaves at once, its streams cut off with cause ABORT, one within a chunk stays, stopping, and
completes that chunk; one that an earlier CPCANCEL stops already is not counted again (log 98). It delivers how many it
discarded or stopped after 2 cycles; a queue that it does not name keeps its commands, and no memory changes. -/
def Sys2Proof.Claims.CopyCancel : Prop :=
  ∀ (s : State) (d : XDst) (mask : BitVec 2) (o : WDst), s.destX d = .ok o →
    (∀ q, ((s.tileAt s.cur.tile).eng.cq.get q |>.map fun c => c.pos).Nodup) →
    let stops (c : CopyCmd) : Bool := decide (c.entered < s.now) && !(c.run.map fun r => r.stopping).getD false
    let after (c : CopyCmd) : Option CopyCmd :=
      if stops c then c.run.bind fun r => if r.prog.isSome then some { c with run := some { r with stopping := true } } else none
      else some c
    ∃ s', exec (.cpcancel d mask) s = .next s'
      ∧ (∀ q : Fin 2, s'.tile.eng.cq.get q =
          if mask.getLsbD q.val then (s.tile.eng.cq.get q).filterMap after else s.tile.eng.cq.get q)
      ∧ (∀ (q : Fin 2) c r (st : Fin 8), mask.getLsbD q.val = true → c ∈ s.tile.eng.cq.get q → stops c = true → c.run = some r →
          r.prog = none → c.cmask.getLsbD (2 + st.val) = true → (s.tile.eng.sts.get st).bound = some q →
          (s.tile.eng.sts.get st).cut = false →
            (s'.tile.eng.sts.get st).cut = true ∧ (s'.tile.eng.sts.get st).cause = 11)
      ∧ s'.mem = s.mem ∧ s'.tile.regs.x = s.tile.regs.x
      ∧ ∃ u, s'.tile.regs.pend = u :: s.tile.regs.pend ∧ u.dst = o ∧ u.due = s.now + 2
          ∧ u.val = .x (BitVec.ofNat 64 ((List.finRange 2).map fun q =>
              if mask.getLsbD q.val then ((s.tile.eng.cq.get q).filter stops).length else 0).sum)

/-- R281, R290 to R296, R299: OMREL, OMLD, MMA, MZERO, MACLD and MDRAIN enter the matrix queue, OMREL turning its slots to
Releasing; a slot that is not Claimed raises OPERAND_SLOT with the slots named and those at fault, in OMCLAIM one that is, and a
full queue holds the bundle of any of them. MDRAIN and MSTAT go on once their tile has settled, MSTAT delivering its status, and
wait while a queued command writes it, one that entered after their issue too (log 86); a poisoned tile, or one in which the
verification finds a mismatch, raises DATA_ERROR of source 4 unless NOCHK is set. -/
def Obligations.MatrixCommands : Prop :=
  ∀ (s : State) (tok : TokF),
    let enters (i : Instr) (queued : State) : Prop := (s.tile.eng.mq.length < 16 → exec i s = .next queued)
      ∧ (16 ≤ s.tile.eng.mq.length → exec i s = .next { s with cur := { s.cur with flow := .stalled 3 } })
    let slotTrap (i : Instr) (mask bad : BitVec 8) : Prop := exec i s = .next (s.enterTrap
      { kind := .operandSlot, slot := s.cur.slot, info0 := mask.setWidth 64, info1 := bad.setWidth 64 })
    let unclaimed (mask bad : BitVec 8) : Prop :=
      bad ≠ 0 ∧ ∀ i : Fin 8, bad.getLsbD i.val = (mask.getLsbD i.val && s.tile.eng.om.get i != .claimed)
    (∀ mask, SlotsAre s mask .claimed →
        enters (.omrel mask tok) (slotsBecome (queuesMatrix s (.omrel mask) tok) mask .releasing))
    ∧ (∀ mask bad, unclaimed mask bad → slotTrap (.omrel mask tok) mask bad)
    ∧ (∀ om c p, s.readX c = .ok p → OwnPtr p 16384 →
        (s.tile.eng.om.get om = .claimed → enters (.omld om c tok) (queuesMatrix s (.omld om p) tok))
        ∧ (s.tile.eng.om.get om ≠ .claimed → slotTrap (.omld om c tok) (BitVec.twoPow 8 om.val) (BitVec.twoPow 8 om.val)))
    ∧ (∀ ta tb acc oa ob sa sb,
        (s.tile.eng.om.get oa = .claimed → s.tile.eng.om.get ob = .claimed →
          enters (.mma ta tb acc oa ob sa sb tok) (queuesMatrix s (.mma ta tb acc oa ob sa sb) tok))
        ∧ ∀ bad, unclaimed (BitVec.twoPow 8 oa.val ||| BitVec.twoPow 8 ob.val) bad →
            slotTrap (.mma ta tb acc oa ob sa sb tok) (BitVec.twoPow 8 oa.val ||| BitVec.twoPow 8 ob.val) bad)
    ∧ (∀ mask held w, s.strm.wait = none → held ≠ 0 →
        (∀ i : Fin 8, held.getLsbD i.val = (mask.getLsbD i.val && s.tile.eng.om.get i == .claimed)) →
          slotTrap (.omclaim mask w) mask held)
    ∧ (∀ acc, enters (.mzero acc tok) (queuesMatrix s (.mzero acc) tok))
    ∧ (∀ acc c p, s.readX c = .ok p → OwnPtr p 24576 → enters (.macld acc c tok) (queuesMatrix s (.macld acc p) tok))
    ∧ (∀ acc nochk c p r, s.readX c = .ok p → OwnPtr p 64 → Settled s acc nochk r →
        enters (.mdrain acc nochk c tok) (queuesMatrix s (.mdrain acc p) tok))
    ∧ (∀ d o acc nochk r, s.destX d = .ok o → Settled s acc nochk r →
        exec (.mstat d acc nochk) s = .next (gives s o 2 (mstatWord (s.tile.eng.acc.get acc) r, 0)))
    ∧ (∀ acc nochk, (∃ c ∈ s.tile.eng.mq, c.op.acc = some acc) →
        (∀ d, ∃ s', exec (.mstat d acc nochk) s = .next s' ∧ s'.cur.flow = .stalled 6)
        ∧ ∀ c p, s.readX c = .ok p → OwnPtr p 64 → ∃ s', exec (.mdrain acc nochk c tok) s = .next s' ∧ s'.cur.flow = .stalled 6)
    ∧ ∀ (acc : Fin 10) (v : Settle) (r : Nat × Nat), (∀ c ∈ s.tile.eng.mq, c.op.acc ≠ some acc) → s.strm.settle = some v →
        v.found = some r → r.1 < 256 → r.2 < 256 →
        let y := s.tile.eng.acc.get acc
        let wrong := decide (r ≠ (255, 255))
        y.poison = true ∨ wrong = true →
          let tr : Trap := { kind := .dataError, slot := s.cur.slot, info0 := 4
                             info1 := (0 : BitVec 16) ++ y.step ++ (0 : BitVec 8) ++ BitVec.ofNat 8 r.2 ++ BitVec.ofNat 8 r.1
                               ++ (0 : BitVec 2) ++ BitVec.ofBool wrong ++ BitVec.ofBool y.poison ++ BitVec.ofNat 4 acc.val }
          (∀ d, exec (.mstat d acc false) s = .next (s.enterTrap tr))
          ∧ ∀ c p, s.readX c = .ok p → OwnPtr p 64 → exec (.mdrain acc false c tok) s = .next (s.enterTrap tr)

/-! ### Accesses of the copy slots (chapters 16, 17) -/

/-- R319 to R321, R323: GLD, GST, GATOM and GRED, LDMETA and STMETA leave for the home that their pointer reaches, with their
operation, operands, ordering and destination; registers and memory change only when the home performs them. -/
def Sys2Proof.Claims.AccessesLeave : Prop :=
  ∀ (s : State) (m : MemF) (p : Word) (space key kind grade : Nat), s.readX m.base = .ok p → EntryFree s →
    s.dev.hot.en = false →
    let goes (i : Instr) (n : Nat) (r : State.AccReq) : Prop :=
      ∃ s', exec i s = .next s' ∧ Leaves s s' p space key n kind grade r
    (∀ o (t : ITy) (d : XDst) (w : WDst), s.destX d = .ok w →
        Reaches s (if t.width = 64 then [0, 2, 3, 5] else [0, 2, 3]) p (formed p m (t.width / 8)) (t.width / 8) false space key
          kind grade →
          goes (.gld t d m o) (t.width / 8) { op := .load t, sid := m.sid, dest := w, acq := o.acq, rel := o.rel })
      ∧ (∀ o (w : Fin 4) v x, s.readX v = .ok x →
          Reaches s (if w = 3 then [0, 2, 3, 5, 6] else [0, 2, 3, 6]) p (formed p m (2 ^ w.val)) (2 ^ w.val) true space key
            kind grade →
          goes (.gst w v m o) (2 ^ w.val) { op := .store, sid := m.sid, data := x, acq := o.acq, rel := o.rel })
      ∧ (∀ o op v x, s.readX v = .ok x → Reaches s [0, 2, 3, 6] p (formed p m (redSize op)) (redSize op) true space key kind grade →
          goes (.gred op v m o) (redSize op) { op := .red op, sid := m.sid, data := x, acq := o.acq, rel := o.rel })
      ∧ (∀ o op w64 d x y, s.takeX d = .ok x → (if op = .cas then s.takeX (d + 1) = .ok y else y = 0) →
          let n := (atomTy w64).width / 8
          Reaches s [0, 2, 3] p (formed p m n) n true space key kind grade → goes (.gatom op w64 d m o) n
            { op := .atom op w64, sid := m.sid, data := x, data2 := y, dest := .x d, acq := o.acq, rel := o.rel })
      ∧ (space = 0 → grade ≠ 2 →
          (∀ d w sid, s.destX d = .ok w → Reaches s [0] p (offsetOf p) 64 false space key kind grade →
            goes (.ldmeta d m.base sid) 64 { op := .ldmeta, sid, dest := w })
          ∧ ∀ b x sid, s.readX b = .ok x → Reaches s [0] p (offsetOf p) 64 true space key kind grade →
            goes (.stmeta m.base b sid) 64 { op := .stmeta, sid, data := x })
      ∧ (space = 0 → ∀ off, Reaches s [0] p (formed p { m with off } 64) 64 false space key kind grade →
          exec (.pref m.base off) s = .next s)

/-- R323: LDMETA and STMETA of a page of symbol grade raise METADATA with the address; R319: a PREF whose translation is
refused raises no trap. -/
def Sys2Proof.Claims.MetadataAndPrefetch : Prop :=
  ∀ (s : State) (a : XSrc) (p e : Word) (lv at_ : Nat), s.readX a = .ok p → spaceOf p = 0 → rankOf p = 0 →
    offsetOf p % 64 = 0 → offsetOf p + 64 ≤ 2 ^ 52 → s.lookup (offsetOf p) = some (.leaf e lv at_) →
      (e.getLsbD 3 = true → e.extractLsb' 6 2 = 2 → ∀ d w sid, s.destX d = .ok w →
        exec (.ldmeta d a sid) s = .next (s.enterTrap { kind := .metadata, slot := s.cur.slot, addr := p, access := 6 }))
      ∧ (e.getLsbD 3 = false → s.isSys = false →
        exec (.pref a 0) s = .next s
          ∧ ∀ d w sid, s.destX d = .ok w → exec (.ldmeta d a sid) s = .next (s.enterTrap
              { kind := .pageFault, slot := s.cur.slot, cause := 3, level := lv, access := 6, addr := p, info0 := e }))

/-! ### The ends of a task (chapters 04, 25) -/

/-- R411, R423: YIELD is a stop point, and of a task that asks for nothing no more; one that asks to give up its tile has a
stop requested, its slice counting as expired, when other work would be found; RETIRE of a lockstep task whose accesses and
commands of earlier bundles have ended ends the task and counts it, commands of its own bundle running on but for those that need
a token (log 97); one with an access, a peer's answer or a command of any queue left holds its bundle, and RETIRE in a group is
ILLEGAL. -/
def Obligations.TaskEnds : Prop :=
  (∀ (s : State) (a : XSrc) (x : Word), s.readX a = .ok x → x.getLsbD 0 = false →
      exec (.yield a) s = .next { s with cur := { s.cur with stopPt := true } })
    ∧ (∀ (s : State) (a : XSrc) (x : Word), s.readX a = .ok x → ∃ s', exec (.yield a) s = .next s' ∧ s'.cur.stopPt = true
        ∧ s'.mem = s.mem ∧ s'.tile.regs = s.tile.regs ∧ s'.tile.streams = s.tile.streams
        ∧ (x.getLsbD 0 = true → s.tile.sched.resident = true → s.tile.sched.reqAt = none → (s.ctx s.ctxOf).noSave = false →
            (∃ d, d ≠ s.ctxOf ∧ s.ctxValid d = true ∧ s.inTiles d s.cur.tile.val = true
              ∧ (s.workOf s.cur.tile d).isSome = true) →
            s.tile.sys.stop = false → s'.tile.sys.stop = true ∧ s'.tile.sched.expired = true
              ∧ s'.tile.sched.reqAt = some s.clk.wclock))
    ∧ ∀ s : State,
      let stalls (why : Nat) : Prop := exec .retire s = .next { s with cur := { s.cur with flow := .stalled why } }
      let answered := ∀ p, ∀ o ∈ (s.ports.get p).unanswered, o.tile = s.cur.tile → o.cmd = none
      let performed := ∀ a ∈ s.net.accs, a.tile = s.cur.tile → s.cur.mark ≤ a.seq
      let unstarted := ∀ q, ∀ c ∈ s.tile.eng.cq.get q, c.run = none
      let ownCopies := ∀ q, ∀ c ∈ s.tile.eng.cq.get q, s.now ≤ c.entered
      let tokenless (k : TokF) : Prop := k.cons0 = 15 ∧ k.cons1 = 15 ∧ k.cons2 = 15
      (s.tile.lockstep = false → exec .retire s = .next (s.enterTrap (illegalHere s)))
      ∧ (s.tile.lockstep = true →
        (¬ performed ∨ ¬ answered → stalls 4)
        ∧ (performed → answered → ¬ ownCopies → (unstarted → stalls 2) ∧ (stalls 2 ∨ stalls 4))
        ∧ (performed → answered → unstarted → ownCopies → (∃ c ∈ s.tile.eng.mq, c.entered < s.now) → stalls 3)
        ∧ (performed → answered → unstarted → ownCopies → (∀ c ∈ s.tile.eng.mq, s.now ≤ c.entered) → ∀ k, s.task = some k →
          ∃ s', exec .retire s = .next s' ∧ s'.tile.sched.resident = false ∧ s'.tile.sched.task = none
            ∧ (∀ g, s'.tile.streams.get g = none) ∧ s'.cur.moved = true ∧ s'.mem = s.mem
            ∧ (∀ q c, c ∈ s'.tile.eng.cq.get q ↔ c ∈ s.tile.eng.cq.get q ∧ tokenless c.tok)
            ∧ (∀ c, c ∈ s'.tile.eng.mq ↔ c ∈ s.tile.eng.mq ∧ tokenless c.tok)
            ∧ ∀ l, s.liveAt k.slot = some l → ∃ l', s'.liveAt k.slot = some l'
                ∧ l'.tasks = min (l.tasks + 1) (2 ^ 32 - 1) ∧ l'.lid = l.lid))

namespace Sys2Proof.Claims

/-! ### Words for resumes and kills -/

/-- The token of a context's resume block names parked group `g` of the context's task on tile `t` (R394). -/
def NamesGroup (s : State) (c : Fin 64) (t : Fin 144) (g : Fin 4) (st : Stream) (p : Park) : Prop :=
  let b := (s.ctx c).resume
  b.token.extractLsb' 0 8 = BitVec.ofNat 8 t.val ∧ b.token.extractLsb' 8 2 = BitVec.ofNat 2 g.val
    ∧ b.token.extractLsb' 10 22 = 0 ∧ b.token.extractLsb' 32 32 = p.seq
    ∧ (s.tileAt t).streams.get g = some st ∧ st.park = some p
    ∧ (s.tileAt t).sched.job = .none ∧ (s.tileAt t).sched.killed = false
    ∧ ∃ k, (s.tileAt t).sched.task = some k ∧ k.ctx = c

/-- The token of a context's resume block names suspended command `cmd` of copy queue `q` of tile `t` (R394). -/
def NamesCommand (s : State) (c : Fin 64) (t : Fin 144) (q : Fin 2) (cmd : CopyCmd) (run : CopyRun) : Prop :=
  let b := (s.ctx c).resume
  b.token.extractLsb' 0 8 = BitVec.ofNat 8 t.val ∧ b.token.extractLsb' 8 2 = 0
    ∧ b.token.extractLsb' 10 2 = BitVec.ofNat 2 (1 + q.val) ∧ b.token.extractLsb' 12 20 = 0
    ∧ cmd ∈ (s.tileAt t).eng.cq.get q ∧ cmd.run = some run ∧ run.susp = some (b.token.extractLsb' 32 32)
    ∧ (∀ d ∈ (s.tileAt t).eng.cq.get q, ∀ r, d.run = some r → r.susp = run.susp → d = cmd)
    ∧ (s.tileAt t).sched.job = .none ∧ (s.tileAt t).sched.killed = false
    ∧ ∃ k, (s.tileAt t).sched.task = some k ∧ k.ctx = c

/-- Group `g` of a tile runs again from a pc within 300 cycles, with RESULT 0, unless a stop is requested, which stops it first;
its wait goes on where the form keeps it, but one that is undecided and has sent nothing is then left for the restore to form
again (R121, R122); the tile's other groups, the other tiles and memory stay, and the tile's bypass latches are invalid (R162,
R395, R396). -/
def Resumed (s s' : State) (c : Fin 64) (t : Fin 144) (g : Fin 4) (st : Stream) (pc : Nat) (loops : List Loop)
    (wait : Option Wait) : Prop :=
  let stop := (s.tileAt t).sys.stop
  let ends (w : Wait) : Prop := stop = true ∧ w.sent = none ∧ w.dec = none
  (∃ st', (s'.tileAt t).streams.get g = some st' ∧ st'.park = none ∧ st'.pc = pc ∧ st'.loops = loops
      ∧ (wait = none → st'.wait = none ∧ st'.stopped = stop)
      ∧ (∀ w, wait = some w →
          (ends w → st'.wait = none ∧ st'.again = some w.frame ∧ st'.stopped = true)
          ∧ (¬ ends w → st'.wait = some w ∧ st'.stopped = false))
      ∧ st'.members = st.members ∧ s.now < st'.readyAt ∧ st'.readyAt ≤ s.now + 300)
    ∧ (∀ h, h ≠ g → (s'.tileAt t).streams.get h = (s.tileAt t).streams.get h) ∧ (∀ u, u ≠ t → s'.tileAt u = s.tileAt u)
    ∧ (s'.tileAt t).regs.byp = .replicate 8 [] ∧ s'.mem = s.mem ∧ (s'.ctx c).resume.result = 0

/-- The eight forms of a context's resume block (R395). -/
def IsForm (c : Fin 64) (i : Instr) : Prop :=
  i = .retry c ∨ i = .skip c ∨ i = .status c ∨ i = .goto c ∨ i = .setx c ∨ i = .drop c ∨ i = .kill c ∨ i = .badForm c

end Sys2Proof.Claims

/-! ### Resumes and kills (chapters 23, 26) -/

/-- R395, R396, R124, R43: the forms applied to a parked group. RETRY issues its bundle again with its latches, STATUS
takes an escalated wait's outcome, SKIP counts the bundle as committed, GOTO goes to a target or parks again, SETX writes a
register other than x0 and retries, KILL ends the task; a form that the group does not admit answers RESULT 3 alone. The wait
pending at the trap goes on after RETRY and SETX, but for an escalated one and a JOIN, which begin anew, and is given up by SKIP
and GOTO, which is the model's choice (log 31). -/
def Sys2Proof.Claims.GroupResumes : Prop :=
  ∀ (s : State) (c : Fin 64) (t : Fin 144) (g : Fin 4) (st : Stream) (p : Park), NamesGroup s c t g st p →
    let b := (s.ctx c).resume
    let isJoin := ∃ w gm f, st.wait = some w ∧ w.ins = .join gm f
    let keeps (i : Instr) (P : Option Wait → State → Prop) : Prop := ∃ s', exec i s = .next s'
      ∧ (p.trap.kind = .deadlineEscalation ∨ isJoin → P none s') ∧ (p.trap.kind ≠ .deadlineEscalation → ¬ isJoin → P st.wait s')
    let refused : Host.Outcome State Fault Refusal := .next (s.setResult c 3)
    keeps (.retry c) (fun w s' => Resumed s s' c t g st st.pc st.loops w
        ∧ (s'.tileAt t).regs.x = (s.tileAt t).regs.x
        ∧ ∀ e ∈ p.latches, (∀ e' ∈ p.latches, e'.1 = e.1 → e' = e) → (s'.tileAt t).regs.latch.get e.1 = some e.2)
    ∧ (p.trap.kind = .deadlineEscalation → ∃ s', exec (.status c) s = .next s'
        ∧ Resumed s s' c t g st st.pc st.loops (st.wait.map fun w => { w with forced := true }))
    ∧ (p.trap.kind ≠ .deadlineEscalation → exec (.status c) s = refused)
    ∧ (s.maySkip t g p = true →
        let r := backEdge (s.at_ t g).exits st.pc (s.nextBundle t st.pc p.latches) 5 st.loops
        ∃ s', exec (.skip c) s = .next s' ∧ Resumed s s' c t g st r.2.1 r.1 none)
    ∧ (s.maySkip t g p = false → exec (.skip c) s = refused)
    ∧ (∀ k l, (s.tileAt t).sched.task = some k → s.liveAt k.slot = some l →
        let v := b.value.toNat
        (v % 8 = 0 → v < l.image.len → ∃ s', exec (.goto c) s = .next s'
          ∧ Resumed s s' c t g st v (st.loops.dropWhile fun l => !(decide (l.start ≤ v) && decide (v ≤ l.stop))) none)
        ∧ (v % 8 ≠ 0 ∨ l.image.len ≤ v → ∃ s' st' q, exec (.goto c) s = .next s'
          ∧ (s'.tileAt t).streams.get g = some st' ∧ st'.park = some q
          ∧ q.trap = { kind := .fetchFault, access := 1, addr := b.value, info0 := b.value } ∧ q.seq = (s.tileAt t).sched.parkSeq + 1
          ∧ (s'.ctx c).resume.result = 0))
    ∧ (b.reg ≠ 0 → keeps (.setx c) fun w s' => Resumed s s' c t g st st.pc st.loops w
        ∧ (s'.tileAt t).regs.x = (s.tileAt t).regs.x.set b.reg.val b.value b.reg.isLt)
    ∧ (b.reg = 0 → exec (.setx c) s = refused) ∧ exec (.drop c) s = refused ∧ exec (.badForm c) s = refused
    ∧ ∃ s', exec (.kill c) s = .next s' ∧ (s'.ctx c).resume.result = 0 ∧ (s'.tileAt t).sched.resident = false
        ∧ (s'.tileAt t).sched.killed = true ∧ (∀ h, (s'.tileAt t).streams.get h = none) ∧ s'.mem = s.mem

/-- R394 to R396: RETRY lets a suspended command go on and DROP removes it; a token that names nothing, or of a reserved
shape, answers RESULT 2 alone for every form, a reserved one too (that it comes before RESULT 3 is the model's choice, log 57);
a group of a saved task is resumed in its record. -/
def Sys2Proof.Claims.OtherResumes : Prop :=
  (∀ (s : State) (c : Fin 64) (t : Fin 144) (q : Fin 2) (cmd : CopyCmd) (run : CopyRun), NamesCommand s c t q cmd run →
      (∃ s', exec (.retry c) s = .next s' ∧ (s'.ctx c).resume.result = 0 ∧ s'.mem = s.mem
          ∧ (s'.tileAt t).eng.cq.get q = ((s.tileAt t).eng.cq.get q).map fun d =>
              if d.pos = cmd.pos then { cmd with run := some { run with susp := none } } else d)
      ∧ (∃ s', exec (.drop c) s = .next s' ∧ (s'.ctx c).resume.result = 0 ∧ s'.mem = s.mem
          ∧ (s'.tileAt t).eng.cq.get q = ((s.tileAt t).eng.cq.get q).filter fun d => d.pos != cmd.pos)
      ∧ exec (.skip c) s = .next (s.setResult c 3) ∧ exec (.goto c) s = .next (s.setResult c 3))
    ∧ (∀ (s : State) (c : Fin 64), ∀ i, IsForm c i →
        let k := (s.ctx c).resume.token
        (k.extractLsb' 12 20 ≠ 0 ∨ 144 ≤ (k.extractLsb' 0 8).toNat → exec i s = .next (s.setResult c 2))
        ∧ ∀ t : Fin 144, k.extractLsb' 0 8 = BitVec.ofNat 8 t.val → (s.tileAt t).sched.task = none → s.saved = [] →
            exec i s = .next (s.setResult c 2))
    ∧ ∀ (s : State) (c : Fin 64) (t : Fin 144) (g : Fin 4) (v : Saved) (st : Stream) (p : Park),
        let k := (s.ctx c).resume.token
        s.saved = [v] → v.rank = t → v.tile.sys.ctx = c → (s.tileAt t).sched.task = none →
        k.extractLsb' 0 8 = BitVec.ofNat 8 t.val → k.extractLsb' 8 2 = BitVec.ofNat 2 g.val → k.extractLsb' 10 22 = 0 →
        k.extractLsb' 32 32 = p.seq → v.tile.streams.get g = some st → st.park = some p →
          ∃ s' v', exec (.retry c) s = .next s' ∧ s'.tiles = s.tiles ∧ s'.mem = s.mem ∧ (s'.ctx c).resume.result = 0
            ∧ s'.saved = [v'] ∧ v'.rank = t ∧ v'.tile.sys.ctx = c
            ∧ ∃ st', v'.tile.streams.get g = some st' ∧ st'.park = none ∧ st'.pc = st.pc

/-- R431, R430, R338: a context kill ends every task of the context, empties its private and stage queues and sets KILL on
every object of its partition, KBUSY being set, which may clear from at most 200 µs on (log 98); while KBUSY is set it has no effect. -/
def Obligations.ContextKills : Prop :=
  ∀ (s : State) (c : Fin 64),
    let part := (s.ctx c).entry.get 4
    ((s.ctx c).account.kbusy.isSome = true → exec (.contextKill c) s = .next s)
    ∧ ((s.ctx c).account.kbusy = none → ∃ s', exec (.contextKill c) s = .next s'
        ∧ (∃ d, (s'.ctx c).account.kbusy = some d ∧ s.now < d ∧ d ≤ s.now + 200000)
        ∧ (∀ t k, (s'.tileAt t).sched.task = some k → k.ctx = c → (s'.tileAt t).sched.killed = true)
        ∧ (∀ t, ∀ e ∈ (s'.tileAt t).sched.own, e.ctx ≠ c)
        ∧ (∀ n l, s'.liveAt n = some l → l.ctx = c → ∀ q ∈ l.queues, q.queue = [])
        ∧ (∀ n, (part.extractLsb' 0 15).toNat ≤ n → n < (part.extractLsb' 0 15).toNat + (part.extractLsb' 32 16).toNat →
            (s'.barAt n).kill = true)
        ∧ ∀ n, (part.extractLsb' 16 13).toNat ≤ n → n < (part.extractLsb' 16 13).toNat + (part.extractLsb' 48 14).toNat →
            (s'.tqAt n).kill = true)

namespace Sys2Proof.Claims

/-! ### Words for the events of the engines -/

/-- How often a command names token counter `k`; 15 is none (R53). -/
def named (tok : TokF) (k : Fin 16) : Nat := if k = 15 then 0 else [tok.cons0, tok.cons1, tok.cons2].count k

/-- Each counter that a command consumes holds enough (R256, R282). -/
def TokensThere (s : State) (t : Fin 144) (tok : TokF) : Prop :=
  ∀ k, named tok k ≤ ((s.tileAt t).regs.tk.get k).count.toNat

/-- The start of a command took its tokens, and only those (R256, R282). -/
def TokensTaken (s s' : State) (t : Fin 144) (tok : TokF) : Prop :=
  ∀ k, ((s'.tileAt t).regs.tk.get k).count.toNat + named tok k = ((s.tileAt t).regs.tk.get k).count.toNat
    ∧ ((s'.tileAt t).regs.tk.get k).sat = ((s.tileAt t).regs.tk.get k).sat

/-- A token produced (R344): one more, or SAT at the top. -/
def oneMore (k : Tk) : Tk := if k.count.toNat = 65535 then ⟨k.count, true⟩ else ⟨k.count + 1, k.sat⟩

/-- Command `c` of queue `q` is the first that has not started, and R256, R361 and R408 let it start now. -/
def CopyMayStart (s : State) (t : Fin 144) (q : Fin 2) (c : CopyCmd) : Prop :=
  c.run = none ∧ (s.tileAt t).sys.stop = false ∧ c.entered + 4 ≤ s.now ∧ TokensThere s t c.tok
    ∧ (c.op = .selp ∨ c.op = .selk → s.observed t c = true)
    ∧ ∃ done rest, (s.tileAt t).eng.cq.get q = done ++ c :: rest ∧ (∀ d ∈ done, d.run.isSome = true)
      ∧ (done = [] ∨ ∃ e, done = [e] ∧ lastReadSent e (cmdWindows e) = true ∧ State.isBinding e.op = false
          ∧ State.isBinding c.op = false)

/-- The queue with a command's run record replaced. -/
def WithRun (s s' : State) (t : Fin 144) (q : Fin 2) (c : CopyCmd) (r : CopyRun) : Prop :=
  (s'.tileAt t).eng.cq.get q = ((s.tileAt t).eng.cq.get q).map fun d => if d.pos = c.pos then { c with run := some r } else d

/-- The queue without a command. -/
def Without (s s' : State) (t : Fin 144) (q : Fin 2) (c : CopyCmd) : Prop :=
  (s'.tileAt t).eng.cq.get q = ((s.tileAt t).eng.cq.get q).filter fun d => d.pos != c.pos

/-- One fault is handed to the coordinator: an ENGINE entry of a tile with a cause and an address (R265, R298, R385). -/
def EngineEntry (s s' : State) (t : Fin 144) (cause : Nat) (addr : Word) : Prop :=
  ∃ e, s'.dev.faultNew = s.dev.faultNew ++ [e] ∧ e.trap.kind = .engine ∧ e.trap.cause = cause ∧ e.trap.addr = addr
    ∧ e.rank = t.val ∧ e.ctx = (s.tileAt t).sys.ctx

/-- The words that a command has read are whole, each once, none marked. -/
def GotSound (r : MxRun) : Prop :=
  (r.got.map fun e => e.1).Nodup ∧ ∀ e ∈ r.got, e.2.length = 8 ∧ ∀ b ∈ e.2, b.2 = false

/-- A byte of a tile's scratchpad as a matrix command has it: from the word that it read earlier, else as it stands. -/
def asRead (s : State) (t : Fin 144) (r : MxRun) (o : Nat) : Byte :=
  match r.got.find? fun e => e.1 == o / 8 with
  | some e => (e.2.getD (o % 8) (0, false)).1
  | none => Memory.get s.mem (spadBase + t.val * 2 ^ 19 + o)

/-- The eight words at an offset of a tile's scratchpad. -/
def eightWords (s : State) (t : Fin 144) (o : Nat) : List Word :=
  (List.range 8).map fun i => s.load64 (spadBase + t.val * 2 ^ 19 + o + 8 * i)

/-- Matrix command `c` is the first that has not started, behind `done`, and R282 and R286 let it start now. -/
def MatrixMayStart (s : State) (t : Fin 144) (done : List MxCmd) (c : MxCmd) (rest : List MxCmd) : Prop :=
  c.run = none ∧ (s.tileAt t).sys.stop = false ∧ c.entered + 2 ≤ s.now ∧ TokensThere s t c.tok
    ∧ (s.tileAt t).eng.mq = done ++ c :: rest ∧ (∀ d ∈ done, d.run.isSome = true)
    ∧ ∀ d ∈ done, mustWait s.now d c = false ∧ unitTaken s.now d c = false

/-- Nothing outside a tile's own engines disturbs its storage: no failing parity, no queued reduction, no migration; and
its memory has its canonical form. -/
def Quiet (s : State) : Prop := s.marks = [] ∧ s.net.greds = [] ∧ s.dev.migrations = [] ∧ MemOk s

/-- A plain copy of one row of `n` bytes within the scratchpad, whose ranges do not overlap and whose chunk in hand is still
to be delivered (R259, R261). -/
def OneRow (c : CopyCmd) (run : CopyRun) (n : Nat) : Prop :=
  c.op = .copy ∧ c.cmask = 1 ∧ c.zero = false ∧ run.conv = false ∧ run.stopping = false
    ∧ run.shape.getD 0 0 = BitVec.ofNat 64 (n + 2 ^ 24 + 2 ^ 48) ∧ n < 2 ^ 24 ∧ run.total = n ∧ run.accDst ≤ 4096 * run.chunk
    ∧ spaceOf c.src = 1 ∧ rankOf c.src = 0 ∧ spaceOf c.dst = 1 ∧ rankOf c.dst = 0
    ∧ offsetOf c.src + n ≤ 2 ^ 19 ∧ offsetOf c.dst + n ≤ 2 ^ 19
    ∧ (offsetOf c.src + n ≤ offsetOf c.dst ∨ offsetOf c.dst + n ≤ offsetOf c.src)

/-- A part of a chunk of `len` bytes to be read, or to be written, within the scratchpad. -/
def PartFits (reading : Bool) (len : Nat) (x : ChunkPart) : Prop :=
  ∃ o m j, 0 < m ∧ j + m ≤ len ∧ o + m ≤ 2 ^ 19 ∧ x = if reading then .src o m j else .dst o m j

/-- A chunk's bytes after one of its parts has been read from the own scratchpad, nothing being marked. -/
def partRead (s : State) (t : Fin 144) (got : List (Byte × Bool)) : ChunkPart → List (Byte × Bool)
  | .src o m j => got.take j ++ ((s.mem.bytes (spadBase + t.val * 2 ^ 19 + o) m).map fun b => (b, false)) ++ got.drop (j + m)
  | _ => got

/-- The partial list of the next window is merged (R308): the counts grow by its own, SELP appends its elements and SELK keeps
the first in its order. -/
def Merged (c : CopyCmd) (v v' : Sel) (p : Partial) : Prop :=
  v'.merged = v.merged + 1 ∧ v'.nans = v.nans + p.nans ∧ v'.scanned = v.scanned + p.scanned
    ∧ (c.op = .selp → v'.list = (v.list ++ p.elems).take (selCnt v.desc)
        ∧ v'.count = min (v.count + p.qualify) (2 ^ 64 - 1))
    ∧ ∀ ty, c.op = .selk → selTy v.desc = some ty →
        v'.list = selMerge ty (selPred v.desc % 2 == 1) (selCnt v.desc) v.list p.elems

/-- A started selection of a queue. -/
def Selecting (s : State) (t : Fin 144) (q i : Fin 2) (c : CopyCmd) (run : CopyRun) (v : Sel) : Prop :=
  (((s.tileAt t).eng.cq.get q).filter fun d => d.run.isSome)[i.val]? = some c ∧ c.run = some run ∧ run.sel = some v

end Sys2Proof.Claims

/-! ### Events of the copy queues (chapter 13) -/

/-- R256, R258, R265, R274, R275, R322: the first unstarted command of a queue starts: it takes its tokens, unless it binds a
stream, and its registers; a descriptor is read after the reductions queued at its line; STDROP, and STBIND without a table, act
at once, an STBIND with one is in flight for 64 cycles, a copy or selection that fails its start checks leaves with an ENGINE
entry, and another is in flight. A descriptor or table whose words fail parity is used as it reads (log 102). -/
def Sys2Proof.Claims.CopyStarts : Prop :=
  ∀ (s : State) (t : Fin 144) (q : Fin 2) (c : CopyCmd), CopyMayStart s t q c →
    let starts (P : State → Prop) : Prop := ∃ s', exec (.copyCommandStart t q) s = .next s' ∧ P s'
    let shape := (List.range 5).map fun i => (s.tileAt t).regs.lc.toList.getD (c.shp + i) 0
    let bfmt := (s.tileAt t).sys.bfmt.toList
    let taken := s.consume t c.tok
    let s₁ := s.settleEng t (offsetOf c.src) 64
    let desc := eightWords s₁ t (offsetOf c.src)
    (∀ st, c.op = .stdrop st → starts fun s' => Without s s' t q c ∧ s'.streamReg t st = .reset ∧ s'.mem = s.mem
        ∧ (s'.tileAt t).regs.tk = (s.tileAt t).regs.tk)
    ∧ (∀ st, c.op = .stbind st → desc.getD 1 0 = 0 →
          starts fun s' => Without s s' t q c ∧ s'.mem = s₁.mem ∧ (s'.tileAt t).regs.tk = (s.tileAt t).regs.tk
            ∧ s'.streamReg t st = if descOk desc [] then { StreamReg.reset with bound := some q, desc := desc.getD 0 0 }
                else { StreamReg.reset with cause := 10 })
    ∧ (∀ st, c.op = .stbind st → desc.getD 1 0 ≠ 0 →
          let at_ := offsetOf (desc.getD 1 0)
          let s₂ := s₁.settleEng t at_ 512
          let table := (s₂.mem.bytes (spadBase + t.val * 2 ^ 19 + at_) 512).map fun b => b.toNat
          starts fun s' => s'.mem = s₂.mem ∧ (s'.tileAt t).regs.tk = (s.tileAt t).regs.tk
            ∧ (∃ r, WithRun s s' t q c r ∧ r.ackAt = s.now + 64 ∧ r.total = 0)
            ∧ s'.streamReg t st = if descOk desc table then
                  { StreamReg.reset with bound := some q, desc := desc.getD 0 0, table }
                else { StreamReg.reset with cause := 10 })
    ∧ ((c.op = .copy ∨ (∃ w, c.op = .copym w) ∨ ∃ f, c.op = .rput f) →
        (taken.copyStartBad t q c shape bfmt = none → starts fun s' => TokensTaken s s' t c.tok ∧ s'.mem = s.mem
          ∧ ∃ r, WithRun s s' t q c r ∧ r.start = s.now ∧ r.chunk = 0 ∧ r.shape = shape ∧ r.bfmt = bfmt ∧ s.now < r.nextAt
            ∧ r.total = shapeN0 shape * shapeN1 shape * shapeN2 shape ∧ r.sel = none ∧ r.susp = none)
        ∧ ∀ cause a, taken.copyStartBad t q c shape bfmt = some (cause, a) → starts fun s' =>
          TokensTaken s s' t c.tok ∧ s'.mem = s.mem ∧ Without s s' t q c ∧ EngineEntry s s' t cause a)
    ∧ (c.op = .selp ∨ c.op = .selk →
        let lc := (s.tileAt t).regs.lc.toList.getD c.shp 0
        (s₁.selBad t c (c.op == .selk) desc lc = none → starts fun s' => TokensTaken s s' t c.tok ∧ s'.mem = s₁.mem
          ∧ ∃ r v, WithRun s s' t q c r ∧ r.sel = some v ∧ v.desc = desc ∧ v.n = (lc.extractLsb' 0 40).toNat ∧ v.next = 0
            ∧ v.merged = 0 ∧ v.list = [] ∧ v.late = false)
        ∧ ∀ cause a, s₁.selBad t c (c.op == .selk) desc lc = some (cause, a) → starts fun s' =>
          TokensTaken s s' t c.tok ∧ s'.mem = s₁.mem ∧ Without s s' t q c ∧ EngineEntry s s' t cause a)

/-- R257, R259, R261, R264, R354: a chunk of a one-row copy within the scratchpad goes through four kinds of event: it begins
with the words of its source to be read; words are read; when all are read, the same bytes are to be written at DST; words
are written, and no other byte; when all are written, the chunk is delivered. A copy whose bytes are all acknowledged retires
at the head of its queue with one more PROD token; a COPYM whose last byte has landed in its operand slot hands its MMA to the matrix queue, or is
aborted with cause FOLLOW when a slot of it is not Claimed. That words go at free times and in a free order is the model's
choice (log 11). -/
def Sys2Proof.Claims.CopyProgress : Prop :=
  (∀ (s : State) (t : Fin 144) (q i : Fin 2) (c : CopyCmd) (run : CopyRun) (n : Nat), Quiet s → OneRow c run n →
      (((s.tileAt t).eng.cq.get q).filter fun d => d.run.isSome)[i.val]? = some c → c.run = some run →
        let k := spadBase + t.val * 2 ^ 19
        let a := 4096 * run.chunk
        let b := min n (a + 4096)
        let src := offsetOf c.src + a
        let dst := offsetOf c.dst + a
        let goes (P : State → CopyRun → Prop) : Prop :=
          ∃ s' r, exec (.copyChunk t q i) s = .next s' ∧ WithRun s s' t q c r ∧ P s' r
        (run.prog = none → s.chunkReady t q c run = true → goes fun s' r => r.chunk = run.chunk ∧ s'.mem = s.mem
          ∧ r.prog = some ⟨true, (partsIn 8 src (b - a)).map fun x => .src x.1 x.2 (x.1 - src), List.replicate (b - a) (0, false)⟩)
        ∧ ∀ p, run.prog = some p → run.nextAt ≤ s.now → a < n →
          (p.parts ≠ [] → (∀ x ∈ p.parts, PartFits p.reading p.got.length x) → goes fun s' r =>
            ∃ x y z, p.parts = x ++ y ++ z ∧ y ≠ [] ∧ r.chunk = run.chunk
              ∧ r.prog = some { p with parts := x ++ z, got := y.foldl (partRead s t) p.got }
              ∧ (p.reading = true → s'.mem = s.mem)
              ∧ (∀ o m j, y = [.dst o m j] → ∀ e, e < m →
                  Memory.get s'.mem (k + o + e) = (p.got.getD (j + e) (0, false)).1)
              ∧ ∀ x, (∀ o m j, ChunkPart.dst o m j ∈ y → x < k + o ∨ k + o + m ≤ x) →
                  Memory.get s'.mem x = Memory.get s.mem x)
          ∧ (p.parts = [] → p.reading = true → p.got.length = b - a → goes fun s' r => r.chunk = run.chunk ∧ s'.mem = s.mem
            ∧ r.prog = some ⟨false, (partsIn 8 dst (b - a)).map fun x => .dst x.1 x.2 (x.1 - dst), p.got⟩)
          ∧ (p.parts = [] → p.reading = false → goes fun s' r => r.chunk = run.chunk + 1 ∧ r.accDst = b ∧ r.prog = none
            ∧ s'.mem = s.mem ∧ s.now < r.ackAt))
    ∧ (∀ (s : State) (t : Fin 144) (q : Fin 2) (c : CopyCmd) (run : CopyRun) (rest : List CopyCmd),
        (s.tileAt t).eng.cq.get q = c :: rest → c.run = some run → c.op = .copy → c.cmask.extractLsb' 2 8 = 0 →
        run.accSt = [] → run.sel = none → run.susp = none → run.stopping = false →
        run.chunk = chunksIn run.total → run.ackAt ≤ s.now → s.peerWaiting t q c.pos = false →
          ∃ s', exec (.copyCommandRetire t q) s = .next s' ∧ Without s s' t q c ∧ s'.mem = s.mem
            ∧ (s'.tileAt t).regs.tk = (s.tileAt t).regs.tk.set c.tok.prod.val
                (oneMore ((s.tileAt t).regs.tk.get c.tok.prod)) c.tok.prod.isLt
            ∧ (s'.tileAt t).regs.pendF =
                (if run.flags = 0 then [] else [(s.now, run.flags)]) ++ (s.tileAt t).regs.pendF)
    ∧ ∀ (s : State) (t : Fin 144) (q : Fin 2) (c : CopyCmd) (run : CopyRun) (rest : List CopyCmd) (w : Word),
        (s.tileAt t).eng.cq.get q = c :: rest → c.run = some run → c.op = .copym w → run.handed = false →
        run.stopping = false → (∃ n, run.landAt = some n ∧ n < s.now) → (s.tileAt t).eng.mq.length < 16 →
          ∀ ta tb acc oa ob sa sb tok, decodeSyl 5 w 0 = some (.mma ta tb acc oa ob sa sb tok) →
            let claimed := (s.tileAt t).eng.om.get oa = .claimed ∧ (s.tileAt t).eng.om.get ob = .claimed
            (claimed → ∃ s', exec (.followOnHandoff t q) s = .next s' ∧ WithRun s s' t q c { run with handed := true }
              ∧ s'.mem = s.mem ∧ (s'.tileAt t).eng.mq = (s.tileAt t).eng.mq
                ++ [⟨.mma ta tb acc oa ob sa sb, c.slot, c.pc, (s.tileAt t).eng.mqPos, s.now, tok, none⟩])
            ∧ (¬ claimed → ∃ s', exec (.followOnHandoff t q) s = .next s' ∧ Without s s' t q c ∧ EngineEntry s s' t 7 0)

/-! ### Streams and selections (chapters 13, 15) -/

/-- R268, R271, R272: a decoder cuts a stream off at a block whose header fails its checks, and releases a block that passes
them, its bytes counted to the command that delivered its last byte (R222; log 88); the watchdog cuts one off with cause 2 for its
output and 3 for its time. -/
def Obligations.DecoderEvents : Prop :=
  ∀ (s : State) (t : Fin 144) (st : Fin 8),
    let r := s.streamReg t st
    let bytes := r.open_.map fun b => b.1
    r.bound.isSome = true → r.cut = false →
      let cutsOff (i : Instr) (cause : Nat) : Prop := ∃ s' r', exec i s = .next s' ∧ s'.streamReg t st = r' ∧ r'.cut = true
        ∧ r'.cause = cause ∧ r'.queue = r.queue ∧ r'.input = [] ∧ r'.raw = [] ∧ r'.lanes = [] ∧ s'.mem = s.mem
      (∀ h cause, dFbc r.desc = true → 4 ≤ bytes.length → h = leNat (bytes.take 4) →
          fbcHeader (dRatio r.desc) h = .error cause → cutsOff (.fbcBlock t st) cause)
      ∧ (∀ h n, dFbc r.desc = true → h = leNat (bytes.take 4) → fbcHeader (dRatio r.desc) h = .ok n →
          n + 8 ≤ bytes.length → 4096 ≤ r.work → r.raw.length < 264 → r.formless = true →
          let content := fbcContent (!r.table.isEmpty) r.table r.window (h % 4) ((bytes.drop 4).take n)
            (leNat ((bytes.drop (4 + n)).take 4))
          (∀ cause, content = .error cause → cutsOff (.fbcBlock t st) cause)
          ∧ ∀ out, content = .ok out → ∃ s' r', exec (.fbcBlock t st) s = .next s' ∧ s'.streamReg t st = r' ∧ s'.mem = s.mem
              ∧ (∀ e, r.open_[n + 7]? = some e → r'.raw = r.raw ++ out.map fun b => (b, e.2)) ∧ r'.window = out ∧ r'.input = r.input.drop (n + 8) ∧ r'.cut = false
              ∧ r'.blocks.toNat = min (r.blocks.toNat + 1) (2 ^ 32 - 1))
      ∧ (dWout r.desc * 4096 < r.vecs * 256 → cutsOff (.watchdog t st) 2)
      ∧ (r.vecs * 256 ≤ dWout r.desc * 4096 → dWcyc r.desc < r.cycles → cutsOff (.watchdog t st) 3)
      ∧ (r.vecs * 256 ≤ dWout r.desc * 4096 → r.cycles ≤ dWcyc r.desc → exec (.watchdog t st) s = .next s)

/-- R307 to R310, R312: the next window of a selection over a vault is dispatched and answers within a free time; its elements
are read one by one until then, some in each event, and the answer is the partial list of all of them; partial lists are merged
in order of window number, SELP appending and SELK keeping the first in its order; a limit that passes first abandons the rest,
both of a command that a page fault suspends too; a selection that retires writes its header and entries. When each element is
read, and that the answer comes within 20,000 cycles, is the model's choice (log 11). -/
def Obligations.SelectionEvents : Prop :=
  ∀ (s : State) (t : Fin 144) (q i : Fin 2) (c : CopyCmd) (run : CopyRun) (v : Sel), Selecting s t q i c run v →
    v.late = false → (s.tileAt t).sys.stop = false →
      let becomes (j : Instr) (P : Sel → Prop) : Prop :=
        ∃ s' v', exec j s = .next s' ∧ WithRun s s' t q c { run with sel := some v' } ∧ P v' ∧ s'.mem = s.mem
      (Quiet s → run.susp = none → spaceOf (v.desc.getD 0 0) = 3 → s.windowFree t = true → v.next < selWindows v →
          v.nextAt ≤ s.now → s.observed t c = true →
          let key := vaultBase + rankOf (v.desc.getD 0 0) * 2 ^ 27 + selBase v.desc + selWidth v.desc * (selRange v v.next).1
          becomes (.windowDispatch t q i) fun v' => v'.next = v.next + 1 ∧ v'.merged = v.merged ∧ v'.sentAt = some s.now
            ∧ ∃ p, v'.out = v.out ++ [p] ∧ p.window = v.next ∧ p.key = key ∧ p.els = [] ∧ p.made = false
              ∧ s.now < p.due ∧ p.due ≤ s.now + 20000)
      ∧ (∀ p rest, Quiet s → v.out = p :: rest → p.made = true → p.window = v.merged → (∀ x ∈ rest, x.window ≠ p.window) →
          becomes (.windowMerge t q i) fun v' => Merged c v v' p
            ∧ v'.out.map (fun x => x.window) = rest.map fun x => x.window)
      ∧ (∀ p, Quiet s → v.out = [p] → p.made = false → vaultBase ≤ p.key →
          let a := selRange v p.window
          let w := selWidth v.desc
          let element (j : Nat) : Nat × Nat × Bool := (j, s.load (p.key + w * (j - a.1)) w, false)
          (s.now < p.due → becomes (.windowMerge t q i) fun v' => v'.merged = v.merged ∧ v'.list = v.list
            ∧ ∃ new, v'.out = [{ p with els := p.els ++ new }] ∧ ∀ e ∈ new, a.1 ≤ e.1 ∧ e.1 < a.2 ∧ e = element e.1)
          ∧ (p.due ≤ s.now → p.els = [] →
            let made := selPartial c v p ((List.range (a.2 - a.1)).map fun j => element (a.1 + j))
            becomes (.windowMerge t q i) fun v' =>
              (p.window = v.merged → Merged c v v' made ∧ v'.out = [])
              ∧ (p.window ≠ v.merged → v'.merged = v.merged ∧ v'.list = v.list ∧ v'.out = [made])))
      ∧ (v.merged < selWindows v → v.frame.limit ≤ s.clk.wclock →
          becomes (.selectionDeadline t q i) fun v' => v' = { v with late := true, out := [] })
      ∧ ∀ rest, MemOk s → run.susp = none → run.stopping = false → (s.tileAt t).eng.cq.get q = c :: rest →
          v.merged = selWindows v → c.flush = false →
          c.cmask = 1 → State.isBinding c.op = false →
          let d := spadBase + t.val * 2 ^ 19 + offsetOf c.dst
          ∃ s', exec (.copyCommandRetire t q) s = .next s' ∧ Without s s' t q c
            ∧ (List.range 4).map (fun j => s'.load64 (d + 8 * j)) =
                [s.selStatus c v, BitVec.ofNat 64 v.scanned, BitVec.ofNat 64 v.count, BitVec.ofNat 64 v.nans]
            ∧ ∀ j e, v.list[j]? = some e →
                s'.load64 (d + 64 + 16 * j) = v.desc.getD 5 0 + BitVec.ofNat 64 e.1
                  ∧ s'.load64 (d + 72 + 16 * j) = BitVec.ofNat 64 e.2

/-! ### Events of the matrix queue (chapter 14) -/

/-- R282, R283, R289, R298, R322: the first unstarted command starts with its tokens taken, a descriptor being read after the
reductions queued at its line, and its retirement timed, a drain
that fails a start check leaves with an ENGINE entry, a descriptor whose words fail parity being used as it reads (log 102), and a settling ends with what the verification finds. -/
def Sys2Proof.Claims.MatrixStarts : Prop :=
  (∀ (s : State) (t : Fin 144) (done : List MxCmd) (c : MxCmd) (rest : List MxCmd), MatrixMayStart s t done c rest →
      let s₁ := match c.op with | .mdrain _ p => s.settleEng t (offsetOf p) 64 | _ => s
      let desc := match c.op with | .mdrain _ p => eightWords s₁ t (offsetOf p) | _ => []
      let bfmt := (s.tileAt t).sys.bfmt.toList
      let bad := match c.op with | .mdrain .. => drainCheck bfmt desc | _ => none
      (bad = none → ∃ s' r, exec (.matrixCommandStart t) s = .next s' ∧ TokensTaken s s' t c.tok ∧ s'.mem = s₁.mem
        ∧ (s'.tileAt t).eng.mq = done ++ { c with run := some r } :: rest ∧ r.start = s.now ∧ r.desc = desc
        ∧ r.retireAt = s.now + c.op.time desc)
      ∧ ∀ cause a, bad = some (cause, a) → ∃ s', exec (.matrixCommandStart t) s = .next s' ∧ TokensTaken s s' t c.tok
        ∧ s'.mem = s₁.mem ∧ (s'.tileAt t).eng.mq = done ++ rest ∧ EngineEntry s s' t cause a)
    ∧ ∀ (s : State) (t : Fin 144) (g : Fin 4) (st : Stream) (v : Settle), (s.tileAt t).streams.get g = some st →
        st.settle = some v → v.due ≠ 0 → v.due ≤ s.now → v.found = none →
          ∃ s', exec (.matrixSettle t g) s = .next s' ∧ s'.mem = s.mem
            ∧ (s'.tileAt t).streams.get g = some { st with
                settle := some { v with found := some (if v.nochk then (255, 255) else s.verify t v.acc.val) } }

/-- R280, R283, R288, R291 to R295, R344: the effect of the command at the head of the matrix queue at its retirement, where
no parity fails and no reduction is queued: it leaves the queue with one more PROD token; OMREL frees its slots, OMLD copies 16
KiB of the scratchpad, MZERO and MACLD set every element, MMA accumulates its groups in order. OMLD and MACLD take each word as
it stood when they read it, at a free time before, or as it stands at their retirement; that the words are read so, and that the
destination changes at retirement, is the model's choice (log 11). -/
def Sys2Proof.Claims.MatrixEffects : Prop :=
  (∀ (s : State) (t : Fin 144) (c : MxCmd) (r : MxRun) (n : Nat) (p : Word), (s.tileAt t).eng.mq = [c] → c.run = some r →
      s.now < r.retireAt → s.marks = [] → s.net.greds = [] →
      ((∃ om, c.op = .omld om p) ∧ n = 16384) ∨ ((∃ acc, c.op = .macld acc p) ∧ n = 24576) →
        ∃ s' new, exec (.matrixCommandRetire t) s = .next s' ∧ s'.mem = s.mem ∧ (s'.tileAt t).regs = (s.tileAt t).regs
          ∧ (s'.tileAt t).eng.mq = [{ c with run := some { r with got := new ++ r.got } }]
          ∧ ∀ e ∈ new, offsetOf p / 8 ≤ e.1 ∧ 8 * e.1 < offsetOf p + n ∧ (∀ f ∈ r.got, f.1 ≠ e.1)
            ∧ e.2 = (List.range 8).map fun i => (Memory.get s.mem (spadBase + t.val * 2 ^ 19 + 8 * e.1 + i), false))
  ∧ ∀ (s : State) (t : Fin 144) (c : MxCmd) (rest : List MxCmd) (r : MxRun), (s.tileAt t).eng.mq = c :: rest →
    c.run = some r → r.retireAt ≤ s.now → s.marks = [] → s.net.greds = [] → r.races = [] → GotSound r → MemOk s →
      let retires (P : State → Prop) : Prop := ∃ s', exec (.matrixCommandRetire t) s = .next s' ∧ P s'
        ∧ (s'.tileAt t).eng.mq.length = rest.length
        ∧ (s'.tileAt t).regs.tk = (s.tileAt t).regs.tk.set c.tok.prod.val
            (oneMore ((s.tileAt t).regs.tk.get c.tok.prod)) c.tok.prod.isLt
      (∀ m, c.op = .omrel m → retires fun s' => s'.mem = s.mem ∧ ∀ i : Fin 8,
          (s'.tileAt t).eng.om.get i = if m.getLsbD i.val then .free else (s.tileAt t).eng.om.get i)
      ∧ (∀ om p, c.op = .omld om p → retires fun s' => s'.marks = [] ∧ ∀ x, Memory.get s'.mem x =
          if omKey t om.val ≤ x ∧ x < omKey t om.val + 16384 then
            asRead s t r (offsetOf p + (x - omKey t om.val))
          else Memory.get s.mem x)
      ∧ (∀ n, c.op = .mzero n → retires fun s' => (s'.tileAt t).eng.acc.get n = ⟨false, 0, 0⟩
          ∧ (∀ i, i < 96 → s'.accRow t n.val i = List.replicate 64 0)
          ∧ ∀ x, x < accKey t n.val ∨ accKey t n.val + 25216 ≤ x → Memory.get s'.mem x = Memory.get s.mem x)
      ∧ (∀ n p, c.op = .macld n p → retires fun s' => (s'.tileAt t).eng.acc.get n = ⟨false, 0, 0⟩
          ∧ (∀ i, i < 96 → s'.accRow t n.val i = (List.range 64).map fun j =>
              leNat ((List.range 4).map fun b => asRead s t r (offsetOf p + 256 * i + 4 * j + b)))
          ∧ ∀ x, x < accKey t n.val ∨ accKey t n.val + 25216 ≤ x → Memory.get s'.mem x = Memory.get s.mem x)
      ∧ ∀ ta tb n a b sa sb, c.op = .mma ta tb n a b sa sb → retires fun s' =>
          let size := if ta.width = 8 then 32 else 8
          let groups := 128 / bytesOf ta / size
          let old := (s.tileAt t).eng.acc.get n
          (s'.tileAt t).eng.acc.get n = ⟨old.poison, old.step, BitVec.ofNat 16 (min (old.count.toNat + 1) 65535)⟩
          ∧ (∀ i j, i < 96 → j < 64 → (s'.accRow t n.val i)[j]? = some (mmaElement ((s.accRow t n.val i).getD j 0)
              (chunksOf size groups ((s.rowsA t ta a.val).getD i [])) (chunksOf size groups ((s.colsB t tb b.val).getD j []))
              (s.scalesA t a.val i sa groups) (s.scalesB t b.val j sb groups)).1)
          ∧ ∀ x, x < accKey t n.val ∨ accKey t n.val + 25216 ≤ x → Memory.get s'.mem x = Memory.get s.mem x

namespace Sys2Proof.Claims

/-! ### Words for homes -/

/-- One request is due at the homes of a die, alone. -/
def DueAlone (s : State) (die : Fin 2) (r : HubReq) : Prop :=
  s.hubs.reqs = [r] ∧ r.at_ ≤ s.now ∧ r.die = die.val ∧ s.hubs.waits = []

/-- One request is due at the homes of a die, alone, on an object that at most one valid context holds (R84, R334). -/
def AloneAt (s : State) (die : Fin 2) (r : HubReq) : Prop :=
  DueAlone s die r ∧ s.owners true r.obj ≤ 1 ∧ s.owners false r.obj ≤ 1

/-- A decision leaves for the tile that waits (R117, R334). -/
def Answers (s s' : State) (r : HubReq) (code detail : Nat) (value : Option Word) : Prop :=
  ∃ a, s'.hubs.replies = s.hubs.replies ++ [a] ∧ a.id = r.id ∧ a.tile = r.tile ∧ a.group = r.group ∧ a.abandoned = false
    ∧ s.now < a.at_ ∧ a.value = value
    ∧ a.dec = some ⟨code, detail, if code = 1 then 0 else min (r.limit - s.clk.wclock) (2 ^ 32 - 1)⟩

/-- The barrier after an arrival (R335). -/
def arrivedIs (b : Barrier) : Barrier :=
  if b.arr + 1 = b.count then { b with arr := 0, phase := b.phase + 1 } else { b with arr := b.arr + 1 }

/-- Barrier `n` becomes `b`, and no request is left. -/
def BarrierIs (s s' : State) (n : Nat) (b : Barrier) : Prop := s'.barAt n = b ∧ s'.hubs.reqs = [] ∧ s'.mem = s.mem

/-- A valid context holds barrier or token queue `n` (R83, R84). -/
def Holds (s : State) (c : Fin 64) (barrier : Bool) (n : Nat) : Prop :=
  let p := (s.ctx c).entry.get 4
  let lo := if barrier then (p.extractLsb' 0 15).toNat else (p.extractLsb' 16 13).toNat
  let len := if barrier then (p.extractLsb' 32 16).toNat else (p.extractLsb' 48 14).toNat
  ((s.ctx c).entry.get 0).getLsbD 0 = true ∧ lo ≤ n ∧ n < lo + len

/-- One access has arrived at its home, alone and under the grade that its line was written with. -/
def AtHome (s : State) (a : Access) : Prop :=
  s.net.accs = [a] ∧ a.performed = false ∧ a.sent = false ∧ a.arrive ≤ s.now ∧ Quiet s
    ∧ (a.space = 0 ∨ a.space = 2 ∨ a.space = 3) ∧ s.gradeClash a.key a.grade = false

/-- The access is performed with a result, and its reply is on its way, no sooner than R317 lets it be; that of a SCATOM
takes at most 140 cycles (R117, R316). -/
def Performed (s' : State) (a : Access) (result : Word) : Prop :=
  ∃ at_, s'.net.accs = [{ a with performed := true, result, marked := false, replyAt := at_ }] ∧ s'.now < at_
    ∧ ((∃ op w64 rev pos, a.op = .scatom op w64 rev pos) → at_ ≤ s'.now + 140)
    ∧ ((∀ op w64 rev pos, a.op ≠ .scatom op w64 rev pos) → a.replyAt ≤ at_)

end Sys2Proof.Claims

/-! ### What homes do (chapters 16, 17) -/

/-- R334, R335, R338 to R341: a request alone in its arbitration cycle: BARINIT, BARARV, BARKILL, BARWT and an arrival that
waits change the barrier and answer as the rules say. The DETAIL of OK is the phase asked for or joined, which is the model's
choice (log 68). -/
def Sys2Proof.Claims.BarrierRules : Prop :=
  ∀ (s : State) (die : Fin 2) (r : HubReq), AloneAt s die r →
    let b := s.barAt r.obj
    let done (p : BitVec 32) : Prop := 1 ≤ (b.phase - p).toNat ∧ (b.phase - p).toNat < 2 ^ 31
    let runs (P : State → Prop) : Prop := ∃ s', exec (.syncHomeArbitration die) s = .next s' ∧ P s'
    (∀ n, r.op = .barinit n → runs fun s' =>
        BarrierIs s s' r.obj ⟨if n = 0 then b.count else BitVec.ofNat 8 n, 0, false, 0⟩)
    ∧ (r.op = .barkill → runs fun s' => BarrierIs s s' r.obj { b with kill := true })
    ∧ (r.op = .bararv → runs fun s' => BarrierIs s s' r.obj (if b.kill then b else arrivedIs b)
        ∧ ∃ w, (s'.tileAt r.tile).regs.pend = w :: (s.tileAt r.tile).regs.pend ∧ w.dst = r.dest ∧ w.late = true
          ∧ w.slot = r.slot ∧ s.now < w.due ∧ w.val = .x (if b.kill then 0x8000000000000000 else
              (if b.arr + 1 = b.count then (1 : BitVec 32) else 0) ++ b.phase))
    ∧ (∀ p, r.op = .barwt p →
        (b.kill = true → runs fun s' => BarrierIs s s' r.obj b ∧ Answers s s' r 4 0 none)
        ∧ (b.kill = false → done p → runs fun s' => BarrierIs s s' r.obj b ∧ Answers s s' r 0 (p.toNat % 2 ^ 16) none)
        ∧ (b.kill = false → ¬ done p → s.clk.wclock < r.limit → runs fun s' => BarrierIs s s' r.obj b ∧ s'.hubs.waits = [r])
        ∧ (b.kill = false → ¬ done p → r.limit ≤ s.clk.wclock → r.phase = none → runs fun s' => BarrierIs s s' r.obj b
            ∧ s'.hubs.waits = [] ∧ Answers s s' r 1 (b.count.toNat - b.arr.toNat) none))
    ∧ (r.op = .barsync ∨ r.op = .step →
        (b.kill = true → runs fun s' => BarrierIs s s' r.obj b ∧ Answers s s' r 4 0 none)
        ∧ (b.kill = false → b.arr + 1 = b.count → runs fun s' => BarrierIs s s' r.obj (arrivedIs b)
            ∧ s'.hubs.waits = [] ∧ Answers s s' r 0 (b.phase.toNat % 2 ^ 16) none)
        ∧ (b.kill = false → b.arr + 1 ≠ b.count → s.clk.wclock < r.limit → runs fun s' =>
            BarrierIs s s' r.obj (arrivedIs b) ∧ s'.hubs.waits = [{ r with phase := some b.phase }]))

/-- R84, R105, R120, R334, R336, R343: pushes and pops of a token queue, a command block for a private queue, and the
withdrawal of an arrival, each alone in its arbitration cycle; a request to an object of two valid contexts' partitions,
whose behaviour R84 leaves undefined, changes no other object (that its own state is free is the model's choice, log 49). -/
def Sys2Proof.Claims.QueueRules : Prop :=
  (∀ (s : State) (die : Fin 2) (r : HubReq), AloneAt s die r →
      let q := s.tqAt r.obj
      let runs (P : State → Prop) : Prop := ∃ s', exec (.syncHomeArbitration die) s = .next s' ∧ s'.hubs.reqs = [] ∧ P s'
      (∀ v, r.op = .qpush v →
        (q.kill = true → runs fun s' => s'.tqAt r.obj = q ∧ Answers s s' r 4 0 none)
        ∧ (q.kill = false → q.entries.length < q.depth → runs fun s' =>
            s'.tqAt r.obj = { q with entries := q.entries ++ [v] } ∧ Answers s s' r 0 (q.entries.length + 1) none)
        ∧ (q.kill = false → q.depth ≤ q.entries.length → s.clk.wclock < r.limit → runs fun s' =>
            s'.tqAt r.obj = q ∧ s'.hubs.waits = [r]))
      ∧ (r.op = .qpop →
        (q.kill = true → runs fun s' => s'.tqAt r.obj = q ∧ Answers s s' r 4 0 none)
        ∧ (∀ v es, q.kill = false → q.entries = v :: es → runs fun s' =>
            s'.tqAt r.obj = { q with entries := es } ∧ Answers s s' r 0 es.length (some v))
        ∧ (q.kill = false → q.entries = [] → r.limit ≤ s.clk.wclock → r.phase = none → runs fun s' =>
            s'.tqAt r.obj = q ∧ s'.hubs.waits = [] ∧ Answers s s' r 1 0 none))
      ∧ ∀ tile slot ctx stg blk, r.op = .enqOwn tile slot ctx stg blk → (s.tileAt tile).sched.own.length < 8 →
          runs fun s' => (s'.tileAt tile).sched.own = (s.tileAt tile).sched.own ++ [⟨ctx, slot, stg, blk⟩]
            ∧ Answers s s' r 0 0 none)
    ∧ (∀ (s : State) (die : Fin 2) (r w : HubReq) (ph : BitVec 32), s.hubs.reqs = [r] → r.at_ ≤ s.now → r.die = die.val →
        r.op = .withdraw w.id → s.hubs.waits = [w] → w.op = .barsync → w.phase = some ph →
          ∃ s' a, exec (.syncHomeArbitration die) s = .next s' ∧ s'.hubs.waits = []
            ∧ s'.barAt w.obj = { s.barAt w.obj with arr := (s.barAt w.obj).arr - 1 }
            ∧ s'.hubs.replies = s.hubs.replies ++ [a] ∧ a.id = w.id ∧ a.abandoned = true ∧ s.now < a.at_)
    ∧ ∀ (s : State) (die : Fin 2) (r : HubReq) (c d : Fin 64), DueAlone s die r → c ≠ d →
        ((∃ v, r.op = .qpush v) ∨ r.op = .qpop → Holds s c false r.obj → Holds s d false r.obj →
          ∃ s', exec (.syncHomeArbitration die) s = .next s' ∧ s'.hubs.reqs = [] ∧ s'.mem = s.mem
            ∧ (∀ n, s'.barAt n = s.barAt n) ∧ ∀ n, n ≠ r.obj → s'.tqAt n = s.tqAt n)
        ∧ (r.op = .bararv ∨ r.op = .barkill ∨ r.op = .barsync ∨ r.op = .step ∨ (∃ n, r.op = .barinit n)
            ∨ (∃ p, r.op = .barwt p) → Holds s c true r.obj → Holds s d true r.obj →
          ∃ s', exec (.syncHomeArbitration die) s = .next s' ∧ s'.hubs.reqs = [] ∧ s'.mem = s.mem
            ∧ (∀ n, s'.tqAt n = s.tqAt n) ∧ ∀ n, n ≠ r.obj → s'.barAt n = s.barAt n)

/-- R316, R319 to R323, R436: an access that has arrived is performed at its home: a load reads, a store writes its bytes and
no other, an atomic reads and writes its new value, a reduction is queued and later applied once, and metadata is read
and written; a load in space 0x5 reads a device register. -/
def Obligations.HomesPerform : Prop :=
  (∀ (s : State) (a : Access), AtHome s a →
      let runs (P : State → Prop) : Prop := ∃ s', exec (.homeAccess a.id) s = .next s' ∧ P s'
      (∀ t, a.op = .load t → a.size = t.width / 8 → runs fun s' => s'.mem = s.mem
          ∧ Performed s' a (wide t (BitVec.ofNat t.width (Memory.readN s.mem a.key a.size))))
      ∧ (a.op = .store → runs fun s' => Performed s' a 0 ∧ ∀ x, Memory.get s'.mem x = byteAfter s a.key a.size a.data.toNat x)
      ∧ (∀ op w64, (a.op = .atom op w64 ∨ ∃ rev pos, a.op = .scatom op w64 rev pos) → a.size = (atomTy w64).width / 8 →
          let t := atomTy w64
          let old : BitVec t.width := BitVec.ofNat t.width (Memory.readN s.mem a.key a.size)
          runs fun s' => Performed s' a (old.signExtend 64)
            ∧ ∀ x, Memory.get s'.mem x = match atomIs op t old (low t a.data) (low t a.data2) with
                | some v => byteAfter s a.key a.size v.toNat x
                | none => Memory.get s.mem x)
      ∧ (∀ op, a.op = .red op → runs fun s' => s'.mem = s.mem ∧ Performed s' a 0
          ∧ ∃ e, s'.net.greds = [e] ∧ e.line = a.key / 64 ∧ e.op = op ∧ e.grade = a.grade
            ∧ e.words = [(a.key, a.data.toNat % 2 ^ (8 * redSize op))] ∧ s.now < e.due)
      ∧ (a.space = 0 → a.grade < 2 →
          (a.op = .ldmeta → runs fun s' => s'.mem = s.mem ∧ s'.lineMeta = s.lineMeta
            ∧ Performed s' a (BitVec.ofNat 64 (s.metaOf a.key a.grade).1))
          ∧ (a.op = .stmeta → runs fun s' => s'.mem = s.mem ∧ Performed s' a 0 ∧ (s'.metaOf a.key a.grade).1 =
              a.data.toNat % 2 ^ (if a.grade = 1 then 32 else 48))))
    ∧ (∀ (s : State) (e : GredEntry) (key x : Nat), s.net.accs = [] → s.net.greds = [e] → s.marks = [] →
        s.dev.migrations = [] → MemOk s → e.due ≤ s.now → e.words = [(key, x)] → s.gradeClash key e.grade = false →
          ∃ s', exec (.homeAccess e.id) s = .next s' ∧ s'.net.greds = []
            ∧ ∀ b, Memory.get s'.mem b =
                byteAfter s key (redSize e.op) (redNew e.op (Memory.readN s.mem key (redSize e.op)) x) b)
    ∧ ∀ (s : State) (a : Access) (t : ITy), s.net.accs = [a] → a.performed = false → a.sent = false → a.arrive ≤ s.now →
        a.space = 5 → a.op = .load t → ∃ s', exec (.homeAccess a.id) s = .next s' ∧ Performed s' a (s.devLoad a.key)

/-- R117, R118, R125, R155, R203, R386, R430: what comes back to a tile: a result lands in its register in the cycle in which
it arrives; marked data, or a parity failure at the tile, which is the model's choice (log 81), park the group of the load's
slot; an acknowledgement frees its request entry, and so does the reply of a SCATOM for which no stream waits any more; a
home's reply decides the pending wait, or ends it as abandoned; a limit that passes first decides it TIMEOUT, a FENCE
PARTIAL; an issue stall that outlasts its limit raises ISSUE_DEADLINE. -/
def Obligations.ThingsArrive : Prop :=
  (∀ (s : State) (a : Access), s.net.accs = [a] → a.performed = true → a.replyAt ≤ s.now →
      (a.op = .store ∨ a.op = .stmeta ∨ (∃ op, a.op = .red op) →
        exec (.writeAcknowledgement a.id) s = .next { s with net := { s.net with accs := [] } })
      ∧ (∀ op w64 rev pos, a.op = .scatom op w64 rev pos →
          (∀ g st, (s.tileAt a.tile).streams.get g = some st → st.wait = none) →
          exec (.writeAcknowledgement a.id) s = .next { s with net := { s.net with accs := [] } })
      ∧ ((∃ t, a.op = .load t) ∨ (∃ op w, a.op = .atom op w) ∨ a.op = .ldmeta →
        (a.marked = false → a.struck = false → ∃ s' w, exec (.resultArrival a.id) s = .next s' ∧ s'.net.accs = [] ∧ s'.mem = s.mem
          ∧ (s'.tileAt a.tile).regs.pend = w :: (s.tileAt a.tile).regs.pend ∧ w.dst = a.dest ∧ w.val = .x a.result
          ∧ w.due = s.now ∧ w.late = true ∧ w.slot = a.slot)
        ∧ (∀ g st, a.marked = true ∨ a.struck = true → (s.tileAt a.tile).streams.get g = some st → st.park = none →
            st.rowGot = [] → st.members.getLsbD a.slot.val = true →
            (∀ h u, (s.tileAt a.tile).streams.get h = some u → u.members.getLsbD a.slot.val = true → h = g) →
            ∃ s' st' p, exec (.resultArrival a.id) s = .next s' ∧ s'.net.accs = [] ∧ s'.mem = s.mem
              ∧ (s'.tileAt a.tile).streams.get g = some st' ∧ st'.park = some p ∧ p.trap.kind = .dataError
              ∧ p.trap.info0 = (if a.struck then 2 else 3) ∧ p.trap.slot = a.slot)))
    ∧ ∀ (s : State) (t : Fin 144) (g : Fin 4) (st : Stream), (s.tileAt t).streams.get g = some st → st.park = none →
      let becomes (i : Instr) (st' : Stream) : Prop :=
        ∃ s', exec i s = .next s' ∧ (s'.tileAt t).streams.get g = some st' ∧ s'.mem = s.mem ∧ (s'.tileAt t).regs = (s.tileAt t).regs
      (∀ wt id a, st.wait = some wt → wt.sent = some id → wt.dec = none → (∀ op w d m f, wt.ins ≠ .scatom op w d m f) →
          s.hubs.replies = [a] → a.tile = t → a.id = id → a.at_ ≤ s.now →
          (a.abandoned = false → becomes (.remoteReplyArrival t g)
            { st with wait := some { wt with dec := a.dec, value := a.value } })
          ∧ (a.abandoned = true → becomes (.remoteReplyArrival t g)
            { st.anew with wait := none, again := some wt.frame, stopped := true }))
      ∧ (∀ wt, st.wait = some wt → wt.sent = none → wt.dec = none → wt.frame.limit ≤ s.clk.wclock →
          (∀ tk c b f, wt.ins = .tkwait tk c b f → becomes (.waitTimeout t g) { st with
              wait := some { wt with dec := some ⟨1, ((s.tileAt t).regs.tk.get tk).count.toNat, 0⟩ } })
          ∧ (∀ cb clr f, wt.ins = .cbwait cb clr f ∨ wt.ins = .cbtake cb f → becomes (.waitTimeout t g)
              { st with wait := some { wt with dec := some ⟨1, 0, 0⟩ } })
          ∧ ∀ a f, wt.ins = .fence a f → ∃ d, becomes (.waitTimeout t g)
              { st with wait := some { wt with dec := some ⟨2, d, 0⟩ } })
      ∧ ∀ l, st.stallLimit = some l → l ≤ s.clk.wclock → st.stallWhy ≠ 0 →
          ∃ s' st' p, exec (.issueDeadline t g) s = .next s' ∧ (s'.tileAt t).streams.get g = some st' ∧ st'.park = some p
            ∧ p.trap = { kind := .issueDeadline, slot := st.stallSlot, info0 := BitVec.ofNat 64 st.stallWhy } ∧ st'.pc = st.pc

/-- R133, R163, R202, R350, R351: a translation that a bundle waits for is obtained with the leaf or the fault that its walk
gives; a requested line of code enters the instruction buffer with its 32 words, or as one that cannot be executed, which is
the model's choice (log 18); at an open position of its tile a waiting SCATOM leaves for its home with the position's
stamp. -/
def Obligations.ObtainedAndOpened : Prop :=
  (∀ (s : State) (t : Fin 144) (g : Fin 4) (st : Stream) (x : Xlat), (s.tileAt t).streams.get g = some st → st.xlat = [x] →
      x.out = none → x.due ≤ s.now → s.dev.invals = [] → s.net.greds = [] →
        ∃ s', exec (.translationObtained t g) s = .next s' ∧ s'.mem = s.mem ∧ (s'.tileAt t).regs = (s.tileAt t).regs
          ∧ (s'.tileAt t).streams.get g = some { st with
              xlat := [{ x with out := some (s.resolve t (s.tileAt t).sys.ctx x.va).2 }] })
    ∧ (∀ (s : State) (t : Fin 144) (line at_ : Nat) (e : Word) (lv k : Nat), (at_, line) ∈ (s.tileAt t).fills → at_ ≤ s.now →
        s.marks = [] → s.grades = [] → s.net.greds = [] →
        (s.resolve t (s.tileAt t).sys.ctx (s.codeBase (s.tileAt t).sys.ctx + 256 * line)).2 = .leaf e lv k →
          ∃ s', exec (.fetchLineFill t line) s = .next s' ∧ s'.mem = s.mem
            ∧ (s'.tileAt t).fills = (s.tileAt t).fills.filter (fun f => f.2 != line)
            ∧ (s'.tileAt t).ibuf.head? = some (line, if e.getLsbD 2 then some ((List.range 32).map fun i =>
                s.load64 (frameOf e + (s.codeBase (s.tileAt t).sys.ctx + 256 * line) % leafSpan lv + 8 * i)) else none))
    ∧ ∀ (s : State) (p : Fin 256) (t : Fin 144) (g : Fin 4) (st : Stream) (wt : Wait) (op : AtomOp) (w64 : Bool) (d : Fin 64)
        (m : MemF) (w : WaitF) (x : Word) (space key : Nat),
        (s.tileAt t).streams.get g = some st → st.wait = some wt → st.park = none → wt.ins = .scatom op w64 d m w →
        wt.dec = none → wt.sent = none → (∀ u h, (u ≠ t ∨ h ≠ g) → (s.streamAt u h).wait = none) →
        s.clk.wheel % 2048 / 8 = p.val → ownsPosition (s.tileAt t).sys.wheel p.val = true →
        (s.tileAt t).wheelSent = none → s.net.accs = [] → s.marks = [] → s.dev.hot.en = false → op ≠ .cas →
        x = (if d = 0 then 0 else (s.tileAt t).regs.x.get d) → wt.args.getD 0 0 = BitVec.ofNat 64 space →
        wt.args.getD 1 0 = BitVec.ofNat 64 key → space < 4 → key < 2 ^ 64 →
          ∃ s' st' a, exec (.wheelPositionOpen p) s = .next s' ∧ s'.net.accs = [a]
            ∧ a.op = .scatom op w64 (s.clk.wheel / 2048) p.val ∧ a.data = x ∧ a.space = space ∧ a.key = key ∧ a.tile = t
            ∧ s.now < a.arrive ∧ a.performed = false ∧ (s'.tileAt t).streams.get g = some st'
            ∧ st'.wait = some { wt with sent := some s.net.nextId } ∧ s'.mem = s.mem

namespace Sys2Proof.Claims

/-! ### Words for the loader, the scheduler and the device -/

/-- phimld reports a code with its offset, identifier or handle (R434). -/
def Reports (s s' : State) (code value : Nat) : Prop := s'.dev.loads = s.dev.loads ++ [(code, value)]

/-- One fault of a kind is handed to the coordinator for a context. -/
def Entry (s s' : State) (kind : TrapKind) (c : Fin 64) : Prop :=
  ∃ e, s'.dev.faultNew = s.dev.faultNew ++ [e] ∧ e.trap.kind = kind ∧ e.ctx = c ∧ e.wclk = s.clk.wclock

/-- A context has no live launch. -/
def NoLaunch (s : State) (c : Fin 64) : Prop := ∀ n l, s.liveAt n = some l → l.ctx ≠ c

/-- The bits of a word replaced where a mask is set. -/
def replaced (m old new : Word) : Word := (old &&& ~~~m) ||| (new &&& m)

/-- The writable bits of the words of a context entry (R83, R84). -/
def entryBits (i : Fin 16) : Word :=
  if i = 0 then 0x000000FFFFFFFF07
  else if i = 3 then 0xFFFF
  else if i = 4 then 0x3FFFFFFF1FFF7FFF
  else if i = 5 then 0x000001FFFFFFFFFF
  else if i = 8 then 0xF00FFFFFFFFFFFFF
  else if i = 9 then 0x0FFFFFFFFFFFFFFF
  else if i = 1 ∨ i = 2 ∨ i = 6 ∨ i = 7 ∨ i = 10 then 0xFFFFFFFFFFFFFFFF
  else 0

/-- The key of an offset of a tile's record in the vault of its cluster (R412). -/
def recordKey (s : State) (c : Fin 64) (t : Fin 144) (o : Nat) : Nat :=
  vaultBase + clusterOf t.val * 2 ^ 27 + s.recordAt c t + o

end Sys2Proof.Claims

/-! ### The loader and launches (chapters 01, 04) -/

/-- R29, R32 to R34, R434: an image whose check fails is reported and installs nothing; one that passes, with room, takes the
lowest free slot and resets its barriers; an unload clears V and advances GEN at once and is reported complete 10 µs
later; a handle that names nothing or is in use is reported. -/
def Obligations.LoaderRules : Prop :=
  (∀ (s : State) (c : Fin 64) (l : List Byte),
      let installs (P : State → Prop) : Prop := ∃ s', exec (.imageInstall c l) s = .next s' ∧ P s'
      (imN l 0 4 ≠ 0x4D49524E → installs fun s' => Reports s s' 1 0 ∧ s'.ctxs = s.ctxs ∧ s'.mem = s.mem)
      ∧ (∀ e, s.checkImage c l = .error e → installs fun s' => Reports s s' e.1 e.2 ∧ s'.ctxs = s.ctxs ∧ s'.mem = s.mem)
      ∧ ∀ im (i : Fin 64) off, s.checkImage c l = .ok im → s.areaBad c = false → ((s.ctx c).images.get i).v = false →
          (∀ j : Fin 64, j.val < i.val → ((s.ctx c).images.get j).v = true) → s.roomAt c im.len = some off →
            let gen := ((s.ctx c).images.get i).gen
            installs fun s' => Reports s s' 0 (i.val + gen.toNat * 2 ^ 6)
              ∧ (s'.ctx c).images.get i = ⟨BitVec.ofNat 64 off, BitVec.ofNat 64 im.len, gen, true, some { im with gen, off }⟩
              ∧ (∀ j, j ≠ i → (s'.ctx c).images.get j = (s.ctx c).images.get j)
              ∧ ∀ j n lv, im.bars[j]? = some (n, lv) →
                  s'.barAt ((((s.ctx c).entry.get 4).extractLsb' 0 15).toNat + j) = ⟨BitVec.ofNat 8 n, 0, false, 0⟩)
    ∧ (∀ (s : State) (c : Fin 64) (handle : BitVec 32) (i : Fin 64), handle.extractLsb' 0 6 = BitVec.ofFin i →
        let e := (s.ctx c).images.get i
        let names := handle.extractLsb' 22 10 = 0 ∧ e.v = true ∧ handle.extractLsb' 6 16 = e.gen
        let used := ∃ n l, s.liveAt n = some l ∧ l.ctx = c ∧ ((s.slots.get n).words.get 0).extractLsb' 0 32 = handle
        let unloads (P : State → Prop) : Prop := ∃ s', exec (.imageUnload c handle) s = .next s' ∧ P s'
        (¬ names → unloads fun s' => Reports s s' 17 handle.toNat ∧ s'.ctxs = s.ctxs)
        ∧ (names → used → unloads fun s' => Reports s s' 18 handle.toNat ∧ s'.ctxs = s.ctxs)
        ∧ (names → ¬ used → unloads fun s' => ((s'.ctx c).images.get i).v = false
            ∧ ((s'.ctx c).images.get i).gen = e.gen + 1 ∧ ((s'.ctx c).images.get i).image = none ∧ s'.dev.loads = s.dev.loads
            ∧ (s'.ctx c).unloads = (s.ctx c).unloads
                ++ [⟨e.off.toNat, e.len.toNat, handle.toNat, s.clk.wclock + 10000⟩]))
    ∧ ∀ (s : State) (c : Fin 64) (u : Unload), (s.ctx c).unloads = [u] →
        (u.due ≤ s.clk.wclock → ∃ s', exec (.unloadComplete c) s = .next s' ∧ Reports s s' 0 u.handle
          ∧ (s'.ctx c).unloads = [])
        ∧ (s.clk.wclock < u.due → ∃ s', exec (.unloadComplete c) s = .next s' ∧ s'.dev.loads = s.dev.loads
          ∧ (s'.ctx c).unloads = [u])

/-- R85, R86, R420: a GO is ignored while its slot runs and held during Hold; otherwise the first failing check of the record
becomes STATUS, 16 for a context that is not valid, and a record that passes them all becomes a live launch with its
initial blocks queued at stage 0. -/
def Obligations.LaunchRules : Prop :=
  ∀ (s : State) (n : Fin 16),
    let sl := s.slots.get n
    let c : Fin 64 := ((sl.words.get 0).extractLsb' 32 6).toFin
    let goes (P : State → Prop) : Prop := ∃ s', exec (.go n) s = .next s' ∧ P s'
    (sl.status = 1 → exec (.go n) s = .next s)
    ∧ (sl.status ≠ 1 → s.hold.power = .held ∨ s.hold.power = .entering → goes fun s' =>
        (s'.slots.get n).held = true ∧ (s'.slots.get n).status = sl.status ∧ s'.mem = s.mem)
    ∧ (sl.status ≠ 1 → s.hold.power = .running →
        (((s.ctx c).entry.get 0).getLsbD 0 = false → goes fun s' => (s'.slots.get n).status = 16 ∧ s'.mem = s.mem
          ∧ (s'.slots.get n).live = sl.live)
        ∧ (∀ s1 code, s.checkLaunch sl.words = (s1, .error code) → goes fun s' =>
            (s'.slots.get n).status = BitVec.ofNat 8 code)
        ∧ ∀ s1 im wheels bytes, s.checkLaunch sl.words = (s1, .ok (im, wheels, bytes)) → goes fun s' =>
              (s'.slots.get n).status = 1 ∧ ∃ l q rest, (s'.slots.get n).live = some l ∧ l.ctx = c ∧ l.image = im
                ∧ l.wheels = wheels ∧ l.lid = (sl.words.get 3).extractLsb' 32 32 ∧ l.tasks = 0 ∧ l.kills = 0
                ∧ l.queues = q :: rest ∧ q.queue.length = ((sl.words.get 3).extractLsb' 0 32).toNat
                ∧ ∀ r ∈ rest, r.queue = [])

/-! ### Tasks (chapters 04, 25) -/

/-- R97, R110, R115, R128, R170, R188: a binding that ends starts the task in lockstep at its stage's entry, with the block in x1
to x8 and every other register as the rule says; a tile that last ran another context has its storage cleared. That a marked
word of the block leaves its register with failing parity is the model's choice (log 48), and that a binding waits for the
commands which a retired task has left in the tile's engines (log 97). -/
def Sys2Proof.Claims.TaskStarts : Prop :=
  ∀ (s : State) (t : Fin 144) (k : Task) (l : Live) (st : Stage) (due : Nat) (blk : List (Word × Bool)),
    (s.tileAt t).sched.job = .bind due blk → (s.tileAt t).sched.task = some k → due ≤ s.now → s.liveAt k.slot = some l →
    l.image.stages[k.stage]? = some st → s.hold.power = .running →
    let left := (s.tileAt t).eng.mq ≠ [] ∨ ∃ q, (s.tileAt t).eng.cq.get q ≠ []
    let word (i : Nat) : Word × Bool := blk.getD i (0, false)
    (left → exec (.taskBind t) s = .next s)
    ∧ (¬ left → s.net.greds = [] → ∃ s' u, exec (.taskBind t) s = .next s'
        ∧ (s'.tileAt t).streams.get 0 = some u ∧ u.pc = st.entry ∧ u.members = BitVec.allOnes 8 ∧ u.loops = []
        ∧ u.gdl = BitVec.twoPow 64 st.gdle ∧ u.wait = none ∧ u.park = none
        ∧ (∀ g, g ≠ 0 → (s'.tileAt t).streams.get g = none) ∧ (s'.tileAt t).lockstep = true
        ∧ (s'.tileAt t).sched.resident = true ∧ (s'.tileAt t).sched.ticking = false ∧ (s'.tileAt t).sched.job = .none
        ∧ (s'.tileAt t).sys.rank = BitVec.ofNat 8 t.val
        ∧ (∀ i : Fin 64, (s'.tileAt t).regs.x.get i = if 1 ≤ i.val ∧ i.val ≤ 8 then (word (i.val - 1)).1 else 0)
        ∧ (∀ i, 1 ≤ i → i ≤ 8 → (xKey t i ∈ s'.marks ↔ (word (i - 1)).2 = true))
        ∧ (s'.tileAt t).regs.lc = .replicate 32 0 ∧ (s'.tileAt t).regs.cb = 0 ∧ (s'.tileAt t).regs.tk = .replicate 16 ⟨0, false⟩
        ∧ (s'.tileAt t).regs.latch = .replicate 8 none
        ∧ (s'.tileAt t).sys.coord = (word 0).1.extractLsb' 0 48 ∧ (s'.tileAt t).sys.stage = BitVec.ofNat 6 k.stage
        ∧ (s'.tileAt t).sys.ctx = k.ctx ∧ (s'.tileAt t).sys.tclock = 0 ∧ (s'.tileAt t).sys.toc = 0
        ∧ (s'.tileAt t).sys.sticky = 0 ∧ (s'.tileAt t).sys.tenable = 0 ∧ (s'.tileAt t).sys.stop = false
        ∧ (s'.tileAt t).sys.dlmax = (s.tileAt t).sys.dlmax ∧ (s'.tileAt t).sys.esclim = (s.tileAt t).sys.esclim
        ∧ (∀ u, u ≠ t → s'.tileAt u = s.tileAt u)
        ∧ ((s.tileAt t).sched.lastCtx = some k.ctx → s'.mem = s.mem ∧ (s'.tileAt t).tags = (s.tileAt t).tags)
        ∧ ((s.tileAt t).sched.lastCtx ≠ some k.ctx → (s'.tileAt t).regs.v = .replicate 384 0 ∧ (s'.tileAt t).tags = []
            ∧ (s'.tileAt t).regs.k = .replicate 16 0
            ∧ ∀ a, Memory.get s'.mem a =
                if spadBase + t.val * 2 ^ 19 ≤ a ∧ a < spadBase + (t.val + 1) * 2 ^ 19
                    ∨ omBase + t.val * 2 ^ 17 ≤ a ∧ a < omBase + (t.val + 1) * 2 ^ 17
                    ∨ accBase + t.val * 2 ^ 18 ≤ a ∧ a < accBase + (t.val + 1) * 2 ^ 18 then 0
                else Memory.get s.mem a))

/-- R95, R96, R405, R409: a slice stop that is due requests a stop of the tile's task, and a stall of a context that has
lasted a million ticks is told once. -/
def Sys2Proof.Claims.SchedulerTimers : Prop :=
  (∀ (s : State) (t : Fin 144), s.sliceDue t = true → ∃ s', exec (.sliceStopTimer t) s = .next s'
      ∧ (s'.tileAt t).sys.stop = true ∧ (s'.tileAt t).sched.reqAt = some s.clk.wclock ∧ s'.mem = s.mem
      ∧ (∀ u, u ≠ t → s'.tileAt u = s.tileAt u))
    ∧ ∀ (s : State) (c : Fin 64) (l : Live) (since : Nat), s.stuck c = some l → (s.ctx c).stallSince = some since →
      ((s.ctx c).stallTold = false → since + 1000000 ≤ s.clk.wclock →
        ∃ s', exec (.schedStall c) s = .next s' ∧ Entry s s' .schedStall c ∧ (s'.ctx c).stallTold = true ∧ s'.mem = s.mem)
      ∧ (s.clk.wclock < since + 1000000 ∨ (s.ctx c).stallTold = true → exec (.schedStall c) s = .next s)

/-- R408, R413 to R418: a tile whose task may stop accepts the stop and waits to be saved, or goes on when its save area
fails its check; the save writes its x registers into the record and leaves the tile, a stalled save or restore tries
again, and a restore gives the task its registers and the record's scratchpad. What a restore takes from the saved tile, and
not from the record in memory, is the model's choice (log 13), and that it waits for commands left in the engines (log 97). -/
def Obligations.SaveRules : Prop :=
  (∀ (s : State) (t : Fin 144) (k : Task), (s.tileAt t).sched.task = some k → s.mayAccept t = true →
      (s.areaReason k.ctx t = none → ∃ s', exec (.stopAccept t) s = .next s' ∧ (s'.tileAt t).sched.resident = false
        ∧ (s'.tileAt t).sched.job = .save 0 0 none ∧ (s'.tileAt t).sched.acceptAt = s.clk.wclock ∧ s'.mem = s.mem)
      ∧ ∀ r, s.areaReason k.ctx t = some r → ∃ s', exec (.stopAccept t) s = .next s'
        ∧ (s'.tileAt t).sched.resident = true ∧ (s'.tileAt t).sys.stop = false ∧ (s'.ctx k.ctx).noSave = true
        ∧ Entry s s' .save k.ctx ∧ s'.mem = s.mem)
    ∧ (∀ (s : State) (t : Fin 144) (k : Task) (due cur : Nat) (last : Option (Nat × Nat)),
        (s.tileAt t).sched.job = .save due cur last → (s.tileAt t).sched.task = some k → due ≠ 0 → due ≤ s.now →
        s.saveSpace k.ctx = 3 → MemOk s → s.net.greds = [] → cur ≤ 0x11A →
          ∃ s' v, exec (.saveComplete t) s = .next s' ∧ s'.saved = s.saved ++ [v] ∧ v.rank = t ∧ v.tile = s.tileAt t
            ∧ (s'.tileAt t).sched.task = none ∧ (s'.tileAt t).sched.job = .none
            ∧ (∀ g, (s'.tileAt t).streams.get g = none)
            ∧ (s'.ctx k.ctx).account.saved = (s.ctx k.ctx).account.saved + 1
            ∧ ∀ i : Fin 64, s'.load64 (recordKey s k.ctx t (64 + 8 * i.val)) = (s.tileAt t).regs.x.get i)
    ∧ (∀ (s : State) (t : Fin 144) (cur : Nat) (last : Option (Nat × Nat)) (r : Nat),
        ((s.tileAt t).sched.job = .saveStalled cur last r →
          ∃ s', exec (.saveRetry t) s = .next s' ∧ (s'.tileAt t).sched.job = .save 0 cur last ∧ s'.mem = s.mem)
        ∧ ((s.tileAt t).sched.job = .restoreStalled last r →
          ∃ s', exec (.saveRetry t) s = .next s' ∧ (s'.tileAt t).sched.job = .restore 0 last ∧ s'.mem = s.mem))
    ∧ ∀ (s : State) (t : Fin 144) (k : Task) (v : Saved) (due : Nat) (last : Option (Nat × Nat)),
        (s.tileAt t).sched.job = .restore due last → (s.tileAt t).sched.task = some k → due ≠ 0 → due ≤ s.now →
        (s.tileAt t).eng.mq = [] → (∀ q, (s.tileAt t).eng.cq.get q = []) → s.saved = [v] → v.rank = t → v.tile.sys.ctx = k.ctx → s.saveSpace k.ctx = 3 → s.areaReason k.ctx t = none →
        MemOk s → s.net.greds = [] → s.hold.power = .running →
        (∀ g st, v.tile.streams.get g = some st → st.jump = none) →
          ∃ s', exec (.restoreComplete t) s = .next s' ∧ s'.saved = [] ∧ (s'.tileAt t).sched.resident = true
            ∧ (s'.tileAt t).sched.task = some k ∧ (s'.tileAt t).sched.job = .none ∧ (s'.tileAt t).regs.x = v.tile.regs.x
            ∧ (s'.tileAt t).regs.lc = v.tile.regs.lc ∧ (s'.tileAt t).regs.cb = v.tile.regs.cb
            ∧ (s'.tileAt t).regs.tk = v.tile.regs.tk ∧ (s'.tileAt t).regs.byp = .replicate 8 []
            ∧ (s'.tileAt t).sys.tclock = v.tile.sys.tclock ∧ (s'.tileAt t).sys.sticky = v.tile.sys.sticky
            ∧ (∀ g, ((s'.tileAt t).streams.get g).map (fun st => st.pc) = (v.tile.streams.get g).map fun st => st.pc)
            ∧ ∀ o, o < 2 ^ 19 → Memory.get s'.mem (spadBase + t.val * 2 ^ 19 + o) =
                Memory.get s.mem (recordKey s k.ctx t (0x9C000 + o))

/-! ### Translations, the fault queue and migration (chapters 09, 16, 23) -/

/-- R197, R204, R390: an invalidation that starts sets IBUSY and takes every matching leaf out of the caches, and clears
IBUSY once it has ended; while IBUSY is set, IGO has no effect; a poll of CONS appends a waiting entry that now has room. -/
def Sys2Proof.Claims.Invalidations : Prop :=
  (∀ (s : State) (c : Fin 64) (va : Nat),
      let starts (i : Instr) (hit : TlbEntry → Prop) : Prop := ∃ s' v, exec i s = .next s'
        ∧ (s'.ctx c).tcb.ibusy = true ∧ s'.dev.invals = s.dev.invals ++ [v] ∧ v.ctx = c ∧ s.now < v.earliest ∧ s'.mem = s.mem
        ∧ (∀ t, ∀ e ∈ (s'.tileAt t).tlb, ¬ hit e)
        ∧ ∀ l ∈ s'.dev.clusterTlb.toList, ∀ e ∈ l, ¬ hit e
      ((s.ctx c).tcb.ibusy = true → exec (.invalidatePage c va) s = .next s ∧ exec (.invalidateContext c) s = .next s)
      ∧ ((s.ctx c).tcb.ibusy = false →
          starts (.invalidatePage c va) (fun e => e.ctx = c ∧ e.va ≤ va / 2 ^ 16 * 2 ^ 16
            ∧ va / 2 ^ 16 * 2 ^ 16 < e.va + leafSpan e.level)
          ∧ starts (.invalidateContext c) fun e => e.ctx = c))
    ∧ (∀ (s : State) (c : Fin 64) (i : Inval), s.dev.invals = [i] → i.ctx = c → i.leaf = none → i.earliest ≤ s.now →
        s.net.accs = [] → (∀ t g, (s.streamAt t g).wait = none) → (∀ t q, (s.tileAt t).eng.cq.get q = []) →
          ∃ s', exec (.invalidationComplete c) s = .next s' ∧ s'.dev.invals = [] ∧ (s'.ctx c).tcb.ibusy = false
            ∧ s'.mem = s.mem)
    ∧ ∀ (s s1 : State) (c : Fin 64) (e : FaultEntry), s.dev.faultWait = [e] → e.ctx = c →
        (s.appendEntry e = (s1, true) → ∃ s', exec (.faultQueueConsPoll c) s = .next s' ∧ s'.dev.faultWait = []
          ∧ s'.mem = s1.mem ∧ s'.dev.pollAt = s.clk.wclock + 1000)
        ∧ (s.appendEntry e = (s1, false) → ∃ s', exec (.faultQueueConsPoll c) s = .next s'
          ∧ s'.dev.faultWait = [e] ∧ s'.mem = s1.mem ∧ s'.dev.pollAt = s.clk.wclock + 1000)

/-- R328 to R330: the counts of the hot-page tracker are halved in time; a DEMOTE posts a demotion, its word read as a leaf's
address with the context in its low bits, which is the model's choice (log 3); a posted page that is not eligible is skipped
and counted, and one that is starts to be copied; a migration with no dirty line left switches its leaf to the new frame and
is counted. -/
def Sys2Proof.Claims.Migrations : Prop :=
  (∀ s : State, s.hold.power ≠ .held → s.dev.hot.halfAt ≤ s.clk.wclock →
      ∃ s', exec .hotPageHalving s = .next s' ∧ s'.mem = s.mem
        ∧ s'.dev.hot.halfAt = s.clk.wclock + 2 ^ s.dev.hot.half.toNat * 1000
        ∧ ∀ e, e ∈ s'.dev.hot.counts ↔ e.2.2 ≠ 0 ∧ ∃ n, (e.1, e.2.1, n) ∈ s.dev.hot.counts ∧ e.2.2 = n / 2)
    ∧ (∀ (s : State) (v : Word),
        ∃ s', exec (.demote v) s = .next s' ∧ s'.mem = s.mem ∧ s'.tiles = s.tiles
          ∧ s'.dev.hot.posted = s.dev.hot.posted ++ [(v.toNat / 64 * 64, Fin.ofNat 64 v.toNat, false)])
    ∧ (∀ (s : State) (leaf : Nat) (c : Fin 64), s.hold.power = .running → s.hold.nominal = true → s.dev.migrations = [] →
        s.dev.hot.posted = [(leaf, c, false)] → s.dev.hot.headL ≠ s.dev.hot.tailL → s.net.greds = [] →
          let e := s.load64 leaf
          (State.eligible e = false ∨ e.getLsbD 8 = true → ∃ s', exec .migrationStart s = .next s' ∧ s'.dev.hot.posted = []
            ∧ s'.dev.hot.skips = min (s.dev.hot.skips + 1) (2 ^ 32 - 1) ∧ s'.dev.migrations = [] ∧ s'.mem = s.mem)
          ∧ (State.eligible e = true → e.getLsbD 8 = false → physOk leaf = true → s.marks = [] → s.gradeClash leaf 2 = false →
            ∃ s' m, exec .migrationStart s = .next s'
            ∧ s'.dev.hot.posted = [] ∧ s'.dev.migrations = [m] ∧ m.leaf = leaf ∧ m.ctx = c ∧ m.leaf0 = e
            ∧ m.old = frameOf e ∧ m.tier = 1 ∧ m.pass = 1 ∧ m.switching = false ∧ s.now < m.due
            ∧ s'.dev.hot.tailL = s.dev.hot.tailL + 1))
    ∧ ∀ (s : State) (m : Migration), s.dev.migrations = [m] → m.switching = false → m.pass = 4 → m.due ≤ s.now →
        m.dirty = [] → s.net.greds = [] → MemOk s → s.load64 m.leaf = withMig m.leaf0 1 →
          ∃ s' m', exec (.migrationSwitch 0) s = .next s' ∧ s'.dev.migrations = [m'] ∧ m'.switching = true
            ∧ m'.leaf = m.leaf ∧ s'.load64 m.leaf = leafTo m.leaf0 m.new m.tier
            ∧ s'.dev.hot.done = min (s.dev.hot.done + 1) (2 ^ 32 - 1)
            ∧ ∃ i, s'.dev.invals = s.dev.invals ++ [i] ∧ i.ctx = m.ctx ∧ i.leaf = some m.leaf

/-! ### Device registers (chapters 01, 04, 26) -/

/-- R10, R84, R188, R393, R435: a context entry takes a word's writable bits while the context has no live launch and only
CLASS and SLICE while it has one; a register write reaches its context entry, its resume block, DEMOTE or the LIMIT register,
and one at an offset that no block holds is ignored. That GO posts what the block then holds (log 91), and that the whole word
written at 0x40024 is the DEMOTE (log 63), are the model's choices. -/
def Obligations.RegisterWrites : Prop :=
  (∀ (s : State) (c : Fin 64) (i : Fin 16) (v : Word),
      let old := (s.ctx c).entry.get i
      let writes (ins : Instr) : Prop :=
        (NoLaunch s c → ∃ s', exec ins s = .next s' ∧ s'.mem = s.mem
          ∧ (s'.ctx c).entry = (s.ctx c).entry.set i.val (replaced (entryBits i) old v) i.isLt)
        ∧ (¬ NoLaunch s c → i = 0 → ∃ s', exec ins s = .next s' ∧ s'.mem = s.mem
          ∧ (s'.ctx c).entry = (s.ctx c).entry.set 0 (replaced 0x000000FFFFFFFF06 old v))
        ∧ (¬ NoLaunch s c → i ≠ 0 → exec ins s = .next s)
      writes (.contextEntryWrite c i v) ∧ writes (.registerWrite (0x20000 + 128 * c.val + 8 * i.val) v))
    ∧ ∀ (s : State) (v : Word),
      (∃ s', exec (.registerWrite 0x80000 v) s = .next s' ∧ s'.mem = s.mem
          ∧ s'.dev.limit = if v.extractLsb' 0 32 = 0 then 1 else v.extractLsb' 0 32)
      ∧ (∀ c : Fin 64, (∃ s', exec (.registerWrite (0x50000 + 64 * c.val) v) s = .next s' ∧ (s'.ctx c).resume.token = v)
          ∧ (∃ s', exec (.registerWrite (0x50000 + 64 * c.val + 16) v) s = .next s' ∧ (s'.ctx c).resume.value = v)
          ∧ (v.extractLsb' 0 4 = 1 → ∃ s' b, exec (.registerWrite (0x50000 + 64 * c.val + 24) v) s = .next s'
            ∧ (s'.ctx c).resume.result = 1 ∧ s'.dev.posts = s.dev.posts ++ [(c, b)] ∧ s'.tiles = s.tiles ∧ s'.mem = s.mem
            ∧ { b with result := (s.ctx c).resume.result } = (s.ctx c).resume))
      ∧ exec (.registerWrite 0x40024 v) s = exec (.demote v) s
      ∧ ∀ off, 0x80000 < off ∨ (0x80 ≤ off ∧ off < 0x10000) → exec (.registerWrite off v) s = .next s

namespace Sys2Proof.Claims

/-! ### Words for Hold, management and peers -/

/-- The bytes of an answer (R108): VMAJ 1, VMIN 0, the request's CMD and SEQ, the body's length, STAT, four zeros, the body. -/
def answerIs (m : MgmtMsg) (stat : Nat) (body : List Byte) : List Byte :=
  [1, 0] ++ leBytes 2 m.cmd ++ leBytes 4 m.seq ++ leBytes 2 body.length ++ leBytes 2 stat ++ [0, 0, 0, 0] ++ body

/-- The requests of R109: the form, its CMD, the lengths it may have, whether it changes state, and whether Hold refuses
it. -/
def Request (i : MgmtMsg → Instr) (code : Nat) (len : Nat → Prop) (changes notHeld : Bool) : Prop :=
  (i = .info ∧ code = 0x01 ∧ len = (· = 0) ∧ changes = false ∧ notHeld = false)
    ∨ (i = .telemetry ∧ code = 0x02 ∧ len = (· = 0) ∧ changes = false ∧ notHeld = false)
    ∨ (i = .holdEnter ∧ code = 0x10 ∧ len = (· = 0) ∧ changes = true ∧ notHeld = false)
    ∨ (i = .holdExit ∧ code = 0x11 ∧ len = (· = 0) ∧ changes = true ∧ notHeld = false)
    ∨ (i = .fwBegin ∧ code = 0x20 ∧ len = (· = 5) ∧ changes = true ∧ notHeld = true)
    ∨ (i = .fwChunk ∧ code = 0x21 ∧ len = (fun n => 4 ≤ n ∧ n ≤ 8196) ∧ changes = true ∧ notHeld = true)
    ∨ (i = .fwCommit ∧ code = 0x22 ∧ len = (· = 0) ∧ changes = true ∧ notHeld = true)
    ∨ (i = .fwAbort ∧ code = 0x23 ∧ len = (· = 0) ∧ changes = true ∧ notHeld = false)
    ∨ (i = .attest ∧ code = 0x30 ∧ len = (· = 32) ∧ changes = false ∧ notHeld = false)
    ∨ (i = .counter ∧ code = 0x31 ∧ len = (· = 3321) ∧ changes = true ∧ notHeld = true)

/-- A request is no repeat of the last one that its station had applied. -/
def Unrepeated (s : State) (m : MgmtMsg) : Prop := ∀ a, (m.station, m.cmd, m.seq, a) ∉ s.fw.last

/-- The frame of an answer (R108): for the station that asked, EtherType 0x88B5, padded with zeros to 46 bytes. -/
def inFrame (m : MgmtMsg) (a : List Byte) : Frame := ⟨some m.station, 0x88B5, a ++ List.replicate (46 - a.length) 0⟩

/-- The answer leaves, and nothing else of the device changes. -/
def OnlyAnswers (s : State) (m : MgmtMsg) (i : Instr) (a : List Byte) : Prop :=
  exec i s = .next { s with fw := { s.fw with out := s.fw.out ++ [inFrame m a] } }

/-- A request that passes the checks of R108: a fresh one of a listed station, with its whole body, out of Hold. -/
def Accepted (s : State) (m : MgmtMsg) (code len : Nat) : Prop :=
  Unrepeated s m ∧ m.cmd = code ∧ m.vmaj = 1 ∧ m.len = len ∧ m.body.length = len ∧ m.station ∈ s.fw.stations
    ∧ s.hold.power ≠ .held

/-- It is applied and answered OK with a body. -/
def AnswersOk (s s' : State) (m : MgmtMsg) (body : List Byte) : Prop :=
  s'.fw.out = s.fw.out ++ [inFrame m (answerIs m 0 body)] ∧ (m.station, m.cmd, m.seq, answerIs m 0 body) ∈ s'.fw.last ∧ s'.mem = s.mem

/-- The byte of the power state in INFO (R109). -/
def powerByte : Power → Byte
  | .running => 0
  | .entering => 1
  | .held => 2
  | .leaving => 3

/-- Bytes of a request's body as a number. -/
def field (m : MgmtMsg) (off n : Nat) : Nat := leNat ((m.body.drop off).take n)

/-- The frame of a peer message (R326): EtherType 0x88B6, the header of 32 bytes, the payload. -/
def carried (m : PeerMsg) (mac : Option (BitVec 48)) : Frame :=
  ⟨mac, 0x88B6, leBytes 1 m.vmaj ++ leBytes 1 m.vmin ++ leBytes 1 m.ty.code ++ [m.op] ++ leBytes 1 m.srank
    ++ leBytes 1 m.sid.val ++ leBytes 1 m.rctx.val ++ [0] ++ leBytes 4 m.seq.toNat ++ leBytes 2 m.payload.length
    ++ leBytes 2 m.cause ++ leBytes 8 (m.addr % 2 ^ 52) ++ leBytes 8 0 ++ m.payload⟩

/-- A port with one message more sent, to a station or, as the spec names none, without one (log 60). -/
def Sends (s s' : State) (p : Fin 16) (m : PeerMsg) (mac : Option (BitVec 48)) : Prop :=
  (s'.ports.get p).out = (s.ports.get p).out ++ [carried m mac]

/-- The answer to a message (R326): its header with the type and cause of the answer. -/
def answeredBy (m : PeerMsg) (ty : PeerTy) (cause : Nat) : PeerMsg :=
  { m with ty, op := 0, cause, payload := [], addr := 0 }

end Sys2Proof.Claims

/-! ### Hold and reset (chapters 01, 25) -/

/-- R419 to R421, R10: PWRWARN enters Hold with interrupt 255 and a stop of every running tile; after 1,800 µs a task not
saved is killed with a SAVE entry of reason 4; after 2,000 µs the ports and what is not retained are gone; the exit ends
with every slice moved on by the pause; the pin alone ends nothing; power-on leaves the reset state with its firmware. That
the registers and the memory of a tile outlast the power-down is the model's choice (log 79). -/
def Obligations.HoldAndReset : Prop :=
  (∀ s : State, s.hold.power = .running → s.dev.migrations = [] → ∃ s', exec .pwrwarn s = .next s'
      ∧ s'.hold.power = .entering ∧ s'.hold.trigger = s.clk.wclock ∧ s'.hold.exitAsked = false ∧ s'.hold.pin = true
      ∧ s'.dev.irqs = s.dev.irqs ++ [255] ∧ s'.mem = s.mem
      ∧ ∀ t, (s'.tileAt t).regs = (s.tileAt t).regs ∧ ((s.tileAt t).sched.resident = true → (s.tileAt t).sched.reqAt = none →
          (s'.tileAt t).sys.stop = true ∧ (s'.tileAt t).sched.reqAt = some s.clk.wclock))
    ∧ (∀ s : State, (s.hold.power = .entering ∨ s.hold.power = .held →
          exec .pwrwarn s = .next { s with hold := { s.hold with pin := true } })
        ∧ exec .pwrwarnDeasserted s = .next { s with hold := { s.hold with pin := false } })
    ∧ (∀ s : State, s.hold.power = .entering → s.hold.trigger + 1800000 ≤ s.clk.wclock →
        ∃ s', exec .holdKillDeadline s = .next s'
          ∧ ∀ t k, (s.tileAt t).sched.task = some k → (s.tileAt t).sched.killed = false →
              (s'.tileAt t).sched.killed = true ∧ (s'.tileAt t).sched.resident = false
              ∧ (∀ g, (s'.tileAt t).streams.get g = none)
              ∧ ∃ e ∈ s'.dev.faultNew, e.trap.kind = .save ∧ e.trap.info1 = 4 ∧ e.rank = t.val ∧ e.ctx = k.ctx)
    ∧ (∀ s : State, s.hold.power = .entering → s.hold.trigger + 2000000 ≤ s.clk.wclock →
        ∃ s', exec .holdPowerDown s = .next s' ∧ s'.mem = s.mem ∧ s'.hold.nominal = false
          ∧ s'.hold.power = (if s.hold.exitAsked then .leaving else .held)
          ∧ (∀ t, (s'.tileAt t).regs = (s.tileAt t).regs ∧ (s'.tileAt t).tlb = [] ∧ (s'.tileAt t).ibuf = [])
          ∧ ∀ p, (s'.ports.get p).up = false ∧ (s'.ports.get p).unanswered = [])
    ∧ (∀ s : State, s.hold.power = .leaving → s.hold.nominal = false →
        (s.clk.wclock < s.hold.exitAt → exec .holdExitNominal s = .next s)
        ∧ (s.hold.exitAt ≤ s.clk.wclock → (∀ n, (s.slots.get n).held = false) →
          (s.saved = [] → ∃ s', exec .holdExitNominal s = .next s' ∧ s'.hold.power = .running ∧ s'.hold.nominal = true
            ∧ s'.mem = s.mem ∧ ∀ t, (s'.tileAt t).sched.pausedAt = none ∧ (s'.tileAt t).sched.sliceStart =
                (s.tileAt t).sched.sliceStart + (((s.tileAt t).sched.pausedAt.map fun p => s.clk.wclock - p).getD 0))
          ∧ ∀ v, s.saved = [v] → v.byHold = true → ∃ s', exec .holdExitNominal s = .next s' ∧ s'.hold.power = .leaving
            ∧ (s'.tileAt v.rank).sched.job = .restore 0 none ∧ (s'.tileAt v.rank).sched.task = v.tile.sched.task))
    ∧ ∀ s : State, ∃ s', exec .powerOnReset s = .next s' ∧ s'.clk = State.reset.clk ∧ s'.mem = [] ∧ s'.marks = []
      ∧ s'.tiles = State.reset.tiles ∧ s'.ctxs = State.reset.ctxs ∧ s'.slots = State.reset.slots
      ∧ s'.hubs = State.reset.hubs ∧ s'.dev = State.reset.dev ∧ s'.ports = State.reset.ports ∧ s'.saved = []
      ∧ s'.hold.power = .running ∧ s'.fw.keys = s.fw.keys
      ∧ ∀ i, s'.fw.next.get i = none
        ∧ s'.fw.installed.get i = match s.fw.next.get i with | some l => l | none => s.fw.installed.get i

/-! ### Management (R107 to R109) -/

/-- R108: a frame shorter than its LEN says is answered BADLEN, another request in the order of STAT: a repeat of the last one
applied is answered again, another major version BADVER, an unlisted command BADCMD, another length BADLEN, an unlisted station DENIED for what changes state, and
BUSY for what Hold refuses; none of these changes anything else. The order of these checks is the model's choice (log 55). -/
def Obligations.RequestChecks : Prop :=
  (∀ (s : State) (m : MgmtMsg) (i : MgmtMsg → Instr) (code : Nat) (len : Nat → Prop) (changes notHeld : Bool),
      Request i code len changes notHeld → m.cmd = code →
        (m.body.length < m.len → OnlyAnswers s m (i m) (answerIs m 3 []))
        ∧ (m.len ≤ m.body.length → ∀ a, s.fw.last = [(m.station, m.cmd, m.seq, a)] → OnlyAnswers s m (i m) a)
        ∧ (m.len ≤ m.body.length → Unrepeated s m →
          (m.vmaj ≠ 1 → OnlyAnswers s m (i m) (answerIs m 1 []))
          ∧ (m.vmaj = 1 → ¬ len m.len → OnlyAnswers s m (i m) (answerIs m 3 []))
          ∧ (m.vmaj = 1 → len m.len →
            (changes = true → m.station ∉ s.fw.stations → OnlyAnswers s m (i m) (answerIs m 4 []))
            ∧ (m.station ∈ s.fw.stations → notHeld = true → s.hold.power = .held →
                OnlyAnswers s m (i m) (answerIs m 9 [])))))
    ∧ ∀ (s : State) (m : MgmtMsg), (∀ i code len changes notHeld, Request i code len changes notHeld → m.cmd ≠ code) →
        OnlyAnswers s m (.cmdUnknown m) (answerIs m (if m.body.length < m.len then 3 else if m.vmaj = 1 then 2 else 1) [])

/-- R109, R420: what each command does when it is accepted: INFO, TELEMETRY and ATTEST answer their records, HOLD_ENTER and
HOLD_EXIT start an entry or an exit or are answered ALREADY or NOTHELD. That ATTEST reports the images in effect is the
model's choice (log 89). -/
def Sys2Proof.Claims.HoldCommands : Prop :=
  ∀ (s : State) (m : MgmtMsg),
    (Accepted s m 0x01 0 → ∃ s', exec (.info m) s = .next s'
        ∧ AnswersOk s s' m ([144, 0, Config.stepping, powerByte s.hold.power] ++ Config.attestationKey.toList))
    ∧ (Accepted s m 0x02 0 → ∃ s', exec (.telemetry m) s = .next s'
        ∧ AnswersOk s s' m (s.telemetryWords.flatMap (leBytes 4)))
    ∧ (Accepted s m 0x30 32 → ∃ s', exec (.attest m) s = .next s'
        ∧ AnswersOk s s' m (s.reportBytes m.body ++ (Config.mldsaSign (s.reportBytes m.body)).toList))
    ∧ (Accepted s m 0x10 0 → s.dev.migrations = [] →
        (s.hold.power = .running → ∃ s', exec (.holdEnter m) s = .next s' ∧ AnswersOk s s' m []
          ∧ s'.hold.power = .entering ∧ s'.hold.trigger = s.clk.wclock ∧ s'.dev.irqs = s.dev.irqs ++ [255])
        ∧ (s.hold.power = .entering → OnlyAnswers s m (.holdEnter m) (answerIs m 5 [])))
    ∧ (Accepted s m 0x11 0 →
        (s.hold.power = .entering → ∃ s', exec (.holdExit m) s = .next s' ∧ AnswersOk s s' m []
          ∧ s'.hold = { s.hold with exitAsked := true })
        ∧ (s.hold.power = .running → OnlyAnswers s m (.holdExit m) (answerIs m 6 [])))
    ∧ (Unrepeated s m → m.cmd = 0x11 → m.vmaj = 1 → m.len = 0 → m.station ∈ s.fw.stations → s.hold.power = .held →
        ∃ s', exec (.holdExit m) s = .next s' ∧ AnswersOk s s' m [] ∧ s'.hold.power = .leaving
          ∧ s.clk.wclock < s'.hold.exitAt ∧ s'.hold.exitAt ≤ s.clk.wclock + 1000000)

/-- R109, R23, R28: an image is staged, filled in chunks and committed under its signature for the next reset, or its
staging is given up; a COUNTER under a good signature raises a key's counter and never lowers it. The answers to a chunk beyond
the buffer and to a commit with nothing staged are the model's choice (log 55). -/
def Sys2Proof.Claims.FirmwareCommands : Prop :=
  ∀ (s : State) (m : MgmtMsg),
    let answers (i : Instr) (stat : Nat) : Prop := OnlyAnswers s m i (answerIs m stat [])
    (Accepted s m 0x20 5 →
        (s.fw.staging = none → field m 0 1 ≤ 2 → field m 1 4 ≤ 2 ^ 26 → ∃ s', exec (.fwBegin m) s = .next s'
          ∧ AnswersOk s s' m [] ∧ s'.fw.staging = some (field m 0 1, List.replicate (field m 1 4) none))
        ∧ (s.fw.staging ≠ none → answers (.fwBegin m) 9))
    ∧ (∀ kind buf, Accepted s m 0x21 m.len → 4 ≤ m.len → m.len ≤ 8196 → s.fw.staging = some (kind, buf) →
        (field m 0 4 + (m.len - 4) ≤ buf.length → ∃ s' buf', exec (.fwChunk m) s = .next s' ∧ AnswersOk s s' m []
          ∧ s'.fw.staging = some (kind, buf') ∧ buf'.length = buf.length
          ∧ ∀ j, j < buf.length → buf'[j]? = if field m 0 4 ≤ j ∧ j < field m 0 4 + (m.len - 4)
              then (m.body[4 + (j - field m 0 4)]?).map some else buf[j]?)
        ∧ (buf.length < field m 0 4 + (m.len - 4) → answers (.fwChunk m) 3))
    ∧ (Accepted s m 0x22 0 →
        (s.fw.staging = none → answers (.fwCommit m) 7)
        ∧ ∀ (kind : Fin 3) (l : List Byte), s.fw.staging = some (kind.val, l.map some) →
          ∃ s', exec (.fwCommit m) s = .next s' ∧ s'.fw.staging = none ∧ s'.fw.installed = s.fw.installed ∧ s'.mem = s.mem
            ∧ (s.signedBy l (imN l 0x80 4) = none → s'.fw.next = s.fw.next
                ∧ s'.fw.out = s.fw.out ++ [inFrame m (answerIs m 7 [])])
            ∧ ∀ k, s.signedBy l (imN l 0x80 4) = some k →
              (imN l 0x84 4 < k.counter.toNat → s'.fw.next = s.fw.next ∧ s'.fw.out = s.fw.out ++ [inFrame m (answerIs m 8 [])])
              ∧ (k.counter.toNat ≤ imN l 0x84 4 → AnswersOk s s' m [] ∧ s'.fw.next.get kind = some l
                ∧ ∀ j, j ≠ kind → s'.fw.next.get j = s.fw.next.get j))
    ∧ (Accepted s m 0x23 0 → ∃ s', exec (.fwAbort m) s = .next s' ∧ AnswersOk s s' m [] ∧ s'.fw.staging = none
        ∧ s'.fw.next = s.fw.next)
    ∧ (Accepted s m 0x31 3321 →
        let ident := BitVec.ofNat 64 (field m 0 8)
        let v := BitVec.ofNat 32 (field m 8 4)
        (s.keyOf ident = none → answers (.counter m) 7)
        ∧ ∀ k, s.keyOf ident = some k →
          let good := mldsaVerify k.key (m.body.take 12 ++ Config.attestationKey.toList) ((m.body.drop 12).take 3309)
          (good = false → answers (.counter m) 7)
          ∧ (good = true → v ≤ k.counter → answers (.counter m) 8)
          ∧ (good = true → k.counter < v → ∃ s', exec (.counter m) s = .next s' ∧ AnswersOk s s' m []
            ∧ ∀ i x, s.fw.keys.get i = x → s'.fw.keys.get i =
                if x.key ≠ [] ∧ x.ident = ident then { x with counter := v } else x))

/-! ### Peer ports (R324 to R327) -/

/-- R327: a port whose link comes up sends HELLO and resends it every 10 µs until the partner's arrives, which brings it up
when both offer major version 1, and which a port that has carried messages answers with its own, its SEQ state gone (log
60); an unanswered message goes out again; 100 µs of silence, or the link, take the port down
with a NOLINK entry; a frame that fails its check changes nothing. -/
def Obligations.PortEvents : Prop :=
  ∀ (s : State) (p : Fin 16),
    let pt := s.ports.get p
    let greets (i : Instr) (u : State → Prop) : Prop := ∃ s' h, exec i s = .next s' ∧ h.ty = .hello ∧ h.payload = [1, 0]
      ∧ h.vmaj = 0 ∧ h.vmin = 0 ∧ Sends s s' p h none ∧ (s'.ports.get p).link = true ∧ (s'.ports.get p).up = false ∧ (s'.ports.get p).heard = false
      ∧ (s'.ports.get p).helloAt = s.clk.wclock + 10000 ∧ s'.mem = s.mem ∧ u s'
    let down (s' : State) : Prop := (s'.ports.get p).unanswered = [] ∧ (s'.ports.get p).seqOut = []
      ∧ (s'.ports.get p).seqIn = [] ∧ (s'.ports.get p).heldIn = [] ∧ (s'.ports.get p).up = false
    (pt.link = false → s.hold.power ≠ .held → greets (.portLinkUp p) fun _ => True)
    ∧ (pt.link = true → pt.heard = false → pt.helloAt ≤ s.clk.wclock → greets (.helloResend p) fun _ => True)
    ∧ (pt.heard = true ∨ s.clk.wclock < pt.helloAt → exec (.helloResend p) s = .next s)
    ∧ (∀ m : PeerMsg, pt.link = true → pt.up = false →
        (m.payload = [1, 0] → ∃ s', exec (.hello p m) s = .next s' ∧ s'.mem = s.mem
          ∧ s'.ports.get p = { pt with heard := true, up := true, vmaj := 1, vmin := 0 })
        ∧ (∀ v w, m.payload = [v, w] → v ≠ 1 → ∃ s', exec (.hello p m) s = .next s' ∧ s'.mem = s.mem
          ∧ s'.ports.get p = { pt with heard := true }))
    ∧ (∀ m : PeerMsg, pt.link = true → pt.up = true → pt.seqIn ≠ [] ∨ pt.seqOut ≠ [] → m.payload = [1, 0] →
        ∃ s' h, exec (.hello p m) s = .next s' ∧ h.ty = .hello ∧ Sends s s' p h none ∧ (s'.ports.get p).up = true
          ∧ (s'.ports.get p).seqIn = [] ∧ (s'.ports.get p).seqOut = [] ∧ (s'.ports.get p).unanswered = [] ∧ s'.mem = s.mem)
    ∧ (∀ o, pt.unanswered = [o] →
        (o.last + 10000 ≤ s.clk.wclock → ∃ s', exec (.peerResend p) s = .next s' ∧ Sends s s' p o.msg (some o.mac)
          ∧ (s'.ports.get p).unanswered = [{ o with last := s.clk.wclock }] ∧ s'.mem = s.mem)
        ∧ (s.clk.wclock < o.first + 100000 → exec (.nolink p) s = .next s)
        ∧ (o.access = none →
          (o.first + 100000 ≤ s.clk.wclock → greets (.nolink p) fun s' => down s'
            ∧ Entry s s' .peer o.ctx)
          ∧ ∃ s', exec (.portDown p) s = .next s' ∧ down s' ∧ (s'.ports.get p).link = false
            ∧ Entry s s' .peer o.ctx))
    ∧ exec (.fcsFailedFrame p) s = .next s

/-- R325 to R327, R349: a message whose turn has come is performed for its context and acknowledged: a WRITE stores its bytes
and no other, a REDUCE or FLAG reaches the queue of its line; one for a context that is not valid is refused with REJECT
and changes no memory; one ahead of its turn is held; an answer frees what it answers, and a NAK makes a PEER entry. That ACK
and NAK name no destination station is the model's choice (log 60). -/
def Obligations.PeerMessages : Prop :=
  (∀ (s : State) (p : Fin 16) (m : PeerMsg), (s.ports.get p).up = true → (s.ports.get p).heldIn = [] → Quiet s →
      s.dev.hot.en = false →
      let want := State.nextSeq (s.ports.get p).seqIn m.srank m.sid.val
      let forms : List Instr := [.write p m, .reduce p m, .flag p m]
      (m.seq = want → ((s.ctx m.rctx).entry.get 0).getLsbD 0 = false → ∀ i ∈ forms, ∃ s' a, exec i s = .next s' ∧ s'.mem = s.mem
          ∧ Sends s s' p a none ∧ a.ty = .nak ∧ a.cause = 3 ∧ a.seq = m.seq
          ∧ State.nextSeq (s'.ports.get p).seqIn m.srank m.sid.val = want + 1)
      ∧ (m.seq ≠ want → (m.seq - want).toNat < 2 ^ 31 → ∀ i ∈ forms, ∃ s' h, exec i s = .next s' ∧ s'.mem = s.mem
          ∧ (s'.ports.get p).heldIn = [h] ∧ h.seq = m.seq ∧ h.payload = m.payload ∧ (s'.ports.get p).out = (s.ports.get p).out)
      ∧ (m.seq = want → ((s.ctx m.rctx).entry.get 0).getLsbD 0 = true →
        let does (i : Instr) (s' : State) : Prop := exec i s = .next s'
            ∧ Sends s s' p (answeredBy m .ack 0) none ∧ State.nextSeq (s'.ports.get p).seqIn m.srank m.sid.val = want + 1
          ∀ a n key grade, (m.payload.length ≠ 0 → s.peerParts m.rctx m.addr m.payload.length = some [(m.addr, n, key, grade)] →
            n = m.payload.length → s.gradeClash key grade = false →
              ∃ s', does (.write p m) s' ∧ ∀ b, Memory.get s'.mem b = byteAfter s key n (leNat m.payload) b)
          ∧ (∀ op, m.op = (4 : BitVec 4) ++ op.code → RedOp.ofCode op.code = some op → m.payload.length = redSize op →
              m.addr % redSize op = 0 → s.peerParts m.rctx m.addr (redSize op) = some [(a, n, key, grade)] →
              ∃ s' e, does (.reduce p m) s' ∧ s'.mem = s.mem ∧ s'.net.greds = [e] ∧ e.line = key / 64 ∧ e.op = op
                ∧ e.words = [(key, leNat m.payload)] ∧ s.now < e.due)
          ∧ (m.addr % 8 = 0 → s.peerParts m.rctx m.addr 8 = some [(a, n, key, grade)] →
              ∃ s' e, does (.flag p m) s' ∧ s'.mem = s.mem ∧ s'.net.greds = [e] ∧ e.line = key / 64 ∧ e.op = .int 0 true
                ∧ e.words = [(key, 1)])))
    ∧ ∀ (s : State) (p : Fin 16) (m : PeerMsg) (o : PeerOut), (s.ports.get p).unanswered = [o] → o.access = none →
        o.msg.srank = m.srank → o.msg.sid = m.sid → o.msg.seq = m.seq →
          (∃ s', exec (.ack p m) s = .next s' ∧ (s'.ports.get p).unanswered = [] ∧ s'.dev = s.dev ∧ s'.mem = s.mem)
          ∧ ∃ s', exec (.nak p m) s = .next s' ∧ (s'.ports.get p).unanswered = [] ∧ s'.mem = s.mem
            ∧ Entry s s' .peer o.ctx

/-! ### Errors (R205, R436) -/

/-- R205, R436: a soft error in storage with parity turns over one bit and leaves its granule failing; one in a vault is
corrected and counted, or counted and left as marked data; one in an accumulator waits for its verification; a scrubbing
pass and a retried link change no storage. That one free bit turns over, that a struck register keeps its value and fails, and
that an error counts when it arises (log 10), and scrubbing as an event (log 62), are the model's choices. -/
def Obligations.ErrorEvents : Prop :=
  (∀ (s : State) (key : Nat),
      let strikes (P : State → Prop) : Prop := ∃ s', exec (.softError key) s = .next s' ∧ s'.tiles = s.tiles ∧ P s'
      let flips (s' : State) : Prop := ∃ i, i < 8 ∧ s'.mem = s.mem.set key (s.mem.get key ^^^ BitVec.twoPow 8 i)
      let n : Fin 49 := Fin.ofNat 49 ((key - vaultBase) / 2 ^ 27)
      let more (v : Vector Nat 49) (v' : Vector Nat 49) : Prop := v' = v.set n.val (min (v.get n + 1) (2 ^ 32 - 1)) n.isLt
      (spadBase ≤ key → key < spadBase + 144 * 2 ^ 19 → strikes fun s' => flips s' ∧ key / 4 * 4 ∈ s'.marks ∧ s'.dev = s.dev)
      ∧ (omBase ≤ key → key < omBase + 144 * 2 ^ 17 → ∃ s', exec (.softError key) s = .next s' ∧ flips s' ∧ key ∈ s'.marks
          ∧ s'.dev = s.dev ∧ (∀ t, (s'.tileAt t).regs = (s.tileAt t).regs)
          ∧ ((∀ t, (s.tileAt t).eng.mq = []) → s'.tiles = s.tiles))
      ∧ (accBase ≤ key → key < accBase + 144 * 2 ^ 18 → strikes fun s' => flips s' ∧ s'.marks = s.marks ∧ s'.dev = s.dev)
      ∧ (regBase ≤ key → key < tagBase → strikes fun s' => s'.mem = s.mem ∧ key ∈ s'.marks ∧ s'.dev = s.dev)
      ∧ (vaultBase ≤ key → key < vaultBase + 36 * 2 ^ 27 → strikes fun s' =>
          s'.mem = s.mem ∧ s'.marks = s.marks ∧ more s.dev.corrected s'.dev.corrected ∧ s'.dev.uncorrected = s.dev.uncorrected
          ∨ flips s' ∧ key / 8 * 8 ∈ s'.marks ∧ more s.dev.uncorrected s'.dev.uncorrected
            ∧ s'.dev.corrected = s.dev.corrected))
    ∧ ∀ (s : State) (t : Fin 144),
      (s.hold.power ≠ .held → exec .scrubbingPass s = .next { s with dev := { s.dev with scrubAt := s.clk.wclock } })
      ∧ (s.hold.power = .held → exec .scrubbingPass s = .next s)
      ∧ exec (.linkFatalError t) s = .next { s with dev := { s.dev with linkErrs := min (s.dev.linkErrs + 1) (2 ^ 32 - 1) } }

/-! ### Reset, the invariant, and every step -/

/-- R10, R42, R83, R85, R111, R115, R123, R188, R197, R325, R329, R335, R336, R350: the values that the spec gives at power-on
reset. That no byte of memory is listed and no mark set is the model's own choice (log 1), and so is the form of memory. -/
def Obligations.ResetValues : Prop :=
  let s := State.reset
  s.clk.wclock = 0 ∧ s.clk.wheel = 0 ∧ s.dev.limit = 4096 ∧ s.dev.hot.en = false ∧ s.dev.hot.hot = 256
    ∧ s.dev.hot.half = 10 ∧ s.hubs.bars = [] ∧ s.hubs.tqs = [] ∧ s.hold.power = .running ∧ s.saved = []
    ∧ (∀ t, (s.tileAt t).sched.task = none ∧ (s.tileAt t).regs.latch = .replicate 8 none
        ∧ (s.tileAt t).sys.dlmax = BitVec.ofNat 41 (2 ^ 34) ∧ (s.tileAt t).sys.esclim = 16 ∧ (s.tileAt t).sys.toc = 0
        ∧ (s.tileAt t).sys.rank = 0
        ∧ (∀ i, (s.tileAt t).regs.tk.get i = ⟨0, false⟩) ∧ ∀ g, (s.tileAt t).streams.get g = none)
    ∧ (∀ c, (∀ i, (s.ctx c).entry.get i = 0) ∧ (s.ctx c).tcb.rv = false ∧ (s.ctx c).tcb.ibusy = false
        ∧ ∀ i, ((s.ctx c).images.get i).v = false)
    ∧ (∀ n, (s.slots.get n).status = 0 ∧ s.liveAt n = none)
    ∧ (∀ p, (s.ports.get p).link = false ∧ (s.ports.get p).up = false)
    ∧ (∀ a, Memory.get s.mem a = 0) ∧ s.marks = [] ∧ MemOk s

/-- The invariant of memory (log 1, log 3): a step from any state whose memory has its canonical form leaves it so. -/
def Obligations.MemoryKeepsItsForm : Prop := ∀ s s' : State, MemOk s → step s = .next s' → MemOk s'

/-- R84, R131: from every state the machine goes on: no step stops, also where the partitions of two contexts overlap and R84
leaves their objects undefined, which is the model's choice (log 49). -/
def Obligations.EveryStepGoesOn : Prop := ∀ s : State, ∃ s', step s = .next s'

/-- R129, R131, R133, R164 and log 5: a step takes the next turn of its cycle: an event is executed as its instruction; a
stream's turn fetches the bundle at its PC, whose new syllable is what its word decodes to, or an illegal one where its ROT bits
are misused, and executes it at that state with the syllable in hand, its latch set and its lines used; then the bundle
commits, or its trap is taken. -/
def Obligations.StepRunsInstruction : Prop :=
  (∀ (s : State) (rest : List Turn) (i : Instr), s.agenda = .event i :: rest →
      step s = exec i { s with agenda := rest })
    ∧ (∀ s : State, s.agenda = [] → step s = .next s.newCycle)
    ∧ (∀ (s : State) (pc : Nat) (hw w : Word) (h : Header) (sl : Fin 8) (i : Instr),
        s.codeWord pc = some (some hw) → s.codeWord (pc + 8) = some (some w) → pc + 16 ≤ s.codeLen →
        decodeHeader hw = some h → h.group = !s.tile.lockstep → h.lit = 0 → h.slotMode sl = 1 →
        (∀ j, j ≠ sl → h.slotMode j = 0) → s.member sl = true → litCount sl w = 0 → isLoop w = false →
        decodeSyl sl w 0 = some i →
          ∃ b, fetch s pc = .bundle b ∧ b.len = 16 ∧ b.gap = h.gap.val ∧ b.rings = none
            ∧ ∃ it, b.items = [it] ∧ it.slot = sl ∧ it.word = w ∧ it.ins = if i.rings.all s.ringOk then .ok i
                else .error { kind := .illegal, slot := sl, info0 := w, info1 := 1 })
    ∧ ∀ (s s' : State) (rest : List Turn) (t : Fin 144) (g : Fin 4) (b : Bundle) (it : Item) (i : Instr),
        s.agenda = .stream t g :: rest →
        let s0 := { s with agenda := rest }
        let s1 := s0.inHand t g false
        let h := (s1.begun b).withBundle b
        let r := (h.heldAt 0 0).collect b.items
        s0.mayTurn t g = true → fetch s1 s1.strm.pc = .bundle b → b.items = [it] → State.waiter b.items = none →
        it.ins = .ok i → exec i ((h.setLatches b.items).withItem it) = .next s' → r.2 = true →
          (s'.cur.flow = .go → step s = .next (s'.commit h r.1.tile.vused))
          ∧ ∀ tr, s'.cur.flow = .trapped tr → step s = .next (h.enterTrap tr)

/-! ### Encodings (chapters 02 and 03) -/

namespace Sys2Proof.Claims

/-- The rows of the opcode table that are the device's own steps and events: they have no words. -/
def IsEvent : Instr → Prop
  | .conditionBitVisible .. | .waitTimeout .. | .issueDeadline .. | .remoteReplyArrival .. | .syncHomeArbitration ..
  | .homeAccess .. | .resultArrival .. | .translationObtained .. | .wheelPositionOpen .. | .fetchLineFill ..
  | .copyCommandStart .. | .copyChunk .. | .copyCommandRetire .. | .followOnHandoff .. | .fbcBlock .. | .watchdog ..
  | .windowDispatch .. | .windowMerge .. | .selectionDeadline .. | .matrixCommandStart .. | .matrixCommandRetire ..
  | .matrixSettle .. | .imageInstall .. | .unloadComplete .. | .taskBind .. | .schedStall .. | .sliceStopTimer ..
  | .stopAccept .. | .saveComplete .. | .saveRetry .. | .restoreComplete .. | .invalidationComplete ..
  | .faultQueueConsPoll .. | .hotPageHalving .. | .migrationStart .. | .migrationSwitch .. | .pwrwarn ..
  | .holdKillDeadline .. | .holdPowerDown .. | .holdExitNominal .. | .powerOnReset .. | .helloResend ..
  | .peerResend .. | .nolink .. | .writeAcknowledgement .. | .scrubbingPass .. | .pwrwarnDeasserted ..
  | .imageUnload .. | .go .. | .contextEntryWrite .. | .invalidatePage .. | .invalidateContext .. | .retry ..
  | .skip .. | .status .. | .goto .. | .setx .. | .drop .. | .kill .. | .contextKill .. | .demote ..
  | .registerWrite .. | .info .. | .telemetry .. | .holdEnter .. | .holdExit .. | .fwBegin .. | .fwChunk ..
  | .fwCommit .. | .fwAbort .. | .attest .. | .counter .. | .linkFatalError .. | .hello .. | .write .. | .reduce ..
  | .flag .. | .ack .. | .nak .. | .softError .. | .portLinkUp .. | .portDown .. | .fcsFailedFrame ..
  | .cmdUnknown .. | .badForm .. => True
  | _ => False

end Sys2Proof.Claims

/-- R35 to R60, R75 to R82: every well-formed instruction of a slot has words, and they decode, in each of its slots, to that
instruction, every operand at every value that its encoding admits, with as many literal words as R58 says. -/
def Obligations.EncodedIsDecoded : Prop :=
  ∀ i : Instr, i.wellFormed = true → ¬IsEvent i → ∃ (w : Word) (lits : List Word), encode i = some (w, lits)
    ∧ ∀ s : Fin 8, i.inSlot s = true → decodeSyl s w (lits.headD 0) = some i ∧ litCount s w = lits.length

/-- R35 to R60, R75 to R82: a word that decodes in a slot decodes to a well-formed instruction of that slot whose words are
that word and the literal word it takes: no bit of a syllable is dropped, and no two words are one instruction. -/
def Obligations.DecodedIsEncoded : Prop :=
  ∀ (s : Fin 8) (w lit : Word) (i : Instr), decodeSyl s w lit = some i →
    i.wellFormed = true ∧ i.inSlot s = true ∧ encode i = some (w, if litCount s w = 1 then [lit] else [])

/-- R35, R45, R54, R61: words written out from the encodings of the spec decode to the instructions that they stand for. -/
def Obligations.WordsDecode : Prop :=
  decodeSyl 0 0x3302800000000008 0 = some (.clkrd 20)
    ∧ decodeSyl 2 0x0406400401003412 0 = some (.vfma .bf16 (.reg 50) (.reg 1) (.reg 2) (.reg 3) 4)
    ∧ decodeSyl 2 0x83014010FC000010 0 = some (.vmulVI .f32 (.reg 10) (.reg 4) 0x3F00 0)
    ∧ decodeSyl 4 0x2001200C004030A0 0 = some (.ldf (.reg 9) ⟨.reg 3, 4, 0⟩ 0 ⟨.code 12, 10⟩)
    ∧ decodeSyl 0 0x3600001002A84800 0 = some (.enq (.reg 4) (.reg 5) ⟨.code 20, 9⟩)
    ∧ decodeSyl 0 0x6800009C021C4800 0 = some (.tkwait 7 (.ge true) (.reg 4) ⟨.code 14, 9⟩)
    ∧ decodeSyl 2 0x2019002808002024 0 = some (.vcvt (.b8 ⟨false, false, 3⟩) (.flt .f32) false 2 (.reg 200) (.reg 10) 0)
    ∧ decodeSyl 5 0 0 = none
    ∧ decodeHeader 0x4000140000000000 = some ⟨true, 0, 0x0005, 0, 0⟩
    ∧ decodeHeader 0x8000000000000000 = none

/-! ### Statements of several parts -/

/-- What source fields read and when they trap: every part, each with its rules at its own definition. -/
def Obligations.SourcesRead : Prop := SourceFields ∧ SourceTraps

/-- How results land and when they can be read: every part, each with its rules at its own definition. -/
def Obligations.ResultsLand : Prop := LandingWrites ∧ ResultLatency

/-- Sums, products, quotients, minima and comparisons of integers: every part, each with its rules at its own definition. -/
def Obligations.Arithmetic : Prop := SumsAndProducts ∧ QuotientsAndRemainders ∧ OrderedResults

/-- Logic, shifts, bit counts and extensions: every part, each with its rules at its own definition. -/
def Obligations.LogicAndCounts : Prop := LogicAndShifts ∧ BitCounts

/-- Moves, and making and reading pointers: every part, each with its rules at its own definition. -/
def Obligations.MovesAndPointers : Prop := Moves ∧ Pointers

/-- Floating-point results, NaN operands and conversions: every part, each with its rules at its own definition. -/
def Obligations.FloatArithmetic : Prop := FloatResults ∧ NanOperands ∧ FloatConversion

/-- Reading and writing system registers, and TFENCE: every part, each with its rules at its own definition. -/
def Obligations.SystemRegisters : Prop := RegisterReads ∧ MtsTakesEffect ∧ MtsRefused ∧ TfenceOutcome

/-- Floating-point vector results and their special cases: every part, each with its rules at its own definition. -/
def Obligations.VectorFloats : Prop := VectorFloatResults ∧ VectorUnaryResults ∧ VectorSpecialCases

/-- Integer vector results, lane by lane under a mask: every part, each with its rules at its own definition. -/
def Obligations.VectorIntegers : Prop := LaneByLane ∧ IntegerLanes ∧ VectorIntegerResults

/-- Vector conversions, quantising and reductions: every part, each with its rules at its own definition. -/
def Obligations.ConversionsAndReductions : Prop := VectorConversions ∧ Reductions

/-- Lanes placed, streams read and random lanes: every part, each with its rules at its own definition. -/
def Obligations.LanePlacement : Prop := VectorPermutes ∧ StreamReads ∧ VectorRandom

/-- Loads of the own scratchpad, bank formats, and the checks of an access: every part, each with its rules at its own definition. -/
def Obligations.Loads : Prop := LoadResults ∧ BankResults ∧ AccessChecks

/-- Loops open, go back and are left: every part, each with its rules at its own definition. -/
def Obligations.Loops : Prop := LoopsOpened ∧ BackEdges

/-- FORK and JOIN: every part, each with its rules at its own definition. -/
def Obligations.ForksAndJoins : Prop := ForkedStreams ∧ JoinMerges

/-- Waits that are decided, that escalate, and that are ready at issue: every part, each with its rules at its own definition. -/
def Obligations.Waits : Prop := DecidedWaits ∧ Escalation ∧ ReadyWaits

/-- Requests to sync homes: every part, each with its rules at its own definition. -/
def Obligations.SyncRequests : Prop := BarrierRequests ∧ WaitRequests

/-- Commands enter the copy queues and are cancelled: every part, each with its rules at its own definition. -/
def Obligations.CopyQueueCommands : Prop := CopyCommands ∧ CopyCancel

/-- Global accesses leave for their homes; metadata and prefetch: every part, each with its rules at its own definition. -/
def Obligations.AccessesAndMetadata : Prop := AccessesLeave ∧ MetadataAndPrefetch

/-- Posts resume parked groups and suspended commands: every part, each with its rules at its own definition. -/
def Obligations.Resumes : Prop := GroupResumes ∧ OtherResumes

/-- Copy commands start, move bytes, retire and hand over: every part, each with its rules at its own definition. -/
def Obligations.CopyEngine : Prop := CopyStarts ∧ CopyProgress

/-- Matrix commands start, settle and take effect at retirement: every part, each with its rules at its own definition. -/
def Obligations.MatrixEngine : Prop := MatrixStarts ∧ MatrixEffects

/-- Barriers, token queues and command blocks at their homes: every part, each with its rules at its own definition. -/
def Obligations.SyncHomes : Prop := BarrierRules ∧ QueueRules

/-- Tasks start, slices stop and stalls are told: every part, each with its rules at its own definition. -/
def Obligations.TasksStartAndStop : Prop := TaskStarts ∧ SchedulerTimers

/-- Invalidations, the fault queue poll, and page migration: every part, each with its rules at its own definition. -/
def Obligations.TranslationsAndMigration : Prop := Invalidations ∧ Migrations

/-- What management commands do: every part, each with its rules at its own definition. -/
def Obligations.ManagementCommands : Prop := HoldCommands ∧ FirmwareCommands
end

