-- ==== Sys2Proof/Laws/State.lean ====
section
/-! SUPPORT. One lemma for each field of the state that a named update leaves alone, and what the updates of tiles,
streams, contexts and launches read back. -/

namespace Sys2Proof.Machine

namespace State

/-! ### setTile -/

@[simp] theorem setTile_clk (s : State) (t : Fin 144) (x : Tile) :
    (s.setTile t x).clk = s.clk := rfl
@[simp] theorem setTile_cur (s : State) (t : Fin 144) (x : Tile) :
    (s.setTile t x).cur = s.cur := rfl
@[simp] theorem setTile_agenda (s : State) (t : Fin 144) (x : Tile) :
    (s.setTile t x).agenda = s.agenda := rfl
@[simp] theorem setTile_freeCtr (s : State) (t : Fin 144) (x : Tile) :
    (s.setTile t x).freeCtr = s.freeCtr := rfl
@[simp] theorem setTile_inputs (s : State) (t : Fin 144) (x : Tile) :
    (s.setTile t x).inputs = s.inputs := rfl
@[simp] theorem setTile_cores (s : State) (t : Fin 144) (x : Tile) :
    (s.setTile t x).cores = s.cores := rfl
@[simp] theorem setTile_coreReads (s : State) (t : Fin 144) (x : Tile) :
    (s.setTile t x).coreReads = s.coreReads := rfl
@[simp] theorem setTile_mem (s : State) (t : Fin 144) (x : Tile) :
    (s.setTile t x).mem = s.mem := rfl
@[simp] theorem setTile_marks (s : State) (t : Fin 144) (x : Tile) :
    (s.setTile t x).marks = s.marks := rfl
@[simp] theorem setTile_lineMeta (s : State) (t : Fin 144) (x : Tile) :
    (s.setTile t x).lineMeta = s.lineMeta := rfl
@[simp] theorem setTile_grades (s : State) (t : Fin 144) (x : Tile) :
    (s.setTile t x).grades = s.grades := rfl
@[simp] theorem setTile_ctxs (s : State) (t : Fin 144) (x : Tile) :
    (s.setTile t x).ctxs = s.ctxs := rfl
@[simp] theorem setTile_slots (s : State) (t : Fin 144) (x : Tile) :
    (s.setTile t x).slots = s.slots := rfl
@[simp] theorem setTile_hubs (s : State) (t : Fin 144) (x : Tile) :
    (s.setTile t x).hubs = s.hubs := rfl
@[simp] theorem setTile_net (s : State) (t : Fin 144) (x : Tile) :
    (s.setTile t x).net = s.net := rfl
@[simp] theorem setTile_dev (s : State) (t : Fin 144) (x : Tile) :
    (s.setTile t x).dev = s.dev := rfl
@[simp] theorem setTile_fw (s : State) (t : Fin 144) (x : Tile) :
    (s.setTile t x).fw = s.fw := rfl
@[simp] theorem setTile_hold (s : State) (t : Fin 144) (x : Tile) :
    (s.setTile t x).hold = s.hold := rfl
@[simp] theorem setTile_ports (s : State) (t : Fin 144) (x : Tile) :
    (s.setTile t x).ports = s.ports := rfl
@[simp] theorem setTile_saved (s : State) (t : Fin 144) (x : Tile) :
    (s.setTile t x).saved = s.saved := rfl

/-! ### modTile -/

@[simp] theorem modTile_clk (s : State) (t : Fin 144) (f : Tile → Tile) :
    (s.modTile t f).clk = s.clk := rfl
@[simp] theorem modTile_cur (s : State) (t : Fin 144) (f : Tile → Tile) :
    (s.modTile t f).cur = s.cur := rfl
@[simp] theorem modTile_agenda (s : State) (t : Fin 144) (f : Tile → Tile) :
    (s.modTile t f).agenda = s.agenda := rfl
@[simp] theorem modTile_freeCtr (s : State) (t : Fin 144) (f : Tile → Tile) :
    (s.modTile t f).freeCtr = s.freeCtr := rfl
@[simp] theorem modTile_inputs (s : State) (t : Fin 144) (f : Tile → Tile) :
    (s.modTile t f).inputs = s.inputs := rfl
@[simp] theorem modTile_cores (s : State) (t : Fin 144) (f : Tile → Tile) :
    (s.modTile t f).cores = s.cores := rfl
@[simp] theorem modTile_coreReads (s : State) (t : Fin 144) (f : Tile → Tile) :
    (s.modTile t f).coreReads = s.coreReads := rfl
@[simp] theorem modTile_mem (s : State) (t : Fin 144) (f : Tile → Tile) :
    (s.modTile t f).mem = s.mem := rfl
@[simp] theorem modTile_marks (s : State) (t : Fin 144) (f : Tile → Tile) :
    (s.modTile t f).marks = s.marks := rfl
@[simp] theorem modTile_lineMeta (s : State) (t : Fin 144) (f : Tile → Tile) :
    (s.modTile t f).lineMeta = s.lineMeta := rfl
@[simp] theorem modTile_grades (s : State) (t : Fin 144) (f : Tile → Tile) :
    (s.modTile t f).grades = s.grades := rfl
@[simp] theorem modTile_ctxs (s : State) (t : Fin 144) (f : Tile → Tile) :
    (s.modTile t f).ctxs = s.ctxs := rfl
@[simp] theorem modTile_slots (s : State) (t : Fin 144) (f : Tile → Tile) :
    (s.modTile t f).slots = s.slots := rfl
@[simp] theorem modTile_hubs (s : State) (t : Fin 144) (f : Tile → Tile) :
    (s.modTile t f).hubs = s.hubs := rfl
@[simp] theorem modTile_net (s : State) (t : Fin 144) (f : Tile → Tile) :
    (s.modTile t f).net = s.net := rfl
@[simp] theorem modTile_dev (s : State) (t : Fin 144) (f : Tile → Tile) :
    (s.modTile t f).dev = s.dev := rfl
@[simp] theorem modTile_fw (s : State) (t : Fin 144) (f : Tile → Tile) :
    (s.modTile t f).fw = s.fw := rfl
@[simp] theorem modTile_hold (s : State) (t : Fin 144) (f : Tile → Tile) :
    (s.modTile t f).hold = s.hold := rfl
@[simp] theorem modTile_ports (s : State) (t : Fin 144) (f : Tile → Tile) :
    (s.modTile t f).ports = s.ports := rfl
@[simp] theorem modTile_saved (s : State) (t : Fin 144) (f : Tile → Tile) :
    (s.modTile t f).saved = s.saved := rfl

/-! ### setStream -/

@[simp] theorem setStream_clk (s : State) (t : Fin 144) (g : Fin 4) (x : Option Stream) :
    (s.setStream t g x).clk = s.clk := rfl
@[simp] theorem setStream_cur (s : State) (t : Fin 144) (g : Fin 4) (x : Option Stream) :
    (s.setStream t g x).cur = s.cur := rfl
@[simp] theorem setStream_agenda (s : State) (t : Fin 144) (g : Fin 4) (x : Option Stream) :
    (s.setStream t g x).agenda = s.agenda := rfl
@[simp] theorem setStream_freeCtr (s : State) (t : Fin 144) (g : Fin 4) (x : Option Stream) :
    (s.setStream t g x).freeCtr = s.freeCtr := rfl
@[simp] theorem setStream_inputs (s : State) (t : Fin 144) (g : Fin 4) (x : Option Stream) :
    (s.setStream t g x).inputs = s.inputs := rfl
@[simp] theorem setStream_cores (s : State) (t : Fin 144) (g : Fin 4) (x : Option Stream) :
    (s.setStream t g x).cores = s.cores := rfl
@[simp] theorem setStream_coreReads (s : State) (t : Fin 144) (g : Fin 4) (x : Option Stream) :
    (s.setStream t g x).coreReads = s.coreReads := rfl
@[simp] theorem setStream_mem (s : State) (t : Fin 144) (g : Fin 4) (x : Option Stream) :
    (s.setStream t g x).mem = s.mem := rfl
@[simp] theorem setStream_marks (s : State) (t : Fin 144) (g : Fin 4) (x : Option Stream) :
    (s.setStream t g x).marks = s.marks := rfl
@[simp] theorem setStream_lineMeta (s : State) (t : Fin 144) (g : Fin 4) (x : Option Stream) :
    (s.setStream t g x).lineMeta = s.lineMeta := rfl
@[simp] theorem setStream_grades (s : State) (t : Fin 144) (g : Fin 4) (x : Option Stream) :
    (s.setStream t g x).grades = s.grades := rfl
@[simp] theorem setStream_ctxs (s : State) (t : Fin 144) (g : Fin 4) (x : Option Stream) :
    (s.setStream t g x).ctxs = s.ctxs := rfl
@[simp] theorem setStream_slots (s : State) (t : Fin 144) (g : Fin 4) (x : Option Stream) :
    (s.setStream t g x).slots = s.slots := rfl
@[simp] theorem setStream_hubs (s : State) (t : Fin 144) (g : Fin 4) (x : Option Stream) :
    (s.setStream t g x).hubs = s.hubs := rfl
@[simp] theorem setStream_net (s : State) (t : Fin 144) (g : Fin 4) (x : Option Stream) :
    (s.setStream t g x).net = s.net := rfl
@[simp] theorem setStream_dev (s : State) (t : Fin 144) (g : Fin 4) (x : Option Stream) :
    (s.setStream t g x).dev = s.dev := rfl
@[simp] theorem setStream_fw (s : State) (t : Fin 144) (g : Fin 4) (x : Option Stream) :
    (s.setStream t g x).fw = s.fw := rfl
@[simp] theorem setStream_hold (s : State) (t : Fin 144) (g : Fin 4) (x : Option Stream) :
    (s.setStream t g x).hold = s.hold := rfl
@[simp] theorem setStream_ports (s : State) (t : Fin 144) (g : Fin 4) (x : Option Stream) :
    (s.setStream t g x).ports = s.ports := rfl
@[simp] theorem setStream_saved (s : State) (t : Fin 144) (g : Fin 4) (x : Option Stream) :
    (s.setStream t g x).saved = s.saved := rfl

/-! ### modStrm -/

@[simp] theorem modStrm_clk (s : State) (f : Stream → Stream) :
    (s.modStrm f).clk = s.clk := rfl
@[simp] theorem modStrm_cur (s : State) (f : Stream → Stream) :
    (s.modStrm f).cur = s.cur := rfl
@[simp] theorem modStrm_agenda (s : State) (f : Stream → Stream) :
    (s.modStrm f).agenda = s.agenda := rfl
@[simp] theorem modStrm_freeCtr (s : State) (f : Stream → Stream) :
    (s.modStrm f).freeCtr = s.freeCtr := rfl
@[simp] theorem modStrm_inputs (s : State) (f : Stream → Stream) :
    (s.modStrm f).inputs = s.inputs := rfl
@[simp] theorem modStrm_cores (s : State) (f : Stream → Stream) :
    (s.modStrm f).cores = s.cores := rfl
@[simp] theorem modStrm_coreReads (s : State) (f : Stream → Stream) :
    (s.modStrm f).coreReads = s.coreReads := rfl
@[simp] theorem modStrm_mem (s : State) (f : Stream → Stream) :
    (s.modStrm f).mem = s.mem := rfl
@[simp] theorem modStrm_marks (s : State) (f : Stream → Stream) :
    (s.modStrm f).marks = s.marks := rfl
@[simp] theorem modStrm_lineMeta (s : State) (f : Stream → Stream) :
    (s.modStrm f).lineMeta = s.lineMeta := rfl
@[simp] theorem modStrm_grades (s : State) (f : Stream → Stream) :
    (s.modStrm f).grades = s.grades := rfl
@[simp] theorem modStrm_ctxs (s : State) (f : Stream → Stream) :
    (s.modStrm f).ctxs = s.ctxs := rfl
@[simp] theorem modStrm_slots (s : State) (f : Stream → Stream) :
    (s.modStrm f).slots = s.slots := rfl
@[simp] theorem modStrm_hubs (s : State) (f : Stream → Stream) :
    (s.modStrm f).hubs = s.hubs := rfl
@[simp] theorem modStrm_net (s : State) (f : Stream → Stream) :
    (s.modStrm f).net = s.net := rfl
@[simp] theorem modStrm_dev (s : State) (f : Stream → Stream) :
    (s.modStrm f).dev = s.dev := rfl
@[simp] theorem modStrm_fw (s : State) (f : Stream → Stream) :
    (s.modStrm f).fw = s.fw := rfl
@[simp] theorem modStrm_hold (s : State) (f : Stream → Stream) :
    (s.modStrm f).hold = s.hold := rfl
@[simp] theorem modStrm_ports (s : State) (f : Stream → Stream) :
    (s.modStrm f).ports = s.ports := rfl
@[simp] theorem modStrm_saved (s : State) (f : Stream → Stream) :
    (s.modStrm f).saved = s.saved := rfl

/-! ### modRegs -/

@[simp] theorem modRegs_clk (s : State) (f : Regs → Regs) :
    (s.modRegs f).clk = s.clk := rfl
@[simp] theorem modRegs_cur (s : State) (f : Regs → Regs) :
    (s.modRegs f).cur = s.cur := rfl
@[simp] theorem modRegs_agenda (s : State) (f : Regs → Regs) :
    (s.modRegs f).agenda = s.agenda := rfl
@[simp] theorem modRegs_freeCtr (s : State) (f : Regs → Regs) :
    (s.modRegs f).freeCtr = s.freeCtr := rfl
@[simp] theorem modRegs_inputs (s : State) (f : Regs → Regs) :
    (s.modRegs f).inputs = s.inputs := rfl
@[simp] theorem modRegs_cores (s : State) (f : Regs → Regs) :
    (s.modRegs f).cores = s.cores := rfl
@[simp] theorem modRegs_coreReads (s : State) (f : Regs → Regs) :
    (s.modRegs f).coreReads = s.coreReads := rfl
@[simp] theorem modRegs_mem (s : State) (f : Regs → Regs) :
    (s.modRegs f).mem = s.mem := rfl
@[simp] theorem modRegs_marks (s : State) (f : Regs → Regs) :
    (s.modRegs f).marks = s.marks := rfl
@[simp] theorem modRegs_lineMeta (s : State) (f : Regs → Regs) :
    (s.modRegs f).lineMeta = s.lineMeta := rfl
@[simp] theorem modRegs_grades (s : State) (f : Regs → Regs) :
    (s.modRegs f).grades = s.grades := rfl
@[simp] theorem modRegs_ctxs (s : State) (f : Regs → Regs) :
    (s.modRegs f).ctxs = s.ctxs := rfl
@[simp] theorem modRegs_slots (s : State) (f : Regs → Regs) :
    (s.modRegs f).slots = s.slots := rfl
@[simp] theorem modRegs_hubs (s : State) (f : Regs → Regs) :
    (s.modRegs f).hubs = s.hubs := rfl
@[simp] theorem modRegs_net (s : State) (f : Regs → Regs) :
    (s.modRegs f).net = s.net := rfl
@[simp] theorem modRegs_dev (s : State) (f : Regs → Regs) :
    (s.modRegs f).dev = s.dev := rfl
@[simp] theorem modRegs_fw (s : State) (f : Regs → Regs) :
    (s.modRegs f).fw = s.fw := rfl
@[simp] theorem modRegs_hold (s : State) (f : Regs → Regs) :
    (s.modRegs f).hold = s.hold := rfl
@[simp] theorem modRegs_ports (s : State) (f : Regs → Regs) :
    (s.modRegs f).ports = s.ports := rfl
@[simp] theorem modRegs_saved (s : State) (f : Regs → Regs) :
    (s.modRegs f).saved = s.saved := rfl

/-! ### modSys -/

@[simp] theorem modSys_clk (s : State) (f : SysRegs → SysRegs) :
    (s.modSys f).clk = s.clk := rfl
@[simp] theorem modSys_cur (s : State) (f : SysRegs → SysRegs) :
    (s.modSys f).cur = s.cur := rfl
@[simp] theorem modSys_agenda (s : State) (f : SysRegs → SysRegs) :
    (s.modSys f).agenda = s.agenda := rfl
@[simp] theorem modSys_freeCtr (s : State) (f : SysRegs → SysRegs) :
    (s.modSys f).freeCtr = s.freeCtr := rfl
@[simp] theorem modSys_inputs (s : State) (f : SysRegs → SysRegs) :
    (s.modSys f).inputs = s.inputs := rfl
@[simp] theorem modSys_cores (s : State) (f : SysRegs → SysRegs) :
    (s.modSys f).cores = s.cores := rfl
@[simp] theorem modSys_coreReads (s : State) (f : SysRegs → SysRegs) :
    (s.modSys f).coreReads = s.coreReads := rfl
@[simp] theorem modSys_mem (s : State) (f : SysRegs → SysRegs) :
    (s.modSys f).mem = s.mem := rfl
@[simp] theorem modSys_marks (s : State) (f : SysRegs → SysRegs) :
    (s.modSys f).marks = s.marks := rfl
@[simp] theorem modSys_lineMeta (s : State) (f : SysRegs → SysRegs) :
    (s.modSys f).lineMeta = s.lineMeta := rfl
@[simp] theorem modSys_grades (s : State) (f : SysRegs → SysRegs) :
    (s.modSys f).grades = s.grades := rfl
@[simp] theorem modSys_ctxs (s : State) (f : SysRegs → SysRegs) :
    (s.modSys f).ctxs = s.ctxs := rfl
@[simp] theorem modSys_slots (s : State) (f : SysRegs → SysRegs) :
    (s.modSys f).slots = s.slots := rfl
@[simp] theorem modSys_hubs (s : State) (f : SysRegs → SysRegs) :
    (s.modSys f).hubs = s.hubs := rfl
@[simp] theorem modSys_net (s : State) (f : SysRegs → SysRegs) :
    (s.modSys f).net = s.net := rfl
@[simp] theorem modSys_dev (s : State) (f : SysRegs → SysRegs) :
    (s.modSys f).dev = s.dev := rfl
@[simp] theorem modSys_fw (s : State) (f : SysRegs → SysRegs) :
    (s.modSys f).fw = s.fw := rfl
@[simp] theorem modSys_hold (s : State) (f : SysRegs → SysRegs) :
    (s.modSys f).hold = s.hold := rfl
@[simp] theorem modSys_ports (s : State) (f : SysRegs → SysRegs) :
    (s.modSys f).ports = s.ports := rfl
@[simp] theorem modSys_saved (s : State) (f : SysRegs → SysRegs) :
    (s.modSys f).saved = s.saved := rfl

/-! ### modEng -/

@[simp] theorem modEng_clk (s : State) (f : Engines → Engines) :
    (s.modEng f).clk = s.clk := rfl
@[simp] theorem modEng_cur (s : State) (f : Engines → Engines) :
    (s.modEng f).cur = s.cur := rfl
@[simp] theorem modEng_agenda (s : State) (f : Engines → Engines) :
    (s.modEng f).agenda = s.agenda := rfl
@[simp] theorem modEng_freeCtr (s : State) (f : Engines → Engines) :
    (s.modEng f).freeCtr = s.freeCtr := rfl
@[simp] theorem modEng_inputs (s : State) (f : Engines → Engines) :
    (s.modEng f).inputs = s.inputs := rfl
@[simp] theorem modEng_cores (s : State) (f : Engines → Engines) :
    (s.modEng f).cores = s.cores := rfl
@[simp] theorem modEng_coreReads (s : State) (f : Engines → Engines) :
    (s.modEng f).coreReads = s.coreReads := rfl
@[simp] theorem modEng_mem (s : State) (f : Engines → Engines) :
    (s.modEng f).mem = s.mem := rfl
@[simp] theorem modEng_marks (s : State) (f : Engines → Engines) :
    (s.modEng f).marks = s.marks := rfl
@[simp] theorem modEng_lineMeta (s : State) (f : Engines → Engines) :
    (s.modEng f).lineMeta = s.lineMeta := rfl
@[simp] theorem modEng_grades (s : State) (f : Engines → Engines) :
    (s.modEng f).grades = s.grades := rfl
@[simp] theorem modEng_ctxs (s : State) (f : Engines → Engines) :
    (s.modEng f).ctxs = s.ctxs := rfl
@[simp] theorem modEng_slots (s : State) (f : Engines → Engines) :
    (s.modEng f).slots = s.slots := rfl
@[simp] theorem modEng_hubs (s : State) (f : Engines → Engines) :
    (s.modEng f).hubs = s.hubs := rfl
@[simp] theorem modEng_net (s : State) (f : Engines → Engines) :
    (s.modEng f).net = s.net := rfl
@[simp] theorem modEng_dev (s : State) (f : Engines → Engines) :
    (s.modEng f).dev = s.dev := rfl
@[simp] theorem modEng_fw (s : State) (f : Engines → Engines) :
    (s.modEng f).fw = s.fw := rfl
@[simp] theorem modEng_hold (s : State) (f : Engines → Engines) :
    (s.modEng f).hold = s.hold := rfl
@[simp] theorem modEng_ports (s : State) (f : Engines → Engines) :
    (s.modEng f).ports = s.ports := rfl
@[simp] theorem modEng_saved (s : State) (f : Engines → Engines) :
    (s.modEng f).saved = s.saved := rfl

/-! ### modSched -/

@[simp] theorem modSched_clk (s : State) (t : Fin 144) (f : Sched → Sched) :
    (s.modSched t f).clk = s.clk := rfl
@[simp] theorem modSched_cur (s : State) (t : Fin 144) (f : Sched → Sched) :
    (s.modSched t f).cur = s.cur := rfl
@[simp] theorem modSched_agenda (s : State) (t : Fin 144) (f : Sched → Sched) :
    (s.modSched t f).agenda = s.agenda := rfl
@[simp] theorem modSched_freeCtr (s : State) (t : Fin 144) (f : Sched → Sched) :
    (s.modSched t f).freeCtr = s.freeCtr := rfl
@[simp] theorem modSched_inputs (s : State) (t : Fin 144) (f : Sched → Sched) :
    (s.modSched t f).inputs = s.inputs := rfl
@[simp] theorem modSched_cores (s : State) (t : Fin 144) (f : Sched → Sched) :
    (s.modSched t f).cores = s.cores := rfl
@[simp] theorem modSched_coreReads (s : State) (t : Fin 144) (f : Sched → Sched) :
    (s.modSched t f).coreReads = s.coreReads := rfl
@[simp] theorem modSched_mem (s : State) (t : Fin 144) (f : Sched → Sched) :
    (s.modSched t f).mem = s.mem := rfl
@[simp] theorem modSched_marks (s : State) (t : Fin 144) (f : Sched → Sched) :
    (s.modSched t f).marks = s.marks := rfl
@[simp] theorem modSched_lineMeta (s : State) (t : Fin 144) (f : Sched → Sched) :
    (s.modSched t f).lineMeta = s.lineMeta := rfl
@[simp] theorem modSched_grades (s : State) (t : Fin 144) (f : Sched → Sched) :
    (s.modSched t f).grades = s.grades := rfl
@[simp] theorem modSched_ctxs (s : State) (t : Fin 144) (f : Sched → Sched) :
    (s.modSched t f).ctxs = s.ctxs := rfl
@[simp] theorem modSched_slots (s : State) (t : Fin 144) (f : Sched → Sched) :
    (s.modSched t f).slots = s.slots := rfl
@[simp] theorem modSched_hubs (s : State) (t : Fin 144) (f : Sched → Sched) :
    (s.modSched t f).hubs = s.hubs := rfl
@[simp] theorem modSched_net (s : State) (t : Fin 144) (f : Sched → Sched) :
    (s.modSched t f).net = s.net := rfl
@[simp] theorem modSched_dev (s : State) (t : Fin 144) (f : Sched → Sched) :
    (s.modSched t f).dev = s.dev := rfl
@[simp] theorem modSched_fw (s : State) (t : Fin 144) (f : Sched → Sched) :
    (s.modSched t f).fw = s.fw := rfl
@[simp] theorem modSched_hold (s : State) (t : Fin 144) (f : Sched → Sched) :
    (s.modSched t f).hold = s.hold := rfl
@[simp] theorem modSched_ports (s : State) (t : Fin 144) (f : Sched → Sched) :
    (s.modSched t f).ports = s.ports := rfl
@[simp] theorem modSched_saved (s : State) (t : Fin 144) (f : Sched → Sched) :
    (s.modSched t f).saved = s.saved := rfl

/-! ### keepWait -/

@[simp] theorem keepWait_clk (s : State) (w : Wait) :
    (s.keepWait w).clk = s.clk := rfl
@[simp] theorem keepWait_cur (s : State) (w : Wait) :
    (s.keepWait w).cur = s.cur := rfl
@[simp] theorem keepWait_agenda (s : State) (w : Wait) :
    (s.keepWait w).agenda = s.agenda := rfl
@[simp] theorem keepWait_freeCtr (s : State) (w : Wait) :
    (s.keepWait w).freeCtr = s.freeCtr := rfl
@[simp] theorem keepWait_inputs (s : State) (w : Wait) :
    (s.keepWait w).inputs = s.inputs := rfl
@[simp] theorem keepWait_cores (s : State) (w : Wait) :
    (s.keepWait w).cores = s.cores := rfl
@[simp] theorem keepWait_coreReads (s : State) (w : Wait) :
    (s.keepWait w).coreReads = s.coreReads := rfl
@[simp] theorem keepWait_mem (s : State) (w : Wait) :
    (s.keepWait w).mem = s.mem := rfl
@[simp] theorem keepWait_marks (s : State) (w : Wait) :
    (s.keepWait w).marks = s.marks := rfl
@[simp] theorem keepWait_lineMeta (s : State) (w : Wait) :
    (s.keepWait w).lineMeta = s.lineMeta := rfl
@[simp] theorem keepWait_grades (s : State) (w : Wait) :
    (s.keepWait w).grades = s.grades := rfl
@[simp] theorem keepWait_ctxs (s : State) (w : Wait) :
    (s.keepWait w).ctxs = s.ctxs := rfl
@[simp] theorem keepWait_slots (s : State) (w : Wait) :
    (s.keepWait w).slots = s.slots := rfl
@[simp] theorem keepWait_hubs (s : State) (w : Wait) :
    (s.keepWait w).hubs = s.hubs := rfl
@[simp] theorem keepWait_net (s : State) (w : Wait) :
    (s.keepWait w).net = s.net := rfl
@[simp] theorem keepWait_dev (s : State) (w : Wait) :
    (s.keepWait w).dev = s.dev := rfl
@[simp] theorem keepWait_fw (s : State) (w : Wait) :
    (s.keepWait w).fw = s.fw := rfl
@[simp] theorem keepWait_hold (s : State) (w : Wait) :
    (s.keepWait w).hold = s.hold := rfl
@[simp] theorem keepWait_ports (s : State) (w : Wait) :
    (s.keepWait w).ports = s.ports := rfl
@[simp] theorem keepWait_saved (s : State) (w : Wait) :
    (s.keepWait w).saved = s.saved := rfl

/-! ### schedule -/

@[simp] theorem schedule_clk (s : State) (d : WDst) (v : RVal) (m : KWord) (n : Nat) (b : Bool) :
    (s.schedule d v m n b).clk = s.clk := rfl
@[simp] theorem schedule_cur (s : State) (d : WDst) (v : RVal) (m : KWord) (n : Nat) (b : Bool) :
    (s.schedule d v m n b).cur = s.cur := rfl
@[simp] theorem schedule_agenda (s : State) (d : WDst) (v : RVal) (m : KWord) (n : Nat) (b : Bool) :
    (s.schedule d v m n b).agenda = s.agenda := rfl
@[simp] theorem schedule_freeCtr (s : State) (d : WDst) (v : RVal) (m : KWord) (n : Nat) (b : Bool) :
    (s.schedule d v m n b).freeCtr = s.freeCtr := rfl
@[simp] theorem schedule_inputs (s : State) (d : WDst) (v : RVal) (m : KWord) (n : Nat) (b : Bool) :
    (s.schedule d v m n b).inputs = s.inputs := rfl
@[simp] theorem schedule_cores (s : State) (d : WDst) (v : RVal) (m : KWord) (n : Nat) (b : Bool) :
    (s.schedule d v m n b).cores = s.cores := rfl
@[simp] theorem schedule_coreReads (s : State) (d : WDst) (v : RVal) (m : KWord) (n : Nat) (b : Bool) :
    (s.schedule d v m n b).coreReads = s.coreReads := rfl
@[simp] theorem schedule_mem (s : State) (d : WDst) (v : RVal) (m : KWord) (n : Nat) (b : Bool) :
    (s.schedule d v m n b).mem = s.mem := rfl
@[simp] theorem schedule_marks (s : State) (d : WDst) (v : RVal) (m : KWord) (n : Nat) (b : Bool) :
    (s.schedule d v m n b).marks = s.marks := rfl
@[simp] theorem schedule_lineMeta (s : State) (d : WDst) (v : RVal) (m : KWord) (n : Nat) (b : Bool) :
    (s.schedule d v m n b).lineMeta = s.lineMeta := rfl
@[simp] theorem schedule_grades (s : State) (d : WDst) (v : RVal) (m : KWord) (n : Nat) (b : Bool) :
    (s.schedule d v m n b).grades = s.grades := rfl
@[simp] theorem schedule_ctxs (s : State) (d : WDst) (v : RVal) (m : KWord) (n : Nat) (b : Bool) :
    (s.schedule d v m n b).ctxs = s.ctxs := rfl
@[simp] theorem schedule_slots (s : State) (d : WDst) (v : RVal) (m : KWord) (n : Nat) (b : Bool) :
    (s.schedule d v m n b).slots = s.slots := rfl
@[simp] theorem schedule_hubs (s : State) (d : WDst) (v : RVal) (m : KWord) (n : Nat) (b : Bool) :
    (s.schedule d v m n b).hubs = s.hubs := rfl
@[simp] theorem schedule_net (s : State) (d : WDst) (v : RVal) (m : KWord) (n : Nat) (b : Bool) :
    (s.schedule d v m n b).net = s.net := rfl
@[simp] theorem schedule_dev (s : State) (d : WDst) (v : RVal) (m : KWord) (n : Nat) (b : Bool) :
    (s.schedule d v m n b).dev = s.dev := rfl
@[simp] theorem schedule_fw (s : State) (d : WDst) (v : RVal) (m : KWord) (n : Nat) (b : Bool) :
    (s.schedule d v m n b).fw = s.fw := rfl
@[simp] theorem schedule_hold (s : State) (d : WDst) (v : RVal) (m : KWord) (n : Nat) (b : Bool) :
    (s.schedule d v m n b).hold = s.hold := rfl
@[simp] theorem schedule_ports (s : State) (d : WDst) (v : RVal) (m : KWord) (n : Nat) (b : Bool) :
    (s.schedule d v m n b).ports = s.ports := rfl
@[simp] theorem schedule_saved (s : State) (d : WDst) (v : RVal) (m : KWord) (n : Nat) (b : Bool) :
    (s.schedule d v m n b).saved = s.saved := rfl

/-! ### arrive -/

@[simp] theorem arrive_clk (s : State) (t : Fin 144) (i : Fin 8) (d : WDst) (v : RVal) :
    (s.arrive t i d v).clk = s.clk := rfl
@[simp] theorem arrive_cur (s : State) (t : Fin 144) (i : Fin 8) (d : WDst) (v : RVal) :
    (s.arrive t i d v).cur = s.cur := rfl
@[simp] theorem arrive_agenda (s : State) (t : Fin 144) (i : Fin 8) (d : WDst) (v : RVal) :
    (s.arrive t i d v).agenda = s.agenda := rfl
@[simp] theorem arrive_freeCtr (s : State) (t : Fin 144) (i : Fin 8) (d : WDst) (v : RVal) :
    (s.arrive t i d v).freeCtr = s.freeCtr := rfl
@[simp] theorem arrive_inputs (s : State) (t : Fin 144) (i : Fin 8) (d : WDst) (v : RVal) :
    (s.arrive t i d v).inputs = s.inputs := rfl
@[simp] theorem arrive_cores (s : State) (t : Fin 144) (i : Fin 8) (d : WDst) (v : RVal) :
    (s.arrive t i d v).cores = s.cores := rfl
@[simp] theorem arrive_coreReads (s : State) (t : Fin 144) (i : Fin 8) (d : WDst) (v : RVal) :
    (s.arrive t i d v).coreReads = s.coreReads := rfl
@[simp] theorem arrive_mem (s : State) (t : Fin 144) (i : Fin 8) (d : WDst) (v : RVal) :
    (s.arrive t i d v).mem = s.mem := rfl
@[simp] theorem arrive_marks (s : State) (t : Fin 144) (i : Fin 8) (d : WDst) (v : RVal) :
    (s.arrive t i d v).marks = s.marks := rfl
@[simp] theorem arrive_lineMeta (s : State) (t : Fin 144) (i : Fin 8) (d : WDst) (v : RVal) :
    (s.arrive t i d v).lineMeta = s.lineMeta := rfl
@[simp] theorem arrive_grades (s : State) (t : Fin 144) (i : Fin 8) (d : WDst) (v : RVal) :
    (s.arrive t i d v).grades = s.grades := rfl
@[simp] theorem arrive_ctxs (s : State) (t : Fin 144) (i : Fin 8) (d : WDst) (v : RVal) :
    (s.arrive t i d v).ctxs = s.ctxs := rfl
@[simp] theorem arrive_slots (s : State) (t : Fin 144) (i : Fin 8) (d : WDst) (v : RVal) :
    (s.arrive t i d v).slots = s.slots := rfl
@[simp] theorem arrive_hubs (s : State) (t : Fin 144) (i : Fin 8) (d : WDst) (v : RVal) :
    (s.arrive t i d v).hubs = s.hubs := rfl
@[simp] theorem arrive_net (s : State) (t : Fin 144) (i : Fin 8) (d : WDst) (v : RVal) :
    (s.arrive t i d v).net = s.net := rfl
@[simp] theorem arrive_dev (s : State) (t : Fin 144) (i : Fin 8) (d : WDst) (v : RVal) :
    (s.arrive t i d v).dev = s.dev := rfl
@[simp] theorem arrive_fw (s : State) (t : Fin 144) (i : Fin 8) (d : WDst) (v : RVal) :
    (s.arrive t i d v).fw = s.fw := rfl
@[simp] theorem arrive_hold (s : State) (t : Fin 144) (i : Fin 8) (d : WDst) (v : RVal) :
    (s.arrive t i d v).hold = s.hold := rfl
@[simp] theorem arrive_ports (s : State) (t : Fin 144) (i : Fin 8) (d : WDst) (v : RVal) :
    (s.arrive t i d v).ports = s.ports := rfl
@[simp] theorem arrive_saved (s : State) (t : Fin 144) (i : Fin 8) (d : WDst) (v : RVal) :
    (s.arrive t i d v).saved = s.saved := rfl

/-! ### modCtx -/

@[simp] theorem modCtx_clk (s : State) (c : Fin 64) (f : Context → Context) :
    (s.modCtx c f).clk = s.clk := rfl
@[simp] theorem modCtx_cur (s : State) (c : Fin 64) (f : Context → Context) :
    (s.modCtx c f).cur = s.cur := rfl
@[simp] theorem modCtx_agenda (s : State) (c : Fin 64) (f : Context → Context) :
    (s.modCtx c f).agenda = s.agenda := rfl
@[simp] theorem modCtx_freeCtr (s : State) (c : Fin 64) (f : Context → Context) :
    (s.modCtx c f).freeCtr = s.freeCtr := rfl
@[simp] theorem modCtx_inputs (s : State) (c : Fin 64) (f : Context → Context) :
    (s.modCtx c f).inputs = s.inputs := rfl
@[simp] theorem modCtx_cores (s : State) (c : Fin 64) (f : Context → Context) :
    (s.modCtx c f).cores = s.cores := rfl
@[simp] theorem modCtx_coreReads (s : State) (c : Fin 64) (f : Context → Context) :
    (s.modCtx c f).coreReads = s.coreReads := rfl
@[simp] theorem modCtx_mem (s : State) (c : Fin 64) (f : Context → Context) :
    (s.modCtx c f).mem = s.mem := rfl
@[simp] theorem modCtx_marks (s : State) (c : Fin 64) (f : Context → Context) :
    (s.modCtx c f).marks = s.marks := rfl
@[simp] theorem modCtx_lineMeta (s : State) (c : Fin 64) (f : Context → Context) :
    (s.modCtx c f).lineMeta = s.lineMeta := rfl
@[simp] theorem modCtx_grades (s : State) (c : Fin 64) (f : Context → Context) :
    (s.modCtx c f).grades = s.grades := rfl
@[simp] theorem modCtx_tiles (s : State) (c : Fin 64) (f : Context → Context) :
    (s.modCtx c f).tiles = s.tiles := rfl
@[simp] theorem modCtx_slots (s : State) (c : Fin 64) (f : Context → Context) :
    (s.modCtx c f).slots = s.slots := rfl
@[simp] theorem modCtx_hubs (s : State) (c : Fin 64) (f : Context → Context) :
    (s.modCtx c f).hubs = s.hubs := rfl
@[simp] theorem modCtx_net (s : State) (c : Fin 64) (f : Context → Context) :
    (s.modCtx c f).net = s.net := rfl
@[simp] theorem modCtx_dev (s : State) (c : Fin 64) (f : Context → Context) :
    (s.modCtx c f).dev = s.dev := rfl
@[simp] theorem modCtx_fw (s : State) (c : Fin 64) (f : Context → Context) :
    (s.modCtx c f).fw = s.fw := rfl
@[simp] theorem modCtx_hold (s : State) (c : Fin 64) (f : Context → Context) :
    (s.modCtx c f).hold = s.hold := rfl
@[simp] theorem modCtx_ports (s : State) (c : Fin 64) (f : Context → Context) :
    (s.modCtx c f).ports = s.ports := rfl
@[simp] theorem modCtx_saved (s : State) (c : Fin 64) (f : Context → Context) :
    (s.modCtx c f).saved = s.saved := rfl

/-! ### modAcct -/

@[simp] theorem modAcct_clk (s : State) (c : Fin 64) (f : Account → Account) :
    (s.modAcct c f).clk = s.clk := rfl
@[simp] theorem modAcct_cur (s : State) (c : Fin 64) (f : Account → Account) :
    (s.modAcct c f).cur = s.cur := rfl
@[simp] theorem modAcct_agenda (s : State) (c : Fin 64) (f : Account → Account) :
    (s.modAcct c f).agenda = s.agenda := rfl
@[simp] theorem modAcct_freeCtr (s : State) (c : Fin 64) (f : Account → Account) :
    (s.modAcct c f).freeCtr = s.freeCtr := rfl
@[simp] theorem modAcct_inputs (s : State) (c : Fin 64) (f : Account → Account) :
    (s.modAcct c f).inputs = s.inputs := rfl
@[simp] theorem modAcct_cores (s : State) (c : Fin 64) (f : Account → Account) :
    (s.modAcct c f).cores = s.cores := rfl
@[simp] theorem modAcct_coreReads (s : State) (c : Fin 64) (f : Account → Account) :
    (s.modAcct c f).coreReads = s.coreReads := rfl
@[simp] theorem modAcct_mem (s : State) (c : Fin 64) (f : Account → Account) :
    (s.modAcct c f).mem = s.mem := rfl
@[simp] theorem modAcct_marks (s : State) (c : Fin 64) (f : Account → Account) :
    (s.modAcct c f).marks = s.marks := rfl
@[simp] theorem modAcct_lineMeta (s : State) (c : Fin 64) (f : Account → Account) :
    (s.modAcct c f).lineMeta = s.lineMeta := rfl
@[simp] theorem modAcct_grades (s : State) (c : Fin 64) (f : Account → Account) :
    (s.modAcct c f).grades = s.grades := rfl
@[simp] theorem modAcct_tiles (s : State) (c : Fin 64) (f : Account → Account) :
    (s.modAcct c f).tiles = s.tiles := rfl
@[simp] theorem modAcct_slots (s : State) (c : Fin 64) (f : Account → Account) :
    (s.modAcct c f).slots = s.slots := rfl
@[simp] theorem modAcct_hubs (s : State) (c : Fin 64) (f : Account → Account) :
    (s.modAcct c f).hubs = s.hubs := rfl
@[simp] theorem modAcct_net (s : State) (c : Fin 64) (f : Account → Account) :
    (s.modAcct c f).net = s.net := rfl
@[simp] theorem modAcct_dev (s : State) (c : Fin 64) (f : Account → Account) :
    (s.modAcct c f).dev = s.dev := rfl
@[simp] theorem modAcct_fw (s : State) (c : Fin 64) (f : Account → Account) :
    (s.modAcct c f).fw = s.fw := rfl
@[simp] theorem modAcct_hold (s : State) (c : Fin 64) (f : Account → Account) :
    (s.modAcct c f).hold = s.hold := rfl
@[simp] theorem modAcct_ports (s : State) (c : Fin 64) (f : Account → Account) :
    (s.modAcct c f).ports = s.ports := rfl
@[simp] theorem modAcct_saved (s : State) (c : Fin 64) (f : Account → Account) :
    (s.modAcct c f).saved = s.saved := rfl

/-! ### modTcb -/

@[simp] theorem modTcb_clk (s : State) (c : Fin 64) (f : Tcb → Tcb) :
    (s.modTcb c f).clk = s.clk := rfl
@[simp] theorem modTcb_cur (s : State) (c : Fin 64) (f : Tcb → Tcb) :
    (s.modTcb c f).cur = s.cur := rfl
@[simp] theorem modTcb_agenda (s : State) (c : Fin 64) (f : Tcb → Tcb) :
    (s.modTcb c f).agenda = s.agenda := rfl
@[simp] theorem modTcb_freeCtr (s : State) (c : Fin 64) (f : Tcb → Tcb) :
    (s.modTcb c f).freeCtr = s.freeCtr := rfl
@[simp] theorem modTcb_inputs (s : State) (c : Fin 64) (f : Tcb → Tcb) :
    (s.modTcb c f).inputs = s.inputs := rfl
@[simp] theorem modTcb_cores (s : State) (c : Fin 64) (f : Tcb → Tcb) :
    (s.modTcb c f).cores = s.cores := rfl
@[simp] theorem modTcb_coreReads (s : State) (c : Fin 64) (f : Tcb → Tcb) :
    (s.modTcb c f).coreReads = s.coreReads := rfl
@[simp] theorem modTcb_mem (s : State) (c : Fin 64) (f : Tcb → Tcb) :
    (s.modTcb c f).mem = s.mem := rfl
@[simp] theorem modTcb_marks (s : State) (c : Fin 64) (f : Tcb → Tcb) :
    (s.modTcb c f).marks = s.marks := rfl
@[simp] theorem modTcb_lineMeta (s : State) (c : Fin 64) (f : Tcb → Tcb) :
    (s.modTcb c f).lineMeta = s.lineMeta := rfl
@[simp] theorem modTcb_grades (s : State) (c : Fin 64) (f : Tcb → Tcb) :
    (s.modTcb c f).grades = s.grades := rfl
@[simp] theorem modTcb_tiles (s : State) (c : Fin 64) (f : Tcb → Tcb) :
    (s.modTcb c f).tiles = s.tiles := rfl
@[simp] theorem modTcb_slots (s : State) (c : Fin 64) (f : Tcb → Tcb) :
    (s.modTcb c f).slots = s.slots := rfl
@[simp] theorem modTcb_hubs (s : State) (c : Fin 64) (f : Tcb → Tcb) :
    (s.modTcb c f).hubs = s.hubs := rfl
@[simp] theorem modTcb_net (s : State) (c : Fin 64) (f : Tcb → Tcb) :
    (s.modTcb c f).net = s.net := rfl
@[simp] theorem modTcb_dev (s : State) (c : Fin 64) (f : Tcb → Tcb) :
    (s.modTcb c f).dev = s.dev := rfl
@[simp] theorem modTcb_fw (s : State) (c : Fin 64) (f : Tcb → Tcb) :
    (s.modTcb c f).fw = s.fw := rfl
@[simp] theorem modTcb_hold (s : State) (c : Fin 64) (f : Tcb → Tcb) :
    (s.modTcb c f).hold = s.hold := rfl
@[simp] theorem modTcb_ports (s : State) (c : Fin 64) (f : Tcb → Tcb) :
    (s.modTcb c f).ports = s.ports := rfl
@[simp] theorem modTcb_saved (s : State) (c : Fin 64) (f : Tcb → Tcb) :
    (s.modTcb c f).saved = s.saved := rfl

/-! ### modResume -/

@[simp] theorem modResume_clk (s : State) (c : Fin 64) (f : ResumeBlock → ResumeBlock) :
    (s.modResume c f).clk = s.clk := rfl
@[simp] theorem modResume_cur (s : State) (c : Fin 64) (f : ResumeBlock → ResumeBlock) :
    (s.modResume c f).cur = s.cur := rfl
@[simp] theorem modResume_agenda (s : State) (c : Fin 64) (f : ResumeBlock → ResumeBlock) :
    (s.modResume c f).agenda = s.agenda := rfl
@[simp] theorem modResume_freeCtr (s : State) (c : Fin 64) (f : ResumeBlock → ResumeBlock) :
    (s.modResume c f).freeCtr = s.freeCtr := rfl
@[simp] theorem modResume_inputs (s : State) (c : Fin 64) (f : ResumeBlock → ResumeBlock) :
    (s.modResume c f).inputs = s.inputs := rfl
@[simp] theorem modResume_cores (s : State) (c : Fin 64) (f : ResumeBlock → ResumeBlock) :
    (s.modResume c f).cores = s.cores := rfl
@[simp] theorem modResume_coreReads (s : State) (c : Fin 64) (f : ResumeBlock → ResumeBlock) :
    (s.modResume c f).coreReads = s.coreReads := rfl
@[simp] theorem modResume_mem (s : State) (c : Fin 64) (f : ResumeBlock → ResumeBlock) :
    (s.modResume c f).mem = s.mem := rfl
@[simp] theorem modResume_marks (s : State) (c : Fin 64) (f : ResumeBlock → ResumeBlock) :
    (s.modResume c f).marks = s.marks := rfl
@[simp] theorem modResume_lineMeta (s : State) (c : Fin 64) (f : ResumeBlock → ResumeBlock) :
    (s.modResume c f).lineMeta = s.lineMeta := rfl
@[simp] theorem modResume_grades (s : State) (c : Fin 64) (f : ResumeBlock → ResumeBlock) :
    (s.modResume c f).grades = s.grades := rfl
@[simp] theorem modResume_tiles (s : State) (c : Fin 64) (f : ResumeBlock → ResumeBlock) :
    (s.modResume c f).tiles = s.tiles := rfl
@[simp] theorem modResume_slots (s : State) (c : Fin 64) (f : ResumeBlock → ResumeBlock) :
    (s.modResume c f).slots = s.slots := rfl
@[simp] theorem modResume_hubs (s : State) (c : Fin 64) (f : ResumeBlock → ResumeBlock) :
    (s.modResume c f).hubs = s.hubs := rfl
@[simp] theorem modResume_net (s : State) (c : Fin 64) (f : ResumeBlock → ResumeBlock) :
    (s.modResume c f).net = s.net := rfl
@[simp] theorem modResume_dev (s : State) (c : Fin 64) (f : ResumeBlock → ResumeBlock) :
    (s.modResume c f).dev = s.dev := rfl
@[simp] theorem modResume_fw (s : State) (c : Fin 64) (f : ResumeBlock → ResumeBlock) :
    (s.modResume c f).fw = s.fw := rfl
@[simp] theorem modResume_hold (s : State) (c : Fin 64) (f : ResumeBlock → ResumeBlock) :
    (s.modResume c f).hold = s.hold := rfl
@[simp] theorem modResume_ports (s : State) (c : Fin 64) (f : ResumeBlock → ResumeBlock) :
    (s.modResume c f).ports = s.ports := rfl
@[simp] theorem modResume_saved (s : State) (c : Fin 64) (f : ResumeBlock → ResumeBlock) :
    (s.modResume c f).saved = s.saved := rfl

/-! ### modImage -/

@[simp] theorem modImage_clk (s : State) (c i : Fin 64) (f : ImageSlot → ImageSlot) :
    (s.modImage c i f).clk = s.clk := rfl
@[simp] theorem modImage_cur (s : State) (c i : Fin 64) (f : ImageSlot → ImageSlot) :
    (s.modImage c i f).cur = s.cur := rfl
@[simp] theorem modImage_agenda (s : State) (c i : Fin 64) (f : ImageSlot → ImageSlot) :
    (s.modImage c i f).agenda = s.agenda := rfl
@[simp] theorem modImage_freeCtr (s : State) (c i : Fin 64) (f : ImageSlot → ImageSlot) :
    (s.modImage c i f).freeCtr = s.freeCtr := rfl
@[simp] theorem modImage_inputs (s : State) (c i : Fin 64) (f : ImageSlot → ImageSlot) :
    (s.modImage c i f).inputs = s.inputs := rfl
@[simp] theorem modImage_cores (s : State) (c i : Fin 64) (f : ImageSlot → ImageSlot) :
    (s.modImage c i f).cores = s.cores := rfl
@[simp] theorem modImage_coreReads (s : State) (c i : Fin 64) (f : ImageSlot → ImageSlot) :
    (s.modImage c i f).coreReads = s.coreReads := rfl
@[simp] theorem modImage_mem (s : State) (c i : Fin 64) (f : ImageSlot → ImageSlot) :
    (s.modImage c i f).mem = s.mem := rfl
@[simp] theorem modImage_marks (s : State) (c i : Fin 64) (f : ImageSlot → ImageSlot) :
    (s.modImage c i f).marks = s.marks := rfl
@[simp] theorem modImage_lineMeta (s : State) (c i : Fin 64) (f : ImageSlot → ImageSlot) :
    (s.modImage c i f).lineMeta = s.lineMeta := rfl
@[simp] theorem modImage_grades (s : State) (c i : Fin 64) (f : ImageSlot → ImageSlot) :
    (s.modImage c i f).grades = s.grades := rfl
@[simp] theorem modImage_tiles (s : State) (c i : Fin 64) (f : ImageSlot → ImageSlot) :
    (s.modImage c i f).tiles = s.tiles := rfl
@[simp] theorem modImage_slots (s : State) (c i : Fin 64) (f : ImageSlot → ImageSlot) :
    (s.modImage c i f).slots = s.slots := rfl
@[simp] theorem modImage_hubs (s : State) (c i : Fin 64) (f : ImageSlot → ImageSlot) :
    (s.modImage c i f).hubs = s.hubs := rfl
@[simp] theorem modImage_net (s : State) (c i : Fin 64) (f : ImageSlot → ImageSlot) :
    (s.modImage c i f).net = s.net := rfl
@[simp] theorem modImage_dev (s : State) (c i : Fin 64) (f : ImageSlot → ImageSlot) :
    (s.modImage c i f).dev = s.dev := rfl
@[simp] theorem modImage_fw (s : State) (c i : Fin 64) (f : ImageSlot → ImageSlot) :
    (s.modImage c i f).fw = s.fw := rfl
@[simp] theorem modImage_hold (s : State) (c i : Fin 64) (f : ImageSlot → ImageSlot) :
    (s.modImage c i f).hold = s.hold := rfl
@[simp] theorem modImage_ports (s : State) (c i : Fin 64) (f : ImageSlot → ImageSlot) :
    (s.modImage c i f).ports = s.ports := rfl
@[simp] theorem modImage_saved (s : State) (c i : Fin 64) (f : ImageSlot → ImageSlot) :
    (s.modImage c i f).saved = s.saved := rfl

/-! ### modLive -/

@[simp] theorem modLive_clk (s : State) (n : Fin 16) (f : Live → Live) :
    (s.modLive n f).clk = s.clk := rfl
@[simp] theorem modLive_cur (s : State) (n : Fin 16) (f : Live → Live) :
    (s.modLive n f).cur = s.cur := rfl
@[simp] theorem modLive_agenda (s : State) (n : Fin 16) (f : Live → Live) :
    (s.modLive n f).agenda = s.agenda := rfl
@[simp] theorem modLive_freeCtr (s : State) (n : Fin 16) (f : Live → Live) :
    (s.modLive n f).freeCtr = s.freeCtr := rfl
@[simp] theorem modLive_inputs (s : State) (n : Fin 16) (f : Live → Live) :
    (s.modLive n f).inputs = s.inputs := rfl
@[simp] theorem modLive_cores (s : State) (n : Fin 16) (f : Live → Live) :
    (s.modLive n f).cores = s.cores := rfl
@[simp] theorem modLive_coreReads (s : State) (n : Fin 16) (f : Live → Live) :
    (s.modLive n f).coreReads = s.coreReads := rfl
@[simp] theorem modLive_mem (s : State) (n : Fin 16) (f : Live → Live) :
    (s.modLive n f).mem = s.mem := rfl
@[simp] theorem modLive_marks (s : State) (n : Fin 16) (f : Live → Live) :
    (s.modLive n f).marks = s.marks := rfl
@[simp] theorem modLive_lineMeta (s : State) (n : Fin 16) (f : Live → Live) :
    (s.modLive n f).lineMeta = s.lineMeta := rfl
@[simp] theorem modLive_grades (s : State) (n : Fin 16) (f : Live → Live) :
    (s.modLive n f).grades = s.grades := rfl
@[simp] theorem modLive_tiles (s : State) (n : Fin 16) (f : Live → Live) :
    (s.modLive n f).tiles = s.tiles := rfl
@[simp] theorem modLive_ctxs (s : State) (n : Fin 16) (f : Live → Live) :
    (s.modLive n f).ctxs = s.ctxs := rfl
@[simp] theorem modLive_hubs (s : State) (n : Fin 16) (f : Live → Live) :
    (s.modLive n f).hubs = s.hubs := rfl
@[simp] theorem modLive_net (s : State) (n : Fin 16) (f : Live → Live) :
    (s.modLive n f).net = s.net := rfl
@[simp] theorem modLive_dev (s : State) (n : Fin 16) (f : Live → Live) :
    (s.modLive n f).dev = s.dev := rfl
@[simp] theorem modLive_fw (s : State) (n : Fin 16) (f : Live → Live) :
    (s.modLive n f).fw = s.fw := rfl
@[simp] theorem modLive_hold (s : State) (n : Fin 16) (f : Live → Live) :
    (s.modLive n f).hold = s.hold := rfl
@[simp] theorem modLive_ports (s : State) (n : Fin 16) (f : Live → Live) :
    (s.modLive n f).ports = s.ports := rfl
@[simp] theorem modLive_saved (s : State) (n : Fin 16) (f : Live → Live) :
    (s.modLive n f).saved = s.saved := rfl

/-! ### clearMarks -/

@[simp] theorem clearMarks_clk (s : State) (a n g : Nat) :
    (s.clearMarks a n g).clk = s.clk := rfl
@[simp] theorem clearMarks_cur (s : State) (a n g : Nat) :
    (s.clearMarks a n g).cur = s.cur := rfl
@[simp] theorem clearMarks_agenda (s : State) (a n g : Nat) :
    (s.clearMarks a n g).agenda = s.agenda := rfl
@[simp] theorem clearMarks_freeCtr (s : State) (a n g : Nat) :
    (s.clearMarks a n g).freeCtr = s.freeCtr := rfl
@[simp] theorem clearMarks_inputs (s : State) (a n g : Nat) :
    (s.clearMarks a n g).inputs = s.inputs := rfl
@[simp] theorem clearMarks_cores (s : State) (a n g : Nat) :
    (s.clearMarks a n g).cores = s.cores := rfl
@[simp] theorem clearMarks_coreReads (s : State) (a n g : Nat) :
    (s.clearMarks a n g).coreReads = s.coreReads := rfl
@[simp] theorem clearMarks_mem (s : State) (a n g : Nat) :
    (s.clearMarks a n g).mem = s.mem := rfl
@[simp] theorem clearMarks_lineMeta (s : State) (a n g : Nat) :
    (s.clearMarks a n g).lineMeta = s.lineMeta := rfl
@[simp] theorem clearMarks_grades (s : State) (a n g : Nat) :
    (s.clearMarks a n g).grades = s.grades := rfl
@[simp] theorem clearMarks_tiles (s : State) (a n g : Nat) :
    (s.clearMarks a n g).tiles = s.tiles := rfl
@[simp] theorem clearMarks_ctxs (s : State) (a n g : Nat) :
    (s.clearMarks a n g).ctxs = s.ctxs := rfl
@[simp] theorem clearMarks_slots (s : State) (a n g : Nat) :
    (s.clearMarks a n g).slots = s.slots := rfl
@[simp] theorem clearMarks_hubs (s : State) (a n g : Nat) :
    (s.clearMarks a n g).hubs = s.hubs := rfl
@[simp] theorem clearMarks_net (s : State) (a n g : Nat) :
    (s.clearMarks a n g).net = s.net := rfl
@[simp] theorem clearMarks_dev (s : State) (a n g : Nat) :
    (s.clearMarks a n g).dev = s.dev := rfl
@[simp] theorem clearMarks_fw (s : State) (a n g : Nat) :
    (s.clearMarks a n g).fw = s.fw := rfl
@[simp] theorem clearMarks_hold (s : State) (a n g : Nat) :
    (s.clearMarks a n g).hold = s.hold := rfl
@[simp] theorem clearMarks_ports (s : State) (a n g : Nat) :
    (s.clearMarks a n g).ports = s.ports := rfl
@[simp] theorem clearMarks_saved (s : State) (a n g : Nat) :
    (s.clearMarks a n g).saved = s.saved := rfl

/-! ### setMark -/

@[simp] theorem setMark_clk (s : State) (a : Nat) :
    (s.setMark a).clk = s.clk := rfl
@[simp] theorem setMark_cur (s : State) (a : Nat) :
    (s.setMark a).cur = s.cur := rfl
@[simp] theorem setMark_agenda (s : State) (a : Nat) :
    (s.setMark a).agenda = s.agenda := rfl
@[simp] theorem setMark_freeCtr (s : State) (a : Nat) :
    (s.setMark a).freeCtr = s.freeCtr := rfl
@[simp] theorem setMark_inputs (s : State) (a : Nat) :
    (s.setMark a).inputs = s.inputs := rfl
@[simp] theorem setMark_cores (s : State) (a : Nat) :
    (s.setMark a).cores = s.cores := rfl
@[simp] theorem setMark_coreReads (s : State) (a : Nat) :
    (s.setMark a).coreReads = s.coreReads := rfl
@[simp] theorem setMark_mem (s : State) (a : Nat) :
    (s.setMark a).mem = s.mem := rfl
@[simp] theorem setMark_lineMeta (s : State) (a : Nat) :
    (s.setMark a).lineMeta = s.lineMeta := rfl
@[simp] theorem setMark_grades (s : State) (a : Nat) :
    (s.setMark a).grades = s.grades := rfl
@[simp] theorem setMark_tiles (s : State) (a : Nat) :
    (s.setMark a).tiles = s.tiles := rfl
@[simp] theorem setMark_ctxs (s : State) (a : Nat) :
    (s.setMark a).ctxs = s.ctxs := rfl
@[simp] theorem setMark_slots (s : State) (a : Nat) :
    (s.setMark a).slots = s.slots := rfl
@[simp] theorem setMark_hubs (s : State) (a : Nat) :
    (s.setMark a).hubs = s.hubs := rfl
@[simp] theorem setMark_net (s : State) (a : Nat) :
    (s.setMark a).net = s.net := rfl
@[simp] theorem setMark_dev (s : State) (a : Nat) :
    (s.setMark a).dev = s.dev := rfl
@[simp] theorem setMark_fw (s : State) (a : Nat) :
    (s.setMark a).fw = s.fw := rfl
@[simp] theorem setMark_hold (s : State) (a : Nat) :
    (s.setMark a).hold = s.hold := rfl
@[simp] theorem setMark_ports (s : State) (a : Nat) :
    (s.setMark a).ports = s.ports := rfl
@[simp] theorem setMark_saved (s : State) (a : Nat) :
    (s.setMark a).saved = s.saved := rfl

/-! ### store -/

@[simp] theorem store_clk (s : State) (a n g v : Nat) :
    (s.store a n g v).clk = s.clk := rfl
@[simp] theorem store_cur (s : State) (a n g v : Nat) :
    (s.store a n g v).cur = s.cur := rfl
@[simp] theorem store_agenda (s : State) (a n g v : Nat) :
    (s.store a n g v).agenda = s.agenda := rfl
@[simp] theorem store_freeCtr (s : State) (a n g v : Nat) :
    (s.store a n g v).freeCtr = s.freeCtr := rfl
@[simp] theorem store_inputs (s : State) (a n g v : Nat) :
    (s.store a n g v).inputs = s.inputs := rfl
@[simp] theorem store_cores (s : State) (a n g v : Nat) :
    (s.store a n g v).cores = s.cores := rfl
@[simp] theorem store_coreReads (s : State) (a n g v : Nat) :
    (s.store a n g v).coreReads = s.coreReads := rfl
@[simp] theorem store_lineMeta (s : State) (a n g v : Nat) :
    (s.store a n g v).lineMeta = s.lineMeta := rfl
@[simp] theorem store_grades (s : State) (a n g v : Nat) :
    (s.store a n g v).grades = s.grades := rfl
@[simp] theorem store_tiles (s : State) (a n g v : Nat) :
    (s.store a n g v).tiles = s.tiles := rfl
@[simp] theorem store_ctxs (s : State) (a n g v : Nat) :
    (s.store a n g v).ctxs = s.ctxs := rfl
@[simp] theorem store_slots (s : State) (a n g v : Nat) :
    (s.store a n g v).slots = s.slots := rfl
@[simp] theorem store_hubs (s : State) (a n g v : Nat) :
    (s.store a n g v).hubs = s.hubs := rfl
@[simp] theorem store_net (s : State) (a n g v : Nat) :
    (s.store a n g v).net = s.net := rfl
@[simp] theorem store_dev (s : State) (a n g v : Nat) :
    (s.store a n g v).dev = s.dev := rfl
@[simp] theorem store_fw (s : State) (a n g v : Nat) :
    (s.store a n g v).fw = s.fw := rfl
@[simp] theorem store_hold (s : State) (a n g v : Nat) :
    (s.store a n g v).hold = s.hold := rfl
@[simp] theorem store_ports (s : State) (a n g v : Nat) :
    (s.store a n g v).ports = s.ports := rfl
@[simp] theorem store_saved (s : State) (a n g v : Nat) :
    (s.store a n g v).saved = s.saved := rfl

/-! ### storeBytes -/

@[simp] theorem storeBytes_clk (s : State) (a g : Nat) (l : List Byte) :
    (s.storeBytes a g l).clk = s.clk := rfl
@[simp] theorem storeBytes_cur (s : State) (a g : Nat) (l : List Byte) :
    (s.storeBytes a g l).cur = s.cur := rfl
@[simp] theorem storeBytes_agenda (s : State) (a g : Nat) (l : List Byte) :
    (s.storeBytes a g l).agenda = s.agenda := rfl
@[simp] theorem storeBytes_freeCtr (s : State) (a g : Nat) (l : List Byte) :
    (s.storeBytes a g l).freeCtr = s.freeCtr := rfl
@[simp] theorem storeBytes_inputs (s : State) (a g : Nat) (l : List Byte) :
    (s.storeBytes a g l).inputs = s.inputs := rfl
@[simp] theorem storeBytes_cores (s : State) (a g : Nat) (l : List Byte) :
    (s.storeBytes a g l).cores = s.cores := rfl
@[simp] theorem storeBytes_coreReads (s : State) (a g : Nat) (l : List Byte) :
    (s.storeBytes a g l).coreReads = s.coreReads := rfl
@[simp] theorem storeBytes_lineMeta (s : State) (a g : Nat) (l : List Byte) :
    (s.storeBytes a g l).lineMeta = s.lineMeta := rfl
@[simp] theorem storeBytes_grades (s : State) (a g : Nat) (l : List Byte) :
    (s.storeBytes a g l).grades = s.grades := rfl
@[simp] theorem storeBytes_tiles (s : State) (a g : Nat) (l : List Byte) :
    (s.storeBytes a g l).tiles = s.tiles := rfl
@[simp] theorem storeBytes_ctxs (s : State) (a g : Nat) (l : List Byte) :
    (s.storeBytes a g l).ctxs = s.ctxs := rfl
@[simp] theorem storeBytes_slots (s : State) (a g : Nat) (l : List Byte) :
    (s.storeBytes a g l).slots = s.slots := rfl
@[simp] theorem storeBytes_hubs (s : State) (a g : Nat) (l : List Byte) :
    (s.storeBytes a g l).hubs = s.hubs := rfl
@[simp] theorem storeBytes_net (s : State) (a g : Nat) (l : List Byte) :
    (s.storeBytes a g l).net = s.net := rfl
@[simp] theorem storeBytes_dev (s : State) (a g : Nat) (l : List Byte) :
    (s.storeBytes a g l).dev = s.dev := rfl
@[simp] theorem storeBytes_fw (s : State) (a g : Nat) (l : List Byte) :
    (s.storeBytes a g l).fw = s.fw := rfl
@[simp] theorem storeBytes_hold (s : State) (a g : Nat) (l : List Byte) :
    (s.storeBytes a g l).hold = s.hold := rfl
@[simp] theorem storeBytes_ports (s : State) (a g : Nat) (l : List Byte) :
    (s.storeBytes a g l).ports = s.ports := rfl
@[simp] theorem storeBytes_saved (s : State) (a g : Nat) (l : List Byte) :
    (s.storeBytes a g l).saved = s.saved := rfl

/-! ### setPort -/

@[simp] theorem setPort_clk (s : State) (p : Fin 16) (x : Port) :
    (s.setPort p x).clk = s.clk := rfl
@[simp] theorem setPort_cur (s : State) (p : Fin 16) (x : Port) :
    (s.setPort p x).cur = s.cur := rfl
@[simp] theorem setPort_agenda (s : State) (p : Fin 16) (x : Port) :
    (s.setPort p x).agenda = s.agenda := rfl
@[simp] theorem setPort_freeCtr (s : State) (p : Fin 16) (x : Port) :
    (s.setPort p x).freeCtr = s.freeCtr := rfl
@[simp] theorem setPort_inputs (s : State) (p : Fin 16) (x : Port) :
    (s.setPort p x).inputs = s.inputs := rfl
@[simp] theorem setPort_cores (s : State) (p : Fin 16) (x : Port) :
    (s.setPort p x).cores = s.cores := rfl
@[simp] theorem setPort_coreReads (s : State) (p : Fin 16) (x : Port) :
    (s.setPort p x).coreReads = s.coreReads := rfl
@[simp] theorem setPort_mem (s : State) (p : Fin 16) (x : Port) :
    (s.setPort p x).mem = s.mem := rfl
@[simp] theorem setPort_marks (s : State) (p : Fin 16) (x : Port) :
    (s.setPort p x).marks = s.marks := rfl
@[simp] theorem setPort_lineMeta (s : State) (p : Fin 16) (x : Port) :
    (s.setPort p x).lineMeta = s.lineMeta := rfl
@[simp] theorem setPort_grades (s : State) (p : Fin 16) (x : Port) :
    (s.setPort p x).grades = s.grades := rfl
@[simp] theorem setPort_tiles (s : State) (p : Fin 16) (x : Port) :
    (s.setPort p x).tiles = s.tiles := rfl
@[simp] theorem setPort_ctxs (s : State) (p : Fin 16) (x : Port) :
    (s.setPort p x).ctxs = s.ctxs := rfl
@[simp] theorem setPort_slots (s : State) (p : Fin 16) (x : Port) :
    (s.setPort p x).slots = s.slots := rfl
@[simp] theorem setPort_hubs (s : State) (p : Fin 16) (x : Port) :
    (s.setPort p x).hubs = s.hubs := rfl
@[simp] theorem setPort_net (s : State) (p : Fin 16) (x : Port) :
    (s.setPort p x).net = s.net := rfl
@[simp] theorem setPort_dev (s : State) (p : Fin 16) (x : Port) :
    (s.setPort p x).dev = s.dev := rfl
@[simp] theorem setPort_fw (s : State) (p : Fin 16) (x : Port) :
    (s.setPort p x).fw = s.fw := rfl
@[simp] theorem setPort_hold (s : State) (p : Fin 16) (x : Port) :
    (s.setPort p x).hold = s.hold := rfl
@[simp] theorem setPort_saved (s : State) (p : Fin 16) (x : Port) :
    (s.setPort p x).saved = s.saved := rfl

/-! ### modHot -/

@[simp] theorem modHot_clk (s : State) (f : Hot → Hot) :
    (s.modHot f).clk = s.clk := rfl
@[simp] theorem modHot_cur (s : State) (f : Hot → Hot) :
    (s.modHot f).cur = s.cur := rfl
@[simp] theorem modHot_agenda (s : State) (f : Hot → Hot) :
    (s.modHot f).agenda = s.agenda := rfl
@[simp] theorem modHot_freeCtr (s : State) (f : Hot → Hot) :
    (s.modHot f).freeCtr = s.freeCtr := rfl
@[simp] theorem modHot_inputs (s : State) (f : Hot → Hot) :
    (s.modHot f).inputs = s.inputs := rfl
@[simp] theorem modHot_cores (s : State) (f : Hot → Hot) :
    (s.modHot f).cores = s.cores := rfl
@[simp] theorem modHot_coreReads (s : State) (f : Hot → Hot) :
    (s.modHot f).coreReads = s.coreReads := rfl
@[simp] theorem modHot_mem (s : State) (f : Hot → Hot) :
    (s.modHot f).mem = s.mem := rfl
@[simp] theorem modHot_marks (s : State) (f : Hot → Hot) :
    (s.modHot f).marks = s.marks := rfl
@[simp] theorem modHot_lineMeta (s : State) (f : Hot → Hot) :
    (s.modHot f).lineMeta = s.lineMeta := rfl
@[simp] theorem modHot_grades (s : State) (f : Hot → Hot) :
    (s.modHot f).grades = s.grades := rfl
@[simp] theorem modHot_tiles (s : State) (f : Hot → Hot) :
    (s.modHot f).tiles = s.tiles := rfl
@[simp] theorem modHot_ctxs (s : State) (f : Hot → Hot) :
    (s.modHot f).ctxs = s.ctxs := rfl
@[simp] theorem modHot_slots (s : State) (f : Hot → Hot) :
    (s.modHot f).slots = s.slots := rfl
@[simp] theorem modHot_hubs (s : State) (f : Hot → Hot) :
    (s.modHot f).hubs = s.hubs := rfl
@[simp] theorem modHot_net (s : State) (f : Hot → Hot) :
    (s.modHot f).net = s.net := rfl
@[simp] theorem modHot_fw (s : State) (f : Hot → Hot) :
    (s.modHot f).fw = s.fw := rfl
@[simp] theorem modHot_hold (s : State) (f : Hot → Hot) :
    (s.modHot f).hold = s.hold := rfl
@[simp] theorem modHot_ports (s : State) (f : Hot → Hot) :
    (s.modHot f).ports = s.ports := rfl
@[simp] theorem modHot_saved (s : State) (f : Hot → Hot) :
    (s.modHot f).saved = s.saved := rfl

/-! ### setMigration -/

@[simp] theorem setMigration_clk (s : State) (i : Nat) (m : Migration) :
    (s.setMigration i m).clk = s.clk := rfl
@[simp] theorem setMigration_cur (s : State) (i : Nat) (m : Migration) :
    (s.setMigration i m).cur = s.cur := rfl
@[simp] theorem setMigration_agenda (s : State) (i : Nat) (m : Migration) :
    (s.setMigration i m).agenda = s.agenda := rfl
@[simp] theorem setMigration_freeCtr (s : State) (i : Nat) (m : Migration) :
    (s.setMigration i m).freeCtr = s.freeCtr := rfl
@[simp] theorem setMigration_inputs (s : State) (i : Nat) (m : Migration) :
    (s.setMigration i m).inputs = s.inputs := rfl
@[simp] theorem setMigration_cores (s : State) (i : Nat) (m : Migration) :
    (s.setMigration i m).cores = s.cores := rfl
@[simp] theorem setMigration_coreReads (s : State) (i : Nat) (m : Migration) :
    (s.setMigration i m).coreReads = s.coreReads := rfl
@[simp] theorem setMigration_mem (s : State) (i : Nat) (m : Migration) :
    (s.setMigration i m).mem = s.mem := rfl
@[simp] theorem setMigration_marks (s : State) (i : Nat) (m : Migration) :
    (s.setMigration i m).marks = s.marks := rfl
@[simp] theorem setMigration_lineMeta (s : State) (i : Nat) (m : Migration) :
    (s.setMigration i m).lineMeta = s.lineMeta := rfl
@[simp] theorem setMigration_grades (s : State) (i : Nat) (m : Migration) :
    (s.setMigration i m).grades = s.grades := rfl
@[simp] theorem setMigration_tiles (s : State) (i : Nat) (m : Migration) :
    (s.setMigration i m).tiles = s.tiles := rfl
@[simp] theorem setMigration_ctxs (s : State) (i : Nat) (m : Migration) :
    (s.setMigration i m).ctxs = s.ctxs := rfl
@[simp] theorem setMigration_slots (s : State) (i : Nat) (m : Migration) :
    (s.setMigration i m).slots = s.slots := rfl
@[simp] theorem setMigration_hubs (s : State) (i : Nat) (m : Migration) :
    (s.setMigration i m).hubs = s.hubs := rfl
@[simp] theorem setMigration_net (s : State) (i : Nat) (m : Migration) :
    (s.setMigration i m).net = s.net := rfl
@[simp] theorem setMigration_fw (s : State) (i : Nat) (m : Migration) :
    (s.setMigration i m).fw = s.fw := rfl
@[simp] theorem setMigration_hold (s : State) (i : Nat) (m : Migration) :
    (s.setMigration i m).hold = s.hold := rfl
@[simp] theorem setMigration_ports (s : State) (i : Nat) (m : Migration) :
    (s.setMigration i m).ports = s.ports := rfl
@[simp] theorem setMigration_saved (s : State) (i : Nat) (m : Migration) :
    (s.setMigration i m).saved = s.saved := rfl

/-! ### irq -/

@[simp] theorem irq_clk (s : State) (n : Nat) :
    (s.irq n).clk = s.clk := rfl
@[simp] theorem irq_cur (s : State) (n : Nat) :
    (s.irq n).cur = s.cur := rfl
@[simp] theorem irq_agenda (s : State) (n : Nat) :
    (s.irq n).agenda = s.agenda := rfl
@[simp] theorem irq_freeCtr (s : State) (n : Nat) :
    (s.irq n).freeCtr = s.freeCtr := rfl
@[simp] theorem irq_inputs (s : State) (n : Nat) :
    (s.irq n).inputs = s.inputs := rfl
@[simp] theorem irq_cores (s : State) (n : Nat) :
    (s.irq n).cores = s.cores := rfl
@[simp] theorem irq_coreReads (s : State) (n : Nat) :
    (s.irq n).coreReads = s.coreReads := rfl
@[simp] theorem irq_mem (s : State) (n : Nat) :
    (s.irq n).mem = s.mem := rfl
@[simp] theorem irq_marks (s : State) (n : Nat) :
    (s.irq n).marks = s.marks := rfl
@[simp] theorem irq_lineMeta (s : State) (n : Nat) :
    (s.irq n).lineMeta = s.lineMeta := rfl
@[simp] theorem irq_grades (s : State) (n : Nat) :
    (s.irq n).grades = s.grades := rfl
@[simp] theorem irq_tiles (s : State) (n : Nat) :
    (s.irq n).tiles = s.tiles := rfl
@[simp] theorem irq_ctxs (s : State) (n : Nat) :
    (s.irq n).ctxs = s.ctxs := rfl
@[simp] theorem irq_slots (s : State) (n : Nat) :
    (s.irq n).slots = s.slots := rfl
@[simp] theorem irq_hubs (s : State) (n : Nat) :
    (s.irq n).hubs = s.hubs := rfl
@[simp] theorem irq_net (s : State) (n : Nat) :
    (s.irq n).net = s.net := rfl
@[simp] theorem irq_fw (s : State) (n : Nat) :
    (s.irq n).fw = s.fw := rfl
@[simp] theorem irq_hold (s : State) (n : Nat) :
    (s.irq n).hold = s.hold := rfl
@[simp] theorem irq_ports (s : State) (n : Nat) :
    (s.irq n).ports = s.ports := rfl
@[simp] theorem irq_saved (s : State) (n : Nat) :
    (s.irq n).saved = s.saved := rfl

/-! ### report -/

@[simp] theorem report_clk (s : State) (a b : Nat) :
    (s.report a b).clk = s.clk := rfl
@[simp] theorem report_cur (s : State) (a b : Nat) :
    (s.report a b).cur = s.cur := rfl
@[simp] theorem report_agenda (s : State) (a b : Nat) :
    (s.report a b).agenda = s.agenda := rfl
@[simp] theorem report_freeCtr (s : State) (a b : Nat) :
    (s.report a b).freeCtr = s.freeCtr := rfl
@[simp] theorem report_inputs (s : State) (a b : Nat) :
    (s.report a b).inputs = s.inputs := rfl
@[simp] theorem report_cores (s : State) (a b : Nat) :
    (s.report a b).cores = s.cores := rfl
@[simp] theorem report_coreReads (s : State) (a b : Nat) :
    (s.report a b).coreReads = s.coreReads := rfl
@[simp] theorem report_mem (s : State) (a b : Nat) :
    (s.report a b).mem = s.mem := rfl
@[simp] theorem report_marks (s : State) (a b : Nat) :
    (s.report a b).marks = s.marks := rfl
@[simp] theorem report_lineMeta (s : State) (a b : Nat) :
    (s.report a b).lineMeta = s.lineMeta := rfl
@[simp] theorem report_grades (s : State) (a b : Nat) :
    (s.report a b).grades = s.grades := rfl
@[simp] theorem report_tiles (s : State) (a b : Nat) :
    (s.report a b).tiles = s.tiles := rfl
@[simp] theorem report_ctxs (s : State) (a b : Nat) :
    (s.report a b).ctxs = s.ctxs := rfl
@[simp] theorem report_slots (s : State) (a b : Nat) :
    (s.report a b).slots = s.slots := rfl
@[simp] theorem report_hubs (s : State) (a b : Nat) :
    (s.report a b).hubs = s.hubs := rfl
@[simp] theorem report_net (s : State) (a b : Nat) :
    (s.report a b).net = s.net := rfl
@[simp] theorem report_fw (s : State) (a b : Nat) :
    (s.report a b).fw = s.fw := rfl
@[simp] theorem report_hold (s : State) (a b : Nat) :
    (s.report a b).hold = s.hold := rfl
@[simp] theorem report_ports (s : State) (a b : Nat) :
    (s.report a b).ports = s.ports := rfl
@[simp] theorem report_saved (s : State) (a b : Nat) :
    (s.report a b).saved = s.saved := rfl

/-! ### detect -/

@[simp] theorem detect_clk (s : State) (t : Fin 144) (g pc : Nat) (r : Trap) (w : Word) :
    (s.detect t g pc r w).clk = s.clk := rfl
@[simp] theorem detect_cur (s : State) (t : Fin 144) (g pc : Nat) (r : Trap) (w : Word) :
    (s.detect t g pc r w).cur = s.cur := rfl
@[simp] theorem detect_agenda (s : State) (t : Fin 144) (g pc : Nat) (r : Trap) (w : Word) :
    (s.detect t g pc r w).agenda = s.agenda := rfl
@[simp] theorem detect_freeCtr (s : State) (t : Fin 144) (g pc : Nat) (r : Trap) (w : Word) :
    (s.detect t g pc r w).freeCtr = s.freeCtr := rfl
@[simp] theorem detect_inputs (s : State) (t : Fin 144) (g pc : Nat) (r : Trap) (w : Word) :
    (s.detect t g pc r w).inputs = s.inputs := rfl
@[simp] theorem detect_cores (s : State) (t : Fin 144) (g pc : Nat) (r : Trap) (w : Word) :
    (s.detect t g pc r w).cores = s.cores := rfl
@[simp] theorem detect_coreReads (s : State) (t : Fin 144) (g pc : Nat) (r : Trap) (w : Word) :
    (s.detect t g pc r w).coreReads = s.coreReads := rfl
@[simp] theorem detect_mem (s : State) (t : Fin 144) (g pc : Nat) (r : Trap) (w : Word) :
    (s.detect t g pc r w).mem = s.mem := rfl
@[simp] theorem detect_marks (s : State) (t : Fin 144) (g pc : Nat) (r : Trap) (w : Word) :
    (s.detect t g pc r w).marks = s.marks := rfl
@[simp] theorem detect_lineMeta (s : State) (t : Fin 144) (g pc : Nat) (r : Trap) (w : Word) :
    (s.detect t g pc r w).lineMeta = s.lineMeta := rfl
@[simp] theorem detect_grades (s : State) (t : Fin 144) (g pc : Nat) (r : Trap) (w : Word) :
    (s.detect t g pc r w).grades = s.grades := rfl
@[simp] theorem detect_tiles (s : State) (t : Fin 144) (g pc : Nat) (r : Trap) (w : Word) :
    (s.detect t g pc r w).tiles = s.tiles := rfl
@[simp] theorem detect_ctxs (s : State) (t : Fin 144) (g pc : Nat) (r : Trap) (w : Word) :
    (s.detect t g pc r w).ctxs = s.ctxs := rfl
@[simp] theorem detect_slots (s : State) (t : Fin 144) (g pc : Nat) (r : Trap) (w : Word) :
    (s.detect t g pc r w).slots = s.slots := rfl
@[simp] theorem detect_hubs (s : State) (t : Fin 144) (g pc : Nat) (r : Trap) (w : Word) :
    (s.detect t g pc r w).hubs = s.hubs := rfl
@[simp] theorem detect_net (s : State) (t : Fin 144) (g pc : Nat) (r : Trap) (w : Word) :
    (s.detect t g pc r w).net = s.net := rfl
@[simp] theorem detect_fw (s : State) (t : Fin 144) (g pc : Nat) (r : Trap) (w : Word) :
    (s.detect t g pc r w).fw = s.fw := rfl
@[simp] theorem detect_hold (s : State) (t : Fin 144) (g pc : Nat) (r : Trap) (w : Word) :
    (s.detect t g pc r w).hold = s.hold := rfl
@[simp] theorem detect_ports (s : State) (t : Fin 144) (g pc : Nat) (r : Trap) (w : Word) :
    (s.detect t g pc r w).ports = s.ports := rfl
@[simp] theorem detect_saved (s : State) (t : Fin 144) (g pc : Nat) (r : Trap) (w : Word) :
    (s.detect t g pc r w).saved = s.saved := rfl

/-! ### push -/

@[simp] theorem push_clk (s : State) (l : List Turn) :
    (s.push l).clk = s.clk := rfl
@[simp] theorem push_cur (s : State) (l : List Turn) :
    (s.push l).cur = s.cur := rfl
@[simp] theorem push_freeCtr (s : State) (l : List Turn) :
    (s.push l).freeCtr = s.freeCtr := rfl
@[simp] theorem push_inputs (s : State) (l : List Turn) :
    (s.push l).inputs = s.inputs := rfl
@[simp] theorem push_cores (s : State) (l : List Turn) :
    (s.push l).cores = s.cores := rfl
@[simp] theorem push_coreReads (s : State) (l : List Turn) :
    (s.push l).coreReads = s.coreReads := rfl
@[simp] theorem push_mem (s : State) (l : List Turn) :
    (s.push l).mem = s.mem := rfl
@[simp] theorem push_marks (s : State) (l : List Turn) :
    (s.push l).marks = s.marks := rfl
@[simp] theorem push_lineMeta (s : State) (l : List Turn) :
    (s.push l).lineMeta = s.lineMeta := rfl
@[simp] theorem push_grades (s : State) (l : List Turn) :
    (s.push l).grades = s.grades := rfl
@[simp] theorem push_tiles (s : State) (l : List Turn) :
    (s.push l).tiles = s.tiles := rfl
@[simp] theorem push_ctxs (s : State) (l : List Turn) :
    (s.push l).ctxs = s.ctxs := rfl
@[simp] theorem push_slots (s : State) (l : List Turn) :
    (s.push l).slots = s.slots := rfl
@[simp] theorem push_hubs (s : State) (l : List Turn) :
    (s.push l).hubs = s.hubs := rfl
@[simp] theorem push_net (s : State) (l : List Turn) :
    (s.push l).net = s.net := rfl
@[simp] theorem push_dev (s : State) (l : List Turn) :
    (s.push l).dev = s.dev := rfl
@[simp] theorem push_fw (s : State) (l : List Turn) :
    (s.push l).fw = s.fw := rfl
@[simp] theorem push_hold (s : State) (l : List Turn) :
    (s.push l).hold = s.hold := rfl
@[simp] theorem push_ports (s : State) (l : List Turn) :
    (s.push l).ports = s.ports := rfl
@[simp] theorem push_saved (s : State) (l : List Turn) :
    (s.push l).saved = s.saved := rfl

/-! ### dropAcc -/

@[simp] theorem dropAcc_clk (s : State) (i : Nat) :
    (s.dropAcc i).clk = s.clk := rfl
@[simp] theorem dropAcc_cur (s : State) (i : Nat) :
    (s.dropAcc i).cur = s.cur := rfl
@[simp] theorem dropAcc_agenda (s : State) (i : Nat) :
    (s.dropAcc i).agenda = s.agenda := rfl
@[simp] theorem dropAcc_freeCtr (s : State) (i : Nat) :
    (s.dropAcc i).freeCtr = s.freeCtr := rfl
@[simp] theorem dropAcc_inputs (s : State) (i : Nat) :
    (s.dropAcc i).inputs = s.inputs := rfl
@[simp] theorem dropAcc_cores (s : State) (i : Nat) :
    (s.dropAcc i).cores = s.cores := rfl
@[simp] theorem dropAcc_coreReads (s : State) (i : Nat) :
    (s.dropAcc i).coreReads = s.coreReads := rfl
@[simp] theorem dropAcc_mem (s : State) (i : Nat) :
    (s.dropAcc i).mem = s.mem := rfl
@[simp] theorem dropAcc_marks (s : State) (i : Nat) :
    (s.dropAcc i).marks = s.marks := rfl
@[simp] theorem dropAcc_lineMeta (s : State) (i : Nat) :
    (s.dropAcc i).lineMeta = s.lineMeta := rfl
@[simp] theorem dropAcc_grades (s : State) (i : Nat) :
    (s.dropAcc i).grades = s.grades := rfl
@[simp] theorem dropAcc_tiles (s : State) (i : Nat) :
    (s.dropAcc i).tiles = s.tiles := rfl
@[simp] theorem dropAcc_ctxs (s : State) (i : Nat) :
    (s.dropAcc i).ctxs = s.ctxs := rfl
@[simp] theorem dropAcc_slots (s : State) (i : Nat) :
    (s.dropAcc i).slots = s.slots := rfl
@[simp] theorem dropAcc_hubs (s : State) (i : Nat) :
    (s.dropAcc i).hubs = s.hubs := rfl
@[simp] theorem dropAcc_dev (s : State) (i : Nat) :
    (s.dropAcc i).dev = s.dev := rfl
@[simp] theorem dropAcc_fw (s : State) (i : Nat) :
    (s.dropAcc i).fw = s.fw := rfl
@[simp] theorem dropAcc_hold (s : State) (i : Nat) :
    (s.dropAcc i).hold = s.hold := rfl
@[simp] theorem dropAcc_ports (s : State) (i : Nat) :
    (s.dropAcc i).ports = s.ports := rfl
@[simp] theorem dropAcc_saved (s : State) (i : Nat) :
    (s.dropAcc i).saved = s.saved := rfl

/-! ### draw -/

@[simp] theorem draw_clk (s : State) (a b : Nat) :
    ((s.draw a b).2).clk = s.clk := rfl
@[simp] theorem draw_cur (s : State) (a b : Nat) :
    ((s.draw a b).2).cur = s.cur := rfl
@[simp] theorem draw_agenda (s : State) (a b : Nat) :
    ((s.draw a b).2).agenda = s.agenda := rfl
@[simp] theorem draw_inputs (s : State) (a b : Nat) :
    ((s.draw a b).2).inputs = s.inputs := rfl
@[simp] theorem draw_cores (s : State) (a b : Nat) :
    ((s.draw a b).2).cores = s.cores := rfl
@[simp] theorem draw_coreReads (s : State) (a b : Nat) :
    ((s.draw a b).2).coreReads = s.coreReads := rfl
@[simp] theorem draw_mem (s : State) (a b : Nat) :
    ((s.draw a b).2).mem = s.mem := rfl
@[simp] theorem draw_marks (s : State) (a b : Nat) :
    ((s.draw a b).2).marks = s.marks := rfl
@[simp] theorem draw_lineMeta (s : State) (a b : Nat) :
    ((s.draw a b).2).lineMeta = s.lineMeta := rfl
@[simp] theorem draw_grades (s : State) (a b : Nat) :
    ((s.draw a b).2).grades = s.grades := rfl
@[simp] theorem draw_tiles (s : State) (a b : Nat) :
    ((s.draw a b).2).tiles = s.tiles := rfl
@[simp] theorem draw_ctxs (s : State) (a b : Nat) :
    ((s.draw a b).2).ctxs = s.ctxs := rfl
@[simp] theorem draw_slots (s : State) (a b : Nat) :
    ((s.draw a b).2).slots = s.slots := rfl
@[simp] theorem draw_hubs (s : State) (a b : Nat) :
    ((s.draw a b).2).hubs = s.hubs := rfl
@[simp] theorem draw_net (s : State) (a b : Nat) :
    ((s.draw a b).2).net = s.net := rfl
@[simp] theorem draw_dev (s : State) (a b : Nat) :
    ((s.draw a b).2).dev = s.dev := rfl
@[simp] theorem draw_fw (s : State) (a b : Nat) :
    ((s.draw a b).2).fw = s.fw := rfl
@[simp] theorem draw_hold (s : State) (a b : Nat) :
    ((s.draw a b).2).hold = s.hold := rfl
@[simp] theorem draw_ports (s : State) (a b : Nat) :
    ((s.draw a b).2).ports = s.ports := rfl
@[simp] theorem draw_saved (s : State) (a b : Nat) :
    ((s.draw a b).2).saved = s.saved := rfl

/-! ### drawFrom -/

@[simp] theorem drawFrom_clk (s : State) (a : Nat) :
    ((s.drawFrom a).2).clk = s.clk := rfl
@[simp] theorem drawFrom_cur (s : State) (a : Nat) :
    ((s.drawFrom a).2).cur = s.cur := rfl
@[simp] theorem drawFrom_agenda (s : State) (a : Nat) :
    ((s.drawFrom a).2).agenda = s.agenda := rfl
@[simp] theorem drawFrom_inputs (s : State) (a : Nat) :
    ((s.drawFrom a).2).inputs = s.inputs := rfl
@[simp] theorem drawFrom_cores (s : State) (a : Nat) :
    ((s.drawFrom a).2).cores = s.cores := rfl
@[simp] theorem drawFrom_coreReads (s : State) (a : Nat) :
    ((s.drawFrom a).2).coreReads = s.coreReads := rfl
@[simp] theorem drawFrom_mem (s : State) (a : Nat) :
    ((s.drawFrom a).2).mem = s.mem := rfl
@[simp] theorem drawFrom_marks (s : State) (a : Nat) :
    ((s.drawFrom a).2).marks = s.marks := rfl
@[simp] theorem drawFrom_lineMeta (s : State) (a : Nat) :
    ((s.drawFrom a).2).lineMeta = s.lineMeta := rfl
@[simp] theorem drawFrom_grades (s : State) (a : Nat) :
    ((s.drawFrom a).2).grades = s.grades := rfl
@[simp] theorem drawFrom_tiles (s : State) (a : Nat) :
    ((s.drawFrom a).2).tiles = s.tiles := rfl
@[simp] theorem drawFrom_ctxs (s : State) (a : Nat) :
    ((s.drawFrom a).2).ctxs = s.ctxs := rfl
@[simp] theorem drawFrom_slots (s : State) (a : Nat) :
    ((s.drawFrom a).2).slots = s.slots := rfl
@[simp] theorem drawFrom_hubs (s : State) (a : Nat) :
    ((s.drawFrom a).2).hubs = s.hubs := rfl
@[simp] theorem drawFrom_net (s : State) (a : Nat) :
    ((s.drawFrom a).2).net = s.net := rfl
@[simp] theorem drawFrom_dev (s : State) (a : Nat) :
    ((s.drawFrom a).2).dev = s.dev := rfl
@[simp] theorem drawFrom_fw (s : State) (a : Nat) :
    ((s.drawFrom a).2).fw = s.fw := rfl
@[simp] theorem drawFrom_hold (s : State) (a : Nat) :
    ((s.drawFrom a).2).hold = s.hold := rfl
@[simp] theorem drawFrom_ports (s : State) (a : Nat) :
    ((s.drawFrom a).2).ports = s.ports := rfl
@[simp] theorem drawFrom_saved (s : State) (a : Nat) :
    ((s.drawFrom a).2).saved = s.saved := rfl

/-! ### Flags raised -/

theorem flag_zero (s : State) (n : Nat) : s.flag n 0 = s := by simp [flag]

@[simp] theorem flag_clk (s : State) (n : Nat) (f : Flags) : (s.flag n f).clk = s.clk := by
  unfold flag; split <;> rfl
@[simp] theorem flag_cur (s : State) (n : Nat) (f : Flags) : (s.flag n f).cur = s.cur := by
  unfold flag; split <;> rfl
@[simp] theorem flag_agenda (s : State) (n : Nat) (f : Flags) : (s.flag n f).agenda = s.agenda := by
  unfold flag; split <;> rfl
@[simp] theorem flag_freeCtr (s : State) (n : Nat) (f : Flags) : (s.flag n f).freeCtr = s.freeCtr := by
  unfold flag; split <;> rfl
@[simp] theorem flag_inputs (s : State) (n : Nat) (f : Flags) : (s.flag n f).inputs = s.inputs := by
  unfold flag; split <;> rfl
@[simp] theorem flag_cores (s : State) (n : Nat) (f : Flags) : (s.flag n f).cores = s.cores := by
  unfold flag; split <;> rfl
@[simp] theorem flag_coreReads (s : State) (n : Nat) (f : Flags) : (s.flag n f).coreReads = s.coreReads := by
  unfold flag; split <;> rfl
@[simp] theorem flag_mem (s : State) (n : Nat) (f : Flags) : (s.flag n f).mem = s.mem := by
  unfold flag; split <;> rfl
@[simp] theorem flag_marks (s : State) (n : Nat) (f : Flags) : (s.flag n f).marks = s.marks := by
  unfold flag; split <;> rfl
@[simp] theorem flag_lineMeta (s : State) (n : Nat) (f : Flags) : (s.flag n f).lineMeta = s.lineMeta := by
  unfold flag; split <;> rfl
@[simp] theorem flag_grades (s : State) (n : Nat) (f : Flags) : (s.flag n f).grades = s.grades := by
  unfold flag; split <;> rfl
@[simp] theorem flag_ctxs (s : State) (n : Nat) (f : Flags) : (s.flag n f).ctxs = s.ctxs := by
  unfold flag; split <;> rfl
@[simp] theorem flag_slots (s : State) (n : Nat) (f : Flags) : (s.flag n f).slots = s.slots := by
  unfold flag; split <;> rfl
@[simp] theorem flag_hubs (s : State) (n : Nat) (f : Flags) : (s.flag n f).hubs = s.hubs := by
  unfold flag; split <;> rfl
@[simp] theorem flag_net (s : State) (n : Nat) (f : Flags) : (s.flag n f).net = s.net := by
  unfold flag; split <;> rfl
@[simp] theorem flag_dev (s : State) (n : Nat) (f : Flags) : (s.flag n f).dev = s.dev := by
  unfold flag; split <;> rfl
@[simp] theorem flag_fw (s : State) (n : Nat) (f : Flags) : (s.flag n f).fw = s.fw := by
  unfold flag; split <;> rfl
@[simp] theorem flag_hold (s : State) (n : Nat) (f : Flags) : (s.flag n f).hold = s.hold := by
  unfold flag; split <;> rfl
@[simp] theorem flag_ports (s : State) (n : Nat) (f : Flags) : (s.flag n f).ports = s.ports := by
  unfold flag; split <;> rfl
@[simp] theorem flag_saved (s : State) (n : Nat) (f : Flags) : (s.flag n f).saved = s.saved := by
  unfold flag; split <;> rfl

end State

/-! ### Reading back -/

@[simp] theorem upd_get_same {α : Type} {n : Nat} (v : Vector α n) (i : Fin n) (x : α) : (upd v i x).get i = x := by
  show (v.set i.val x i.isLt)[i.val] = x
  simp

theorem upd_get_other {α : Type} {n : Nat} (v : Vector α n) (i j : Fin n) (x : α) (h : j ≠ i) :
    (upd v i x).get j = v.get j := by
  have e : i.val ≠ j.val := fun e => h (Fin.ext e.symm)
  show (v.set i.val x i.isLt)[j.val] = v[j.val]
  simp [e]

namespace State

@[simp] theorem tileAt_setTile_same (s : State) (t : Fin 144) (x : Tile) : (s.setTile t x).tileAt t = x :=
  upd_get_same ..

theorem tileAt_setTile_other (s : State) (t u : Fin 144) (x : Tile) (h : u ≠ t) : (s.setTile t x).tileAt u = s.tileAt u :=
  upd_get_other _ _ _ _ h

@[simp] theorem tileAt_modTile_same (s : State) (t : Fin 144) (f : Tile → Tile) :
    (s.modTile t f).tileAt t = f (s.tileAt t) := upd_get_same ..

theorem tileAt_modTile_other (s : State) (t u : Fin 144) (f : Tile → Tile) (h : u ≠ t) :
    (s.modTile t f).tileAt u = s.tileAt u := upd_get_other _ _ _ _ h

@[simp] theorem tile_modRegs (s : State) (f : Regs → Regs) :
    (s.modRegs f).tile = { s.tile with regs := f s.tile.regs } := upd_get_same ..

@[simp] theorem tile_modSys (s : State) (f : SysRegs → SysRegs) :
    (s.modSys f).tile = { s.tile with sys := f s.tile.sys } := upd_get_same ..

@[simp] theorem tile_modEng (s : State) (f : Engines → Engines) :
    (s.modEng f).tile = { s.tile with eng := f s.tile.eng } := upd_get_same ..

@[simp] theorem tile_schedule (s : State) (d : WDst) (v : RVal) (m : KWord) (n : Nat) (b : Bool) :
    (s.schedule d v m n b).tile = { s.tile with regs := { s.tile.regs with
      pend := ⟨s.now + n, s.now, s.cur.slot, false, s.tile.regs.seq, d, v, m, b⟩ :: s.tile.regs.pend
      seq := s.tile.regs.seq + 1 } } := upd_get_same ..

@[simp] theorem streamAt_setStream_same (s : State) (t : Fin 144) (g : Fin 4) (x : Stream) :
    (s.setStream t g (some x)).streamAt t g = x := by
  simp [streamAt, setStream]

@[simp] theorem strm_modStrm (s : State) (f : Stream → Stream) : (s.modStrm f).strm = f s.strm :=
  streamAt_setStream_same ..

@[simp] theorem ctx_modCtx_same (s : State) (c : Fin 64) (f : Context → Context) : (s.modCtx c f).ctx c = f (s.ctx c) :=
  upd_get_same ..

theorem ctx_modCtx_other (s : State) (c d : Fin 64) (f : Context → Context) (h : d ≠ c) : (s.modCtx c f).ctx d = s.ctx d :=
  upd_get_other _ _ _ _ h

@[simp] theorem liveAt_modLive_same (s : State) (n : Fin 16) (f : Live → Live) :
    (s.modLive n f).liveAt n = (s.liveAt n).map f := by
  simp [liveAt, modLive]

theorem liveAt_modLive_other (s : State) (n k : Fin 16) (f : Live → Live) (h : k ≠ n) :
    (s.modLive n f).liveAt k = s.liveAt k := by
  simp [liveAt, modLive, upd_get_other _ _ _ _ h]

@[simp] theorem port_setPort_same (s : State) (p : Fin 16) (x : Port) : (s.setPort p x).ports.get p = x := upd_get_same ..

theorem port_setPort_other (s : State) (p q : Fin 16) (x : Port) (h : q ≠ p) : (s.setPort p x).ports.get q = s.ports.get q :=
  upd_get_other _ _ _ _ h

/-! ### Accessors under updates that do not reach them -/

@[simp] theorem tileAt_modCtx (s : State) (t : Fin 144) (c : Fin 64) (f : Context → Context) :
    (s.modCtx c f).tileAt t = s.tileAt t := rfl
@[simp] theorem tileAt_modLive (s : State) (t : Fin 144) (n : Fin 16) (f : Live → Live) :
    (s.modLive n f).tileAt t = s.tileAt t := rfl
@[simp] theorem tileAt_detect (s : State) (u t : Fin 144) (g pc : Nat) (r : Trap) (w : Word) :
    (s.detect t g pc r w).tileAt u = s.tileAt u := rfl
@[simp] theorem ctx_modTile (s : State) (c : Fin 64) (t : Fin 144) (f : Tile → Tile) : (s.modTile t f).ctx c = s.ctx c := rfl
@[simp] theorem ctx_setTile (s : State) (c : Fin 64) (t : Fin 144) (x : Tile) : (s.setTile t x).ctx c = s.ctx c := rfl
@[simp] theorem ctx_modLive (s : State) (c : Fin 64) (n : Fin 16) (f : Live → Live) : (s.modLive n f).ctx c = s.ctx c := rfl
@[simp] theorem liveAt_modTile (s : State) (n : Fin 16) (t : Fin 144) (f : Tile → Tile) :
    (s.modTile t f).liveAt n = s.liveAt n := rfl
@[simp] theorem liveAt_modCtx (s : State) (n : Fin 16) (c : Fin 64) (f : Context → Context) :
    (s.modCtx c f).liveAt n = s.liveAt n := rfl

end State

end Sys2Proof.Machine
end

