-- ==== Sys2Proof/Laws/Memory.lean ====
section
/-! SUPPORT. Laws of memory (log 1, log 3): every operation keeps the canonical form, and reads after writes. -/

namespace Sys2Proof.Machine

namespace Memory

@[simp] theorem wf_nil : Memory.wf [] = true := rfl
@[simp] theorem get_nil (a : Nat) : Memory.get [] a = 0 := rfl

theorem wf_cons {k : Nat} {b : Byte} {l : Memory} :
    Memory.wf ((k, b) :: l) = true ↔ b ≠ 0 ∧ above k l = true ∧ l.wf = true := by
  simp [Memory.wf, and_assoc]

/-- A lower bound of the keys stays one when it is lowered. -/
theorem above_mono {a b : Nat} {m : Memory} (h : above b m = true) (hab : a ≤ b) : above a m = true := by
  cases m with
  | nil => rfl
  | cons c l => simp only [above, decide_eq_true_eq] at h ⊢; omega

/-- A key at or below a lower bound reads as zero. -/
theorem get_of_above {m : Memory} : ∀ {a c : Nat}, m.wf = true → above a m = true → c ≤ a → m.get c = 0 := by
  induction m with
  | nil => intros; rfl
  | cons e l ih =>
    obtain ⟨k, b⟩ := e
    intro a c hw ha hc
    obtain ⟨-, hk, hl⟩ := wf_cons.1 hw
    simp only [above, decide_eq_true_eq] at ha
    have : k ≠ c := by omega
    simp only [Memory.get, this, if_false]
    exact ih hl hk (by omega)

/-- A write keeps every lower bound that its key respects. -/
theorem above_set {m : Memory} {a c : Nat} {b : Byte} (h : above c m = true) (hw : m.wf = true) (ha : c < a) :
    above c (m.set a b) = true := by
  cases m with
  | nil => unfold Memory.set; split <;> simp [above, ha]
  | cons e l =>
    obtain ⟨k, d⟩ := e
    obtain ⟨-, hk, -⟩ := wf_cons.1 hw
    simp only [above, decide_eq_true_eq] at h
    unfold Memory.set
    split
    · simpa [above] using h
    · split
      · split
        · exact above_mono hk (by omega)
        · simpa [above] using ha
      · split
        · simpa [above] using h
        · simpa [above] using ha

/-- A write keeps the canonical form. -/
theorem set_wf {m : Memory} (a : Nat) (b : Byte) (h : m.wf = true) : (m.set a b).wf = true := by
  induction m with
  | nil =>
    unfold Memory.set
    split
    · rfl
    · simp_all [Memory.wf, above]
  | cons e l ih =>
    obtain ⟨k, c⟩ := e
    obtain ⟨hc, hk, hl⟩ := wf_cons.1 h
    unfold Memory.set
    split
    · exact wf_cons.2 ⟨hc, above_set hk hl (by assumption), ih hl⟩
    · split
      · split
        · exact hl
        · exact wf_cons.2 ⟨by assumption, by simp_all, hl⟩
      · split
        · exact h
        · refine wf_cons.2 ⟨by assumption, ?_, h⟩
          simp only [above, decide_eq_true_eq]
          omega

/-- A byte written reads back. -/
theorem get_set_same {m : Memory} (a : Nat) (b : Byte) (h : m.wf = true) : (m.set a b).get a = b := by
  induction m with
  | nil =>
    unfold Memory.set
    split
    · simp_all
    · simp [Memory.get]
  | cons e l ih =>
    obtain ⟨k, c⟩ := e
    obtain ⟨-, hk, hl⟩ := wf_cons.1 h
    unfold Memory.set
    split
    · have : k ≠ a := by omega
      simp only [Memory.get, this, if_false]
      exact ih hl
    · split
      · split
        · subst_vars
          exact get_of_above hl hk (Nat.le_refl _)
        · simp [Memory.get]
      · split
        · subst_vars
          have : k ≠ a := by omega
          simp only [Memory.get, this, if_false]
          exact get_of_above hl hk (by omega)
        · simp [Memory.get]

/-- A write leaves every other byte alone. -/
theorem get_set_other (m : Memory) {a c : Nat} (b : Byte) (h : c ≠ a) : (m.set a b).get c = m.get c := by
  induction m with
  | nil =>
    unfold Memory.set
    split
    · rfl
    · simp [Memory.get, h.symm]
  | cons e l ih =>
    obtain ⟨k, d⟩ := e
    unfold Memory.set
    split
    · simp only [Memory.get, ih]
    · split
      · subst_vars
        split <;> simp [Memory.get, h.symm]
      · split <;> simp [Memory.get, h.symm]

/-- Bytes written as a number keep the canonical form. -/
theorem writeN_wf (n : Nat) : ∀ {m : Memory} (a v : Nat), m.wf = true → (Memory.writeN m a n v).wf = true := by
  induction n with
  | zero => intro m a v h; exact h
  | succ n ih => intro m a v h; exact ih _ _ (set_wf _ _ h)

/-- A byte outside a number written stays. -/
theorem get_writeN_other (n : Nat) :
    ∀ (m : Memory) (a v c : Nat), (c < a ∨ a + n ≤ c) → (Memory.writeN m a n v).get c = m.get c := by
  induction n with
  | zero => intros; rfl
  | succ n ih =>
    intro m a v c h
    unfold Memory.writeN
    rw [ih _ _ _ _ (by omega), get_set_other _ _ (by omega)]

/-- A byte of a number written. -/
theorem get_writeN (n : Nat) : ∀ {m : Memory} (a v i : Nat), m.wf = true → i < n →
    (Memory.writeN m a n v).get (a + i) = BitVec.ofNat 8 (v / 256 ^ i) := by
  induction n with
  | zero => intros; omega
  | succ n ih =>
    intro m a v i h hi
    unfold Memory.writeN
    cases i with
    | zero => rw [get_writeN_other _ _ _ _ _ (by omega)]; simpa using get_set_same a _ h
    | succ i =>
      have e : a + (i + 1) = a + 1 + i := by omega
      rw [e, ih _ _ i (set_wf _ _ h) (by omega), Nat.div_div_eq_div_mul, Nat.pow_succ, Nat.mul_comm]

/-- Bytes written from a list keep the canonical form. -/
theorem putBytes_wf (l : List Byte) : ∀ {m : Memory} (a : Nat), m.wf = true → (Memory.putBytes m a l).wf = true := by
  induction l with
  | nil => intro m a h; exact h
  | cons b l ih => intro m a h; exact ih _ (set_wf _ _ h)

/-- A byte outside a list written stays. -/
theorem get_putBytes_other (l : List Byte) :
    ∀ (m : Memory) (a c : Nat), (c < a ∨ a + l.length ≤ c) → (Memory.putBytes m a l).get c = m.get c := by
  induction l with
  | nil => intros; rfl
  | cons b l ih =>
    intro m a c h
    simp only [List.length_cons] at h
    unfold Memory.putBytes
    rw [ih _ _ _ (by omega), get_set_other _ _ (by omega)]

/-- A byte of a list written. -/
theorem get_putBytes (l : List Byte) : ∀ {m : Memory} (a i : Nat) (b : Byte), m.wf = true → l[i]? = some b →
    (Memory.putBytes m a l).get (a + i) = b := by
  induction l with
  | nil => intro m a i b h hi; simp at hi
  | cons c l ih =>
    intro m a i b h hi
    unfold Memory.putBytes
    cases i with
    | zero =>
      rw [get_putBytes_other _ _ _ _ (by omega)]
      simp only [List.getElem?_cons_zero, Option.some.injEq] at hi
      simpa [hi] using get_set_same a c h
    | succ i =>
      have e : a + (i + 1) = a + 1 + i := by omega
      rw [e]
      exact ih _ i b (set_wf _ _ h) (by simpa using hi)

/-- Every key of a canonical list lies above a lower bound of it. -/
theorem lt_of_mem {m : Memory} : ∀ {a : Nat}, m.wf = true → above a m = true → ∀ e ∈ m, a < e.1 := by
  induction m with
  | nil => intro a _ _ e he; simp at he
  | cons x l ih =>
    obtain ⟨k, b⟩ := x
    intro a hw ha e he
    obtain ⟨-, hk, hl⟩ := wf_cons.1 hw
    simp only [above, decide_eq_true_eq] at ha
    rcases List.mem_cons.1 he with rfl | he
    · exact ha
    · exact Nat.lt_trans ha (ih hl hk e he)

/-- A list whose keys lie above a bound has it as a lower bound. -/
theorem above_of_mem {m : Memory} {a : Nat} (h : ∀ e ∈ m, a < e.1) : above a m = true := by
  cases m with
  | nil => rfl
  | cons x l => simpa [above] using h x (by simp)

/-- Cells taken out keep the canonical form. -/
theorem filter_wf {m : Memory} (p : Host.Cell → Bool) (h : m.wf = true) : Memory.wf (m.filter p) = true := by
  induction m with
  | nil => rfl
  | cons x l ih =>
    obtain ⟨k, b⟩ := x
    obtain ⟨hb, hk, hl⟩ := wf_cons.1 h
    by_cases hp : p (k, b)
    · rw [List.filter_cons_of_pos hp]
      exact wf_cons.2 ⟨hb, above_of_mem fun e he => lt_of_mem hl hk e (List.mem_filter.1 he).1, ih hl⟩
    · rw [List.filter_cons_of_neg hp]
      exact ih hl

/-- A range cleared keeps the canonical form. -/
theorem clearRange_wf {m : Memory} (a n : Nat) (h : m.wf = true) : (m.clearRange a n).wf = true := filter_wf _ h

/-- A range cleared reads as zero, and every other byte as before. -/
theorem get_clearRange (m : Memory) (a n c : Nat) :
    (m.clearRange a n).get c = if a ≤ c ∧ c < a + n then 0 else m.get c := by
  unfold Memory.clearRange
  induction m with
  | nil => simp
  | cons x l ih =>
    obtain ⟨k, b⟩ := x
    by_cases hp : k < a ∨ a + n ≤ k
    · rw [List.filter_cons_of_pos (by simpa using hp)]
      simp only [Memory.get]
      split
      · subst_vars
        rw [if_neg (by omega)]
      · exact ih
    · rw [List.filter_cons_of_neg (by simpa using hp), ih]
      simp only [Memory.get]
      by_cases hk : k = c
      · subst hk
        rw [if_pos (by omega), if_pos (by omega)]
      · simp [hk]

end Memory

namespace State

/-- A store keeps the canonical form. -/
theorem store_wf {s : State} (a n g v : Nat) (h : Memory.wf s.mem = true) : Memory.wf (s.store a n g v).mem = true :=
  Memory.writeN_wf _ _ _ h

/-- Bytes stored keep the canonical form. -/
theorem storeBytes_wf {s : State} (a g : Nat) (l : List Byte) (h : Memory.wf s.mem = true) :
    Memory.wf (s.storeBytes a g l).mem = true := Memory.putBytes_wf _ _ h

/-- A line copied keeps the canonical form. -/
theorem copyLine_wf {s : State} (a b : Nat) (h : Memory.wf s.mem = true) : Memory.wf (s.copyLine a b).mem = true := by
  unfold copyLine
  split
  · exact h
  · generalize Memory.readN s.mem a 64 = v
    generalize 64 = n
    exact Memory.writeN_wf n _ _ h

/-- A bit turned over keeps the canonical form. -/
theorem flipBit_wf {s : State} (key : Nat) (h : Memory.wf s.mem = true) : Memory.wf (s.flipBit key).mem = true :=
  Memory.set_wf _ _ h

/-- Marking granules changes no byte. -/
theorem markAll_mem (s : State) (a n gran : Nat) : (s.markAll a n gran).mem = s.mem := by
  unfold markAll
  generalize List.range _ = l
  induction l generalizing s with
  | nil => rfl
  | cons i l ih => exact (ih _).trans rfl

/-- Storage at reset has its canonical form. -/
theorem reset_mem_wf : Memory.wf State.reset.mem = true := rfl

end State

end Sys2Proof.Machine
end

