-- ==== Sys2Proof/Laws/Lines.lean ====
section
/-! SUPPORT. Laws of lines at their homes: what a write at a home, a queued reduction and the settling of a line can change,
and that they keep the canonical form of memory (R200, R322, R330). -/

namespace Sys2Proof.Machine

/-- All that lines' operations leave alone: everything but bytes, marks, grades, metadata, queued reductions, the dirty lines
of migrations and the counter of free values. -/
structure OnlyLines (s s' : State) : Prop where
  tiles : s'.tiles = s.tiles
  cur : s'.cur = s.cur
  clk : s'.clk = s.clk
  ctxs : s'.ctxs = s.ctxs
  slots : s'.slots = s.slots
  hubs : s'.hubs = s.hubs
  accs : s'.net.accs = s.net.accs
  ports : s'.ports = s.ports
  hold : s'.hold = s.hold
  fw : s'.fw = s.fw
  saved : s'.saved = s.saved
  agenda : s'.agenda = s.agenda

namespace OnlyLines

theorem refl (s : State) : OnlyLines s s := ⟨rfl, rfl, rfl, rfl, rfl, rfl, rfl, rfl, rfl, rfl, rfl, rfl⟩

theorem trans {s t u : State} (a : OnlyLines s t) (b : OnlyLines t u) : OnlyLines s u :=
  ⟨b.tiles.trans a.tiles, b.cur.trans a.cur, b.clk.trans a.clk, b.ctxs.trans a.ctxs, b.slots.trans a.slots, b.hubs.trans a.hubs,
    b.accs.trans a.accs, b.ports.trans a.ports, b.hold.trans a.hold, b.fw.trans a.fw, b.saved.trans a.saved,
    b.agenda.trans a.agenda⟩

/-- A fold of steps that keep to lines keeps to lines. -/
theorem foldl {α : Type} (f : State → α → State) (hf : ∀ s a, OnlyLines s (f s a)) (l : List α) (s : State) :
    OnlyLines s (l.foldl f s) := by
  induction l generalizing s with
  | nil => exact refl s
  | cons a l ih => exact (hf s a).trans (ih _)

end OnlyLines

namespace State

/-! ### What each operation changes -/

theorem markDirty_only (s : State) (key : Nat) : OnlyLines s (s.markDirty key) := by
  unfold markDirty
  dsimp only
  split <;> exact ⟨rfl, rfl, rfl, rfl, rfl, rfl, rfl, rfl, rfl, rfl, rfl, rfl⟩

theorem setGrade_only (s : State) (key grade : Nat) : OnlyLines s (s.setGrade key grade) := by
  unfold setGrade
  split <;> exact ⟨rfl, rfl, rfl, rfl, rfl, rfl, rfl, rfl, rfl, rfl, rfl, rfl⟩

theorem setMark_only (s : State) (key : Nat) : OnlyLines s (s.setMark key) := by
  unfold setMark
  exact ⟨rfl, rfl, rfl, rfl, rfl, rfl, rfl, rfl, rfl, rfl, rfl, rfl⟩

theorem markAll_only (s : State) (a n gran : Nat) : OnlyLines s (s.markAll a n gran) :=
  OnlyLines.foldl (fun s i => s.setMark ((a / gran + i) * gran)) (fun _ _ => setMark_only _ _) _ s

theorem store_only (s : State) (a n g v : Nat) : OnlyLines s (s.store a n g v) :=
  ⟨rfl, rfl, rfl, rfl, rfl, rfl, rfl, rfl, rfl, rfl, rfl, rfl⟩

theorem clearMarks_only (s : State) (a n g : Nat) : OnlyLines s (s.clearMarks a n g) :=
  ⟨rfl, rfl, rfl, rfl, rfl, rfl, rfl, rfl, rfl, rfl, rfl, rfl⟩

theorem homePut_only (s : State) (key n grade v : Nat) (bad : Bool) : OnlyLines s (s.homePut key n grade v bad) := by
  have h := ((store_only s key n (granule key grade) v).trans (markDirty_only _ key)).trans (setGrade_only _ key grade)
  unfold homePut
  dsimp only
  split <;> split
  · exact ((h.trans (markAll_only _ _ _ _)).trans (clearMarks_only _ _ _ _)).trans (markAll_only _ _ _ _)
  · exact h.trans (markAll_only _ _ _ _)
  · exact (h.trans (markAll_only _ _ _ _)).trans (clearMarks_only _ _ _ _)
  · exact h

theorem applyGred_only (s : State) (e : GredEntry) : OnlyLines s (s.applyGred e) := by
  have h : OnlyLines s { s with net := { s.net with greds := s.net.greds.filter fun x => x.id != e.id } } :=
    ⟨rfl, rfl, rfl, rfl, rfl, rfl, rfl, rfl, rfl, rfl, rfl, rfl⟩
  exact h.trans (OnlyLines.foldl _ (fun _ _ => homePut_only _ _ _ _ _ _) _ _)

theorem settleLine_only (s : State) (key n : Nat) : OnlyLines s (s.settleLine key n) :=
  OnlyLines.foldl _ applyGred_only _ s

theorem homeRead_only (s : State) (key n grade : Nat) : OnlyLines s (s.homeRead key n grade).1 := settleLine_only s key n

theorem homeWrite_only (s : State) (key n grade v : Nat) (bad : Bool) : OnlyLines s (s.homeWrite key n grade v bad) :=
  (settleLine_only s key n).trans (homePut_only _ _ _ _ _ _)

theorem reduceAt_only (s : State) (key grade : Nat) (op : RedOp) (x : Nat) : OnlyLines s (s.reduceAt key grade op x) := by
  unfold reduceAt
  split
  · exact (markDirty_only s key).trans ⟨rfl, rfl, rfl, rfl, rfl, rfl, rfl, rfl, rfl, rfl, rfl, rfl⟩
  · exact ((settleLine_only s key 1).trans (markDirty_only _ key)).trans ⟨rfl, rfl, rfl, rfl, rfl, rfl, rfl, rfl, rfl, rfl, rfl, rfl⟩

/-! ### Bytes -/

@[simp] theorem markDirty_mem (s : State) (key : Nat) : (s.markDirty key).mem = s.mem := by
  unfold markDirty
  dsimp only
  split <;> rfl

@[simp] theorem setGrade_mem (s : State) (key grade : Nat) : (s.setGrade key grade).mem = s.mem := by
  unfold setGrade
  split <;> rfl

/-- A write at a home changes the bytes that it names alone. -/
theorem homePut_mem (s : State) (key n grade v : Nat) (bad : Bool) :
    (s.homePut key n grade v bad).mem = Memory.writeN s.mem key n v := by
  have h : (((s.store key n (granule key grade) v).markDirty key).setGrade key grade).mem = Memory.writeN s.mem key n v := by
    rw [setGrade_mem, markDirty_mem]; rfl
  have c (u : State) (a n g : Nat) : (u.clearMarks a n g).mem = u.mem := rfl
  unfold homePut
  dsimp only
  split <;> split <;> simp only [markAll_mem, c, h]

theorem homePut_wf {s : State} (key n grade v : Nat) (bad : Bool) (h : Memory.wf s.mem = true) :
    Memory.wf (s.homePut key n grade v bad).mem = true := by
  rw [homePut_mem]
  exact Memory.writeN_wf _ _ _ h

theorem get_homePut_other (s : State) (key n grade v : Nat) (bad : Bool) (c : Nat) (h : c < key ∨ key + n ≤ c) :
    Memory.get (s.homePut key n grade v bad).mem c = Memory.get s.mem c := by
  rw [homePut_mem]
  exact Memory.get_writeN_other _ _ _ _ _ h

/-- A fold of steps that keep the canonical form keeps it. -/
theorem foldl_wf {α : Type} (f : State → α → State)
    (hf : ∀ s a, Memory.wf s.mem = true → Memory.wf (f s a).mem = true) (l : List α) :
    ∀ {s : State}, Memory.wf s.mem = true → Memory.wf (l.foldl f s).mem = true := by
  induction l with
  | nil => exact fun h => h
  | cons a l ih => exact fun h => ih (hf _ a h)

/-- A queued reduction that applies keeps the canonical form. -/
theorem applyGred_wf {s : State} (e : GredEntry) (h : Memory.wf s.mem = true) : Memory.wf (s.applyGred e).mem = true := by
  unfold applyGred
  exact foldl_wf _ (fun s w h => homePut_wf _ _ _ _ _ h) _ h

/-- The settling of a line keeps the canonical form. -/
theorem settleLine_wf {s : State} (key n : Nat) (h : Memory.wf s.mem = true) : Memory.wf (s.settleLine key n).mem = true :=
  foldl_wf _ (fun _ e h => applyGred_wf e h) _ h

/-- A line at which nothing is queued is settled. -/
theorem settleLine_of_none {s : State} (key n : Nat)
    (h : ∀ e ∈ s.net.greds, e.line < key / 64 ∨ (key + n - 1) / 64 < e.line) : s.settleLine key n = s := by
  have : (s.net.greds.filter fun e => decide (key / 64 ≤ e.line) && decide (e.line ≤ (key + n - 1) / 64)) = [] := by
    refine List.filter_eq_nil_iff.2 fun e he => ?_
    have := h e he
    simp only [Bool.and_eq_true, decide_eq_true_eq, not_and]
    omega
  unfold settleLine
  rw [this]
  rfl

@[simp] theorem settleLine_nil {s : State} (key n : Nat) (h : s.net.greds = []) : s.settleLine key n = s :=
  settleLine_of_none key n (by simp [h])

/-- A write at a home keeps the canonical form. -/
theorem homeWrite_wf {s : State} (key n grade v : Nat) (bad : Bool) (h : Memory.wf s.mem = true) :
    Memory.wf (s.homeWrite key n grade v bad).mem = true := homePut_wf _ _ _ _ _ (settleLine_wf _ _ h)

/-- A reduction that arrives keeps the canonical form. -/
theorem reduceAt_wf {s : State} (key grade : Nat) (op : RedOp) (x : Nat) (h : Memory.wf s.mem = true) :
    Memory.wf (s.reduceAt key grade op x).mem = true := by
  unfold reduceAt
  split
  · exact (markDirty_mem s key).symm ▸ h
  · show Memory.wf ((s.settleLine key 1).markDirty key).mem = true
    rw [markDirty_mem]
    exact settleLine_wf _ _ h

/-! ### A tile's storage cleared and copied back (R97, R413) -/

/-- A tile cleared for a task of another context keeps the canonical form. -/
theorem clearTile_wf {s : State} (t : Fin 144) (h : Memory.wf s.mem = true) : Memory.wf (s.clearTile t).mem = true :=
  Memory.clearRange_wf _ _ (Memory.clearRange_wf _ _ (Memory.clearRange_wf _ _ (settleLine_wf _ _ h)))

/-- Granules marked on a condition keep the canonical form. -/
theorem markIf_wf {s : State} (b : Bool) (a n gran : Nat) (h : Memory.wf s.mem = true) :
    Memory.wf (if b then s.markAll a n gran else s).mem = true := by
  cases b
  · exact h
  · exact (congrArg Memory.wf (markAll_mem s a n gran)).trans h

/-- A part of a record copied back keeps the canonical form, where reading its lines does. -/
theorem pull_wf {c : Fin 64} {t : Fin 144} (o n key gran : Nat)
    (hr : ∀ (s : State) (i : Nat), Memory.wf s.mem = true → Memory.wf (s.getRecord c t (o + 64 * i) 64).1.mem = true)
    {s : State} (h : Memory.wf s.mem = true) : Memory.wf (s.pull c t o n key gran).mem = true := by
  unfold pull
  refine foldl_wf _ (fun s i h => ?_) _ h
  have h1 := hr s i h
  dsimp only
  split
  · rename_i e
    rw [e] at h1
    have h2 := fun l => Memory.putBytes_wf l (key + 64 * i) h1
    split
    · exact foldl_wf _ (fun s j h => markIf_wf _ _ _ _ h) _ (h2 _)
    · exact h2 _
  · rename_i e
    rw [e] at h1
    exact h1

/-! ### Rows that a trap undoes (R164) -/

/-- A row put right changes bytes and marks alone. -/
theorem fixRow_only (t : Fin 144) (l : List (Nat × Nat × Nat)) (s : State) (x : RowTaken) : OnlyLines s (fixRow t l s x) := by
  unfold fixRow
  split
  · exact .refl s
  · dsimp only
    refine .trans ?_ (OnlyLines.foldl _ (fun s k => ?_) _ _)
    · exact ⟨rfl, rfl, rfl, rfl, rfl, rfl, rfl, rfl, rfl, rfl, rfl, rfl⟩
    · split
      · split
        · exact clearMarks_only _ _ _ _
        · split
          · exact setMark_only _ _
          · exact .refl _
      · exact .refl _

/-- Undoing the rows of a trapped bundle changes bytes and marks alone. -/
theorem undoRows_only (s : State) (t : Fin 144) (l : List RowTaken) : OnlyLines s (s.undoRows t l) :=
  OnlyLines.foldl _ (fixRow_only t []) l s

end State

end Sys2Proof.Machine
end

