-- ==== Sys2Proof/Laws/Ops.lean ====
section
/-! SUPPORT. Laws of the operations that the meanings share: how a meaning ends, what a register read answers, what a
write schedules, what a scratchpad read and an address check answer, what a wait leaves. -/

namespace Sys2Proof.Machine

namespace State

/-! ### How a meaning ends -/

@[simp] theorem finish_ok (s t : State) : s.finish (.ok t) = .next t := rfl
@[simp] theorem finish_trap (s : State) (r : Trap) : s.finish (.error (.trap r)) = .next (s.enterTrap r) := rfl
@[simp] theorem finish_hold (s t : State) (w : Nat) :
    s.finish (.error (.hold w t)) = .next { t with cur := { t.cur with flow := .stalled w } } := rfl

/-- A meaning always goes on: with its own next state, with its trap taken, or with the bundle held. -/
theorem finish_cases (s : State) (r : Res State) :
    (∃ t, r = .ok t ∧ s.finish r = .next t) ∨ (∃ x, r = .error (.trap x) ∧ s.finish r = .next (s.enterTrap x)) ∨
      (∃ w t, r = .error (.hold w t) ∧ s.finish r = .next { t with cur := { t.cur with flow := .stalled w } }) := by
  rcases r with (⟨x⟩ | ⟨w, t⟩) | t
  · exact .inr (.inl ⟨x, rfl, rfl⟩)
  · exact .inr (.inr ⟨w, t, rfl, rfl⟩)
  · exact .inl ⟨t, rfl, rfl⟩

/-- No meaning that ends in `finish` faults or is refused. -/
theorem finish_next (s : State) (r : Res State) : ∃ t, s.finish r = .next t := by
  rcases s.finish_cases r with ⟨t, -, h⟩ | ⟨x, -, h⟩ | ⟨w, t, -, h⟩ <;> exact ⟨_, h⟩

/-- A meaning that does not stop is its own next state. -/
theorem finish_of_ok {s t : State} {r : Res State} (h : r = .ok t) : s.finish r = .next t := by rw [h]; rfl

/-- A next state under a bundle still running came from a meaning that did not stop. -/
theorem ok_of_finish {s t : State} {r : Res State} (h : s.finish r = .next t)
    (hr : ∀ x, t.cur.flow ≠ .trapped x) (hw : ∀ w, t.cur.flow ≠ .stalled w) : r = .ok t := by
  rcases s.finish_cases r with ⟨u, e, h'⟩ | ⟨x, -, h'⟩ | ⟨w, u, -, h'⟩
  · rw [h'] at h; cases h; exact e
  · rw [h'] at h; cases h; exact absurd rfl (hr x)
  · rw [h'] at h; cases h; exact absurd rfl (hw w)

@[simp] theorem bind_ok {α β : Type} (x : α) (f : α → Res β) : ((.ok x : Res α) >>= f) = f x := rfl
@[simp] theorem bind_error {α β : Type} (e : Stop) (f : α → Res β) : ((.error e : Res α) >>= f) = .error e := rfl

/-- A sequence that goes on is its parts going on. -/
theorem bind_eq_ok {α β : Type} {x : Res α} {f : α → Res β} {b : β} :
    x >>= f = .ok b ↔ ∃ a, x = .ok a ∧ f a = .ok b := by
  rcases x with e | a
  · exact ⟨nofun, nofun⟩
  · exact ⟨fun h => ⟨a, rfl, h⟩, fun ⟨_, h, k⟩ => Except.ok.inj h ▸ k⟩

/-! ### Marks -/

/-- Where nothing is marked, no granule is. -/
theorem not_marked {s : State} (h : s.marks = []) (a n g : Nat) : s.marked a n g = false := by
  simp [marked, h]

theorem clearMarks_nil {s : State} (h : s.marks = []) (a n g : Nat) : (s.clearMarks a n g).marks = [] := by
  simp [clearMarks, h]

/-! ### Sources -/

theorem takeX_ok {s : State} (h : s.marks = []) (n : Fin 64) : s.takeX n = .ok (s.xReg n) := by
  simp [takeX, not_marked h]

theorem takeV_ok {s : State} (h : s.marks = []) (n : Fin 384) : s.takeV n = .ok (s.vReg n) := by
  simp [takeV, not_marked h]

theorem takeK_ok {s : State} (h : s.marks = []) (n : Fin 16) : s.takeK n = .ok (s.kReg n) := by
  simp [takeK, not_marked h]

/-- A read of an x register answers its value, or DATA_ERROR and nothing else. -/
theorem takeX_cases (s : State) (n : Fin 64) : s.takeX n = .ok (s.xReg n) ∨ s.takeX n = s.parityTrap 0 n.val := by
  unfold takeX; split <;> simp

theorem takeV_cases (s : State) (n : Fin 384) : s.takeV n = .ok (s.vReg n) ∨ s.takeV n = s.parityTrap 1 n.val := by
  unfold takeV; split <;> simp

theorem takeK_cases (s : State) (n : Fin 16) : s.takeK n = .ok (s.kReg n) ∨ s.takeK n = s.parityTrap 2 n.val := by
  unfold takeK; split <;> simp

@[simp] theorem readX_reg (s : State) (n : Fin 64) : s.readX (.reg n) = s.takeX n := rfl
@[simp] theorem readV_reg (s : State) (n : Fin 384) : s.readV (.reg n) = s.takeV n := rfl
@[simp] theorem readK_reg (s : State) (n : Fin 16) : s.readK (.reg n) = s.takeK n := rfl

/-- x0 reads as zero and k0 as all ones, whatever the files hold (R152). -/
@[simp] theorem xReg_zero (s : State) : s.xReg 0 = 0 := rfl
@[simp] theorem kReg_zero (s : State) : s.kReg 0 = BitVec.allOnes 256 := rfl

/-- A read of a source never holds the bundle: it answers a value or traps. -/
theorem readX_not_hold (s : State) (a : XSrc) (w : Nat) (t : State) : s.readX a ≠ .error (.hold w t) := by
  have tx : ∀ n, s.takeX n ≠ .error (.hold w t) := fun n => by
    rcases s.takeX_cases n with h | h <;> rw [h] <;> simp [parityTrap, raise]
  cases a with
  | reg n => exact tx n
  | rot n =>
    simp only [readX, rotate, inFile, illegal, raise]
    cases s.strm.loops with
    | nil => exact fun h => by cases h
    | cons l _ =>
      dsimp only
      cases l.rings.find? fun r => r.vec == false && r.base == n.val with
      | none => exact fun h => by cases h
      | some r =>
        simp only [bind_ok]
        split
        · exact tx _
        · exact fun h => by cases h
  | byp sl d =>
    simp only [readX, latch, badLatch, raise]
    split
    · cases (s.tile.regs.byp.get sl)[d.val]? with
      | none => exact fun h => by cases h
      | some v => cases v <;> exact fun h => by cases h
    · exact fun h => by cases h

/-! ### Destinations and results -/

@[simp] theorem writeX_reg (s : State) (n : Fin 64) (lat : Nat) (v : Word) :
    s.writeX (.reg n) lat v = .ok (s.schedule (.x n) (.x v) (BitVec.allOnes 256) lat true) := rfl

@[simp] theorem writeK_reg (s : State) (n : Fin 16) (lat : Nat) (v m : KWord) :
    s.writeK (.reg n) lat v m = .ok (s.schedule (.k n) (.k v) m lat true) := rfl

/-- Any x destination: the result is scheduled for the register that the field names, or for the latches alone. -/
theorem writeX_of_dest {s : State} {d : XDst} {w : WDst} (lat : Nat) (v : Word) (h : s.destX d = .ok w) :
    s.writeX d lat v = .ok (s.schedule w (.x v) (BitVec.allOnes 256) lat true) := by
  unfold writeX; rw [h]; rfl

theorem writeK_of_dest {s : State} {d : KDst} {w : WDst} (lat : Nat) (v m : KWord) (h : s.destK d = .ok w) :
    s.writeK d lat v m = .ok (s.schedule w (.k v) m lat true) := by
  unfold writeK; rw [h]; rfl

/-- A v destination that clashes with no port (R156). -/
theorem writeV_of_dest {s : State} {d : VDst} {w : WDst} (lat : Nat) (v : VWord) (m : KWord) (h : s.destV d = .ok w)
    (hp : ∀ n, w = .v n → s.portClash n lat = false) :
    s.writeV d lat v m = .ok (s.schedule w (.v (v &&& maskBytes m)) m lat true) := by
  unfold writeV
  rw [h]
  cases w with
  | v n => simp [hp n rfl, pure, Except.pure]
  | _ => rfl

/-- An x result is scheduled with its flags, or the destination traps. -/
theorem result_of_dest {s : State} {d : XDst} {w : WDst} (lat : Nat) (r : Word × Flags) (h : s.destX d = .ok w) :
    s.result d lat r = .ok ((s.schedule w (.x r.1) (BitVec.allOnes 256) lat true).flag lat r.2) := by
  unfold result; rw [writeX_of_dest lat r.1 h]; rfl

theorem vresult_of_dest {s : State} {d : VDst} {w : WDst} (lat n : Nat) (k : KWord) (r : VWord × Flags)
    (h : s.destV d = .ok w) (hp : ∀ n, w = .v n → s.portClash n lat = false) :
    s.vresult d lat n k r =
      .ok ((s.schedule w (.v (r.1 &&& maskBytes (activeMask k n))) (activeMask k n) lat true).flag lat r.2) := by
  unfold vresult; rw [writeV_of_dest lat r.1 _ h hp]; rfl

theorem alu1_of_reads {s : State} (lat : Nat) (d : XDst) {a : XSrc} (f : Word → Word × Flags) {x : Word}
    (ha : s.readX a = .ok x) : s.alu1 lat d a f = s.result d lat (f x) := by
  unfold alu1; rw [ha]; rfl

theorem alu2_of_reads {s : State} (lat : Nat) (d : XDst) {a b : XSrc} (f : Word → Word → Word × Flags) {x y : Word}
    (ha : s.readX a = .ok x) (hb : s.readX b = .ok y) : s.alu2 lat d a b f = s.result d lat (f x y) := by
  unfold alu2; rw [ha, hb]; rfl

theorem alu3_of_reads {s : State} (lat : Nat) (d : XDst) {a b c : XSrc} (f : Word → Word → Word → Word × Flags)
    {x y z : Word} (ha : s.readX a = .ok x) (hb : s.readX b = .ok y) (hc : s.readX c = .ok z) :
    s.alu3 lat d a b c f = s.result d lat (f x y z) := by
  unfold alu3; rw [ha, hb, hc]; rfl

theorem vec1_of_reads {s : State} (w lat : Nat) (d : VDst) {a : VSrc} {m : Fin 16} (f : Nat → Nat × Flags) {x : VWord}
    {k : KWord} (ha : s.readV a = .ok x) (hm : s.takeK m = .ok k) :
    s.vec1 w lat d a m f = s.vresult d lat w k (laneResults w k fun j => f (lane x w j)) := by
  unfold vec1; rw [ha, hm]; rfl

theorem vec2_of_reads {s : State} (w lat : Nat) (d : VDst) {a b : VSrc} {m : Fin 16} (f : Nat → Nat → Nat × Flags)
    {x y : VWord} {k : KWord} (ha : s.readV a = .ok x) (hb : s.readV b = .ok y) (hm : s.takeK m = .ok k) :
    s.vec2 w lat d a b m f = s.vresult d lat w k (laneResults w k fun j => f (lane x w j) (lane y w j)) := by
  unfold vec2; rw [ha, hb, hm]; rfl

theorem vec3_of_reads {s : State} (w lat : Nat) (d : VDst) {a b c : VSrc} {m : Fin 16}
    (f : Nat → Nat → Nat → Nat × Flags) {x y z : VWord} {k : KWord} (ha : s.readV a = .ok x) (hb : s.readV b = .ok y)
    (hc : s.readV c = .ok z) (hm : s.takeK m = .ok k) :
    s.vec3 w lat d a b c m f =
      s.vresult d lat w k (laneResults w k fun j => f (lane x w j) (lane y w j) (lane z w j)) := by
  unfold vec3; rw [ha, hb, hc, hm]; rfl

/-- Flags enter only the list of flags to come. -/
@[simp] theorem flag_x (s : State) (lat : Nat) (f : Flags) : (s.flag lat f).tile.regs.x = s.tile.regs.x := by
  unfold flag; split
  · rfl
  · rw [tile_modRegs]

/-! ### The scratchpad and its addresses -/

theorem readSpad_ok {s : State} (h : s.marks = []) (o n : Nat) : s.readSpad o n = .ok (s.load (s.spad o) n) := by
  simp [readSpad, not_marked h]

/-- A scratchpad read answers the bytes, or DATA_ERROR and nothing else. -/
theorem readSpad_cases (s : State) (o n : Nat) :
    s.readSpad o n = .ok (s.load (s.spad o) n) ∨ s.readSpad o n = s.spadTrap o := by
  unfold readSpad; split <;> simp

/-- A scratchpad write keeps the canonical form of storage. -/
theorem writeSpad_wf {s : State} (o n v : Nat) (h : Memory.wf s.mem = true) : Memory.wf (s.writeSpad o n v).mem = true :=
  store_wf _ _ _ _ h

/-- A scratchpad write leaves every other byte alone. -/
theorem get_writeSpad_other (s : State) (o n v c : Nat) (h : c < s.spad o ∨ s.spad o + n ≤ c) :
    (s.writeSpad o n v).mem.get c = s.mem.get c := Memory.get_writeN_other n _ _ _ _ h

/-- A scratchpad write reads back byte by byte. -/
theorem get_writeSpad {s : State} (o n v i : Nat) (h : Memory.wf s.mem = true) (hi : i < n) :
    (s.writeSpad o n v).mem.get (s.spad o + i) = BitVec.ofNat 8 (v / 256 ^ i) := Memory.get_writeN n _ _ _ h hi

/-- An address check answers the offset it was given, inside its space and aligned, or it traps (R191). -/
theorem checkAccess_ok {s : State} {reach : List Nat} {p : Word} {o : Int} {size scale access r : Nat}
    (h : s.checkAccess reach p o size scale access = .ok r) :
    r = o.toNat ∧ 0 ≤ o ∧ r + size ≤ spaceSize (spaceOf p) ∧ r % scale = 0 ∧ spaceOf p ∈ reach := by
  unfold checkAccess at h
  simp only [raise] at h
  split at h
  · cases h
  · rename_i h1
    split at h
    · cases h
    · split at h
      · cases h
      · split at h
        · cases h
        · split at h
          · cases h
          · split at h
            · cases h
            · cases h
              simp only [Bool.or_eq_true, Bool.not_eq_true', decide_eq_true_eq, not_or, Bool.not_eq_false] at h1
              refine ⟨rfl, by omega, by omega, by omega, by simpa using h1.1.1⟩

/-- Order with earlier accesses is either kept already or holds the bundle with the state as it is (R357). -/
theorem lsOrder_cases (s : State) (sid : Fin 16) (acq rel : Bool) :
    s.lsOrder sid acq rel = .ok () ∨ s.lsOrder sid acq rel = .error (.hold 0 s) := by
  unfold lsOrder; split <;> simp

theorem lsOrder_ok {s : State} (h : s.net.accs = []) (sid : Fin 16) (acq rel : Bool) : s.lsOrder sid acq rel = .ok () := by
  simp [lsOrder, lsInOrder, h]

/-! ### Exact traps -/

/-- Taking an exact trap: the bundle's flow says so. -/
@[simp] theorem enterTrap_flow (s : State) (r : Trap) : (s.enterTrap r).cur.flow = .trapped r := rfl

/-- What an exact trap does to storage and its marks is to undo the rows that its bundle had stored to (R164). -/
theorem enterTrap_mem (s : State) (r : Trap) : (s.enterTrap r).mem = (s.undoRows s.cur.tile s.strm.rowGot).mem := rfl
theorem enterTrap_marks (s : State) (r : Trap) : (s.enterTrap r).marks = (s.undoRows s.cur.tile s.strm.rowGot).marks := rfl

/-- A bundle that had stored to no row in an earlier port cycle leaves storage as it was (R384). -/
@[simp] theorem enterTrap_mem_same (s : State) (r : Trap) (h : s.strm.rowGot = []) : (s.enterTrap r).mem = s.mem := by
  rw [enterTrap_mem, h]; rfl

/-- Taking an exact trap leaves the contexts, the launches, the hubs and the accesses on their way as they were (R384). -/
@[simp] theorem enterTrap_ctxs (s : State) (r : Trap) : (s.enterTrap r).ctxs = s.ctxs :=
  (undoRows_only s s.cur.tile s.strm.rowGot).ctxs
@[simp] theorem enterTrap_slots (s : State) (r : Trap) : (s.enterTrap r).slots = s.slots :=
  (undoRows_only s s.cur.tile s.strm.rowGot).slots
@[simp] theorem enterTrap_hubs (s : State) (r : Trap) : (s.enterTrap r).hubs = s.hubs :=
  (undoRows_only s s.cur.tile s.strm.rowGot).hubs
@[simp] theorem enterTrap_accs (s : State) (r : Trap) : (s.enterTrap r).net.accs = s.net.accs :=
  (undoRows_only s s.cur.tile s.strm.rowGot).accs

/-! ### Waits -/

/-- A decided wait completes with its status word scheduled, or escalates (R124). -/
theorem endWait_cases (s : State) (w : WaitF) (wt : Wait) (d : Decision) :
    (∃ t, s.endWait w wt d = .ok t ∧ t.mem = s.mem ∧ t.freeCtr = s.freeCtr) ∨
      (∃ r, s.endWait w wt d = .error (.trap r) ∧ r.kind = .deadlineEscalation) := by
  unfold endWait
  dsimp only
  split
  · exact .inr ⟨_, rfl, rfl⟩
  · exact .inl ⟨_, rfl, rfl, rfl⟩

/-- OK never escalates: its status word is written 6 cycles on (R118, R124). -/
theorem endWait_okay (s : State) (w : WaitF) (wt : Wait) (d : Decision) (h : d.code = 0) :
    ∃ t, s.endWait w wt d = .ok t := by
  unfold endWait
  rw [if_neg (by simp [escalates, h])]
  exact ⟨_, rfl⟩

end State

end Sys2Proof.Machine
end

