-- ==== Sys2Proof/Tests/Slice0.lean ====
section
/-! SUPPORT. Tests: ill-formed terms that the well-formedness check refuses; words written out from the encodings of the
spec; single steps on small states, their results taken from the rules; and for each obligation a state and operands that
meet the hypotheses of its clauses together. -/

set_option Elab.async false

namespace Sys2Proof.Tests

open Sys2Proof Sys2Proof.Machine Sys2Proof.Claims

/-! ### Ill-formed terms (WellFormed) -/

def tok15 : TokF := ⟨15, 15, 15, 15⟩
def plainOrd : OrdF := ⟨false, false, 0⟩
def memX3 : MemF := ⟨.reg 3, 0, 0⟩
def poll : WaitF := ⟨.code 0, 9⟩

theorem test_abs_of_an_n_type : (Instr.abs .n32 (.reg 1) (.reg 2)).wellFormed = false := rfl
theorem test_sext_of_64_bits : (Instr.sext .i64 (.reg 1) (.reg 2)).wellFormed = false := rfl
theorem test_zext_of_an_i_type : (Instr.zext .i8 (.reg 1) (.reg 2)).wellFormed = false := rfl
theorem test_fcvt_of_two_integers : (Instr.fcvt (.int .i8) (.int .i16) false (.reg 1) (.reg 2)).wellFormed = false := rfl
theorem test_fcvt_to_itself : (Instr.fcvt (.flt .f16) (.flt .f16) false (.reg 1) (.reg 2)).wellFormed = false := rfl
theorem test_clkrd_of_x0_and_x63 : (Instr.clkrd 0).wellFormed = false ∧ (Instr.clkrd 63).wellFormed = false := ⟨rfl, rfl⟩
theorem test_vcmp_of_binary8 :
    (Instr.vcmp 0 (.b8 ⟨false, false, 3⟩) (.reg 1) (.reg 1) (.reg 2) 0).wellFormed = false := rfl
theorem test_vcmp_order_of_integers : (Instr.vcmp 6 (.int .i8) (.reg 1) (.reg 1) (.reg 2) 0).wellFormed = false := rfl
theorem test_vcvt_part_too_high :
    (Instr.vcvt (.flt .f32) (.int .i16) false 2 (.reg 1) (.reg 2) 0).wellFormed = false := rfl
theorem test_vqnt_to_16_bits : (Instr.vqnt (.int .i16) false (.reg 1) (.reg 2) 3).wellFormed = false := rfl
theorem test_vdqnt_part_of_bf16 : (Instr.vdqnt true (.int .i8) 2 (.reg 1) (.reg 2) (.reg 3) 0).wellFormed = false := rfl
theorem test_vrsum_of_binary8 : (Instr.vrsum (.b8 ⟨true, true, 2⟩) (.reg 1) (.reg 2) 0).wellFormed = false := rfl
theorem test_vrng_of_i32 : (Instr.vrng (.int .i32) (.reg 1) (.reg 2) (.reg 3) 0).wellFormed = false := rfl
theorem test_load_with_release : (Instr.vld (.reg 1) memX3 ⟨false, true, 0⟩).wellFormed = false := rfl
theorem test_store_with_acquire : (Instr.vst (.reg 1) memX3 ⟨true, false, 0⟩).wellFormed = false := rfl
theorem test_xld_of_n64 : (Instr.xld .n64 (.reg 1) memX3 plainOrd).wellFormed = false := rfl
theorem test_vsts_of_a_latch : (Instr.vsts (.int .i8) (.byp 2 0) (.reg 1) (.reg 2) 0 0).wellFormed = false := rfl
theorem test_cas_of_x63 : (Instr.latom .cas true 63 memX3 plainOrd).wellFormed = false := rfl
theorem test_omclaim_of_nothing : (Instr.omclaim 0 poll).wellFormed = false := rfl
theorem test_mma_of_mixed_types :
    (Instr.mma (.flt .bf16) (.int .i8) 0 0 1 false false tok15).wellFormed = false := rfl
theorem test_mma_of_scaled_bf16 :
    (Instr.mma (.flt .bf16) (.flt .bf16) 0 0 1 true false tok15).wellFormed = false := rfl
theorem test_copy_to_nowhere : (Instr.copy 1 2 0 0 0 tok15 0 false false).wellFormed = false := rfl
theorem test_copy_shape_too_high : (Instr.copy 1 2 28 1 0 tok15 0 false false).wellFormed = false := rfl
theorem test_copy_zero_with_a_source : (Instr.copy 1 2 0 1 0 tok15 0 true false).wellFormed = false := rfl
theorem test_copym_of_no_mma : (Instr.copym 1 2 0 3 0 tok15 0 false false 0).wellFormed = false := rfl
theorem test_cpcancel_of_nothing : (Instr.cpcancel (.reg 1) 0).wellFormed = false := rfl
theorem test_rput_shape_too_high : (Instr.rput 1 2 28 none tok15 0).wellFormed = false := rfl

/-! ### Words written out from the encodings of R37 and R48 to R56 -/

/-- RR: opcode, D, A, B, C, MASK, TYPE (R50). -/
def rr (op : BitVec 8) (d a b c : BitVec 11) (m : BitVec 4) (t : BitVec 8) : Word := op ++ d ++ a ++ b ++ c ++ m ++ t

/-- CT: opcode, OFF, A, IX, GM, CC, and the low 16 bits (R49). -/
def ct (op : BitVec 8) (off : BitVec 16) (a : BitVec 11) (ix : BitVec 5) (gm cc : BitVec 4) (low : BitVec 16) : Word :=
  op ++ off ++ a ++ ix ++ gm ++ cc ++ low

/-- The worked case of chapter 03: `add.i64 x3, x1, x2`. -/
theorem test_decode_add : decodeSyl 0 0x0100600401000004 0 = some (.add .i64 (.reg 3) (.reg 1) (.reg 2)) := by decide +kernel

/-- The worked case of chapter 03: `vadd.f32 v10, v4, 1.5`. -/
theorem test_decode_vadd_vi :
    decodeSyl 2 0x81014010FF000010 0 = some (.vaddVI .f32 (.reg 10) (.reg 4) 0x3FC0 0) := by decide +kernel

/-- Its header: two new syllables and GAP 1. -/
theorem test_decode_header : decodeHeader 0x0400440000000000 = some ⟨false, 1, 0x0011, 0, 0⟩ := by decide +kernel

theorem test_decode_brc : decodeSyl 7 (ct 0xF0 0xFFFE 0 5 0 1 0) 0 = some (.brc 5 true 0xFFFE) := by decide +kernel
theorem test_decode_fork : decodeSyl 0 (ct 0xE5 0x5500 0 0 0 0 0) 0x20001 = some (.fork 0x5500 0x20001) := by decide +kernel
theorem test_decode_fork_not_in_sc1 : decodeSyl 1 (ct 0xE5 0x5500 0 0 0 0 0) 0x20001 = none := by decide +kernel
theorem test_decode_a_latch :
    decodeSyl 1 (rr 0x19 5 0x20E 0 0 0 0) 0 = some (.mov (.reg 5) (.byp 3 2)) := by decide +kernel
theorem test_decode_depth_3 : decodeSyl 1 (rr 0x19 5 0x20F 0 0 0 0) 0 = none := by decide +kernel
theorem test_decode_x64 : decodeSyl 1 (rr 0x19 5 64 0 0 0 0) 0 = none := by decide +kernel
theorem test_decode_literal :
    decodeSyl 0 ((0x41 : BitVec 8) ++ (7 : BitVec 11) ++ (2 : BitVec 11) ++ (2 : BitVec 2) ++ (0 : BitVec 32)) 0x1234567890
      = some (.addRI (.reg 7) (.reg 2) (.lit 0x1234567890)) := by decide +kernel
theorem test_decode_vcmp :
    decodeSyl 3 (rr 0x0D 3 10 11 2 1 0x10) 0 = some (.vcmp 2 (.flt .f32) (.reg 3) (.reg 10) (.reg 11) 1) := by decide +kernel
theorem test_decode_xld :
    decodeSyl 4 ((0x13 : BitVec 8) ++ (9 : BitVec 11) ++ (3 : BitVec 11) ++ (0x3FFF : BitVec 14) ++ (2 : BitVec 4)
      ++ (0 : BitVec 6) ++ (0 : BitVec 6) ++ (8 : BitVec 4)) 0
      = some (.xld .i64 (.reg 9) ⟨.reg 3, 0x3FFF, 2⟩ ⟨true, false, 0⟩) := by decide +kernel
theorem test_decode_mma :
    decodeSyl 5 (rr 0x08 0x053 0x0F1 0x0F2 0x12 15 0x12) 0
      = some (.mma (.flt .bf16) (.flt .bf16) 3 1 2 false false ⟨5, 15, 15, 15⟩) := by decide +kernel
theorem test_decode_mzero : decodeSyl 5 (rr 0x09 0x0F9 0x0F0 0x0F0 0 15 0) 0 = some (.mzero 9 tok15) := by decide +kernel
theorem test_decode_copy :
    decodeSyl 6 ((0x01 : BitVec 8) ++ (1 : BitVec 6) ++ (2 : BitVec 6) ++ (8 : BitVec 6) ++ (1 : BitVec 10) ++ (0 : BitVec 3)
      ++ (3 : BitVec 4) ++ (0xF : BitVec 4) ++ (0xF : BitVec 4) ++ (0xF : BitVec 4) ++ (1 : BitVec 4) ++ (0 : BitVec 5)) 0
      = some (.copy 1 2 8 1 0 ⟨3, 15, 15, 15⟩ 1 false false) := by decide +kernel

/-! ### Small states -/

/-- A system task of one bundle runs in lockstep on tile 0, at the start of its image; slot 0 is in hand. -/
def s0 : State := { State.reset.withFetchWord 0 0 with agenda := [] }

/-- The same with another slot in hand. -/
def inSlot (n : Fin 8) : State := { s0 with cur := { s0.cur with slot := n } }

/-- Tile 0 changed. -/
def onTile (s : State) (f : Tile → Tile) : State := s.modTile 0 f

/-- An x register of tile 0. -/
def withX (s : State) (n : Fin 64) (v : Word) : State :=
  onTile s fun t => { t with regs := { t.regs with x := upd t.regs.x n v } }

/-- A v register of tile 0. -/
def withV (s : State) (n : Fin 384) (v : VWord) : State :=
  onTile s fun t => { t with regs := { t.regs with v := upd t.regs.v n v } }

/-- The task is a user task. -/
def asUser (s : State) : State :=
  onTile s fun t => { t with sched := { t.sched with task := t.sched.task.map fun k => { k with user := true } } }

/-- The stream of tile 0 changed. -/
def onStream (s : State) (f : Stream → Stream) : State := s.modStrm f

/-- Does a result answer a value? -/
def okIs {α : Type} [DecidableEq α] (r : Res α) (a : α) : Bool := match r with | .ok x => decide (x = a) | .error _ => false

theorem eq_of_okIs {α : Type} [DecidableEq α] {r : Res α} {a : α} (h : okIs r a = true) : r = .ok a := by
  cases r with
  | ok x => simpa [okIs] using h
  | error e => simp [okIs] at h

/-- The newest write that an outcome schedules on tile 0: its destination, value and latency. -/
def result (o : Host.Outcome State Fault Refusal) : Option (WDst × RVal × Nat) :=
  match o with
  | .next s => (s.tileAt 0).regs.pend.head?.map fun w => (w.dst, w.val, w.due - s.clk.now)
  | _ => none

/-- The flags that an outcome will add. -/
def flagsOf (o : Host.Outcome State Fault Refusal) : Flags :=
  match o with
  | .next s => (s.tileAt 0).regs.pendF.foldl (fun f p => f ||| p.2) 0
  | _ => 0

/-- Lane `j` of the newest vector result. -/
def laneOf (o : Host.Outcome State Fault Refusal) (w j : Nat) : Option Nat :=
  match result o with
  | some (_, .v v, _) => some (lane v w j)
  | _ => none

/-- The flow of the bundle after an outcome. -/
def flowOf (o : Host.Outcome State Fault Refusal) : Option Flow :=
  match o with
  | .next s => some s.cur.flow
  | _ => none

/-! ### Single steps of scalar and vector forms, from the rules and their worked cases -/

/-- R172: the sum wraps at 32 bits, is sign-extended, and raises IOV. -/
theorem test_add_wraps :
    result (exec (.add .i32 (.reg 5) (.reg 1) (.reg 2)) (withX (withX s0 1 0x7FFFFFFF) 2 1))
      = some (.x 5, .x 0xFFFFFFFF80000000, 1) := by decide +kernel
theorem test_add_overflow_flag :
    flagsOf (exec (.add .i32 (.reg 5) (.reg 1) (.reg 2)) (withX (withX s0 1 0x7FFFFFFF) 2 1)) = fIOV := by decide +kernel
theorem test_sub_of_a_source_that_is_the_destination :
    result (exec (.sub .n8 (.reg 1) (.reg 1) (.reg 2)) (withX (withX s0 1 3) 2 5)) = some (.x 1, .x 0xFE, 1) := by decide +kernel
theorem test_mulh_signed :
    result (exec (.mulh .i64 (.reg 5) (.reg 1) (.reg 2)) (withX (withX s0 1 (-1)) 2 2)) = some (.x 5, .x (-1), 3) := by
  decide +kernel
theorem test_div_by_zero :
    result (exec (.div .i32 (.reg 5) (.reg 6) (.reg 7)) (withX s0 6 40)) = some (.x 5, .x (-1), 20) := by decide +kernel
theorem test_rem_by_zero :
    result (exec (.rem .n16 (.reg 5) (.reg 6) (.reg 7)) (withX s0 6 40)) = some (.x 5, .x 40, 20) := by decide +kernel
theorem test_shift_by_the_width :
    result (exec (.shl .i16 (.reg 5) (.reg 1) (.reg 2)) (withX (withX s0 1 1) 2 16)) = some (.x 5, .x 1, 1) := by decide +kernel
theorem test_sar_keeps_the_sign :
    result (exec (.sar .i8 (.reg 5) (.reg 1) (.reg 2)) (withX (withX s0 1 0x80) 2 7)) = some (.x 5, .x (-1), 1) := by
  decide +kernel
theorem test_clz_of_zero :
    result (exec (.clz .n32 (.reg 5) (.reg 1)) s0) = some (.x 5, .x 32, 1) := by decide +kernel
theorem test_cmp_less :
    result (exec (.cmp .i8 (.reg 5) (.reg 1) (.reg 2)) (withX (withX s0 1 0x80) 2 0x7F)) = some (.x 5, .x (-1), 1) := by
  decide +kernel
theorem test_abs_of_the_least :
    result (exec (.abs .i8 (.reg 5) (.reg 1)) (withX s0 1 0x80)) = some (.x 5, .x 0xFFFFFFFFFFFFFF80, 1) := by decide +kernel
/-- R126 and its worked case: x3 = 50,000 at wclock 7,000,000. -/
theorem test_dlmk_wall :
    result (exec (.dlmk true (.reg 12) (.reg 3)) { withX s0 3 50000 with clk := { s0.clk with wclock := 7000000 } })
      = some (.x 12, .x 0x80000000006B9310, 2) := by decide +kernel
theorem test_pspace : result (exec (.pspace (.reg 5) (.reg 1)) (withX s0 1 0x3120000000000000)) = some (.x 5, .x 3, 1) := by
  decide +kernel
/-- R180: the sum of 2^24 and 1 rounds to 2^24, and is inexact. -/
theorem test_fadd_rounds :
    result (exec (.fadd (.reg 5) (.reg 1) (.reg 2)) (withX (withX s0 1 0x4B800000) 2 0x3F800000))
      = some (.x 5, .x 0x4B800000, 4) := by decide +kernel
theorem test_fmin_of_a_nan :
    result (exec (.fmin (.reg 5) (.reg 1) (.reg 2)) (withX (withX s0 1 0x7FC12345) 2 0x3F800000))
      = some (.x 5, .x 0x3F800000, 4) := by decide +kernel
theorem test_fcmp_unordered :
    result (exec (.fcmp (.reg 5) (.reg 1) (.reg 2)) (withX s0 1 0x7FC00000)) = some (.x 5, .x 2, 4) := by decide +kernel
theorem test_fsqrt_of_a_negative :
    result (exec (.fsqrt (.reg 5) (.reg 1)) (withX s0 1 0xBF800000)) = some (.x 5, .x 0x7FC00000, 16) := by decide +kernel

/-- R209, worked case: b8p4s 0xB5 is −0.40625, 0x7E is 224. -/
theorem test_b8p4s_values :
    ((Ty.b8 ⟨false, false, 3⟩).value 0xB5).eq (f32v 0xBED00000) = true
      ∧ ((Ty.b8 ⟨false, false, 3⟩).value 0x7E).eq (f32v 0x43600000) = true := by
  decide +kernel

/-- R219, worked case: 100.0 in a block of zeros takes the scale 0x6E in b8p4s, and its code is 0x7E. -/
theorem test_scale_search :
    scaleSearch (.b8 ⟨false, false, 3⟩) ((List.range 32).map fun i => if i = 5 then f32v 0x42C80000 else f32v 0) = 0x6E
      ∧ (vqntCode (.b8 ⟨false, false, 3⟩) 0x6E (f32v 0x42C80000)).1 = 0x7E := by decide +kernel

/-- R234, worked case: lane 0 of v10 is 300.0, −0.40625 or 0.1; lane 128 receives 0x7F, 0xB5 or 0x25. -/
theorem test_vcvt_lanes :
    (convert (.b8 ⟨false, false, 3⟩) (.flt .f32) false 0x43960000).1 = 0x7F
      ∧ (convert (.b8 ⟨false, false, 3⟩) (.flt .f32) false 0xBED00000).1 = 0xB5
      ∧ (convert (.b8 ⟨false, false, 3⟩) (.flt .f32) false 0x3DCCCCCD).1 = 0x25 := by decide +kernel

/-- R221, worked case: 2^24, 1 and 1 add up to 2^24 in the pairwise order. -/
theorem test_vrsum_order :
    laneOf (exec (.vrsum (.flt .f32) (.reg 10) (.reg 1) 0) (withV (inSlot 2) 1 (ofLanes 4 [0x4B800000, 0x3F800000, 0x3F800000])))
      4 63 = some 0x4B800000 := by decide +kernel

/-- R238, worked case of the top-four mask: lanes 60 to 63 of v1 come first. -/
theorem test_vslide :
    laneOf (exec (.vslide (.int .n32) (.reg 3) (.reg 1) (.reg 2) (.reg 5) 0)
      (withX (withV (inSlot 2) 1 (BitVec.allOnes 2048)) 5 60)) 4 3 = some 0xFFFFFFFF
    ∧ laneOf (exec (.vslide (.int .n32) (.reg 3) (.reg 1) (.reg 2) (.reg 5) 0)
      (withX (withV (inSlot 2) 1 (BitVec.allOnes 2048)) 5 60)) 4 4 = some 0 := by decide +kernel
theorem test_viadd_wraps_lane_by_lane :
    laneOf (exec (.viadd .i8 (.reg 3) (.reg 1) (.reg 2) 0) (withV (withV (inSlot 2) 1 0x7FFF) 2 0x0101)) 1 0 = some 0
    ∧ laneOf (exec (.viadd .i8 (.reg 3) (.reg 1) (.reg 2) 0) (withV (withV (inSlot 2) 1 0x7FFF) 2 0x0101)) 1 1 = some 0x80 := by
  decide +kernel
theorem test_kpop :
    result (exec (.kpop (.int .n32) (.reg 6) (.reg 2))
      (onTile s0 fun t => { t with regs := { t.regs with k := upd t.regs.k 2 0xFFFF } })) = some (.x 6, .x 4, 1) := by decide +kernel
/-- R156: a slot that a bank's portmap byte does not name raises PORT_CONFLICT. -/
theorem test_port_conflict :
    flowOf (exec (.vmovVI (.int .i32) (.reg 10) 0 0) (inSlot 4))
      = some (.trapped { kind := .portConflict, slot := 4, info0 := 10 * 65536 }) := by decide +kernel

/-! ### Control flow, memory and placement -/

/-- R145, worked case: the map and the entry offsets give vec, mat and cpy. -/
theorem test_fork_word : decodeSyl 0 0xE5A5000000000000 0x0000004000200008 = some (.fork 0xA500 0x0000004000200008) := by
  decide +kernel
/-- R138, worked case: the LOOP at byte 0x200 with its end at 0x228. -/
theorem test_loop_word : decodeSyl 0 0xF200050002000000 0 = some (.loop 2 5) := by decide +kernel
/-- R136, worked case. -/
theorem test_br_word : decodeSyl 0 0xE0FFF80080010000 0 = some (.br .ne (.reg 4) (.reg 0) 0xFFF8) := by decide +kernel
/-- R185, R186, worked case. -/
theorem test_mfs_and_mts_words :
    decodeSyl 1 0x3000A00000000011 0 = some (.mfs (.reg 5) .wclock) ∧ decodeSyl 1 0x3100003000000012 0 = some (.mts .gdl (.reg 12)) := by
  decide +kernel
/-- R126, worked case. -/
theorem test_dlmk_word : decodeSyl 0 0x3201800C00000004 0 = some (.dlmk true (.reg 12) (.reg 3)) := by decide +kernel
/-- R231, worked case. -/
theorem test_vcmp_word :
    decodeSyl 2 0x0D00400C01001007 0 = some (.vcmp 1 (.int .n32) (.reg 2) (.reg 3) (.reg 2) 0) := by decide +kernel

/-- R89, worked case: tile 87 lies in cluster 19 and stack domain 6. -/
theorem test_places_of_tile_87 : clusterOf 87 = 19 ∧ domainOf 87 = 6 := by decide +kernel
/-- R196, worked case: tile 0 reads vault 19 over 8 hops in 72 cycles. -/
theorem test_vault_19_from_tile_0 : hopsToCluster 0 19 = 8 ∧ unloaded 0 3 (vaultBase + 19 * 2 ^ 27) = 72 := by decide +kernel
/-- R198, worked case: the indices of VA 0x80_8065_1234, and the leaf's address. -/
theorem test_walk_indices :
    (List.range 4).map (fun lv => walkIndex lv 0x8080651234) = [1, 2, 3, 5] ∧ leafPa 0x000000123456009B 3 0x8080651234 = 0x1234561234 := by
  decide +kernel

/-- R118, worked case: OK with 348,576 ticks left of a resumed wait. -/
theorem test_status_word :
    statusWord ⟨false, 0, 0, 0, false, true, 0⟩ ⟨0, 0, 348576⟩ = 0x000551A000000200 := by decide +kernel

/-- R8, R246: a store of four bytes is little-endian, and a load of two reads the low ones. -/
theorem test_store_and_load :
    (match exec (.xst 2 (.reg 1) memX3 plainOrd) (withX (withX (inSlot 4) 1 0x11223344) 3 0x1000000000000100) with
      | .next s => result (exec (.xld .i16 (.reg 5) memX3 plainOrd) s)
      | _ => none) = some (.x 5, .x 0x3344, 4) := by decide +kernel
theorem test_load_misaligned :
    flowOf (exec (.xld .i16 (.reg 5) memX3 plainOrd) (withX (inSlot 4) 3 0x1000000000000101))
      = some (.trapped { kind := .misaligned, slot := 4, access := 2, info0 := 2, addr := 0x1000000000000101 }) := by
  decide +kernel
theorem test_load_beyond_the_scratchpad :
    flowOf (exec (.xld .i16 (.reg 5) memX3 plainOrd) (withX (inSlot 4) 3 0x1000000000080000))
      = some (.trapped { kind := .addrSpace, slot := 4, access := 2, addr := 0x1000000000080000 }) := by decide +kernel

/-- R188: a user task may not write LIMIT. -/
theorem test_mts_of_limit_by_a_user :
    flowOf (exec (.mts .limit (.reg 0)) (asUser s0)) = some (.trapped { kind := .privilege, info0 := 0x040 }) := by decide +kernel

/-- A bundle that holds one new MOVI, placed at the PC, is fetched, executed and committed (log 7). -/
theorem test_step_runs_the_placed_word :
    (match step (State.reset.withFetchWord 128 (0x0000040000000000 + 0x5900A0000000002A * 2 ^ 64)) with
      | .next s => (s.tileAt 0).regs.pend.head?.map fun w => (w.dst, w.val)
      | _ => none) = some (.x 5, .x 42) := by decide +kernel

/-! ### Witnesses: states and operands that meet the hypotheses of the obligations -/

/-- An outcome that goes on with a given flow has a next state with that flow. -/
theorem next_of_flow {o : Host.Outcome State Fault Refusal} {f : Flow} (h : flowOf o = some f) :
    ∃ s', o = .next s' ∧ s'.cur.flow = f := by
  cases o with
  | next s => exact ⟨s, rfl, by simpa [flowOf] using h⟩
  | _ => simp [flowOf] at h

/-- What holds of the bundle that fetch finds. -/
def bundleIs (f : Fetched) (p : Bundle → Bool) : Bool := match f with | .bundle b => p b | _ => false

theorem bundle_of {f : Fetched} {p : Bundle → Bool} (h : bundleIs f p = true) : ∃ b, f = .bundle b ∧ p b = true := by
  cases f with
  | bundle b => exact ⟨b, rfl, h⟩
  | _ => simp [bundleIs] at h

theorem witness_EncodedIsDecoded :
    (Instr.add .i64 (.reg 3) (.reg 1) (.reg 2)).wellFormed = true ∧ ¬IsEvent (.add .i64 (.reg 3) (.reg 1) (.reg 2))
      ∧ (Instr.add .i64 (.reg 3) (.reg 1) (.reg 2)).inSlot 1 = true := ⟨rfl, fun h => h, rfl⟩

theorem witness_DecodedIsEncoded : ∃ i, decodeSyl 0 0x0100600401000004 0 = some i := ⟨_, test_decode_add⟩

/-- A bundle of one MOVI at the PC, whose turn is next. -/
def s1 : State := State.reset.withFetchWord 128 (0x0000040000000000 + 0x5900A0000000002A * 2 ^ 64)

/-- A bundle of one TRAP at the PC. -/
def s2 : State := State.reset.withFetchWord 128 (0x0000040000000000 + 0xE800070000000000 * 2 ^ 64)

theorem witness_StepRunsInstruction_event :
    ({ s0 with agenda := [.event .scrubbingPass] } : State).agenda = .event .scrubbingPass :: [] := rfl
theorem witness_StepRunsInstruction_cycle : s0.agenda = [] := rfl

theorem witness_StepRunsInstruction_fetch :
    s1.codeWord 0 = some (some 0x0000040000000000) ∧ s1.codeWord 8 = some (some 0x5900A0000000002A) ∧ 0 + 16 ≤ s1.codeLen
      ∧ decodeHeader 0x0000040000000000 = some ⟨false, 0, 1, 0, 0⟩ ∧ (⟨false, 0, 1, 0, 0⟩ : Header).group = !s1.tile.lockstep
      ∧ (⟨false, 0, 1, 0, 0⟩ : Header).lit = 0 ∧ (⟨false, 0, 1, 0, 0⟩ : Header).slotMode 0 = 1
      ∧ (∀ j : Fin 8, j ≠ 0 → (⟨false, 0, 1, 0, 0⟩ : Header).slotMode j = 0) ∧ s1.member 0 = true
      ∧ litCount 0 0x5900A0000000002A = 0 ∧ isLoop 0x5900A0000000002A = false
      ∧ decodeSyl 0 0x5900A0000000002A 0 = some (.moviI64 (.reg 5) (.imm 42)) := by decide +kernel

/-- Does the stream's turn of a state run one instruction, with a flow? -/
def runsOne (s : State) (f : Flow) : Bool :=
  let s1 := { s with agenda := [] }.inHand 0 0 false
  { s with agenda := [] }.mayTurn 0 0 && bundleIs (fetch s1 s1.strm.pc) fun b =>
    let h := (s1.begun b).withBundle b
    ((h.heldAt 0 0).collect b.items).2 && match b.items with
      | [it] => (State.waiter b.items).isNone && match it.ins with
        | .ok i => flowOf (exec i ((h.setLatches b.items).withItem it)) == some f
        | .error _ => false
      | _ => false

theorem witness_StepRunsInstruction_run : s1.agenda = [.stream 0 0] ∧ runsOne s1 .go = true := by decide +kernel
theorem witness_StepRunsInstruction_trap :
    s2.agenda = [.stream 0 0] ∧ runsOne s2 (.trapped { kind := .trap, info0 := 7 }) = true := by decide +kernel

theorem witness_MemoryKeepsItsForm : MemOk s1 ∧ ∃ s', step s1 = .next s' := by
  refine ⟨by unfold MemOk; decide +kernel, ?_⟩
  obtain ⟨s', h, -⟩ := next_of_flow (f := (match step s1 with | .next s' => s'.cur.flow | _ => .go))
    (o := step s1) (by decide +kernel)
  exact ⟨s', h⟩

theorem witness_ResultFrame_scalar :
    OnlyResults (.add .i64 (.reg 3) (.reg 1) (.reg 2)) ∧ s0.cur.flow = .go
      ∧ ∃ s', exec (.add .i64 (.reg 3) (.reg 1) (.reg 2)) s0 = .next s' ∧ s'.cur.flow = .go :=
  ⟨.inl (by simp [scalarDest]), rfl, next_of_flow (by decide +kernel)⟩
theorem witness_ResultFrame_vector :
    OnlyResults (.vmovVI (.int .i32) (.reg 10) 1 0) ∧ (inSlot 2).cur.flow = .go
      ∧ ∃ s', exec (.vmovVI (.int .i32) (.reg 10) 1 0) (inSlot 2) = .next s' ∧ s'.cur.flow = .go :=
  ⟨.inr (.inl (by simp [vectorDest])), rfl, next_of_flow (by decide +kernel)⟩
theorem witness_ResultFrame_mask :
    OnlyResults (.kmov (.reg 1) (.reg 0)) ∧ (inSlot 2).cur.flow = .go
      ∧ ∃ s', exec (.kmov (.reg 1) (.reg 0)) (inSlot 2) = .next s' ∧ s'.cur.flow = .go :=
  ⟨.inr (.inr (.inl (by simp [maskDest]))), rfl, next_of_flow (by decide +kernel)⟩

/-- A load with no reduction queued at the scratchpad. -/
theorem witness_ResultFrame_load :
    isLoad (.xld .i64 (.reg 5) memX3 plainOrd) = true ∧ OnlyResults (.xld .i64 (.reg 5) memX3 plainOrd)
      ∧ NoneQueued (withX (inSlot 4) 3 0x100000000007FFF8) ∧ MemOk s0
      ∧ ∃ s', exec (.xld .i64 (.reg 5) memX3 plainOrd) (withX (inSlot 4) 3 0x100000000007FFF8) = .next s' ∧ s'.cur.flow = .go :=
  ⟨rfl, .inr (.inr (.inr (by simp [otherDest]))), (fun e h => by cases (show e ∈ ([] : List GredEntry) from h)),
    by unfold MemOk; decide +kernel, next_of_flow (by decide +kernel)⟩

/-- Registers that every scalar form may read and write. -/
theorem witness_scalar_operands :
    s0.readX (.reg 1) = .ok 0 ∧ s0.readX (.reg 2) = .ok 0 ∧ s0.readX (.reg 0) = .ok 0 ∧ s0.destX (.reg 63) = .ok (.x 63)
      ∧ s0.destX (.nwb 0) = .ok .none :=
  ⟨eq_of_okIs (by decide +kernel), eq_of_okIs (by decide +kernel), eq_of_okIs (by decide +kernel), rfl, rfl⟩

/-- The pointers of R179 that fit and that do not. -/
theorem witness_Pointers :
    ((0 : Int) ≤ (offsetOf (0x100000000007FFFF : Word) : Int) + (0 : Word).toInt
        ∧ pointerOk (s0.peerLen s0.ctxOf) 1 0 0x7FFFF = true)
      ∧ pointerOk (s0.peerLen s0.ctxOf) 1 0 0x80000 = true ∧ pointerOk (s0.peerLen s0.ctxOf) 1 0 0x80001 = false
      ∧ ¬ ((0 : Int) ≤ (offsetOf (0x1000000000000000 : Word) : Int) + (-1 : Word).toInt) := by decide +kernel

theorem witness_NanOperands :
    isNan32 0x7F800001 ∧ isNan32 0xFFC00000 ∧ (withX s0 1 0x7F800001).readX (.reg 1) = .ok 0x7F800001 :=
  ⟨by unfold isNan32; decide +kernel, by unfold isNan32; decide +kernel, eq_of_okIs (by decide +kernel)⟩

theorem witness_FloatConversion : (Instr.fcvt (.flt .f32) (.int .i8) false (.reg 0) (.reg 0)).wellFormed = true := rfl

/-- System tasks write every register, user tasks those of access U; the stream in hand exists. -/
theorem witness_MtsTakesEffect :
    s0.readX (.reg 3) = .ok 0 ∧ s0.isSys = true ∧ (asUser s0).isSys = false ∧ isSysOnly .sticky = false
      ∧ (∀ n, SysReg.limit = .bfmt n → bankOk 0 = true) ∧ s0.tile.sys.mts = [] ∧ s0.tile.sys.tocOps = []
      ∧ s0.tile.regs.pendF = [] ∧ (s0.tile.streams.get s0.cur.group).isSome = true :=
  ⟨eq_of_okIs (by decide +kernel), rfl, rfl, rfl, (fun _ h => by cases h), rfl, rfl, rfl, rfl⟩
theorem witness_MtsTakesEffect_bank : bankOk 0x124 = true ∧ (∀ n, SysReg.bfmt 15 = .bfmt n → bankOk 0x124 = true) :=
  ⟨by decide +kernel, fun _ _ => by decide +kernel⟩
theorem witness_MtsRefused :
    (asUser s0).readX (.reg 3) = .ok 0 ∧ (asUser s0).isSys = false ∧ isSysOnly .limit = true ∧ bankOk 0xFF = false :=
  ⟨eq_of_okIs (by decide +kernel), rfl, rfl, by decide +kernel⟩

/-- A TFENCE in cycle 9 that was held to a cycle, or was not, with and without a common flag, and a result of a syllable
committed in cycle 4 that lands in a given cycle. -/
def fenced (f : BitVec 8) (held : Option Nat) (due : Nat) : State :=
  { onStream (onTile s0 fun t => { t with
      sys := { t.sys with sticky := f, tenable := 0x80 }
      regs := { t.regs with pend := [⟨due, 4, 0, false, 1, .x 5, .x 1, 0, true⟩] } })
      fun st => { st with holdTo := held } with clk := { s0.clk with now := 9 } }
theorem witness_TfenceOutcome :
    (fenced 0 none 9).tile.sys.mts = [] ∧ (fenced 0 none 9).tile.sys.mtsPlan = [] ∧ (fenced 0 (some 9) 9).strm.holdTo = some 9
      ∧ 9 ≤ (fenced 0 (some 9) 9).now ∧ (fenced 0 none 9).strm.holdTo = none
      ∧ (∀ w ∈ (fenced 0 none 9).tile.regs.pend, w.late = false → w.issued < 9 → w.due ≤ (fenced 0 none 9).now)
      ∧ stickySoon (fenced 0 none 9) &&& (fenced 0 none 9).tile.sys.tenable = 0
      ∧ stickySoon (fenced 0x80 none 9) &&& (fenced 0x80 none 9).tile.sys.tenable ≠ 0
      ∧ (∃ w ∈ (fenced 0 none 10).tile.regs.pend, w.late = false ∧ w.issued < (fenced 0 none 10).now ∧ (fenced 0 none 10).now < w.due)
      ∧ (fenced 0 (some 10) 10).now < 10 := by decide +kernel

/-- A stream inside a loop with a ring of three x registers and one of two v registers, in its second iteration. -/
def looped : State :=
  onStream s0 fun st => { st with loops := [⟨0, 64, 5, 1, [⟨false, 8, 3⟩, ⟨true, 96, 2⟩], .never⟩] }
theorem witness_SourceFields_rings :
    looped.marks = [] ∧ looped.strm.loops = [⟨0, 64, 5, 1, [⟨false, 8, 3⟩, ⟨true, 96, 2⟩], .never⟩]
      ∧ ([⟨false, 8, 3⟩, ⟨true, 96, 2⟩] : List Ring).find? (fun r => r.vec == false && r.base == 8) = some ⟨false, 8, 3⟩
      ∧ ([⟨false, 8, 3⟩, ⟨true, 96, 2⟩] : List Ring).find? (fun r => r.vec == true && r.base == 96) = some ⟨true, 96, 2⟩
      ∧ (9 : Fin 64).val = (8 : Fin 64).val + 1 % 3 ∧ (97 : Fin 384).val = (96 : Fin 384).val + 1 % 2 := by decide +kernel

/-- Bypass latches of each file. -/
def latched : State :=
  onTile s0 fun t => { t with regs := { t.regs with byp := ((t.regs.byp.set 1 [.x 7]).set 2 [.v 8]).set 3 [.k 9] } }
theorem witness_SourceFields_latches :
    latched.marks = [] ∧ latched.member 1 = true ∧ (latched.tile.regs.byp.get 1)[0]? = some (.x 7)
      ∧ (latched.tile.regs.byp.get 2)[0]? = some (.v 8) ∧ (latched.tile.regs.byp.get 3)[0]? = some (.k 9) := by decide +kernel
theorem witness_SourceTraps :
    s0.strm.loops = [] ∧ (([⟨false, 8, 3⟩, ⟨true, 96, 2⟩] : List Ring).find? fun r => r.vec == false && r.base == 9) = none
      ∧ (s0.tile.regs.byp.get 7)[2]? ≠ some (.x 0) ∧ xKey s0.cur.tile 63 ∈ ({ s0 with marks := [xKey 0 63] } : State).marks := by
  decide +kernel

/-- Two writes to x5 that land in one cycle, from slots 0 and 1, and one to x0. -/
def landing : Regs :=
  { s0.tile.regs with pend :=
      [⟨5, 0, 0, false, 1, .x 5, .x 1, 0, true⟩, ⟨5, 0, 1, true, 0, .x 5, .x 2, 0, true⟩, ⟨5, 0, 1, false, 7, .x 5, .x 4, 0, true⟩,
        ⟨5, 0, 1, false, 2, .x 0, .x 3, 0, true⟩] }
theorem witness_LandingWrites :
    (⟨5, 0, 1, false, 2, .x 0, .x 3, 0, true⟩ : PendW).dst = .x 0
      ∧ (⟨5, 0, 1, true, 0, .x 5, .x 2, 0, true⟩ : PendW) ∈ landing.pend
      ∧ ∀ u ∈ landing.pend, u.due ≤ 5 → u.dst = .x 5 → u ≠ ⟨5, 0, 1, true, 0, .x 5, .x 2, 0, true⟩ →
          u.slot.val < 1 ∨ (u.slot = 1 ∧ ((u.late = false ∧ true = true) ∨ (u.late = true ∧ u.seq < 0))) := by decide +kernel
/-- R158, item 3: an arriving result counts as committed when it arrives, after a fixed-latency write of its slot. -/
theorem test_landing_of_the_higher_slot : (landing.land 5).x.get 5 = 2 := by decide +kernel
theorem witness_ResultLatency : (5 : Fin 64) ≠ 0 ∧ 0 < s0.now + 1 ∧ (∀ w ∈ s0.tile.regs.pend, w.dst ≠ .x 5) := by decide +kernel

/-- Vector operands and a destination whose port is free. -/
theorem witness_vector_operands :
    (inSlot 2).readV (.reg 1) = .ok 0 ∧ (inSlot 2).readV (.reg 383) = .ok 0 ∧ (inSlot 2).takeK 0 = .ok (BitVec.allOnes 256)
      ∧ (inSlot 2).takeK 15 = .ok 0 ∧ (inSlot 2).destV (.reg 383) = .ok (.v 383) ∧ PortFree (inSlot 2) (.v 383) 4
      ∧ (inSlot 2).destV (.nwb 0) = .ok .none ∧ PortFree (inSlot 2) .none 4 :=
  ⟨eq_of_okIs (by decide +kernel), eq_of_okIs (by decide +kernel), eq_of_okIs (by decide +kernel),
    eq_of_okIs (by decide +kernel), rfl, fun n h => by cases h; decide +kernel, rfl, fun n h => by cases h⟩
theorem witness_vector_latencies :
    PortFree (inSlot 2) (.v 10) 2 ∧ PortFree (inSlot 2) (.v 10) 3 ∧ PortFree (inSlot 2) (.v 10) 5 ∧ PortFree (inSlot 2) (.v 10) 6
      ∧ PortFree (inSlot 2) (.v 10) 8 := by
  refine ⟨?_, ?_, ?_, ?_, ?_⟩ <;> exact fun n h => by cases h; decide +kernel
theorem witness_mask_operands :
    (inSlot 2).readK (.reg 0) = .ok (BitVec.allOnes 256) ∧ (inSlot 2).readK (.reg 1) = .ok 0
      ∧ (inSlot 2).destK (.reg 1) = .ok (.k 1) ∧ (inSlot 2).destX (.reg 5) = .ok (.x 5) :=
  ⟨eq_of_okIs (by decide +kernel), eq_of_okIs (by decide +kernel), rfl, rfl⟩

theorem witness_LaneByLane :
    8 ∈ [1, 2, 4, 8] ∧ active (BitVec.allOnes 256) 8 31 = true ∧ active 1 8 31 = false ∧ 31 < 256 / 8 := by decide +kernel
theorem witness_VectorSpecialCases :
    laneVal .f32 0x7FC00000 = .nan ∧ laneVal .f32 0xFF800000 = .inf true
      ∧ (∃ d e, laneVal .f32 0x80000000 = .fin true 0 d e) ∧ ∃ n d e, laneVal .f32 0xBF800000 = .fin true (n + 1) d e :=
  ⟨by decide +kernel, by decide +kernel, ⟨_, _, rfl⟩, ⟨_, _, _, rfl⟩⟩
theorem witness_IntegerLanes : 255 < 2 ^ ITy.i8.width ∧ 0 < 2 ^ ITy.n64.width := by decide +kernel

theorem witness_VectorConversions :
    (Instr.vcvt (.b8 ⟨false, false, 3⟩) (.flt .f32) false 3 (.reg 200) (.reg 10) 0).wellFormed = true ∧ s0.marks = []
      ∧ (380 : Fin 384).val % 4 = 0 ∧ (381 : Fin 384).val % 4 ≠ 0 := by decide +kernel

/-- Stream register 0 with a vector in its queue; st1 is bound and empty; st2 is unbound; st3 is cut off. -/
def streaming : State :=
  onTile (inSlot 2) fun t => { t with eng := { t.eng with
    sts := (((t.eng.sts.set 0 { StreamReg.reset with bound := some 0, queue := [5] }).set 1
      { StreamReg.reset with bound := some 0 }).set 3 { StreamReg.reset with bound := some 0, cut := true }) } }
theorem witness_StreamReads :
    streaming.marks = [] ∧ (streaming.tile.eng.sts.get 0).queue = [5]
      ∧ ((streaming.tile.eng.sts.get 1).queue = [] ∧ (streaming.tile.eng.sts.get 1).bound ≠ none
          ∧ (streaming.tile.eng.sts.get 1).cut = false)
      ∧ ((streaming.tile.eng.sts.get 2).queue = [] ∧ (streaming.tile.eng.sts.get 2).bound = none)
      ∧ (streaming.tile.eng.sts.get 3).queue = [] ∧ (streaming.tile.eng.sts.get 3).cut = true := by decide +kernel

/-! ### Witnesses for the LS slot, control flow, waits and commands -/

/-- A state at the LS slot with a pointer in x3. -/
def atLs (p : Word) : State := withX (inSlot 4) 3 p

/-- An access of 2^n bytes at the last place of the scratchpad. -/
theorem witness_Loads :
    (atLs 0x100000000007FFF8).lsInOrder 0 false false = true ∧ OwnAddr (atLs 0x100000000007FFF8) memX3 8 8 0x7FFF8
      ∧ OwnAddr (atLs 0x100000000007FF00) memX3 256 256 0x7FF00 ∧ Sound (atLs 0x100000000007FFF8) 0x7FFF8 8
      ∧ Sound (atLs 0x100000000007FF00) 0x7FF00 256 ∧ (inSlot 4).destX (.reg 5) = .ok (.x 5) ∧ (inSlot 4).destV (.reg 200) = .ok (.v 200)
      ∧ PortFree (inSlot 4) (.v 200) 6 ∧ PortFree (inSlot 4) (.v 200) 7 :=
  ⟨by decide +kernel,
    ⟨0x100000000007FFF8, eq_of_okIs (by decide +kernel), by decide +kernel, by decide +kernel, by decide +kernel,
      by decide +kernel, by decide +kernel⟩,
    ⟨0x100000000007FF00, eq_of_okIs (by decide +kernel), by decide +kernel, by decide +kernel, by decide +kernel,
      by decide +kernel, by decide +kernel⟩,
    by unfold Sound; decide +kernel, by unfold Sound; decide +kernel, rfl, rfl, (fun n h => by cases h; decide +kernel),
    fun n h => by cases h; decide +kernel⟩

/-- 32 lanes of 8 bytes one after the other, and the same by their indices. -/
theorem witness_LanesAt :
    LanesAt 0x1000000000000000 8 (BitVec.allOnes 256)
        (fun j => (offsetOf (0x1000000000000000 : Word) : Int) + (j : Int) * (8 : Word).toInt) (fun j => 8 * j)
      ∧ LanesAt 0x1000000000000000 8 1
        (fun j => (offsetOf (0x1000000000000000 : Word) : Int) + ((8 : Nat) : Int) * (lane 65535 8 j : Int)) (fun _ => 8 * 65535)
      ∧ laneRows 8 (BitVec.allOnes 256) (fun j => 8 * j) ≤ (atLs 0).strm.rows + 1
      ∧ laneRows 8 1 (fun _ => 8 * 65535) ≤ (atLs 0).strm.rows + 1 := by
  unfold LanesAt; decide +kernel
/-- Two rows of each bank: the lanes 16 KiB apart. -/
theorem witness_AccessChecks_rows :
    LanesAt 0x1000000000000000 8 (BitVec.allOnes 256)
        (fun j => (offsetOf (0x1000000000000000 : Word) : Int) + (j : Int) * (16384 : Word).toInt) (fun j => 16384 * j)
      ∧ (atLs 0).strm.rows + 1 < laneRows 8 (BitVec.allOnes 256) (fun j => 16384 * j) := by
  unfold LanesAt; decide +kernel
/-- Where no word is marked, none that an access has fails. -/
theorem heldSound_of {s : State} (a n : Nat) (h : s.marks = []) (hr : s.strm.rowGot = []) : HeldSound s a n := by
  intro b _ _
  simp [hr, State.marked, h]
theorem witness_HeldSound :
    HeldSound (atLs 0) 0x7FF00 256 ∧ (lanesSettled (atLs 0) 8 1 fun _ => 8 * 65535).marks = []
      ∧ (lanesSettled (atLs 0) 8 1 fun _ => 8 * 65535).strm.rowGot = [] :=
  ⟨heldSound_of _ _ rfl rfl, by decide +kernel, by decide +kernel⟩

/-- Bank 0 holds scaled b8p4s, bank 15 bf16, and a port cycle has been paid for. -/
def banked (p : Word) : State :=
  onStream (onTile (atLs p) fun t => { t with sys := { t.sys with bfmt := (t.sys.bfmt.set 0 0x124).set 15 0x12 } })
    fun st => { st with rows := 1 }
theorem witness_BankResults_scaled :
    bankTy ((banked 0x1000000000007BC0).tile.sys.bfmt.get (Fin.ofNat 16 (0x7BC0 / 2 ^ 15))) = some (.b8 ⟨false, false, 3⟩)
      ∧ bankScaled ((banked 0x1000000000007BC0).tile.sys.bfmt.get (Fin.ofNat 16 (0x7BC0 / 2 ^ 15))) = true
      ∧ OwnAddr (banked 0x1000000000007BC0) memX3 (64 * (Ty.width (.b8 ⟨false, false, 3⟩) / 8)) 32 0x7BC0
      ∧ 0x7BC0 % 2 ^ 15 + 64 * 1 ≤ 0x7C00 ∧ portRows (bankRows 0x7BC0 1 true) ≤ (banked 0x1000000000007BC0).strm.rows + 1
      ∧ HeldSound (banked 0x1000000000007BC0) 0x7BC0 64 ∧ HeldSound (banked 0x1000000000007BC0) (0x7C00 + 0x7BC0 / 32) 2 :=
  ⟨by decide +kernel, by decide +kernel,
    ⟨0x1000000000007BC0, eq_of_okIs (by decide +kernel), by decide +kernel, by decide +kernel, by decide +kernel,
      by decide +kernel, by decide +kernel⟩, by decide +kernel, by decide +kernel, heldSound_of _ _ rfl rfl,
    heldSound_of _ _ rfl rfl⟩
theorem witness_BankResults_plain :
    bankTy ((banked 0x100000000007FF80).tile.sys.bfmt.get (Fin.ofNat 16 (0x7FF80 / 2 ^ 15))) = some (.flt .bf16)
      ∧ OwnAddr (banked 0x100000000007FF80) memX3 (64 * (Ty.width (.flt .bf16) / 8)) 32 0x7FF80
      ∧ 0x7FF80 % 2 ^ 15 + 64 * 2 ≤ 2 ^ 15 ∧ portRows (bankRows 0x7FF80 2 false) ≤ 2 :=
  ⟨by decide +kernel,
    ⟨0x100000000007FF80, eq_of_okIs (by decide +kernel), by decide +kernel, by decide +kernel, by decide +kernel,
      by decide +kernel, by decide +kernel⟩, by decide +kernel, by decide +kernel⟩

/-- A store that has written rows 0 and 2047 in port cycles before: its lanes lie in them and in row 64. -/
def tookRows : State := onStream (atLs 0x1000000000000000) fun st => { st with
  rows := 2, rowGot := [⟨0, 7, 0, some 9⟩, ⟨2047, 0, 0, none⟩] }
theorem witness_StoreResults :
    MemOk (atLs 0x100000000007FFF8) ∧ (atLs 0x100000000007FFF8).marks = [] ∧ (atLs 0).strm.rowGot = []
      ∧ (tookRows.strm.rowGot.map fun r => r.row).Nodup ∧ MemOk tookRows
      ∧ laneRows 8 3 (fun j => 16384 * j) ≤ tookRows.strm.rows + 1 :=
  ⟨by unfold MemOk; decide +kernel, rfl, rfl, by decide +kernel, by unfold MemOk; decide +kernel, by decide +kernel⟩

/-- An access of stream 0 of tile 0 that is strongly ordered and not performed. -/
def acc0 : Access :=
  { id := 3, seq := 0, tile := 0, slot := 6, sid := 0, pc := 0, space := 2, key := spadBase + 64, va := 64, size := 8
    op := .store, data := 7, data2 := 0, dest := .none, kind := 0, acq := false, rel := false, grade := 2, leafAt := 0
    ctx := 0, owner := none, arrive := 0, performed := false, replyAt := 0, result := 0, marked := false, struck := false
    sent := false }
theorem witness_AccessChecks :
    (atLs 0).readX memX3.base = .ok 0 ∧ spaceOf (0 : Word) ≠ 1 ∧ spaceOf (0x1000000000000001 : Word) = 1
      ∧ (offsetOf (0x1000000000000001 : Word) : Int) % (2 : Nat) ≠ 0
      ∧ ({ atLs 0x1000000000000000 with net := { s0.net with accs := [acc0] } } : State).lsInOrder 0 false false = false :=
  ⟨eq_of_okIs (by decide +kernel), by decide +kernel, by decide +kernel, by decide +kernel, by decide +kernel⟩

/-- Each kind of address check: another space, a rank, before the start, beyond the end, not aligned, and the last that passes. -/
theorem witness_AccessChecks_traps :
    (addrTrap (atLs 0) 0 0 8 8 2).isSome = true ∧ (addrTrap (atLs 0) 0x1010000000000000 0 8 8 2).isSome = true
      ∧ (addrTrap (atLs 0) 0x1000000000000000 (-8) 8 8 2).isSome = true
      ∧ (addrTrap (atLs 0) 0x100000000007FFFC 0x7FFFC 8 8 2).map Trap.kind = some .addrSpace
      ∧ (addrTrap (atLs 0) 0x1000000000000004 4 8 8 2).map Trap.kind = some .misaligned
      ∧ addrTrap (atLs 0) 0x100000000007FFF8 0x7FFF8 8 8 2 = none ∧ (atLs 0).strm.wait = none := by decide +kernel
/-- A bank without a format, one of b8p4s whose elements end at 0x7C00 of the bank, and the next place, which does not fit. -/
theorem witness_AccessChecks_banks :
    bankTy ((banked 0x1000000000008000).tile.sys.bfmt.get 1) = none
      ∧ bankScaled ((banked 0x1000000000007BC0).tile.sys.bfmt.get 0) = true
      ∧ ((0x7BC0 : Nat) : Int) % 2 ^ 15 + (64 * 1 : Nat) ≤ 0x7C00 ∧ ¬ ((0x7BE0 : Nat) : Int) % 2 ^ 15 + (64 * 1 : Nat) ≤ 0x7C00
      ∧ addrTrap (atLs 0) 0x1000000000007BE0 0x7BE0 64 32 2 = none := by decide +kernel
/-- Lane 1 is the first that fails, lane 0 passing. -/
theorem witness_AccessChecks_lanes :
    1 < 256 / 8 ∧ active (BitVec.allOnes 256) 8 1 = true ∧ active (BitVec.allOnes 256) 8 0 = true
      ∧ (addrTrap (atLs 0) 0x100000000007FFF8 (0x7FFF8 + (1 : Int) * (8 : Word).toInt) 8 8 3).isSome = true
      ∧ addrTrap (atLs 0) 0x100000000007FFF8 (0x7FFF8 + (0 : Int) * (8 : Word).toInt) 8 8 3 = none := by decide +kernel

theorem witness_TagRowsAndAtomics :
    OwnAddr (atLs 0x100000000007FFFC) memX3 4 4 0x7FFFC ∧ (atLs 0x100000000007FFFC).dataX (.reg 5) = .ok 0
      ∧ (atLs 0x100000000007FFFC).takeX 63 = .ok 0 ∧ (.add : AtomOp) ≠ .cas :=
  ⟨⟨0x100000000007FFFC, eq_of_okIs (by decide +kernel), by decide +kernel, by decide +kernel, by decide +kernel,
      by decide +kernel, by decide +kernel⟩, eq_of_okIs (by decide +kernel), eq_of_okIs (by decide +kernel), by decide +kernel⟩
theorem test_atomic_add :
    (match exec (.latom .add false 5 memX3 plainOrd) (withX (atLs 0x1000000000000010) 5 3) with
      | .next s => (s.load (s.spad 16) 4, result (.next s))
      | _ => (0, none)) = (3, some (.x 5, .x 0, 4)) := by decide +kernel

/-- Targets at the ends of 256 bytes of code, the last place and beyond. -/
theorem witness_Transfers :
    GoodTarget s0 0 ∧ GoodTarget s0 248 ∧ ¬ GoodTarget s0 256 ∧ ¬ GoodTarget s0 4 ∧ ¬ GoodTarget s0 (-8)
      ∧ bitIs s0 31 ≠ true ∧ bitIs s0 31 = false ∧ brIs .ne 1 2 = true ∧ brIs .ge 1 2 = false := by
  unfold GoodTarget; decide +kernel

/-- A bundle of a LOOP and a whole bundle after it; loop register 31 holds 1. -/
def opening : State :=
  onTile { State.reset.withFetchWord 192
      (0x0000040000000000 + 0x5900A0000000002A * 2 ^ 64 + 0x0000040000000000 * 2 ^ 128) with
    agenda := [], cur := { s0.cur with len := 16 } }
    fun t => { t with regs := { t.regs with lc := t.regs.lc.set 31 1 } }
theorem witness_LoopsOpened :
    (opening.cur.pc + opening.cur.len + if opening.cur.rings = none then 0 else 8) = 16
      ∧ ((opening.cur.pc : Int) + 8 * (2 : BitVec 16).toInt) = 16 ∧ GoodTarget opening 16 ∧ opening.strm.loops.length ≠ 4
      ∧ opening.tile.regs.lc.get 31 ≠ 0 ∧ opening.tile.regs.lc.get 0 = 0
      ∧ (onStream opening fun st => { st with loops := List.replicate 4 ⟨0, 64, 5, 1, [], .never⟩ }).strm.loops.length = 4
      ∧ ((opening.cur.pc : Int) + 8 * (1 : BitVec 16).toInt) < 16
      ∧ (16 : Int) ≤ (opening.cur.pc : Int) + 8 * (0x7FFF : BitVec 16).toInt
      ∧ ¬ GoodTarget opening ((opening.cur.pc : Int) + 8 * (0x7FFF : BitVec 16).toInt) := by
  unfold GoodTarget; decide +kernel
theorem witness_LoopsOpened_skip :
    opening.codeWord 16 = some (some 0x0000040000000000) ∧ decodeHeader 0x0000040000000000 = some ⟨false, 0, 1, 0, 0⟩ := by
  decide +kernel

theorem witness_BackEdges :
    (fun _ : ExitTest => false) .never = false ∧ (⟨8, 64, 3, 0, [], .never⟩ : Loop).exit = .never
      ∧ (⟨8, 64, 3, 0, [], .never⟩ : Loop).stop = 64 ∧ (∀ l ∈ [(⟨0, 72, 1, 0, [], .never⟩ : Loop)], l.stop ≠ 64)
      ∧ 2 + 1 ≤ 3 ∧ 2 + 1 = 3 ∧ 1 + 1 < 3 := by decide +kernel
/-- R139, worked case: three iterations go back twice. -/
theorem test_three_iterations :
    (backEdge (fun _ => false) 64 72 5 [⟨8, 64, 3, 0, [], .never⟩]) = ([⟨8, 64, 2, 1, [], .never⟩], 8, true)
      ∧ (backEdge (fun _ => false) 64 72 5 [⟨8, 64, 1, 2, [], .never⟩]) = ([], 72, false) := by decide +kernel

/-- Two changes of cb0 that become visible in this cycle, and one of cb1 that does not. -/
def changing : State :=
  onTile s0 fun t => { t with regs := { t.regs with cbPend := [⟨0, 0, 1, 0, true⟩, ⟨0, 0, 2, 0, false⟩, ⟨9, 0, 1, 1, true⟩] } }
theorem witness_ConditionBits :
    (∀ c ∈ (changing.tileAt 0).regs.cbPend, c.vis ≤ changing.now → c.cb ≠ 1)
      ∧ ∀ u ∈ (changing.tileAt 0).regs.cbPend, u.vis ≤ changing.now → u.cb = 0 → u ≠ ⟨0, 0, 2, 0, false⟩ →
          u.issued < 0 ∨ (u.issued = 0 ∧ u.slot.val < 2) := by decide +kernel

/-- Four slots, two and two in groups 0, 1 and 2, none in group 3; the worked case's map with entries in reach. -/
theorem witness_ForkedStreams :
    s0.tile.lockstep = true
      ∧ (∀ g : Fin 4, (∃ i : Fin 8, ((0xA500 : BitVec 16).extractLsb' (2 * i.val) 2 == BitVec.ofFin g) = true) →
          let t : Int := (s0.cur.pc : Int) + 8 * ((0x000000040002001F : Word).extractLsb' (16 * g.val) 16).toInt
          0 ≤ t ∧ t % 8 = 0 ∧ t < (s0.codeLen : Int))
      ∧ (¬ ∃ i : Fin 8, ((0xA500 : BitVec 16).extractLsb' (2 * i.val) 2 == BitVec.ofFin (3 : Fin 4)) = true)
      ∧ (0x000000040002001F : Word).extractLsb' 48 16 = 0
      ∧ (onTile s0 fun t => { t with sys := { t.sys with mts := [⟨1, .gdl, 0, 5⟩] } }).tile.sys.mts = [⟨1, .gdl, 0, 5⟩] := by
  decide +kernel
/-- Every slot in group 3, whose entry lies beyond the code; and an entry for group 0, which has no members. -/
theorem witness_ForkedStreams_bad :
    (∃ i : Fin 8, ((0xFFFF : BitVec 16).extractLsb' (2 * i.val) 2 == BitVec.ofFin (3 : Fin 4)) = true)
      ∧ ¬ GoodTarget s0 ((s0.cur.pc : Int) + 8 * ((0x7FFF000000000000 : Word).extractLsb' 48 16).toInt)
      ∧ (∀ h : Fin 4, h.val < 3 → ¬ ∃ i : Fin 8, ((0xFFFF : BitVec 16).extractLsb' (2 * i.val) 2 == BitVec.ofFin h) = true)
      ∧ GoodTarget s0 ((s0.cur.pc : Int) + 8 * ((0x0001000000000002 : Word).extractLsb' 48 16).toInt)
      ∧ (0x0001000000000002 : Word).extractLsb' 0 16 ≠ 0 ∧ (onTile s0 fun t => { t with lockstep := false }).tile.lockstep = false := by
  unfold GoodTarget; decide +kernel

/-- A decided wait of groups 0 and 1, of which one may have committed its JOIN. -/
def frame0 : WaitFrame := ⟨false, 4096, 0, 4096, false, false, 4096⟩
def wait0 (i : Instr) (code : Nat) : Wait :=
  { frame := frame0, ins := i, slot := 0, args := [], since := 0, mark := 0, sent := none, dec := some ⟨code, 0, 5⟩
    value := some 9, forced := false, withdrawn := false, told := false }
def joining (g : Fin 4) (m : BitVec 8) (other : Option (Nat × Nat)) : State :=
  let st (h : Fin 4) (m : BitVec 8) : Stream :=
    { Stream.new 0 m 0 0 with
      wait := some (wait0 (.join 3 poll) 0), joined := if h = g then none else other }
  { onTile s0 fun t => { t with lockstep := false, streams := (t.streams.set 0 (some (st 0 0x0F))).set 1 (some (st 1 m)) } with
    cur := { s0.cur with group := g } }
theorem decided_joining (g : Fin 4) (h : g = 0 ∨ g = 1) (m : BitVec 8) (o : Option (Nat × Nat)) :
    Decided (joining g m o) (wait0 (.join 3 poll) 0) ⟨0, 0, 5⟩ := by
  rcases h with rfl | rfl <;>
    exact ⟨rfl, rfl, rfl, (fun e => by rcases e.1 with h | h <;> cases h), by decide, by decide, by decide⟩
/-- Group 0 commits first; group 1 commits last, and with all eight slots or with six the groups merge. -/
theorem witness_JoinMerges :
    Decided (joining 0 0xF0 none) (wait0 (.join 3 poll) 0) ⟨0, 0, 5⟩
      ∧ Decided (joining 1 0xF0 (some (16, 0))) (wait0 (.join 3 poll) 0) ⟨0, 0, 5⟩
      ∧ (joining 1 0xF0 (some (16, 0))).tile.lockstep = false
      ∧ ((joining 1 0xF0 none).tile.streams.get (joining 1 0xF0 none).cur.group).isSome = true
      ∧ (3 : BitVec 4).getLsbD (joining 1 0xF0 none).cur.group.val = true
      ∧ ((joining 0 0xF0 none).streamAt 0 1).joined.isSome = false ∧ ((joining 1 0xF0 (some (16, 0))).streamAt 0 0).joined.isSome = true
      ∧ ((joining 0 0xF0 none).streamAt 0 0).members ||| ((joining 0 0xF0 none).streamAt 0 1).members = BitVec.allOnes 8
      ∧ ((joining 0 0x30 none).streamAt 0 0).members ||| ((joining 0 0x30 none).streamAt 0 1).members ≠ BitVec.allOnes 8 :=
  ⟨decided_joining 0 (.inl rfl) _ _, decided_joining 1 (.inr rfl) _ _, by decide +kernel⟩

theorem witness_TrapEntry :
    (onTile s0 fun t => { t with regs := { t.regs with latch := t.regs.latch.set 2 (some ⟨5, []⟩) } }).member 2 = true
      ∧ s0.strm.rowGot = [] ∧ MemOk tookRows ∧ (tookRows.strm.rowGot.map fun r => r.row).Nodup := by
  unfold MemOk; decide +kernel
/-- R150: TRAP parks the group with its code, and the PC stays (R387). -/
theorem test_trap_parks :
    (match exec (.trap 7) s0 with
      | .next s => (s.strm.park.map fun p => (p.trap.kind, p.trap.info0, p.seq), s.strm.pc, s.dev.faultNew.length)
      | _ => (none, 1, 0)) = (some (.trap, 7, 1), 0, 1) := by decide +kernel

/-- A stream whose CBWAIT has a decision. -/
def waiting (code : Nat) (toc : BitVec 16) : State :=
  onStream (onTile s0 fun t => { t with sys := { t.sys with toc } })
    fun st => { st with wait := some { wait0 (.cbwait 0 false poll) code with args := [0, 0] } }
theorem witness_DecidedWaits :
    Decided (waiting 0 0) { wait0 (.cbwait 0 false poll) 0 with args := [0, 0] } ⟨0, 0, 5⟩ ∧ (waiting 0 0).live ≠ none
      ∧ (waiting 0 0).task ≠ none
      ∧ ((({ wait0 (.cbwait 0 false poll) 0 with args := [0, 0] } : Wait).args.getD 0 0).extractLsb' 18 46) = 0 :=
  ⟨⟨by decide +kernel, rfl, by decide +kernel, (fun e => by rcases e.1 with h | h <;> cases h), by decide, by decide, by decide⟩,
    by decide +kernel, by decide +kernel, by decide⟩
theorem witness_DecidedWaits_timeout :
    Decided (waiting 1 15) { wait0 (.cbwait 0 false poll) 1 with args := [0, 0] } ⟨1, 0, 5⟩ :=
  ⟨by decide +kernel, rfl, by decide +kernel, (fun e => absurd e.2.2.1 (by decide +kernel)), by decide, by decide, by decide⟩
/-- One whose effect on toc was counted when it was decided does not escalate either, at whatever toc. -/
theorem witness_DecidedWaits_told :
    Decided (onStream (waiting 1 16) fun st => { st with wait := st.wait.map fun w => { w with told := true } })
      { wait0 (.cbwait 0 false poll) 1 with args := [0, 0], told := true } ⟨1, 0, 5⟩ :=
  ⟨by decide +kernel, rfl, by decide +kernel, (fun e => absurd e.2.2.2.2 (by decide)), by decide, by decide, by decide⟩
theorem witness_Escalation :
    (waiting 1 16).strm.wait = some { wait0 (.cbwait 0 false poll) 1 with args := [0, 0] } ∧ (waiting 1 16).cur.blocked = false
      ∧ Escalates (waiting 1 16) { wait0 (.cbwait 0 false poll) 1 with args := [0, 0] } ⟨1, 0, 5⟩
      ∧ (⟨1, 0, 5⟩ : Decision).detail < 2 ^ 16 :=
  ⟨by decide +kernel, rfl, ⟨.inl rfl, by decide +kernel, by decide +kernel, rfl, rfl⟩, by decide⟩
/-- Forms of every kind that the words of the wait and the state admit: with no value, with one, in a group. -/
theorem witness_Escalation_forms :
    (∀ i ∈ [Instr.cbwait 0 false poll, .cbtake 31 poll, .tkwait 15 .lt (.reg 3) poll, .omclaim 1 poll, .ste (.reg 5) memX3 0 poll,
        .fence (.reg 3) poll, .barwt (.reg 3) (.reg 4) poll, .barsync (.reg 3) poll, .step (.reg 3) (.reg 4) poll,
        .qpush (.reg 3) (.reg 4) poll, .enq (.reg 3) (.reg 4) poll, .ldf (.reg 5) memX3 0 poll, .few (.reg 5) memX3 0 poll,
        .qpop (.reg 5) (.reg 3) poll, .scatom .add true 63 memX3 poll],
        WaitForm (waiting 1 16) poll { wait0 (.cbwait 0 false poll) 1 with args := [0, 0] } i)
      ∧ WaitForm (joining 0 0xF0 none) poll (wait0 (.join 3 poll) 1) (.join 3 poll) := by
  have d : (waiting 1 16).destX (.reg 5) = .ok (.x 5) := rfl
  have l : (waiting 1 16).live ≠ none := by decide +kernel
  have k : (waiting 1 16).task ≠ none := by decide +kernel
  have j : (joining 0 0xF0 none).tile.lockstep = false := rfl
  simp [WaitForm]
  exact ⟨⟨⟨l, k⟩, _, d⟩, j⟩

/-- A fresh stream; tag 0 is full; cb0 is set; tk5 holds 2. -/
def ready : State :=
  onTile (atLs 0x1000000000000000) fun t => { t with
    tags := [0], regs := { t.regs with cb := 1, tk := t.regs.tk.set 5 ⟨2, true⟩ } }
theorem witness_ReadyWaits :
    Fresh ready ∧ ready.marks = [] ∧ bitIs ready 0 ≠ false ∧ bitIs ready 1 = false ∧ (ready.settleSpad 0 4).marks = []
      ∧ bitIs ready 0 = true ∧ (2 : Word).toNat ≤ (ready.tile.regs.tk.get 5).count.toNat
      ∧ (ready.tile.regs.tk.get 5).count.toNat < (3 : Word).toNat ∧ (0x3FFFF : Word).extractLsb' 18 46 = 0
      ∧ (∀ sid : Fin 16, (0x3FFFF : Word).getLsbD sid.val = true → ready.drained ready.cur.tile 0x3FFFF ready.cur.mark ready.now sid = true)
      ∧ ready.tile.tags.contains (0 / 4) = true ∧ ready.tile.tags.contains (4 / 4) = false
      ∧ ready.lsInOrder 0 true false = true ∧ ready.lsInOrder 0 false true = true := by
  unfold Fresh; decide +kernel
theorem witness_ReadyWaits_slots :
    (0x81 : BitVec 8) ≠ 0 ∧ SlotsAre ready 0x81 .free ∧ OwnAddr ready memX3 4 4 0 ∧ OwnAddr ready ⟨.reg 3, 1, 0⟩ 4 4 4 :=
  ⟨by decide, by unfold SlotsAre; decide +kernel,
    ⟨0x1000000000000000, eq_of_okIs (by decide +kernel), by decide +kernel, by decide +kernel, by decide +kernel,
      by decide +kernel, by decide +kernel⟩,
    ⟨0x1000000000000000, eq_of_okIs (by decide +kernel), by decide +kernel, by decide +kernel, by decide +kernel,
      by decide +kernel, by decide +kernel⟩⟩

/-- Conditions that do not hold: an access that has not drained, an operand slot that is releasing, an empty tag, a full one, a
JOIN whose other group does not wait. -/
def unready : State :=
  { ready with net := { ready.net with accs := [{ acc0 with slot := 6 }] }, cur := { ready.cur with mark := 800 } }
theorem witness_ReadyWaits_hold :
    Fresh unready ∧ unready.marks = [] ∧ (0x3FFFF : Word).getLsbD (0 : Fin 16).val = true
      ∧ unready.drained unready.cur.tile 0x3FFFF unready.cur.mark unready.now 0 = false
      ∧ (let s := onTile s0 fun t => { t with eng := { t.eng with om := t.eng.om.set 7 .releasing } }
        s.tile.eng.om.get 7 ≠ .free ∧ ∀ i : Fin 8, (0x81 : BitVec 8).getLsbD i.val = true → s.tile.eng.om.get i ≠ .claimed)
      ∧ (let s := onStream (joining 0 0xF0 none) fun st => { st with wait := none }
        s.strm.wait = none ∧ s.cur.blocked = false ∧ s.tile.lockstep = false ∧ (3 : BitVec 4).getLsbD s.cur.group.val = true
          ∧ (3 : BitVec 4) ≠ BitVec.twoPow 4 s.cur.group.val
          ∧ (∀ h : Fin 4, (3 : BitVec 4).getLsbD h.val = true → (s.tile.streams.get h).isSome = true)
          ∧ ∀ h u, h ≠ s.cur.group → s.tile.streams.get h = some u → pendingJoin u = none) := by
  refine ⟨by unfold Fresh; decide +kernel, by decide +kernel, by decide +kernel, by decide +kernel, by decide +kernel,
    by decide +kernel, by decide +kernel, by decide +kernel, by decide +kernel, by decide +kernel, by decide +kernel, ?_⟩
  have h : ∀ g : Fin 4, g ≠ 0 → ((onStream (joining 0 0xF0 none) fun st => { st with wait := none }).tile.streams.get g).all
      fun u => (pendingJoin u).isNone := by decide +kernel
  intro g u hg hu
  have e := h g hg
  rw [hu] at e
  simpa using e

/-- The task's window holds barrier 16383 and token queue 4095, the last of die 0. -/
def windowed : State :=
  onTile s0 fun t => { t with sys := { t.sys with syncwin := 16383 + 4095 * 2 ^ 16 + 1 * 2 ^ 32 + 1 * 2 ^ 48 } }
theorem witness_BarrierRequests :
    NamesBarrier windowed 0x4000000000000000 16383 ∧ NamesQueue windowed 0x4000000000200000 4095
      ∧ windowed.destX (.reg 5) = .ok (.x 5) ∧ (144 : Word).toNat ≤ 144 ∧ 144 < (145 : Word).toNat :=
  ⟨⟨State.placedLive, 0, rfl, by decide +kernel, by decide +kernel, by decide +kernel, by decide +kernel, by decide +kernel,
      by decide +kernel⟩,
    ⟨State.placedLive, 0, rfl, by decide +kernel, by decide +kernel, by decide +kernel, by decide +kernel, by decide +kernel,
      by decide +kernel, by decide +kernel⟩, rfl, by decide, by decide⟩
/-- The image has one barrier: the pointer to a second names none. -/
theorem witness_BarrierRequests_outside :
    spaceOf (0x4000000000000040 : Word) = 4 ∧ rankOf (0x4000000000000040 : Word) = 0
      ∧ offsetOf (0x4000000000000040 : Word) ≤ 0x280000 ∧ ∀ n, ¬ NamesBarrier windowed 0x4000000000000040 n := by
  refine ⟨by decide +kernel, by decide +kernel, by decide +kernel, fun n ⟨l, i, hl, _, _, ho, _, hi, _⟩ => ?_⟩
  have e : offsetOf (0x4000000000000040 : Word) = 64 := by decide +kernel
  have e' : windowed.live = some State.placedLive := rfl
  have : l = State.placedLive := Option.some.inj (hl.symm.trans e')
  subst this
  have : State.placedLive.image.bars.length = 1 := rfl
  omega
/-- Pointers that are none of the sync window: of another space, and of a rank. -/
theorem witness_BarrierRequests_elsewhere :
    spaceOf (0x1000000000000000 : Word) ≠ 4 ∧ rankOf (0x4010000000000000 : Word) ≠ 0 ∧ windowed.strm.wait = none
      ∧ (0x3FFFF : Word).extractLsb' 18 46 = 0 := by decide +kernel
theorem witness_WaitRequests :
    Fresh windowed ∧ 16383 < 2 ^ 64 ∧ windowed.performedTo windowed.cur.mark = true ∧ ¬ OwnPtr 0x1000000000000020 64
      ∧ (let s : State := { windowed with net := { windowed.net with accs := [acc0] }, cur := { windowed.cur with mark := 8 } }
        Fresh s ∧ s.performedTo s.cur.mark = false ∧ s.drained s.cur.tile 0x3FFFF s.cur.mark s.now 0 = false) := by
  unfold Fresh OwnPtr; decide +kernel
/-- A launch of two stages, the first of which pushes to the second, which is of the whole device; context 0 has tile 143. -/
def stages2 : List Stage := [⟨0, 1, 0, 20, [(1, 1)]⟩, ⟨0, 1, 4, 20, []⟩]
def live2 : Live := { State.placedLive with image := { State.placedImage with stages := stages2 } }
def enqueuing : State :=
  let s := s0.modCtx 0 fun c => { c with entry := c.entry.set 3 (2 ^ 15) }
  { s with slots := upd s.slots 0 { s.slots.get 0 with live := some live2 } }
theorem witness_WaitRequests_enq :
    Fresh enqueuing ∧ enqueuing.live = some live2 ∧ enqueuing.task ≠ none ∧ OwnPtr 0x100000000007FFC0 64
      ∧ enqueuing.net.greds = [] ∧ enqueuing.performedTo enqueuing.cur.mark = true
      ∧ (1 : Word).extractLsb' 8 56 = 0 ∧ live2.image.stages[0]? = some ⟨0, 1, 0, 20, [(1, 1)]⟩
      ∧ (0x8000000000008F01 : Word).extractLsb' 16 48 = 0x800000000000 ∧ live2.image.stages[1]? = some ⟨0, 1, 4, 20, []⟩
      ∧ (143 : Fin 144).val = ((0x8000000000008F01 : Word).extractLsb' 8 8).toNat
      ∧ enqueuing.inTiles 0 143 = true ∧ inDomain 4 live2.anchor 143 = true ∧ enqueuing.inTiles 0 142 = false
      ∧ (0x10001 : Word).extractLsb' 16 47 ≠ 0 ∧ live2.image.stages.length ≤ ((2 : Word).extractLsb' 0 8).toNat := by
  unfold Fresh OwnPtr; decide +kernel

/-- A copy command of an earlier cycle. -/
def cmd0 (op : CopyOp) : CopyCmd :=
  { op, slot := 6, pc := 0, pos := 0, entered := 0, mark := 0, sid := 0, tok := ⟨3, 15, 15, 15⟩, src := 0x1000000000000000
    dst := 0x1000000000040000, shp := 0, cmask := 1, oms := 0, zero := false, flush := false, run := none }
/-- Queue 0 of the tile holds commands, and it is cycle 100. -/
def queued (l : List CopyCmd) : State :=
  { onTile (inSlot 6) fun t => { t with eng := { t.eng with cq := t.eng.cq.set 0 l } } with clk := { s0.clk with now := 100 } }
theorem witness_CopyCommands :
    CopyRoom (inSlot 6) ∧ CopyRoom (queued (List.replicate 31 (cmd0 .copy))) ∧ ¬ CopyRoom (queued (List.replicate 32 (cmd0 .copy)))
      ∧ OwnPtr 0x100000000007FFC0 64 := by
  unfold CopyRoom OwnPtr; decide +kernel
theorem witness_CopyCancel : ∀ q c, c ∈ (queued [cmd0 .copy]).tile.eng.cq.get q → c.entered < (queued [cmd0 .copy]).now := by
  have h : ∀ q : Fin 2, ((queued [cmd0 .copy]).tile.eng.cq.get q).all fun c => decide (c.entered < (queued [cmd0 .copy]).now) := by
    decide +kernel
  exact fun q c hc => by simpa using List.all_eq_true.1 (h q) c hc
/-- Commands that CPCANCEL meets: one of its own cycle, one unstarted, one between chunks, one within a chunk, one stopping. -/
def run1 : CopyRun :=
  { start := 0, shape := [0, 0, 0, 0, 0], bfmt := [], conv := false, total := 64, chunk := 0, prog := none, nextAt := 0
    accDst := 0, accOm := 0, accSt := [], buf := [], bufAt := 0, bad := [], ackAt := 0, acks := [], landAt := none, susp := none
    stopping := false, handed := false, flagged := false, flags := 0, sel := none }
def cancelled : State :=
  let s := queued [{ cmd0 .copy with entered := 100 }, { cmd0 .copy with pos := 1 }, { cmd0 .copy with pos := 2, cmask := 0x201, run := some run1 },
    { cmd0 .copy with pos := 3, run := some { run1 with prog := some ⟨true, [], []⟩ } },
    { cmd0 .copy with pos := 4, run := some { run1 with stopping := true, prog := some ⟨true, [], []⟩ } }]
  onTile s fun t => { t with eng := { t.eng with sts := t.eng.sts.set 7 { StreamReg.reset with bound := some 0 } } }
theorem witness_CopyCancel_stops :
    (∀ q, ((cancelled.tileAt cancelled.cur.tile).eng.cq.get q |>.map fun c => c.pos).Nodup)
      ∧ ((cancelled.tile.eng.cq.get 0).map fun c => decide (c.entered < cancelled.now) && !(c.run.map fun r => r.stopping).getD false)
        = [false, true, true, true, false]
      ∧ (0x201 : BitVec 10).getLsbD (2 + (7 : Fin 8).val) = true ∧ (cancelled.tile.eng.sts.get 7).bound = some 0
      ∧ (cancelled.tile.eng.sts.get 7).cut = false ∧ cancelled.destX (.reg 5) = .ok (.x 5) :=
  ⟨by decide +kernel, by decide +kernel, by decide +kernel, by decide +kernel, by decide +kernel, rfl⟩

/-- A matrix command, a full queue, and slots 0 and 1 claimed. -/
def mx0 (op : MxOp) : MxCmd := { op, slot := 5, pc := 0, pos := 0, entered := 0, tok := ⟨3, 15, 15, 15⟩, run := none }
def claimed (l : List MxCmd) : State :=
  { onTile (inSlot 5) fun t => { t with eng := { t.eng with mq := l, om := (t.eng.om.set 0 .claimed).set 1 .claimed } } with
    clk := { s0.clk with now := 100 } }
def settled : State := onStream (claimed []) fun st => { st with settle := some ⟨9, false, 5, some (255, 255)⟩ }
theorem witness_MatrixCommands :
    (claimed []).tile.eng.mq.length < 16 ∧ SlotsAre (claimed []) 3 .claimed ∧ OwnPtr 0x100000000007C000 16384
      ∧ OwnPtr 0x100000000007A000 24576 ∧ (claimed []).tile.eng.om.get 1 = .claimed
      ∧ (claimed (List.replicate 16 (mx0 (.mzero 0)))).tile.eng.mq.length = 16
      ∧ ∃ i : Fin 8, (4 : BitVec 8).getLsbD i.val = true ∧ (claimed []).tile.eng.om.get i ≠ .claimed := by
  unfold SlotsAre OwnPtr; decide +kernel
theorem witness_MatrixCommands_settled : Settled settled 9 false (255, 255) :=
  ⟨(fun _ h => absurd h List.not_mem_nil), .inl ⟨⟨9, false, 5, some (255, 255)⟩, rfl, rfl⟩, .inr ⟨rfl, by decide +kernel⟩⟩
/-- Of slots 1 and 2, slot 2 is not claimed and slot 1 is; a verification that found something, a tile that is poisoned. -/
theorem witness_MatrixCommands_traps :
    (∀ i : Fin 8, (4 : BitVec 8).getLsbD i.val = ((6 : BitVec 8).getLsbD i.val && (claimed []).tile.eng.om.get i != .claimed))
      ∧ (∀ i : Fin 8, (2 : BitVec 8).getLsbD i.val = ((6 : BitVec 8).getLsbD i.val && (claimed []).tile.eng.om.get i == .claimed))
      ∧ (claimed []).strm.wait = none
      ∧ (let s := onStream (claimed []) fun st => { st with settle := some ⟨9, false, 5, some (95, 255)⟩ }
        (∀ c ∈ s.tile.eng.mq, c.op.acc ≠ some 9) ∧ s.strm.settle = some ⟨9, false, 5, some (95, 255)⟩
          ∧ ((95, 255) : Nat × Nat) ≠ (255, 255))
      ∧ ((onTile (claimed []) fun t => { t with eng := { t.eng with acc := t.eng.acc.set 9 ⟨true, 3, 0⟩ } }).tile.eng.acc.get 9).poison
        = true := by decide +kernel
/-- A queued command that writes the tile of an MSTAT. -/
theorem witness_MatrixCommands_waiting : ∃ c ∈ (claimed [mx0 (.mzero 9)]).tile.eng.mq, c.op.acc = some 9 :=
  ⟨mx0 (.mzero 9), by decide +kernel, rfl⟩

/-- The tile's cache maps page 1 to a leaf with V, W, U, ORD 1 and a grade; the context has tile 143 and vault windows. -/
def mapped (grade : Word) (user : Bool) : State :=
  let s := onTile (inSlot 6) fun t => { t with tlb := [⟨0, 3, 0x10000, 0x9B + grade * 64 - 0x80 - (if user then 8 else 0), 0x5000⟩] }
  s.modCtx 0 fun c => { c with entry := c.entry.set 3 (2 ^ 15), tcb := { c.tcb with rv := true, vbase := 0, vlen := 108 } }
theorem witness_AccessesLeave_global :
    EntryFree (mapped 0 false) ∧ (mapped 0 false).dev.hot.en = false
      ∧ Reaches (mapped 0 false) [0] 0x1FFC0 0x1FFC0 64 true 0 0xFFC0 1 0 ∧ (0 : Nat) ≠ 2 :=
  ⟨.inl (by decide +kernel), rfl,
    ⟨by decide +kernel, by decide +kernel, by decide +kernel, by decide +kernel,
      .inl ⟨rfl, by decide +kernel, by decide +kernel, 0x1B, 3, 0x5000, by decide +kernel, .inl (by decide +kernel),
        (fun _ => by decide +kernel), by decide +kernel, by decide +kernel, by decide +kernel⟩⟩, by decide⟩
theorem witness_AccessesLeave_remote :
    Reaches (mapped 0 false) [0, 2, 3] 0x28F000000007FFF8 0x7FFF8 8 true 2 (spadBase + 143 * 2 ^ 19 + 0x7FFF8) 1 2
      ∧ Reaches (mapped 0 false) [0, 2, 3] 0x3230000006BFFFF8 0x6BFFFF8 8 true 3 (vaultBase + 35 * 2 ^ 27 + 0x6BFFFF8) 1 2
      ∧ Reaches (mapped 0 false) [0, 2, 3, 5] 0x5000000000080000 0x80000 8 false 5 0x80000 0 2 :=
  ⟨⟨by decide +kernel, by decide +kernel, by decide +kernel, by decide +kernel, .inr (.inl (by decide +kernel))⟩,
    ⟨by decide +kernel, by decide +kernel, by decide +kernel, by decide +kernel, .inr (.inr (.inl (by decide +kernel)))⟩,
    by decide +kernel, by decide +kernel, by decide +kernel, by decide +kernel, .inr (.inr (.inr (.inl (by decide +kernel))))⟩
theorem witness_MetadataAndPrefetch :
    spaceOf (0x10000 : Word) = 0 ∧ rankOf (0x10000 : Word) = 0 ∧ offsetOf (0x10000 : Word) % 64 = 0
      ∧ (mapped 2 false).lookup 0x10000 = some (.leaf 0x9B 3 0x5000) ∧ (0x9B : Word).getLsbD 3 = true
      ∧ (0x9B : Word).extractLsb' 6 2 = 2 ∧ (asUser (mapped 0 true)).lookup 0x10000 = some (.leaf 0x13 3 0x5000)
      ∧ (0x13 : Word).getLsbD 3 = false ∧ (asUser (mapped 0 true)).isSys = false := by decide +kernel

theorem witness_TaskEnds :
    (0x2 : Word).getLsbD 0 = false ∧ s0.task ≠ none ∧ s0.tile.lockstep = true ∧ s0.net.accs = []
      ∧ s0.tile.eng.cq = .replicate 2 [] ∧ s0.tile.eng.mq = [] ∧ s0.liveAt 0 ≠ none
      ∧ (joining 0 0xF0 none).tile.lockstep = false ∧ (joining 0 0xF0 none).task ≠ none ∧ (queued [cmd0 .copy]).tile.lockstep = true := by decide +kernel
theorem witness_TaskEnds_held :
    (∃ c ∈ (queued [cmd0 .copy]).tile.eng.cq.get 0, c.entered < (queued [cmd0 .copy]).now)
      ∧ (queued [cmd0 .copy]).net.accs = [] ∧ (∀ p, ((queued [cmd0 .copy]).ports.get p).unanswered = [])
      ∧ (∀ q, ∀ c ∈ (queued [cmd0 .copy]).tile.eng.cq.get q, c.run = none)
      ∧ (∃ c ∈ (claimed [mx0 (.mzero 9)]).tile.eng.mq, c.entered < (claimed [mx0 (.mzero 9)]).now)
      ∧ (∀ q, (claimed [mx0 (.mzero 9)]).tile.eng.cq.get q = [])
      ∧ (acc0.tile = (0 : Fin 144) ∧ acc0.seq < 8) :=
  ⟨⟨cmd0 .copy, by decide +kernel, by decide +kernel⟩, by decide +kernel, by decide +kernel, by decide +kernel,
    ⟨mx0 (.mzero 9), by decide +kernel, by decide +kernel⟩, by decide +kernel, by decide +kernel⟩
/-- Commands of the bundle of the RETIRE itself, one that consumes a token and one that does not. -/
theorem witness_TaskEnds_own :
    let s := queued [{ cmd0 .copy with entered := 100 }, { cmd0 .copy with entered := 100, tok := ⟨3, 4, 15, 15⟩ }]
    (∀ q, ∀ c ∈ s.tile.eng.cq.get q, c.run = none) ∧ (∀ q, ∀ c ∈ s.tile.eng.cq.get q, s.now ≤ c.entered) ∧ s.tile.eng.mq = []
      ∧ s.tile.lockstep = true ∧ s.task ≠ none := by decide +kernel

/-- Context 1 has a queued item for tile 0, on which context 0's slice is over. -/
def rivals : State :=
  let s := (s0.modCtx 0 fun c => { c with entry := (c.entry.set 0 1).set 1 1 }).modCtx 1 fun c =>
    { c with entry := (c.entry.set 0 1).set 1 1 }
  { s with slots := s.slots.set 1 { s.slots.get 1 with live := some { State.placedLive with
      ctx := 1, queues := [⟨0, 1, [0], [], 0, 0⟩] } } }
/-- A YIELD that gives up a tile for which another context has work. -/
theorem witness_TaskEnds_yield :
    (1 : Word).getLsbD 0 = true ∧ rivals.tile.sched.resident = true ∧ rivals.tile.sched.reqAt = none
      ∧ (rivals.ctx rivals.ctxOf).noSave = false ∧ rivals.tile.sys.stop = false ∧ (1 : Fin 64) ≠ rivals.ctxOf
      ∧ rivals.ctxValid 1 = true ∧ rivals.inTiles 1 rivals.cur.tile.val = true ∧ (rivals.workOf rivals.cur.tile 1).isSome = true := by
  decide +kernel

/-! ### Witnesses for resumes and kills -/

/-- Group 0 is parked on a trap of a kind, and context 0's resume block names it. -/
def trap0 (k : TrapKind) : Trap := { kind := k }
def parked (k : TrapKind) (reg : Fin 64) (v : Word) : State :=
  (onStream s1 fun st => { st with park := some ⟨trap0 k, 5, [(2, ⟨9, []⟩)]⟩ }).modCtx 0
    fun c => { c with resume := { c.resume with token := 5 * 2 ^ 32, reg, value := v } }
theorem witness_GroupResumes :
    NamesGroup (parked .trap 1 0) 0 0 0 ((parked .trap 1 0).streamAt 0 0) ⟨trap0 .trap, 5, [(2, ⟨9, []⟩)]⟩
      ∧ NamesGroup (parked .deadlineEscalation 1 0) 0 0 0 ((parked .deadlineEscalation 1 0).streamAt 0 0)
          ⟨trap0 .deadlineEscalation, 5, [(2, ⟨9, []⟩)]⟩ :=
  ⟨⟨by decide +kernel, by decide +kernel, by decide +kernel, by decide +kernel, rfl, rfl, rfl, rfl, ⟨_, rfl, rfl⟩⟩,
    ⟨by decide +kernel, by decide +kernel, by decide +kernel, by decide +kernel, rfl, rfl, rfl, rfl, ⟨_, rfl, rfl⟩⟩⟩
theorem witness_GroupResumes_forms :
    (parked .trap 1 0).maySkip 0 0 ⟨trap0 .trap, 5, [(2, ⟨9, []⟩)]⟩ = true ∧ ((parked .trap 1 248).ctx 0).resume.value.toNat % 8 = 0
      ∧ ((parked .trap 1 248).ctx 0).resume.value.toNat < State.placedImage.len
      ∧ State.placedImage.len ≤ ((parked .trap 1 256).ctx 0).resume.value.toNat
      ∧ ((parked .trap 1 0).ctx 0).resume.reg ≠ 0 ∧ ((parked .trap 0 0).ctx 0).resume.reg = 0 := by decide +kernel
/-- Context 0 with tables that map the first GiB to itself, and the placed code. -/
def walked (s : State) : State :=
  { s with mem := Memory.writeN (Memory.writeN s.mem 0x200000 8 0x210001) 0x210000 8 0x201F }.modCtx 0 fun c =>
    { c with entry := c.entry.set 10 0x100000, tcb := { c.tcb with rv := true, root := 0x20 } }
/-- A group parked at a CBWAIT is not to be skipped; one parked at a MOVI may be. -/
def parkedWait : State :=
  (onStream (walked (State.reset.withFetchWord 128 (0x0000040000000000 + 0xF600000000000000 * 2 ^ 64))) fun st =>
    { st with park := some ⟨trap0 .deadlineEscalation, 5, []⟩ }).modCtx 0
      fun c => { c with resume := { c.resume with token := 5 * 2 ^ 32 } }
theorem witness_GroupResumes_no_skip :
    parkedWait.maySkip 0 0 ⟨trap0 .deadlineEscalation, 5, []⟩ = false
      ∧ (walked (parked .trap 1 0)).parkedItems 0 0 [] = [(0, 0x5900A0000000002A)]
      ∧ (walked (parked .trap 1 0)).maySkip 0 0 ⟨trap0 .trap, 5, []⟩ = true := by decide +kernel

/-- A copy command suspended with the token that the resume block holds. -/
def run0 : CopyRun :=
  { start := 0, shape := [BitVec.ofNat 64 (64 + 2 ^ 24 + 2 ^ 48), 0, 0, 0, 0], bfmt := [], conv := false, total := 64, chunk := 0
    prog := none, nextAt := 0, accDst := 0, accOm := 0, accSt := [], buf := [], bufAt := 0, bad := [], ackAt := 0, acks := []
    landAt := none, susp := none
    stopping := false, handed := false, flagged := false, flags := 0, sel := none }
def suspended : State :=
  (queued [{ cmd0 .copy with run := some { run0 with susp := some 5 } }]).modCtx 0
    fun c => { c with resume := { c.resume with token := 5 * 2 ^ 32 + 2 ^ 10 } }
theorem witness_OtherResumes_command :
    NamesCommand suspended 0 0 0 { cmd0 .copy with run := some { run0 with susp := some 5 } } { run0 with susp := some 5 } := by
  refine ⟨rfl, rfl, rfl, rfl, by decide +kernel, rfl, rfl, ?_, rfl, rfl, ⟨_, rfl, rfl⟩⟩
  have h : (suspended.tileAt 0).eng.cq.get 0 = [{ cmd0 .copy with run := some { run0 with susp := some 5 } }] := by decide +kernel
  intro d hd _ _ _
  simpa [h] using hd
theorem witness_OtherResumes_shapes :
    IsForm 0 (.drop 0) ∧ (0x1000 : Word).extractLsb' 12 20 ≠ 0 ∧ 144 ≤ ((0x90 : Word).extractLsb' 0 8).toNat
      ∧ (0x8F : Word).extractLsb' 0 8 = BitVec.ofNat 8 (143 : Fin 144).val ∧ (s0.tileAt 143).sched.task = none ∧ s0.saved = [] :=
  ⟨by simp [IsForm], by decide, by decide, by decide, by decide +kernel, rfl⟩
/-- A task saved from tile 1 with its group parked. -/
def savedParked : State :=
  { (parked .trap 1 0).modCtx 0 fun c => { c with resume := { c.resume with token := 5 * 2 ^ 32 + 1 } } with
    saved := [⟨1, (parked .trap 1 0).tileAt 0, [], false⟩] }
theorem witness_OtherResumes_saved :
    (savedParked.tileAt 1).sched.task = none
      ∧ (savedParked.ctx 0).resume.token.extractLsb' 0 8 = BitVec.ofNat 8 (1 : Fin 144).val
      ∧ (savedParked.ctx 0).resume.token.extractLsb' 8 2 = BitVec.ofNat 2 (0 : Fin 4).val
      ∧ (savedParked.ctx 0).resume.token.extractLsb' 10 22 = 0 ∧ (savedParked.ctx 0).resume.token.extractLsb' 32 32 = 5
      ∧ (((parked .trap 1 0).tileAt 0).streams.get 0).isSome = true ∧ ((parked .trap 1 0).tileAt 0).sys.ctx = 0 := by decide +kernel

theorem witness_ContextKills :
    ((s0.ctx 0).account.kbusy = none)
      ∧ ((s0.modCtx 0 fun c => { c with account := { c.account with kbusy := some 9 } }).ctx 0).account.kbusy.isSome = true := by
  decide +kernel

/-! ### Witnesses for the engines -/

theorem memOk_s0 : MemOk s0 := by unfold MemOk; decide +kernel
theorem memOk_of {s : State} (h : s.mem = s0.mem) : MemOk s := by
  have := memOk_s0
  unfold MemOk at *
  rwa [h]
theorem quiet_of {s : State} (h : s.mem = s0.mem) (a : s.marks = s0.marks) (b : s.net.greds = s0.net.greds) (c : s.dev = s0.dev) :
    Quiet s := ⟨a.trans rfl, b.trans rfl, by rw [c]; rfl, memOk_of h⟩

/-- Words of the scratchpad of tile 0 from an offset on. -/
def withSpad (s : State) (o : Nat) (l : List Word) : State :=
  { s with mem := Memory.writeN s.mem (spadBase + o) (8 * l.length) (leNat (l.flatMap fun w => leBytes 8 w.toNat)) }

/-- A queue with one command and its first loop register set. -/
def startable (op : CopyOp) (lc : Word) : State :=
  onTile (queued [cmd0 op]) fun t => { t with regs := { t.regs with lc := t.regs.lc.set 0 lc } }
theorem mayStart (op : CopyOp) (lc : Word) : CopyMayStart (startable op lc) 0 0 (cmd0 op) :=
  ⟨rfl, rfl, (show 0 + 4 ≤ 100 by decide), fun k => by
    have h : named ⟨3, 15, 15, 15⟩ k = 0 := by revert k; decide
    exact (show named (cmd0 op).tok k = 0 from h) ▸ Nat.zero_le _, (fun _ => rfl), [], [], rfl, (fun _ h => by cases h), .inl rfl⟩

/-- The shape of one row of 64 bytes, and of none. -/
abbrev row64 : Word := 0x0001000001000040
def shapeOfLc (lc : Word) : List Word := [lc, 0, 0, 0, 0]
theorem witness_CopyStarts :
    (∀ lc op, CopyMayStart (startable op lc) 0 0 (cmd0 op))
      ∧ (eightWords (startable (.stbind 0) 0) 0 0).getD 1 0 = 0
      ∧ (startable .copy row64).copyStartBad 0 0 (cmd0 .copy) (shapeOfLc row64) (List.replicate 16 0) = none
      ∧ (startable .copy 0).copyStartBad 0 0 (cmd0 .copy) (shapeOfLc 0) (List.replicate 16 0) = some (3, 0) :=
  ⟨fun lc op => mayStart op lc, by decide +kernel, by decide +kernel, by decide +kernel⟩

/-- A descriptor of a selection of 16 elements of type n8 of vault 0: those of at least 1, or the largest. -/
def selDesc (pred : Nat) : List Word := [0x3000000000000000, BitVec.ofNat 64 (5 + pred * 2 ^ 8 + 16 * 2 ^ 16), 1, 0, 100, 0, 0, 0]
/-- Context 0 has a window of 108 MiB in the vaults. -/
def inWindow (s : State) : State := s.modCtx 0 fun c => { c with tcb := { c.tcb with vbase := 0, vlen := 108 } }
theorem witness_CopyStarts_selections :
    (inWindow (startable .selp 64)).selBad 0 (cmd0 .selp) false (selDesc 5) 64 = none
      ∧ (inWindow (startable .selk 64)).selBad 0 (cmd0 .selk) true (selDesc 0) 64 = none
      ∧ (inWindow (startable .selp 0)).selBad 0 (cmd0 .selp) false (selDesc 5) 0 = some (3, 0) := by decide +kernel

/-- A copy of 64 bytes in flight, before its only chunk and after it. -/
def flying (r : CopyRun) (op : CopyOp) : CopyCmd := { cmd0 op with run := some r }
theorem quiet_queued (l : List CopyCmd) : Quiet (queued l) :=
  quiet_of (by simp only [queued, onTile, inSlot, State.modTile, State.setTile]) (by simp only [queued, onTile, inSlot, State.modTile, State.setTile])
    (by simp only [queued, onTile, inSlot, State.modTile, State.setTile]) (by simp only [queued, onTile, inSlot, State.modTile, State.setTile])
theorem witness_CopyProgress_chunk :
    Quiet (queued [flying run0 .copy])
      ∧ (((queued [flying run0 .copy]).tileAt 0).eng.cq.get 0).filter (fun d => d.run.isSome) = [flying run0 .copy]
      ∧ (queued [flying run0 .copy]).chunkReady 0 0 (flying run0 .copy) run0 = true ∧ OneRow (flying run0 .copy) run0 64
      ∧ run0.shape.getD 0 0 = BitVec.ofNat 64 (64 + 2 ^ 24 + 2 ^ 48) ∧ run0.total = 64
      ∧ offsetOf (flying run0 .copy).src + 64 ≤ offsetOf (flying run0 .copy).dst
      ∧ offsetOf (flying run0 .copy).dst + 64 ≤ 2 ^ 19 :=
  ⟨quiet_queued _, by decide +kernel, by decide +kernel, by unfold OneRow; decide +kernel, by decide +kernel, rfl,
    by decide +kernel, by decide +kernel⟩
/-- Its chunk in progress: the last word is still to be read, all is read, the last word is still to be written, all is
written. -/
theorem witness_CopyProgress_phases :
    (∀ p ∈ [(⟨true, [.src 56 8 56], List.replicate 64 (0, false)⟩ : ChunkProg), ⟨true, [], List.replicate 64 (0, false)⟩,
        ⟨false, [.dst 262200 8 56], List.replicate 64 (0, false)⟩, ⟨false, [], List.replicate 64 (0, false)⟩],
      p.got.length = 64 ∧ OneRow (flying { run0 with prog := some p } .copy) { run0 with prog := some p } 64
        ∧ ({ run0 with prog := some p } : CopyRun).nextAt ≤ (queued []).now)
      ∧ PartFits true 64 (.src 56 8 56) ∧ PartFits false 64 (.dst 262200 8 56) :=
  ⟨by unfold OneRow; decide +kernel, ⟨56, 8, 56, by decide, by decide, by decide, rfl⟩, ⟨262200, 8, 56, by decide, by decide, by decide, rfl⟩⟩
theorem witness_CopyProgress_retire :
    ((queued [flying { run0 with chunk := 1 } .copy]).tileAt 0).eng.cq.get 0 = [flying { run0 with chunk := 1 } .copy]
      ∧ (1 : Nat) = chunksIn 64 ∧ (queued [flying { run0 with chunk := 1 } .copy]).peerWaiting 0 0 0 = false
      ∧ (cmd0 .copy).cmask.extractLsb' 2 8 = 0 := by decide +kernel
/-- A COPYM that has moved its bytes, with an MMA as its follow-on; the MMA's slots are Claimed, or Free. -/
def following (om : OmSt) : State :=
  onTile (queued [flying { run0 with chunk := 1, landAt := some 99 } (.copym 0x081F23C478012F12)]) fun t =>
    { t with eng := { t.eng with om := .replicate 8 om } }
theorem witness_CopyProgress_followOn :
    decodeSyl 5 0x081F23C478012F12 0 = some (.mma (.flt .bf16) (.flt .bf16) 9 1 0 false false ⟨15, 15, 15, 15⟩)
      ∧ ((following .claimed).tileAt 0).eng.om.get 1 = .claimed ∧ ((following .free).tileAt 0).eng.om.get 1 = .free
      ∧ ((following .free).tileAt 0).eng.cq.get 0 =
        [flying { run0 with chunk := 1, landAt := some 99 } (.copym 0x081F23C478012F12)] ∧ 99 < (following .free).now := by
  decide +kernel

/-- Stream register 0 is bound to an FBC stream with RATIO 1, WOUT 1 and WCYC 100, and has bytes at hand. -/
def fbcDesc : Word := BitVec.ofNat 64 (2 ^ 12 + 2 ^ 18 + 2 ^ 26 + 100 * 2 ^ 38)
def decoding (l : List Byte) (f : StreamReg → StreamReg) : State :=
  onTile s0 fun t => { t with eng := { t.eng with
    sts := t.eng.sts.set 0 (f { StreamReg.reset with bound := some 0, desc := fbcDesc, input := l.map fun b => (b, none), got := l.length, work := 4096 }) } }
/-- An outcome as a cause or a number. -/
def causeOf {α : Type} (r : Except Nat α) : Option Nat := match r with | .error c => some c | .ok _ => none
/-- A ZRLE block of 32 runs of 128 zeros: CLEN 32, the runs, and the check of 4096 zeros, or another. -/
def zeroBlock (check : List Byte) : List Byte := [0x81, 0, 0, 0] ++ List.replicate 32 0xFF ++ check
theorem witness_DecoderEvents_header :
    let r := (decoding [3, 0, 0, 0] id).streamReg 0 0
    let bytes := r.open_.map fun b => b.1
    dFbc r.desc = true ∧ r.bound.isSome = true ∧ r.cut = false ∧ 4 ≤ bytes.length
      ∧ causeOf (fbcHeader (dRatio r.desc) (leNat (bytes.take 4))) = some 4 := by decide +kernel
theorem witness_DecoderEvents_blocks :
    let r := (decoding (zeroBlock [0, 0, 0, 0]) id).streamReg 0 0
    let bytes := r.open_.map fun b => b.1
    bytes.length = 32 + 8 ∧ (r.open_[32 + 7]?).isSome = true ∧ 4096 ≤ r.work ∧ r.raw.length < 264 ∧ r.formless = true
      ∧ (fbcHeader (dRatio (BitVec.ofNat 64 (0x67 * 2 ^ 18))) (leNat (bytes.take 4))).toOption = some 32
      ∧ causeOf (fbcContent false [] [] 1 (List.replicate 31 0xFF) 0) = some 5
      ∧ causeOf (fbcContent false [] [] 2 (List.replicate 32 0xFF) 0) = some 7 := by decide +kernel
/-- A stored block whose check is right passes. -/
theorem witness_DecoderEvents_content (l : List Byte) : fbcContent false [] [] 0 l (crc32c l) = .ok l := by simp [fbcContent]
theorem witness_DecoderEvents_watchdog :
    dWout fbcDesc * 4096 < ((decoding [] fun r => { r with vecs := 17 }).streamReg 0 0).vecs * 256
      ∧ ((decoding [] fun r => { r with vecs := 16 }).streamReg 0 0).vecs * 256 ≤ dWout fbcDesc * 4096
      ∧ dWcyc fbcDesc < ((decoding [] fun r => { r with cycles := 101 }).streamReg 0 0).cycles
      ∧ ((decoding [] fun r => { r with cycles := 100 }).streamReg 0 0).cycles ≤ dWcyc fbcDesc := by decide +kernel

/-- A selection of 64 elements of a byte each in vault 0: nothing dispatched, or its one window returned, or merged. -/
def sel0 (out : List Partial) (next merged limit : Nat) : Sel :=
  { desc := [0x3000000000000000, BitVec.ofNat 64 (5 + 5 * 2 ^ 8 + 16 * 2 ^ 16), 1, 0, 100, 0, 0, 0], n := 64
    frame := { frame0 with limit }, next, nextAt := 0, sentAt := none, out, merged, list := [], count := 0, nans := 0, errIdx := none
    scanned := 0, late := false }
/-- The window's answer as it returns, and the window while its elements are still to be read. -/
def part0 : Partial := ⟨0, 5, 6, vaultBase, 2, [], true, [(3, 9)], 1, 0, none, 64⟩
def asked0 (due : Nat) : Partial := ⟨0, 5, due, vaultBase, 2, [], false, [], 0, 0, none, 0⟩
def selecting (v : Sel) : State := queued [flying { run0 with sel := some v } .selp]
theorem selecting_is (v : Sel) :
    Selecting (selecting v) 0 0 0 (flying { run0 with sel := some v } .selp) { run0 with sel := some v } v := ⟨rfl, rfl, rfl⟩
theorem witness_SelectionEvents :
    (∀ v, Quiet (selecting v)) ∧ (selecting (sel0 [] 0 0 0)).windowFree 0 = true ∧ spaceOf ((sel0 [] 0 0 0).desc.getD 0 0) = 3 ∧ selWindows (sel0 [] 0 0 0) = 1
      ∧ (selecting (sel0 [] 0 0 0)).observed 0 (flying { run0 with sel := some (sel0 [] 0 0 0) } .selp) = true
      ∧ (sel0 [part0] 1 0 0).out = [part0] ∧ part0.made = true ∧ part0.window = (sel0 [part0] 1 0 0).merged
      ∧ (sel0 [asked0 101] 1 0 0).out = [asked0 101] ∧ (asked0 101).made = false ∧ vaultBase ≤ (asked0 101).key
      ∧ (selecting (sel0 [asked0 101] 1 0 0)).now < (asked0 101).due
      ∧ (asked0 100).due ≤ (selecting (sel0 [asked0 100] 1 0 0)).now ∧ (asked0 100).els = []
      ∧ (asked0 100).window ≠ (sel0 [asked0 100] 1 1 0).merged ∧ (sel0 [] 0 0 0).nextAt ≤ (selecting (sel0 [] 0 0 0)).now
      ∧ (sel0 [] 0 0 0).frame.limit ≤ s0.clk.wclock ∧ (sel0 [] 1 1 0).merged = selWindows (sel0 [] 1 1 0)
      ∧ (selTy (sel0 [] 0 0 0).desc).isSome = true ∧ (cmd0 .selp).cmask = 1 :=
  ⟨fun _ => quiet_queued _, by decide +kernel⟩

/-- Matrix commands that may start: an MZERO, and an MDRAIN whose descriptor of zeros fails its check. -/
theorem witness_MatrixStarts (op : MxOp) : MatrixMayStart (claimed [mx0 op]) 0 [] (mx0 op) [] :=
  ⟨rfl, rfl, (show 0 + 2 ≤ 100 by decide), fun k => by
    have h : named ⟨3, 15, 15, 15⟩ k = 0 := by revert k; decide
    exact (show named (mx0 op).tok k = 0 from h) ▸ Nat.zero_le _, rfl, (fun _ h => by cases h), fun _ h => by cases h⟩
/-- A drain of one row of 32 bf16 elements into bank 15. -/
def drainDesc : List Word := [0x1000000000078000, 0, 1 + 32 * 2 ^ 7, 0x3F800000, 0, 0, 0, 0]
theorem witness_MatrixStarts_drains :
    drainCheck (List.replicate 15 0 ++ [0x12]) drainDesc = none
      ∧ drainCheck (List.replicate 16 0) (List.replicate 8 0) = some (2, 0)
      ∧ eightWords (withSpad (claimed []) 64 drainDesc) 0 64 = drainDesc := by decide +kernel
theorem witness_MatrixStarts_settle :
    ((settled.modStrm fun st => { st with settle := some ⟨9, false, 5, none⟩ }).tileAt 0).streams.get 0 =
      some { settled.strm with settle := some ⟨9, false, 5, none⟩ } ∧ (5 : Nat) ≤ settled.now := by decide +kernel

/-- A matrix command whose retirement is due, at the head of its queue. -/
def ran : MxRun := ⟨10, 20, [], [], [], [], 0, [], 0⟩
def draining (op : MxOp) : State := claimed [{ mx0 op with run := some ran }]
theorem witness_MatrixEffects :
    (∀ op ∈ [MxOp.omrel 0x81, .omld 7 0x100000000007C000, .mzero 9, .macld 0 0x100000000007A000,
        .mma (.flt .bf16) (.b8 ⟨false, false, 3⟩) 9 0 1 false true],
      ((draining op).tileAt 0).eng.mq = [{ mx0 op with run := some ran }] ∧ 20 ≤ (draining op).now
        ∧ (draining op).net.greds = []
        ∧ (draining op).marks = []) ∧ ∀ op, MemOk (draining op) :=
  ⟨by decide +kernel, fun _ => memOk_of (by simp only [draining, claimed, onTile, inSlot, State.modTile, State.setTile])⟩

/-- One that has still to retire, with a word read and words to come; the word it has read is whole. -/
theorem witness_MatrixEffects_reading :
    let c : MxCmd := { mx0 (.omld 7 0x100000000007C000) with
      run := some { ran with retireAt := 101, got := [(0xF800, List.replicate 8 (7, false))] } }
    ((claimed [c]).tileAt 0).eng.mq = [c] ∧ (claimed [c]).now < 101 ∧ (claimed [c]).marks = [] ∧ (claimed [c]).net.greds = []
      ∧ offsetOf (0x100000000007C000 : Word) / 8 ≤ 0xF800 := by decide +kernel
theorem witness_GotSound : GotSound { ran with got := [(0xF800, List.replicate 8 (7, false)), (0xF801, List.replicate 8 (0, false))] } := by
  unfold GotSound; decide +kernel

/-! ### Witnesses for homes -/

/-- A request of tile 0 to barrier or token queue 3, alone and due, with its limit passed or to come. -/
def req0 (op : HubOp) (limit : Nat) : HubReq :=
  { id := 7, at_ := 0, die := 0, tile := 0, group := 0, slot := 0, op, obj := 3, limit, phase := none, dest := .x 5 }
def asking (op : HubOp) (limit : Nat) (b : Barrier) (q : TQueue) : State :=
  { s0 with hubs := { s0.hubs with reqs := [req0 op limit], bars := [(3, b)], tqs := [(3, q)] } }
theorem witness_AloneAt :
    ∀ op ∈ [HubOp.barinit 144, .barkill, .bararv, .barwt 0, .barsync, .step, .qpush 5, .qpop, .enqOwn 0 0 0 0 []],
      AloneAt (asking op 9 ⟨2, 1, false, 1⟩ ⟨1, [], false⟩) 0 (req0 op 9) := by
  unfold AloneAt DueAlone; decide +kernel
theorem witness_BarrierRules :
    (asking (.barwt 0) 9 ⟨2, 0, true, 1⟩ ⟨0, [], false⟩).barAt 3 = ⟨2, 0, true, 1⟩
      ∧ (1 ≤ ((1 : BitVec 32) - 0).toNat ∧ ((1 : BitVec 32) - 0).toNat < 2 ^ 31) ∧ ¬ 1 ≤ ((1 : BitVec 32) - 1).toNat
      ∧ s0.clk.wclock < (req0 (.barwt 1) 9).limit ∧ (req0 (.barwt 1) 0).limit ≤ s0.clk.wclock
      ∧ (1 : BitVec 8) + 1 = 2 ∧ (0 : BitVec 8) + 1 ≠ 2 := by decide +kernel
theorem witness_QueueRules :
    (asking (.qpush 5) 9 ⟨0, 0, false, 0⟩ ⟨1, [], false⟩).tqAt 3 = ⟨1, [], false⟩
      ∧ (asking (.qpush 5) 9 ⟨0, 0, false, 0⟩ ⟨1, [8], false⟩).tqAt 3 = ⟨1, [8], false⟩
      ∧ (asking .qpop 0 ⟨0, 0, false, 0⟩ ⟨1, [], true⟩).tqAt 3 = ⟨1, [], true⟩
      ∧ (s0.tileAt 143).sched.own.length < 8 := by decide +kernel
theorem witness_QueueRules_withdrawal :
    let s : State := { s0 with hubs := { s0.hubs with
      reqs := [req0 (.withdraw 7) 9], waits := [{ req0 .barsync 9 with phase := some 4 }] } }
    s.hubs.reqs = [req0 (.withdraw 7) 9] ∧ s.hubs.waits = [{ req0 .barsync 9 with phase := some 4 }] := ⟨rfl, rfl⟩
/-- Contexts 0 and 63 both hold barrier 32767 and token queue 8191. -/
def overlapping : State :=
  let f (c : Context) : Context :=
    { c with entry := (c.entry.set 0 1).set 4 (BitVec.ofNat 64 (32767 + 8191 * 2 ^ 16 + 2 ^ 32 + 2 ^ 48)) }
  (s0.modCtx 0 f).modCtx 63 f
theorem witness_QueueRules_overlap :
    Holds overlapping 0 true 32767 ∧ Holds overlapping 63 true 32767 ∧ Holds overlapping 0 false 8191
      ∧ Holds overlapping 63 false 8191 ∧ (0 : Fin 64) ≠ 63 := by
  unfold Holds; decide +kernel
theorem witness_QueueRules_disputed :
    ∀ op ∈ [HubOp.qpush 5, .qpop, .bararv, .barkill, .barsync, .step, .barinit 0, .barwt 0],
      DueAlone { overlapping with hubs := { s0.hubs with reqs := [{ req0 op 9 with obj := 8191, die := 1 }] } } 1
        { req0 op 9 with obj := 8191, die := 1 } := by
  unfold DueAlone; decide +kernel

/-- An access that has come to its home: the last place of vault 35, or a line of global memory. -/
def come (a : Access) : State := { s0 with net := { s0.net with accs := [a] } }
def accV (op : AccOp) (n : Nat) : Access := { acc0 with op, size := n, space := 3, key := vaultBase + 36 * 2 ^ 27 - n }
theorem witness_HomesPerform :
    (∀ a ∈ [accV (.load .i8) 1, accV .store 8, accV (.atom .cas true) 8, accV (.scatom .add false 3 255) 4, accV (.red .fadd) 4],
      (come a).net.accs = [a] ∧ a.performed = false ∧ a.sent = false ∧ a.arrive ≤ (come a).now ∧ a.space = 3
        ∧ (come a).gradeClash a.key a.grade = false) ∧ ∀ a, Quiet (come a) :=
  ⟨by decide +kernel, fun _ => quiet_of (by simp only [come]) (by simp only [come]) (by simp only [come]) (by simp only [come])⟩
theorem witness_HomesPerform_metadata :
    let a : Access := { acc0 with op := .stmeta, size := 64, space := 0, key := 0x200000, grade := 1 }
    a.space = 0 ∧ a.grade < 2 ∧ (come a).gradeClash a.key a.grade = false := by decide +kernel
theorem witness_HomesPerform_reduction :
    let e : GredEntry := ⟨9, 0x200000 / 64, 0, .int 0 true, [(0x200000, 5)], 0⟩
    let s : State := { s0 with net := { s0.net with greds := [e] } }
    s.net.accs = [] ∧ s.net.greds = [e] ∧ s.marks = [] ∧ s.dev.migrations = [] ∧ e.due ≤ s.now
      ∧ s.gradeClash 0x200000 e.grade = false := by decide +kernel
theorem witness_HomesPerform_device :
    let a : Access := { acc0 with op := .load .n64, space := 5, key := 0x80000, data := 0 }
    ({ s0 with net := { s0.net with accs := [a] } } : State).net.accs = [a] ∧ a.arrive ≤ s0.now := by decide +kernel

/-- A performed access whose reply is due; slot 6 belongs to group 0 alone. -/
theorem witness_ThingsArrive :
    (∀ op ∈ [AccOp.store, .red .fmax, .stmeta, .load .n64, .atom .add true, .ldmeta], ∀ m ∈ [true, false], ∀ n ∈ [true, false],
      let a : Access := { acc0 with op, performed := true, marked := m, struck := n, dest := .x 5 }
      (come a).net.accs = [a] ∧ a.replyAt ≤ (come a).now)
      ∧ (come acc0).streamAt 0 0 = s0.strm ∧ s0.strm.park = none ∧ s0.strm.members.getLsbD 6 = true
      ∧ ∀ h, h ≠ 0 → ((come acc0).tileAt 0).streams.get h = none := by decide +kernel
/-- A SCATOM's reply for which no stream waits any more. -/
theorem witness_ThingsArrive_scatom :
    let a : Access := { acc0 with op := .scatom .add true 0 255, performed := true }
    (come a).net.accs = [a] ∧ (∀ g, ((come a).tileAt 0).streams.get g = none ∨ (come a).streamAt 0 g = s0.strm) ∧ s0.strm.wait = none
      ∧ s0.strm.rowGot = [] := by decide +kernel
theorem witness_ThingsArrive_waits (ab : Bool) :
    let wt : Wait := { wait0 (.barsync (.reg 3) poll) 0 with sent := some 7, dec := none }
    let s : State := { onStream s0 fun st => { st with wait := some wt } with
      hubs := { s0.hubs with replies := [⟨7, 0, 0, 0, some ⟨0, 0, 5⟩, none, ab⟩] } }
    (s.tileAt 0).streams.get 0 = some { s0.strm with wait := some wt } ∧ s.hubs.replies = [⟨7, 0, 0, 0, some ⟨0, 0, 5⟩, none, ab⟩]
      ∧ wt.sent = some 7 ∧ wt.dec = none := by
  cases ab <;> decide +kernel
theorem witness_ThingsArrive_limits :
    let wt (i : Instr) : Wait := { wait0 i 0 with dec := none }
    let s (i : Instr) : State := { onStream s0 fun st => { st with wait := some (wt i) } with clk := { s0.clk with wclock := 4096 } }
    (∀ i ∈ [Instr.tkwait 15 .lt (.reg 3) poll, .cbwait 31 true poll, .cbtake 0 poll, .fence (.reg 3) poll],
        ((s i).tileAt 0).streams.get 0 = some { s0.strm with wait := some (wt i) } ∧ (wt i).frame.limit ≤ (s i).clk.wclock)
      ∧ (onStream (s (.cbset 0)) fun st => { st with wait := none, stallLimit := some 4096, stallWhy := 1 }).strm.stallWhy ≠ 0 := by
  decide +kernel

/-! ### Witnesses for the loader, the scheduler and the device -/

/-- A state whose first GiB context 0 maps to itself with a given leaf. -/
def mapsTo (s : State) (leaf : Word) : State :=
  { walked s with mem := Memory.writeN (Memory.writeN s.mem 0x200000 8 0x210001) 0x210000 8 leaf.toNat }
theorem witness_ObtainedAndOpened :
    let x : Xlat := ⟨6, 0x10000, false, true, 0, none⟩
    let s := onTile (onStream (walked s0) fun st => { st with xlat := [x] }) fun t => { t with fills := [(0, 1)] }
    (s.tileAt 0).streams.get 0 = some s.strm ∧ s.strm.xlat = [x] ∧ s.dev.invals = [] ∧ ((0 : Nat), (1 : Nat)) ∈ (s.tileAt 0).fills
      ∧ s.grades = [] ∧ s.marks = [] ∧ s.net.greds = [] ∧ (s.resolve 0 0 (s.codeBase 0 + 256 * 1)).2 = .leaf 0x201F 1 0x210000 := by decide +kernel

/-- A SCATOM that waits at position 255, which is open and owned. -/
def waitAtWheel : Wait :=
  { wait0 (.scatom .add true 63 memX3 poll) 0 with dec := none, args := [3, BitVec.ofNat 64 (vaultBase + 8)] }
def atWheel : State :=
  { onTile (onStream s0 fun st => { st with wait := some waitAtWheel }) fun t =>
      { t with sys := { t.sys with wheel := 0x1FF } } with clk := { s0.clk with wheel := 2047 } }
theorem witness_ObtainedAndOpened_wheel :
    (atWheel.tileAt 0).streams.get 0 = some atWheel.strm ∧ atWheel.strm.wait = some waitAtWheel ∧ waitAtWheel.sent = none
      ∧ atWheel.clk.wheel % 2048 / 8 = (255 : Fin 256).val ∧ ownsPosition (atWheel.tileAt 0).sys.wheel 255 = true
      ∧ (atWheel.tileAt 0).wheelSent = none ∧ (AtomOp.add ≠ .cas)
      ∧ (∀ u : Fin 144, u ≠ 0 → ∀ h : Fin 4, (atWheel.streamAt u h).wait = none)
      ∧ ∀ h : Fin 4, h ≠ 0 → (atWheel.streamAt 0 h).wait = none := by decide +kernel

/-- A user image of one stage and one bundle, which retires. -/
def header0 (magic : Nat) : List Byte :=
  leBytes 4 magic ++ leBytes 2 1 ++ leBytes 2 0 ++ leBytes 4 0 ++ leBytes 4 304 ++ leBytes 4 256 ++ leBytes 4 16
    ++ leBytes 4 272 ++ leBytes 2 1 ++ leBytes 2 0 ++ leBytes 4 0 ++ leBytes 2 0 ++ leBytes 2 0 ++ leBytes 4 1 ++ leBytes 4 0
    ++ leBytes 2 0 ++ leBytes 2 0 ++ leBytes 4 20000 ++ List.replicate 200 0
def image0 (magic : Nat) : List Byte :=
  header0 magic ++ leBytes 8 0x0000040000000000 ++ leBytes 8 0xF900000000000000
    ++ (leBytes 4 0 ++ leBytes 4 1 ++ [0, 0, 20, 0, 0xFF, 0xFF, 0xFF, 0xFF] ++ List.replicate 16 0)
/-- Context 0 has one queue entry and 1 MiB of code at 1 MiB, mapped to itself and pinned. -/
def installable : State :=
  (mapsTo s0 0x221D).modCtx 0 fun c => { c with
    entry := ((c.entry.set 5 (2 ^ 20)).set 10 0x0010000000100000).set 0 1 }
theorem witness_LoaderRules_bad :
    imN (image0 5) 0 4 ≠ 0x4D49524E ∧ (installable.checkImage 0 (image0 5)).toOption = none := by decide +kernel
theorem witness_LoaderRules :
    ((installable.checkImage 0 (image0 0x4D49524E)).toOption.map fun im => (im.len, installable.roomAt 0 im.len))
        = some (16, some 0) ∧ installable.areaBad 0 = false
      ∧ ((installable.ctx 0).images.get 0).v = false := by decide +kernel

/-- The image in slot 63 of context 0's table, and slot 15's launch record names it. -/
def loaded (n : Nat) : State :=
  let s := installable.modCtx 0 fun c => { c with
    entry := c.entry.set 1 1
    images := c.images.set 63 ⟨0, 16, 9, true, some { State.placedImage with stages := [⟨0, 1, 0, 20, []⟩] }⟩ }
  let sl : LaunchSlot := ⟨#v[BitVec.ofNat 64 (63 + 9 * 2 ^ 6), 0, 0x40000, BitVec.ofNat 64 n, 0, 0, 0, 0], 0, false, none⟩
  { s with slots := s.slots.set 15 sl }
theorem witness_LoaderRules_unload :
    let e := ((loaded 1).ctx 0).images.get 63
    (BitVec.ofNat 32 (63 + 9 * 2 ^ 6)).extractLsb' 0 6 = BitVec.ofFin 63 ∧ e.v = true
      ∧ (BitVec.ofNat 32 (63 + 9 * 2 ^ 6)).extractLsb' 22 10 = 0 ∧ (BitVec.ofNat 32 (63 + 9 * 2 ^ 6)).extractLsb' 6 16 = e.gen
      ∧ (∀ n : Fin 16, ((loaded 1).slots.get n).words.get 0 ≠ BitVec.ofNat 64 (63 + 9 * 2 ^ 6) ∨ (loaded 1).liveAt n = none) := by
  decide +kernel
theorem witness_LoaderRules_complete :
    let s := s0.modCtx 63 fun c => { c with unloads := [⟨0, 16, 639, 10000⟩] }
    (s.ctx 63).unloads = [⟨0, 16, 639, 10000⟩] ∧ s.clk.wclock < 10000
      ∧ 10000 ≤ ({ s with clk := { s.clk with wclock := 10000 } } : State).clk.wclock := by decide +kernel

theorem witness_LaunchRules :
    (State.reset.slots.get 15).status ≠ 1 ∧ State.reset.hold.power = .running ∧ (s0.slots.get 0).status = 1
      ∧ ((State.reset.ctx 0).entry.get 0).getLsbD 0 = false
      ∧ causeOf ((loaded 2).checkLaunch ((loaded 2).slots.get 15).words).2 = some 19 := by decide +kernel
theorem witness_LaunchRules_accepted :
    (((loaded 1).checkLaunch ((loaded 1).slots.get 15).words).2.toOption.map fun r => (r.2.1, r.2.2.length)) = some ([], 64) := by
  decide +kernel

/-- A command block whose last word failed parity. -/
def block : List (Word × Bool) := ([7, 1, 2, 3, 4, 5, 6].map fun w => (w, false)) ++ [(7, true)]
/-- A binding on tile 0 that ends now. -/
def binding (last : Option (Fin 64)) : State :=
  onTile s0 fun t => { t with sched := { t.sched with job := .bind 0 block, resident := false, lastCtx := last } }
theorem witness_TaskStarts :
    ((binding none).tileAt 0).sched.job = .bind 0 block
      ∧ ((binding none).tileAt 0).sched.task = some ⟨0, 0, 0, 0, [], false⟩ ∧ (binding none).liveAt 0 = some State.placedLive
      ∧ State.placedLive.image.stages[0]? = some State.placedStage ∧ (binding none).hold.power = .running
      ∧ ((binding (some 0)).tileAt 0).sched.lastCtx = some 0 ∧ ((binding none).tileAt 0).sched.lastCtx ≠ some 0
      ∧ ((binding none).tileAt 0).eng.mq = [] ∧ (∀ q, ((binding none).tileAt 0).eng.cq.get q = []) ∧ (binding none).net.greds = []
      ∧ (block.getD 7 (0, false)).2 = true ∧ (block.getD 6 (0, false)).2 = false := by
  decide +kernel

/-- A launch of context 0 whose only item waits for room in a full queue, and no task. -/
def stuckState : State :=
  { State.reset.modCtx 0 fun c => { c with stallSince := some 0 } with
    slots := State.reset.slots.set 0 { State.reset.slots.get 0 with live := some { State.placedLive with
      image := { State.placedImage with stages := [⟨0, 1, 0, 20, [(0, 1)]⟩] }, queues := [⟨0, 1, [0], [], 0, 0⟩] } } }
theorem witness_SchedulerTimers :
    rivals.sliceDue 0 = true ∧ (stuckState.stuck 0).isSome = true ∧ (stuckState.ctx 0).stallSince = some 0
      ∧ (stuckState.ctx 0).stallTold = false ∧ stuckState.clk.wclock < 0 + 1000000
      ∧ 0 + 1000000 ≤ ({ stuckState with clk := { s0.clk with wclock := 1000000 } } : State).clk.wclock := by decide +kernel

/-- A save area in the vaults of 0x11C pages a tile, inside a window that holds four of them, or not. -/
def withArea (s : State) (len : BitVec 7) : State :=
  s.modCtx 0 fun c => { c with entry := c.entry.set 8 0x300000000000011C, tcb := { c.tcb with vbase := 0, vlen := len } }
def stopping : State :=
  onTile (onStream s0 fun st => { st with stopped := true }) fun t => { t with sys := { t.sys with stop := true } }
theorem witness_SaveRules_accept :
    (withArea stopping 5).mayAccept 0 = true ∧ (withArea stopping 5).areaReason 0 0 = none
      ∧ (withArea stopping 0).mayAccept 0 = true ∧ (withArea stopping 0).areaReason 0 0 = some 2
      ∧ stopping.areaReason 0 0 = some 1 := by decide +kernel
/-- The task of tile 0 is being saved, and it is its time; one that was saved is being restored. -/
def saving (s : State) (j : Job) : State :=
  { onTile (withArea s 5) fun t => { t with sched := { t.sched with job := j, resident := false } } with
    clk := { s0.clk with now := 9 } }
theorem memOk_saving (j : Job) : MemOk (saving s0 j) := memOk_of (by
  simp only [saving, withArea, onTile, State.modTile, State.setTile, State.modCtx])
theorem witness_SaveRules_save :
    ((saving s0 (.save 9 0x11A none)).tileAt 0).sched.job = .save 9 0x11A none
      ∧ ((saving s0 (.save 9 0x11A none)).tileAt 0).sched.task = s0.task ∧ (saving s0 (.save 9 0 none)).saveSpace 0 = 3
      ∧ ((saving s0 (.saveStalled 5 none 0)).tileAt 0).sched.job = .saveStalled 5 none 0
      ∧ ((saving s0 (.restoreStalled none 0)).tileAt 0).sched.job = .restoreStalled none 0 := by decide +kernel
theorem witness_SaveRules_restore :
    let s : State := { saving s0 (.restore 9 none) with saved := [⟨0, s0.tile, [], false⟩] }
    (s.tileAt 0).sched.job = .restore 9 none ∧ s.saveSpace 0 = 3 ∧ s.areaReason 0 0 = none ∧ s.hold.power = .running
      ∧ s0.tile.sys.ctx = 0 ∧ (∀ g : Fin 4, (s0.tile.streams.get g).all fun st => st.jump.isNone)
      ∧ (s.tileAt 0).eng.mq = [] ∧ ∀ q, (s.tileAt 0).eng.cq.get q = [] := by decide +kernel

/-- An invalidation of context 5 that may end; a full ring of 16 entries, and a queue that has failed. -/
theorem witness_Invalidations :
    (s0.ctx 5).tcb.ibusy = false ∧ ((s0.modCtx 5 fun c => { c with tcb := { c.tcb with ibusy := true } }).ctx 5).tcb.ibusy = true
      ∧ ({ s0 with dev := { s0.dev with invals := [⟨5, 0, 0, [], none⟩] } } : State).dev.invals = [⟨5, 0, 0, [], none⟩]
      ∧ s0.net.accs = [] ∧ ∀ t : Fin 144, ∀ g : Fin 4, (s0.streamAt t g).wait = none := by decide +kernel
def entry0 : FaultEntry := ⟨trap0 .trap, 0, 0, 0, 0, 0, 0, 0, none⟩
def ringed (s : State) : State :=
  { s.modCtx 0 fun c => { c with entry := c.entry.set 7 0x300000 } with
    mem := Memory.writeN (Memory.writeN s.mem 0x300000 8 4) 0x300008 8 16
    dev := { s.dev with faultWait := [entry0] } }
theorem witness_Invalidations_poll :
    (ringed (walked s0)).dev.faultWait = [entry0] ∧ ((ringed (walked s0)).appendEntry entry0).2 = false
      ∧ (((ringed s0).modCtx 0 fun c => { c with resume := { c.resume with fqfail := true } }).appendEntry entry0).2 = true := by
  decide +kernel

/-- A leaf of context 9 at 0x400000, posted for demotion, with a frame in the ring of the lower tier. -/
def posted (leaf : Nat) : State :=
  { s0 with
    mem := Memory.writeN s0.mem 0x400000 8 leaf
    dev := { s0.dev with hot := { s0.dev.hot with posted := [(0x400000, 9, false)], headL := 1 } } }
theorem witness_Migrations_start :
    State.eligible ((posted 0x5021F).load64 0x400000) = false ∧ State.eligible ((posted 0x5001F).load64 0x400000) = true
      ∧ ((posted 0x5001F).load64 0x400000).getLsbD 8 = false ∧ ((posted 0x5011F).load64 0x400000).getLsbD 8 = true
      ∧ (posted 0x5001F).dev.hot.headL ≠ (posted 0x5001F).dev.hot.tailL
      ∧ (posted 0x5001F).hold.power = .running ∧ (posted 0x5001F).hold.nominal = true
      ∧ physOk 0x400000 = true ∧ (posted 0x5001F).marks = [] ∧ (posted 0x5001F).gradeClash 0x400000 2 = false
      ∧ s0.hold.power ≠ .held ∧ s0.dev.hot.halfAt ≤ s0.clk.wclock
      ∧ (∀ p ∈ (posted 0x5001F).dev.hot.posted, p.1 ≠ (0x400040 : Word).toNat / 64 * 64)
      ∧ ∃ p ∈ (posted 0x5001F).dev.hot.posted, p.1 = (0x400009 : Word).toNat / 64 * 64 := by decide +kernel
theorem witness_Migrations_switch :
    let m : Migration := ⟨0x400000, 9, 0x5001F, 0x50000, 0x4000000000, 1, 4, [], false, 0⟩
    let s : State := { posted (withMig 0x5001F 1).toNat with dev := { s0.dev with migrations := [m] } }
    s.dev.migrations = [m] ∧ s.load64 m.leaf = withMig m.leaf0 1 ∧ s.net.greds = [] ∧ m.due ≤ s.now ∧ s.mem.wf := by decide +kernel

theorem witness_RegisterWrites :
    (∀ n : Fin 16, State.reset.liveAt n = none) ∧ (s0.liveAt 0).map Live.ctx = some 0
      ∧ (0xF1 : Word).extractLsb' 0 4 = 1 ∧ (0x80000 : Nat) < 0x80004 ∧ (0x80 ≤ 0x80 ∧ 0x80 < 0x10000) := by decide +kernel

/-! ### Witnesses for Hold, management and peers -/

def holding (p : Power) (trigger exitAt wclock : Nat) : State :=
  { s0 with clk := { s0.clk with wclock }
            hold := { s0.hold with power := p, trigger, exitAt, nominal := (p == .running || p == .entering) } }
theorem witness_HoldAndReset :
    s0.hold.power = .running ∧ s0.dev.migrations = [] ∧ (holding .entering 5 0 1800005).hold.power = .entering
      ∧ (holding .entering 5 0 1800005).hold.trigger + 1800000 ≤ (holding .entering 5 0 1800005).clk.wclock
      ∧ (holding .entering 5 0 2000005).hold.trigger + 2000000 ≤ (holding .entering 5 0 2000005).clk.wclock
      ∧ (holding .leaving 5 9 9).hold.nominal = false ∧ (holding .leaving 5 9 9).hold.exitAt ≤ (holding .leaving 5 9 9).clk.wclock
      ∧ (∀ n, ((holding .leaving 5 9 9).slots.get n).held = false) ∧ (holding .leaving 5 9 9).saved = []
      ∧ s0.task ≠ none ∧ (s0.tileAt 0).sched.killed = false ∧ (s0.tileAt 0).sched.resident = true
      ∧ (s0.tileAt 0).sched.reqAt = none := by decide +kernel

/-- A request of station 1, which the configuration lists, and one of station 2, which it does not. -/
def request (station : BitVec 48) (vmaj cmd len : Nat) (body : List Byte) : MgmtMsg := ⟨station, vmaj, 0, cmd, 77, len, body⟩
def stationed (s : State) : State := { s with fw := { s.fw with stations := [1], last := [] } }
theorem witness_RequestChecks :
    Request .holdEnter 0x10 (· = 0) true false ∧ Unrepeated (stationed s0) (request 2 1 0x10 0 [])
      ∧ (request 1 1 0x10 1 []).body.length < (request 1 1 0x10 1 []).len ∧ (request 1 2 0x10 0 []).vmaj ≠ 1 ∧ ¬ (request 1 1 0x10 1 [0]).len = 0 ∧ (2 : BitVec 48) ∉ (stationed s0).fw.stations
      ∧ (1 : BitVec 48) ∈ (stationed s0).fw.stations ∧ (stationed (holding .held 0 0 0)).hold.power = .held :=
  ⟨.inr (.inr (.inl ⟨rfl, rfl, rfl, rfl, rfl⟩)), fun _ h => by simp [stationed] at h, by decide, by decide, by decide, by decide +kernel,
    by decide +kernel, rfl⟩
theorem accepted (s : State) (h : s.hold.power ≠ .held) (cmd len : Nat) (body : List Byte) (hb : body.length = len) :
    Accepted (stationed s) (request 1 1 cmd len body) cmd len :=
  ⟨fun _ h => by simp [stationed] at h, rfl, rfl, rfl, hb, by simp [stationed, request], h⟩
theorem witness_HoldCommands :
    Accepted (stationed s0) (request 1 1 0x01 0 []) 0x01 0 ∧ Accepted (stationed s0) (request 1 1 0x30 32 (List.replicate 32 7)) 0x30 32
      ∧ Accepted (stationed (holding .entering 0 0 0)) (request 1 1 0x11 0 []) 0x11 0
      ∧ (stationed s0).dev.migrations = [] ∧ (stationed s0).hold.power = .running
      ∧ (stationed (holding .held 0 0 0)).hold.power = .held :=
  ⟨accepted _ (by decide +kernel) _ _ _ rfl, accepted _ (by decide +kernel) _ _ _ rfl, accepted _ (by decide +kernel) _ _ _ rfl,
    rfl, rfl, rfl⟩
/-- A staging buffer of kind 1 with 8 bytes. -/
def staged : State := { s0 with fw := { s0.fw with staging := some (1, List.replicate 8 (some 0)) } }
theorem witness_FirmwareCommands :
    Accepted (stationed s0) (request 1 1 0x20 5 [2, 0, 0, 0, 4]) 0x20 5 ∧ field (request 1 1 0x20 5 [2, 0, 0, 0, 4]) 0 1 ≤ 2
      ∧ field (request 1 1 0x20 5 [2, 0, 0, 0, 4]) 1 4 ≤ 2 ^ 26
      ∧ Accepted (stationed staged) (request 1 1 0x21 6 [6, 0, 0, 0, 1, 2]) 0x21 6
      ∧ field (request 1 1 0x21 6 [6, 0, 0, 0, 1, 2]) 0 4 + (6 - 4) ≤ 8 ∧ 8 < field (request 1 1 0x21 6 [7, 0, 0, 0, 1, 2]) 0 4 + (6 - 4)
      ∧ Accepted (stationed staged) (request 1 1 0x22 0 []) 0x22 0
      ∧ (stationed staged).fw.staging = some ((1 : Fin 3).val, (List.replicate 8 0).map some)
      ∧ Accepted (stationed s0) (request 1 1 0x31 3321 (List.replicate 3321 0)) 0x31 3321 :=
  ⟨accepted _ (by decide +kernel) _ _ _ rfl, by decide, by decide, accepted _ (by decide +kernel) _ _ _ rfl, by decide, by decide,
    accepted _ (by decide +kernel) _ _ _ rfl, rfl, accepted _ (by decide +kernel) _ _ _ List.length_replicate⟩
/-- A key slot whose counter is 4, and images below and at it; whether a signature is good is opaque (log 12). -/
theorem witness_FirmwareCommands_key :
    let s : State := { s0 with fw := { s0.fw with keys := .replicate 8 ⟨[1], 9, 4⟩ } }
    s.keyOf 9 = some ⟨[1], 9, 4⟩ ∧ s.keyOf 8 = none ∧ (4 : BitVec 32) ≤ 4 ∧ (4 : BitVec 32) < 5 := by decide +kernel

/-- Port 15 with a partner, or waiting for one. -/
def ported (s : State) (f : Port → Port) : State := { s with ports := s.ports.set 15 (f { Port.reset with link := true }) }
def msg0 (ty : PeerTy) (op : BitVec 8) (seq : BitVec 32) (l : List Byte) : PeerMsg :=
  ⟨1, 0, ty, op, 3, 2, 0, seq, 0, 0x10000, l⟩
def sent0 : PeerOut := ⟨msg0 .write 0 5 [1], 7, 0, 0, 0, 6, 0, 1, none, none, 0, none⟩
theorem witness_PortEvents :
    (s0.ports.get 15).link = false ∧ ((ported s0 id).ports.get 15).link = true ∧ ((ported s0 id).ports.get 15).heard = false
      ∧ ((ported s0 fun p => { p with up := true, seqOut := [(0, 0, 4)] }).ports.get 15).up = true
      ∧ ((ported s0 fun p => { p with up := true, seqOut := [(0, 0, 4)] }).ports.get 15).seqOut ≠ []
      ∧ ((ported s0 id).ports.get 15).helloAt ≤ s0.clk.wclock ∧ ((ported s0 id).ports.get 15).up = false
      ∧ ((ported s0 fun p => { p with unanswered := [sent0] }).ports.get 15).unanswered = [sent0] ∧ sent0.access = none
      ∧ sent0.last + 10000 ≤ (holding .running 0 0 10000).clk.wclock ∧ (holding .running 0 0 99999).clk.wclock < sent0.first + 100000 := by
  decide +kernel
/-- A partner's message in its turn for context 0, whose pages the peer may write. -/
def partnered (leaf : Word) : State :=
  (ported (mapsTo s0 leaf) fun p => { p with up := true }).modCtx 0 fun c => { c with entry := c.entry.set 0 1 }
theorem witness_PeerMessages :
    ((partnered 0x241F).ports.get 15).up = true ∧ ((partnered 0x241F).ports.get 15).heldIn = []
      ∧ State.nextSeq ((partnered 0x241F).ports.get 15).seqIn 3 2 = 0 ∧ (7 - 0 : BitVec 32).toNat < 2 ^ 31
      ∧ (((partnered 0x241F).ctx 0).entry.get 0).getLsbD 0 = true ∧ ((s0.ctx 0).entry.get 0).getLsbD 0 = false
      ∧ (partnered 0x241F).peerParts 0 0x10000 8 = some [(0x10000, 8, 0x10000, 0)]
      ∧ (partnered 0x201F).peerParts 0 0x10000 8 = none ∧ RedOp.ofCode 6 = some .fadd
      ∧ (partnered 0x241F).marks = [] ∧ (partnered 0x241F).mem.wf ∧ (partnered 0x241F).dev.hot.en = false := by decide +kernel
theorem witness_PeerMessages_answers :
    ((ported s0 fun p => { p with unanswered := [sent0] }).ports.get 15).unanswered = [sent0] ∧ sent0.access = none
      ∧ sent0.msg.srank = (msg0 .ack 0 5 []).srank ∧ sent0.msg.seq = (msg0 .ack 0 5 []).seq := by decide +kernel

theorem witness_ErrorEvents :
    spadBase ≤ spadBase + 144 * 2 ^ 19 - 1 ∧ omBase ≤ omBase + 5 ∧ accBase + 5 < accBase + 144 * 2 ^ 18 ∧ regBase + 5 < tagBase
      ∧ vaultBase + 36 * 2 ^ 27 - 1 < vaultBase + 36 * 2 ^ 27 ∧ s0.hold.power ≠ .held
      ∧ (holding .held 0 0 0).hold.power = .held := by decide +kernel

end Sys2Proof.Tests
end

section
/-! SUPPORT. FMIN, FMAX and FCMP (R182, R183): a form that is `alu2` delivers what its word function says, and the word
functions of the three forms are those that the statements write out. -/

namespace Sys2Proof.Proofs

open Sys2Proof Sys2Proof.Machine Sys2Proof.Claims

/-! ### The shape of the forms -/

/-- What `alu2` computes from its two operands is scheduled with its flags at its latency (R154, R171). -/
theorem twoFloats_of_exec_eq_alu2 {mk : XDst → XSrc → XSrc → Instr} {lat : Nat} {f g : Word → Word → Word × Flags}
    (hexec : ∀ d a b s, exec (mk d a b) s = s.finish (s.alu2 lat d a b g)) (hfun : ∀ x y, g x y = f x y) :
    TwoFloats mk lat f := by
  intro s d a b x y w ha hb hd
  have hres : s.alu2 lat d a b g = .ok (gives s w lat (f x y)) := by
    rw [State.alu2_of_reads lat d g ha hb, hfun, State.result_of_dest lat _ hd, gives]
  rw [hexec, State.finish_of_ok hres]

/-! ### The f32 pattern of an x register -/

/-- The pattern as a word: the low half of the register, with zeros above it (R169). -/
theorem ofNat_lowF32 (x : Word) : BitVec.ofNat 64 (lowF32 x) = (x.extractLsb' 0 32).setWidth 64 :=
  BitVec.eq_of_toNat_eq (by simp [lowF32])

/-- The pattern's value is that of the register's low half (R180). -/
theorem f32v_lowF32 (x : Word) : f32v (lowF32 x) = f32Of x := rfl

/-- The format's own reading of the pattern agrees, which is already below 2^32 (R207). -/
theorem fmt_value_lowF32 (x : Word) : FTy.f32.fmt.value (lowF32 x) = f32Of x := by
  simp [f32Of, f32v, lowF32]

/-! ### Minimum and maximum (R182) -/

/-- The choice between two patterns is that of R182: by which operands are NaN, and between two numbers by the order in
which −0 lies below +0. -/
theorem f32Result_minmax (hi : Bool) (x y : Word) :
    f32Result (FTy.f32.minmax hi (lowF32 x) (lowF32 y), 0) = pickIs hi x y := by
  simp only [f32Result, FTy.minmax, fmt_value_lowF32, pickIs, ← ofNat_lowF32]
  cases (f32Of x).isNan <;> cases (f32Of y).isNan
  case false.false => cases hi <;> exact congrArg (·, 0) (apply_ite (BitVec.ofNat 64) _ _ _)
  case false.true => rfl
  case true.false => rfl
  case true.true => rfl

/-- Settles O15: both forms are `alu2` of the model's choice, which is that of R182. -/
theorem floatMinimumAndMaximum : Obligations.FloatMinimumAndMaximum :=
  ⟨twoFloats_of_exec_eq_alu2 (fun _ _ _ _ => rfl) (f32Result_minmax false),
    twoFloats_of_exec_eq_alu2 (fun _ _ _ _ => rfl) (f32Result_minmax true)⟩

/-! ### Comparison (R183) -/

/-- Settles O16: FCMP is `alu2` of `fcmpR`, which answers each outcome of the comparison with the value of R183. -/
theorem floatComparison : Obligations.FloatComparison := by
  refine twoFloats_of_exec_eq_alu2 (g := fun x y => (fcmpR x y, 0)) (fun _ _ _ _ => rfl) fun x y => ?_
  simp only [fcmpR, f32v_lowF32]
  cases (f32Of x).cmp (f32Of y) with
  | none => rfl
  | some order =>
    cases order with
    | lt => exact congrArg (·, 0) (by decide : (-1 : Word) = BitVec.allOnes 64)
    | eq => rfl
    | gt => rfl

end Sys2Proof.Proofs
end

section
/-! SUPPORT. VSEL (R232): with its sources read and its destination free, the form goes on with the lanes it chose. -/

namespace Sys2Proof.Proofs

open Sys2Proof Sys2Proof.Machine Sys2Proof.Claims

/-- A vector result to a destination that clashes with no port is the one of the statements (R154, R156, R226). -/
theorem vresult_eq_vgives {s : State} {d : VDst} {o : WDst} {lat : Nat} (w : Nat) (k : KWord) (r : VWord × Flags)
    (hd : s.destV d = .ok o) (hp : PortFree s o lat) : s.vresult d lat w k r = .ok (vgives s o lat w k r) :=
  State.vresult_of_dest lat w k r hd hp

/-- VSEL on sources that are read delivers, in each lane, the operand that the lane's governing bit of k[C] chooses. -/
theorem execVsel_of_reads {s : State} (t : Ty) (d : VDst) {a b : VSrc} {c : KSrc} {m : Fin 16} {x y : VWord} {z k : KWord}
    (ha : s.readV a = .ok x) (hb : s.readV b = .ok y) (hc : s.readK c = .ok z) (hm : s.takeK m = .ok k) :
    execVsel t d a b c m s = s.finish (s.vresult d 4 (t.width / 8) k (laneResults (t.width / 8) k fun j =>
      (if active z (t.width / 8) j then lane x (t.width / 8) j else lane y (t.width / 8) j, 0))) := by
  unfold execVsel; rw [ha, hb, hc, hm]; rfl

/-- Settles O21: the four reads answer, the result finds its port free, and the lane's governing bit is the one that `active`
reads. -/
theorem vectorSelection : Obligations.VectorSelection := by
  intro s t d a b c m x y z k o ha hb hc hm hd hp
  calc exec (.vsel t d a b c m) s
      _ = execVsel t d a b c m s := rfl
      _ = _ := execVsel_of_reads t d ha hb hc hm
      _ = _ := State.finish_of_ok (vresult_eq_vgives _ k _ hd hp)

end Sys2Proof.Proofs
end

section
/-! SUPPORT. TKRD (R346): with its destination free, the form goes on with the counter of the start of the cycle. -/

namespace Sys2Proof.Proofs

open Sys2Proof Sys2Proof.Machine Sys2Proof.Claims

/-- Without a flag, `gives` is the scheduled write alone (R154, R171). -/
theorem gives_of_noFlag (s : State) (w : WDst) (lat : Nat) (v : Word) :
    gives s w lat (v, 0) = s.schedule w (.x v) (BitVec.allOnes 256) lat true :=
  State.flag_zero _ lat

/-- A plain x result, which raises no flag, is the delivery of the statements. -/
theorem writeX_eq_gives {s : State} {d : XDst} {w : WDst} (lat : Nat) (v : Word) (hd : s.destX d = .ok w) :
    s.writeX d lat v = .ok (gives s w lat (v, 0)) := by
  rw [State.writeX_of_dest lat v hd, gives_of_noFlag]

/-- Settles O17: TKRD writes the word made of `tk0`, the counters as the cycle found them, as a plain x result. -/
theorem tokenCounterRead : Obligations.TokenCounterRead := by
  intro s d tk w hd
  calc exec (.tkrd d tk) s
      _ = execTkrd d tk s := rfl
      _ = _ := State.finish_of_ok (writeX_eq_gives 2 _ hd)

end Sys2Proof.Proofs
end
